-- ==== Sys2Proof/Word.lean ====
section
/-! DEFINITION. The words of the controller: 16-bit half-words (peripheral registers, packet-memory
cells, command half-words; spec R23) and bytes. -/

namespace Sys2Proof

/-- A peripheral register, a packet-memory cell or a command half-word (R23). -/
abbrev HalfWord := BitVec 16

/-- A byte of packet memory, of a bus event or of a setup packet. -/
abbrev Byte := BitVec 8

/-- An endpoint slot or endpoint register number, 0 to 7 (R11). -/
abbrev EpNum := Fin 8

end Sys2Proof
end

