-- ==== Sys2Proof/Syntax.lean ====
section
/-! DEFINITION. The instructions of the controller: one constructor per row of the opcode table
(formats CMD, SETUP, BUS, HOOK, CTRD, ISTRD; spec 30_encoding.md). -/

namespace Sys2Proof

/-- Endpoint type, the field EP_TYPE (R311). -/
inductive EpType where
  | bulk | control | isochronous | interrupt
  deriving DecidableEq, Repr

/-- Endpoint status, the fields STAT_TX and STAT_RX (R310). -/
inductive Stat where
  | disabled | stall | nak | valid
  deriving DecidableEq, Repr

/-- A field of a buffer-descriptor entry (R301, field code F of R332). -/
inductive BdtField where
  | addrTx | countTx | addrRx | countRx
  deriving DecidableEq, Repr

/-- Buffer geometry of an endpoint (R131). -/
structure Geometry where
  txAddr : HalfWord
  txSize : HalfWord
  rxAddr : HalfWord
  rxSize : HalfWord
  deriving DecidableEq, Repr

/-- Role of a bound endpoint (R130). -/
inductive Role where
  | generic | control
  deriving DecidableEq, Repr

/-- The five protocol hooks (R350). -/
inductive Hook where
  | onInit | onReset | onSetupReceptionComplete | onReceptionComplete | onTransmissionComplete
  deriving DecidableEq, Repr

/-- The setup packet (format SETUP, R320). -/
structure SetupPacket where
  bmRequestType : Byte
  bRequest      : Byte
  wValue        : HalfWord
  wIndex        : HalfWord
  wLength       : HalfWord
  deriving DecidableEq, Repr

/-- The fields of a setup packet a request rule may use: all but the request code that selects it. -/
structure Request where
  bmRequestType : Byte
  wValue        : HalfWord
  wIndex        : HalfWord
  wLength       : HalfWord
  deriving DecidableEq, Repr

/-- The request rules a setup packet can select (R506, R322). -/
inductive RequestName where
  | getStatus | clearFeature | setFeature | setAddress | getDescriptor | setDescriptor
  | getConfiguration | setConfiguration
  | unrecognised (bRequest : Byte)
  deriving DecidableEq, Repr

/-- A bus event (format BUS, R341). -/
inductive BusEvent where
  | reset
  | setup (addr : BitVec 7) (ep : BitVec 4) (packet : SetupPacket)
  | out (addr : BitVec 7) (ep : BitVec 4) (data : List Byte)
  | tokenIn (addr : BitVec 7) (ep : BitVec 4) (ack : Bool)
  | suspend
  | resume
  deriving DecidableEq, Repr

/-- Reasons of a refused command (R730, a closed list). -/
inductive RefuseReason where
  | badEncoding | geometry | notInit | ep0App | epUnbound | ep0Bound | badType | irqByApp | ep0Params
  deriving DecidableEq, Repr

/-- The instructions, one constructor per row of spec/opcode_table.json. -/
inductive Instr where
  -- CMD, packet memory and buffer-descriptor table (R402 to R411)
  | pmReadHw (a : HalfWord)
  | pmWriteHw (a v : HalfWord)
  | pmReadB (a : HalfWord)
  | pmWriteB (a : HalfWord) (v : Byte)
  | pmRead (a l : HalfWord)
  | pmWrite (a : HalfWord) (d : List Byte)
  | pmClear
  | bdtRead (n : EpNum) (f : BdtField)
  | bdtWrite (n : EpNum) (f : BdtField) (v : HalfWord)
  -- CMD, endpoint (R453 to R464)
  | epSetAddress (n : EpNum) (v : BitVec 4)
  | epSetType (n : EpNum) (t : EpType)
  | epSetTxStatus (n : EpNum) (v : Stat)
  | epSetRxStatus (n : EpNum) (v : Stat)
  | epClearCtr (n : EpNum)
  | epSetBd (n : EpNum) (g : Geometry)
  | epInitBd (n : EpNum)
  | epTransmit (n : EpNum) (d : List Byte)
  | epReceive (n : EpNum) (l : HalfWord)
  | epGetRxLen (n : EpNum)
  | epReset (n : EpNum)
  | epInit (n : EpNum)
  -- CMD, device controller (R601 to R606)
  | dcInit
  | dcConnect
  | dcDisconnect
  | dcSetEndpoint (n : EpNum) (t : EpType) (g : Geometry)
  | dcGetStatus
  | dcIrq
  -- SETUP (R507 to R515)
  | getStatus (r : Request)
  | clearFeature (r : Request)
  | setFeature (r : Request)
  | setAddress (r : Request)
  | getDescriptor (r : Request)
  | setDescriptor (r : Request)
  | getConfiguration (r : Request)
  | setConfiguration (r : Request)
  | unrecognisedRequest (bRequest : Byte) (r : Request)
  -- BUS (R652 to R657)
  | busReset
  | busSetup (addr : BitVec 7) (ep : BitVec 4) (packet : SetupPacket)
  | busOut (addr : BitVec 7) (ep : BitVec 4) (d : List Byte)
  | busIn (addr : BitVec 7) (ep : BitVec 4) (ack : Bool)
  | busSuspend
  | busResume
  -- HOOK (R465, R501, R502, R503, R516, R517)
  | genericOnInit
  | genericOnReset
  | genericOnSetupReceptionComplete
  | genericOnReceptionComplete
  | genericOnTransmissionComplete
  | controlOnInit
  | controlOnReset
  | controlOnSetupReceptionComplete
  | controlOnReceptionComplete
  | controlOnTransmissionComplete
  -- CTRD (R608), with the dispatch key K
  | ctrSetup (k : BitVec 17)
  | ctrReception (k : BitVec 17)
  | ctrTransmission (k : BitVec 17)
  -- ISTRD (R607 to R610), with the interrupt-status snapshot
  | irqReset (w : HalfWord)
  | irqCtr (w : HalfWord)
  | irqSusp (w : HalfWord)
  | irqWkup (w : HalfWord)
  deriving DecidableEq, Repr

end Sys2Proof
end

