-- ==== Sys2Proof/Config.lean ====
section
/-! DEFINITION. The implementation parameters of spec R10 to R21 (as one record of plain data that
State carries, so that every statement holds for every value of them) and the free values. -/

namespace Sys2Proof

/-- REQ_TYPE_FILTER (R14). -/
inductive ReqTypeFilter where
  | ignore | standardOnly
  deriving DecidableEq, Repr

/-- EP_PRIORITY (R17). -/
inductive EpPriority where
  | any | lowestFirst
  deriving DecidableEq, Repr

/-- SETUP_ACCEPT (R18). -/
inductive SetupAccept where
  | validOnly | unlessDisabled
  deriving DecidableEq, Repr

/-- One answer of the descriptor provider: the descriptor of a (type, index) pair (R21, R522). -/
structure Descriptor where
  type  : Byte
  index : Byte
  bytes : List Byte
  deriving DecidableEq, Repr

/-- The implementation parameters (R10 to R21). The descriptor provider, a function on finitely many
(type, index) pairs, is given by its table (log 5); a pair the table lacks is answered `none`. -/
structure Params where
  pmSize                   : Nat
  bdtBase                  : HalfWord
  ep0                      : Geometry
  reqTypeFilter            : ReqTypeFilter
  statusOnTxNone           : Bool
  atomicDispatch           : Bool
  epPriority               : EpPriority
  setupAccept              : SetupAccept
  setupNaksTx              : Bool
  getStatusResponse        : List Byte
  getConfigurationResponse : List Byte
  descriptors              : List Descriptor
  deriving DecidableEq, Repr

/-- The parameter values State.reset carries: the decided values of R10 to R20 and, for the OPEN ones
(R12, R13, R14, R19, R21), the values spec/95 section 0 fixes for its vectors.
DESIGN CHOICE, unsafe for a claim about runs from reset only (log 4); no obligation rests on it. -/
def Params.vectors : Params where
  pmSize := 1024
  bdtBase := 0
  ep0 := ⟨0x40, 8, 0x80, 8⟩
  reqTypeFilter := .ignore
  statusOnTxNone := true
  atomicDispatch := false
  epPriority := .any
  setupAccept := .unlessDisabled
  setupNaksTx := false
  getStatusResponse := [0x00, 0x00]
  getConfigurationResponse := [0x00]
  descriptors := [⟨1, 0, [0x12, 0x01, 0x00, 0x02, 0x00, 0x00, 0x00, 0x08, 0x83, 0x04, 0x10, 0x57,
    0x00, 0x01, 0x01, 0x02, 0x03, 0x01]⟩]

/-- FREE VALUE (R112, EP_PRIORITY = any): which of several pending endpoints the n-th interrupt-status
read names, taken modulo their number (log 7). -/
opaque Config.epChoice : Nat → Nat

/-- FREE VALUE (R112, CTR = 0): DIR and EP_ID of the n-th interrupt-status read (log 7). -/
opaque Config.idleDirEpId : Nat → BitVec 5

/-- FREE VALUE (R412): the COUNT_RX a commit writes for a receive size that is not encodable; no
admitted geometry has one (log 21). -/
opaque Config.unencodableCountRx : HalfWord → HalfWord

end Sys2Proof
end

