-- ==== Sys2Proof/WellFormed.lean ====
section
/-! DEFINITION. Which instructions the encodings can express: the bounds of R360, R361 and the
selection conditions of R322, R506, R351 and R352. -/

namespace Sys2Proof

/-- The request codes R322 lists. -/
def recognisedCodes : List Byte := [0x00, 0x01, 0x03, 0x05, 0x06, 0x07, 0x08, 0x09]

/-- A request whose type the filter lets through (R506). -/
def Request.admitted (p : Params) (r : Request) : Bool :=
  !(p.reqTypeFilter = .standardOnly ∧ r.bmRequestType.extractLsb' 5 2 ≠ 0)

/-- An instruction the encodings of its format can express under the parameters `p`. -/
def Instr.wf (p : Params) : Instr → Bool
  | .pmReadHw _ => true
  | .pmWriteHw _ _ => true
  | .pmReadB _ => true
  | .pmWriteB _ _ => true
  | .pmRead _ l => l.toNat ≤ p.pmSize
  | .pmWrite _ d => d.length ≤ p.pmSize && d.length < 65536
  | .pmClear => true
  | .bdtRead _ _ => true
  | .bdtWrite _ _ _ => true
  | .epSetAddress _ _ => true
  | .epSetType _ _ => true
  | .epSetTxStatus _ _ => true
  | .epSetRxStatus _ _ => true
  | .epClearCtr _ => true
  | .epSetBd _ _ => true
  | .epInitBd _ => true
  | .epTransmit _ d => d.length ≤ 1023
  | .epReceive _ l => l.toNat ≤ p.pmSize
  | .epGetRxLen _ => true
  | .epReset _ => true
  | .epInit _ => true
  | .dcInit => true
  | .dcConnect => true
  | .dcDisconnect => true
  | .dcSetEndpoint _ _ _ => true
  | .dcGetStatus => true
  | .dcIrq => true
  | .getStatus r => r.admitted p
  | .clearFeature r => r.admitted p
  | .setFeature r => r.admitted p
  | .setAddress r => r.admitted p
  | .getDescriptor r => r.admitted p
  | .setDescriptor r => r.admitted p
  | .getConfiguration r => r.admitted p
  | .setConfiguration r => r.admitted p
  | .unrecognisedRequest b r =>
    !r.admitted p || !recognisedCodes.contains b
  | .busReset => true
  | .busSetup _ _ _ => true
  | .busOut _ _ d => d.length ≤ 1023
  | .busIn _ _ _ => true
  | .busSuspend => true
  | .busResume => true
  | .genericOnInit => true
  | .genericOnReset => true
  | .genericOnSetupReceptionComplete => true
  | .genericOnReceptionComplete => true
  | .genericOnTransmissionComplete => true
  | .controlOnInit => true
  | .controlOnReset => true
  | .controlOnSetupReceptionComplete => true
  | .controlOnReceptionComplete => true
  | .controlOnTransmissionComplete => true
  | .ctrSetup k => k.getLsbD 16 && k.getLsbD 11
  | .ctrReception k => k.getLsbD 16 && !k.getLsbD 11
  | .ctrTransmission k => k.getLsbD 7
  | .irqReset w => w.getLsbD 10
  | .irqCtr w => !w.getLsbD 10 && w.getLsbD 15
  | .irqSusp w => !w.getLsbD 10 && w.getLsbD 11
  | .irqWkup w => !w.getLsbD 10 && w.getLsbD 12

end Sys2Proof
end

