-- ==== Sys2Proof/Decode.lean ====
section
/-! DEFINITION. The decoder and the encoder of the six formats (spec 30_encoding.md): CMD half-words,
SETUP and BUS bytes, HOOK, CTRD and ISTRD keys. Decoding is total and rejects by name. -/

namespace Sys2Proof

/-! ## Half-words and bytes -/

/-- Bits 7:0 of a half-word. -/
def loByte (w : HalfWord) : Byte := w.extractLsb' 0 8

/-- Bits 15:8 of a half-word. -/
def hiByte (w : HalfWord) : Byte := w.extractLsb' 8 8

/-- The half-word with the given low and high bytes (R210, R320). -/
def ofBytes (lo hi : Byte) : HalfWord := hi ++ lo

/-- The data half-words of a byte list, two bytes each, low byte first (R333). -/
def packBytes : List Byte → List HalfWord
  | [] => []
  | [b] => [ofBytes b 0]
  | b₀ :: b₁ :: bs => ofBytes b₀ b₁ :: packBytes bs

/-- The `l` data bytes of exactly ceil(l/2) half-words; a non-zero padding byte is illegal (R333, R335). -/
def unpackBytes : Nat → List HalfWord → Option (List Byte)
  | 0, [] => some []
  | 1, [w] => if hiByte w = 0 then some [loByte w] else none
  | l + 2, w :: ws => (unpackBytes l ws).map fun bs => loByte w :: hiByte w :: bs
  | _, _ => none

/-! ## Field codes -/

/-- STAT codes (R310). -/
def Stat.code : Stat → BitVec 2
  | .disabled => 0 | .stall => 1 | .nak => 2 | .valid => 3

/-- STAT of a code (R310): every value is legal. -/
def Stat.ofCode (b : BitVec 2) : Stat :=
  if b = 0 then .disabled else if b = 1 then .stall else if b = 2 then .nak else .valid

/-- EP_TYPE codes (R311). -/
def EpType.code : EpType → BitVec 2
  | .bulk => 0 | .control => 1 | .isochronous => 2 | .interrupt => 3

/-- EP_TYPE of a code (R311). -/
def EpType.ofCode (b : BitVec 2) : EpType :=
  if b = 0 then .bulk else if b = 1 then .control else if b = 2 then .isochronous else .interrupt

/-- Field codes F of the BDT commands (R332). -/
def BdtField.code : BdtField → BitVec 2
  | .addrTx => 0 | .countTx => 1 | .addrRx => 2 | .countRx => 3

/-- BDT field of a code (R332). -/
def BdtField.ofCode (b : BitVec 2) : BdtField :=
  if b = 0 then .addrTx else if b = 1 then .countTx else if b = 2 then .addrRx else .countRx

/-! ## CMD (R331 to R335, R360) -/

/-- OP, bits 7:0 of a header. -/
def headerOp (h : HalfWord) : Nat := (h.extractLsb' 0 8).toNat

/-- EP, bits 10:8 of a header. -/
def headerEp (h : HalfWord) : EpNum := (h.extractLsb' 8 3).toFin

/-- The header of a command (R331). -/
def header (op : Byte) (n : EpNum) : HalfWord := (0 : BitVec 5) ++ (BitVec.ofFin n : BitVec 3) ++ op

/-- The opcodes whose EP field must be 0 (R360). -/
def takesNoEndpoint (op : Nat) : Bool :=
  (1 ≤ op && op ≤ 7) || op = 0x20 || op = 0x21 || op = 0x22 || op = 0x24

/-- The operand half-words of each opcode (R332); `none` for an opcode the table lacks. -/
def operandCount (op : Nat) : Option Nat :=
  match op with
  | 0x01 => some 1 | 0x02 => some 2 | 0x03 => some 1 | 0x04 => some 2 | 0x05 => some 2
  | 0x06 => some 2 | 0x07 => some 0 | 0x08 => some 1 | 0x09 => some 2
  | 0x10 => some 1 | 0x11 => some 1 | 0x12 => some 1 | 0x13 => some 1 | 0x14 => some 0
  | 0x15 => some 4 | 0x16 => some 0 | 0x17 => some 1 | 0x18 => some 1 | 0x19 => some 0
  | 0x1A => some 0 | 0x1B => some 0
  | 0x20 => some 0 | 0x21 => some 0 | 0x22 => some 0 | 0x23 => some 5 | 0x24 => some 0
  | 0x30 => some 0
  | _ => none

/-- The value of an operand whose bits from `k` up must be 0 (R324, R360). -/
def narrow (k : Nat) (w : HalfWord) : Option (BitVec k) :=
  if w.toNat < 2 ^ k then some (w.setWidth k) else none

/-- An instruction built from a legal narrow operand, or nothing. -/
def withNarrow (k : Nat) (w : HalfWord) (f : BitVec k → Instr) : Option Instr :=
  (narrow k w).map f

/-- The instruction of an opcode, an endpoint and the half-words after the header; nothing when the
encoding is illegal (R332, R360). -/
def decodeOperands (p : Params) (op : Nat) (n : EpNum) (ws : List HalfWord) : Option Instr :=
  match op with
  | 0x01 => match ws with | [a] => some (.pmReadHw a) | _ => none
  | 0x02 => match ws with | [a, v] => some (.pmWriteHw a v) | _ => none
  | 0x03 => match ws with | [a] => some (.pmReadB a) | _ => none
  | 0x04 => match ws with | [a, v] => withNarrow 8 v (.pmWriteB a) | _ => none
  | 0x05 => match ws with
    | [a, l] => if l.toNat ≤ p.pmSize then some (.pmRead a l) else none
    | _ => none
  | 0x06 => match ws with
    | a :: l :: ds => if l.toNat ≤ p.pmSize then (unpackBytes l.toNat ds).map (.pmWrite a) else none
    | _ => none
  | 0x07 => match ws with | [] => some .pmClear | _ => none
  | 0x08 => match ws with
    | [f] => withNarrow 2 f fun f => .bdtRead n (.ofCode f)
    | _ => none
  | 0x09 => match ws with
    | [f, v] => withNarrow 2 f fun f => .bdtWrite n (.ofCode f) v
    | _ => none
  | 0x10 => match ws with | [v] => withNarrow 4 v (.epSetAddress n) | _ => none
  | 0x11 => match ws with | [v] => withNarrow 2 v fun v => .epSetType n (.ofCode v) | _ => none
  | 0x12 => match ws with | [v] => withNarrow 2 v fun v => .epSetTxStatus n (.ofCode v) | _ => none
  | 0x13 => match ws with | [v] => withNarrow 2 v fun v => .epSetRxStatus n (.ofCode v) | _ => none
  | 0x14 => match ws with | [] => some (.epClearCtr n) | _ => none
  | 0x15 => match ws with
    | [ta, ts, ra, rs] => some (.epSetBd n ⟨ta, ts, ra, rs⟩)
    | _ => none
  | 0x16 => match ws with | [] => some (.epInitBd n) | _ => none
  | 0x17 => match ws with
    | l :: ds => if l.toNat ≤ 1023 then (unpackBytes l.toNat ds).map (.epTransmit n) else none
    | _ => none
  | 0x18 => match ws with
    | [l] => if l.toNat ≤ p.pmSize then some (.epReceive n l) else none
    | _ => none
  | 0x19 => match ws with | [] => some (.epGetRxLen n) | _ => none
  | 0x1A => match ws with | [] => some (.epReset n) | _ => none
  | 0x1B => match ws with | [] => some (.epInit n) | _ => none
  | 0x20 => match ws with | [] => some .dcInit | _ => none
  | 0x21 => match ws with | [] => some .dcConnect | _ => none
  | 0x22 => match ws with | [] => some .dcDisconnect | _ => none
  | 0x23 => match ws with
    | [t, ta, ts, ra, rs] => withNarrow 2 t fun t => .dcSetEndpoint n (.ofCode t) ⟨ta, ts, ra, rs⟩
    | _ => none
  | 0x24 => match ws with | [] => some .dcGetStatus | _ => none
  | 0x30 => match ws with | [] => some .dcIrq | _ => none
  | _ => none

/-- The command a half-word sequence encodes, or the reason it is refused (R331 to R335, R360). A
sequence of a wrong length and a non-zero padding byte are BAD_ENCODING; OP 0x30 with an endpoint
is IRQ_BY_APP, since R360 names that reason for every DC_IRQ of APP. OP 0x30 with a reserved header bit
set or with operands meets R360's conditions for both reasons and the spec gives no order: BAD_ENCODING is
the model's choice there (DESIGN CHOICE, log 14). -/
def decodeCmd (p : Params) : List HalfWord → Except RefuseReason Instr
  | [] => .error .badEncoding
  | h :: ws =>
    if h.extractLsb' 11 5 ≠ 0 then .error .badEncoding
    else if headerOp h = 0x30 ∧ headerEp h ≠ 0 then .error .irqByApp
    else if takesNoEndpoint (headerOp h) ∧ headerEp h ≠ 0 then .error .badEncoding
    else match decodeOperands p (headerOp h) (headerEp h) ws with
      | some i => .ok i
      | none => .error .badEncoding

/-! ## SETUP (R320, R322, R504, R506) -/

/-- `Decode(p)` of R504: the fields of the received setup bytes. -/
def SetupPacket.ofBytes (bs : List Byte) : SetupPacket where
  bmRequestType := bs.getD 0 0
  bRequest := bs.getD 1 0
  wValue := Sys2Proof.ofBytes (bs.getD 2 0) (bs.getD 3 0)
  wIndex := Sys2Proof.ofBytes (bs.getD 4 0) (bs.getD 5 0)
  wLength := Sys2Proof.ofBytes (bs.getD 6 0) (bs.getD 7 0)

/-- The eight bytes of a setup packet, in the order received (R320). -/
def SetupPacket.bytes (k : SetupPacket) : List Byte :=
  [k.bmRequestType, k.bRequest, loByte k.wValue, hiByte k.wValue, loByte k.wIndex, hiByte k.wIndex,
   loByte k.wLength, hiByte k.wLength]

/-- The fields beside the request code. -/
def SetupPacket.request (k : SetupPacket) : Request :=
  ⟨k.bmRequestType, k.wValue, k.wIndex, k.wLength⟩

/-- The request rule a packet selects (R506, R322). -/
def selectRequest (filter : ReqTypeFilter) (k : SetupPacket) : RequestName :=
  if filter = .standardOnly ∧ k.bmRequestType.extractLsb' 5 2 ≠ 0 then .unrecognised k.bRequest
  else if k.bRequest = 0x00 then .getStatus
  else if k.bRequest = 0x01 then .clearFeature
  else if k.bRequest = 0x03 then .setFeature
  else if k.bRequest = 0x05 then .setAddress
  else if k.bRequest = 0x06 then .getDescriptor
  else if k.bRequest = 0x07 then .setDescriptor
  else if k.bRequest = 0x08 then .getConfiguration
  else if k.bRequest = 0x09 then .setConfiguration
  else .unrecognised k.bRequest

/-- The SETUP row of a request rule. -/
def RequestName.toInstr (q : RequestName) (r : Request) : Instr :=
  match q with
  | .getStatus => .getStatus r
  | .clearFeature => .clearFeature r
  | .setFeature => .setFeature r
  | .setAddress => .setAddress r
  | .getDescriptor => .getDescriptor r
  | .setDescriptor => .setDescriptor r
  | .getConfiguration => .getConfiguration r
  | .setConfiguration => .setConfiguration r
  | .unrecognised b => .unrecognisedRequest b r

/-- The SETUP row of a packet. -/
def decodeSetup (p : Params) (k : SetupPacket) : Instr :=
  (selectRequest p.reqTypeFilter k).toInstr k.request

/-! ## BUS (R340, R341, R361) -/

/-- A byte as a 7-bit device address; bit 7 must be 0 (R340). -/
def busAddr (b : Byte) : Option (BitVec 7) := if b.getLsbD 7 then none else some (b.setWidth 7)

/-- A byte as a 4-bit endpoint number; bits 7:4 must be 0 (R340). -/
def busEp (b : Byte) : Option (BitVec 4) := if b.extractLsb' 4 4 = 0 then some (b.setWidth 4) else none

/-- A byte as EPA: endpoint in bits 3:0, ACK in bit 7, bits 6:4 must be 0 (R341). -/
def busEpa (b : Byte) : Option (BitVec 4 × Bool) :=
  if b.extractLsb' 4 3 = 0 then some (b.setWidth 4, b.getLsbD 7) else none

/-- The operands of BUS_OUT: two length bytes, then exactly that many data bytes, at most 1023. -/
def busData : List Byte → Option (List Byte)
  | l₀ :: l₁ :: d =>
    if (ofBytes l₀ l₁).toNat ≤ 1023 ∧ d.length = (ofBytes l₀ l₁).toNat then some d else none
  | _ => none

/-- The bus event of a byte sequence; `none` when it is no event (R361). -/
def decodeBus : List Byte → Option BusEvent
  | c :: bs =>
    if c = 0x01 then (if bs = [] then some .reset else none)
    else if c = 0x02 then
      match bs with
      | a :: e :: ks =>
        match busAddr a, busEp e with
        | some addr, some ep =>
          if ks.length = 8 then some (.setup addr ep (.ofBytes ks)) else none
        | _, _ => none
      | _ => none
    else if c = 0x03 then
      match bs with
      | a :: e :: ds =>
        match busAddr a, busEp e, busData ds with
        | some addr, some ep, some d => some (.out addr ep d)
        | _, _, _ => none
      | _ => none
    else if c = 0x04 then
      match bs with
      | [a, e] =>
        match busAddr a, busEpa e with
        | some addr, some (ep, ack) => some (.tokenIn addr ep ack)
        | _, _ => none
      | _ => none
    else if c = 0x05 then (if bs = [] then some .suspend else none)
    else if c = 0x06 then (if bs = [] then some .resume else none)
    else none
  | [] => none

/-- The BUS row of an event. -/
def BusEvent.toInstr : BusEvent → Instr
  | .reset => .busReset
  | .setup a e k => .busSetup a e k
  | .out a e d => .busOut a e d
  | .tokenIn a e ack => .busIn a e ack
  | .suspend => .busSuspend
  | .resume => .busResume

/-! ## HOOK, CTRD, ISTRD (R350, R351, R352) -/

/-- The HOOK row of a role and a hook (R466). -/
def hookInstr : Role → Hook → Instr
  | .generic, .onInit => .genericOnInit
  | .generic, .onReset => .genericOnReset
  | .generic, .onSetupReceptionComplete => .genericOnSetupReceptionComplete
  | .generic, .onReceptionComplete => .genericOnReceptionComplete
  | .generic, .onTransmissionComplete => .genericOnTransmissionComplete
  | .control, .onInit => .controlOnInit
  | .control, .onReset => .controlOnReset
  | .control, .onSetupReceptionComplete => .controlOnSetupReceptionComplete
  | .control, .onReceptionComplete => .controlOnReceptionComplete
  | .control, .onTransmissionComplete => .controlOnTransmissionComplete

/-- H, bits 2:0 of a hook code (R350). -/
def Hook.code : Hook → BitVec 3
  | .onInit => 0 | .onReset => 1 | .onSetupReceptionComplete => 2
  | .onReceptionComplete => 3 | .onTransmissionComplete => 4

/-- The hook of H; 5 to 7 are reserved (R350). -/
def Hook.ofCode (b : BitVec 3) : Option Hook :=
  if b = 0 then some .onInit else if b = 1 then some .onReset
  else if b = 2 then some .onSetupReceptionComplete else if b = 3 then some .onReceptionComplete
  else if b = 4 then some .onTransmissionComplete else none

/-- The HOOK row of a 4-bit code: ROLE in bit 3, H in bits 2:0 (R350). -/
def decodeHook (b : BitVec 4) : Option Instr :=
  (Hook.ofCode (b.setWidth 3)).map (hookInstr (if b.getLsbD 3 then .control else .generic))

/-- The CTRD rows a key selects, in the order they run (R351, R608). -/
def decodeCtrd (k : BitVec 17) : List Instr :=
  (if k.getLsbD 16 && k.getLsbD 11 then [.ctrSetup k]
   else if k.getLsbD 16 then [.ctrReception k] else [])
  ++ (if k.getLsbD 7 then [.ctrTransmission k] else [])

/-- The ISTRD rows an interrupt-status snapshot selects, in the order they run (R352, R606). -/
def decodeIstrd (w : HalfWord) : List Instr :=
  if w.getLsbD 10 then [.irqReset w]
  else (if w.getLsbD 15 then [.irqCtr w] else [])
    ++ (if w.getLsbD 11 then [.irqSusp w] else [])
    ++ (if w.getLsbD 12 then [.irqWkup w] else [])

/-! ## All formats -/

/-- An encoded instruction: its format and its bits, in the units the format is made of. -/
inductive Encoded where
  | cmd (ws : List HalfWord)
  | setup (bs : List Byte)
  | bus (bs : List Byte)
  | hook (b : BitVec 4)
  | ctrd (k : BitVec 17)
  | istrd (w : HalfWord)
  deriving DecidableEq, Repr

/-- The rows an encoding selects, in order: one for CMD, SETUP, BUS and HOOK, up to two for CTRD and
three for ISTRD; none for an illegal encoding. -/
def decodeRows (p : Params) : Encoded → List Instr
  | .cmd ws => match decodeCmd p ws with | .ok i => [i] | .error _ => []
  | .setup bs => if bs.length = 8 then [decodeSetup p (.ofBytes bs)] else []
  | .bus bs => ((decodeBus bs).map BusEvent.toInstr).toList
  | .hook b => (decodeHook b).toList
  | .ctrd k => decodeCtrd k
  | .istrd w => decodeIstrd w

/-- A command with the given opcode, endpoint and operands. -/
def cmdWords (op : Byte) (n : EpNum) (ws : List HalfWord) : Encoded := .cmd (header op n :: ws)

/-- A setup packet with the given request code. -/
def setupBytes (b : Byte) (r : Request) : Encoded :=
  .setup (SetupPacket.bytes ⟨r.bmRequestType, b, r.wValue, r.wIndex, r.wLength⟩)

/-- A byte count as its half-word. -/
def lengthWord (d : List Byte) : HalfWord := BitVec.ofNat 16 d.length

/-- The bits of an instruction, from the encoding tables of 30_encoding.md. -/
def encode : Instr → Encoded
  | .pmReadHw a => cmdWords 0x01 0 [a]
  | .pmWriteHw a v => cmdWords 0x02 0 [a, v]
  | .pmReadB a => cmdWords 0x03 0 [a]
  | .pmWriteB a v => cmdWords 0x04 0 [a, v.setWidth 16]
  | .pmRead a l => cmdWords 0x05 0 [a, l]
  | .pmWrite a d => cmdWords 0x06 0 (a :: lengthWord d :: packBytes d)
  | .pmClear => cmdWords 0x07 0 []
  | .bdtRead n f => cmdWords 0x08 n [f.code.setWidth 16]
  | .bdtWrite n f v => cmdWords 0x09 n [f.code.setWidth 16, v]
  | .epSetAddress n v => cmdWords 0x10 n [v.setWidth 16]
  | .epSetType n t => cmdWords 0x11 n [t.code.setWidth 16]
  | .epSetTxStatus n v => cmdWords 0x12 n [v.code.setWidth 16]
  | .epSetRxStatus n v => cmdWords 0x13 n [v.code.setWidth 16]
  | .epClearCtr n => cmdWords 0x14 n []
  | .epSetBd n g => cmdWords 0x15 n [g.txAddr, g.txSize, g.rxAddr, g.rxSize]
  | .epInitBd n => cmdWords 0x16 n []
  | .epTransmit n d => cmdWords 0x17 n (lengthWord d :: packBytes d)
  | .epReceive n l => cmdWords 0x18 n [l]
  | .epGetRxLen n => cmdWords 0x19 n []
  | .epReset n => cmdWords 0x1A n []
  | .epInit n => cmdWords 0x1B n []
  | .dcInit => cmdWords 0x20 0 []
  | .dcConnect => cmdWords 0x21 0 []
  | .dcDisconnect => cmdWords 0x22 0 []
  | .dcSetEndpoint n t g => cmdWords 0x23 n [t.code.setWidth 16, g.txAddr, g.txSize, g.rxAddr, g.rxSize]
  | .dcGetStatus => cmdWords 0x24 0 []
  | .dcIrq => cmdWords 0x30 0 []
  | .getStatus r => setupBytes 0x00 r
  | .clearFeature r => setupBytes 0x01 r
  | .setFeature r => setupBytes 0x03 r
  | .setAddress r => setupBytes 0x05 r
  | .getDescriptor r => setupBytes 0x06 r
  | .setDescriptor r => setupBytes 0x07 r
  | .getConfiguration r => setupBytes 0x08 r
  | .setConfiguration r => setupBytes 0x09 r
  | .unrecognisedRequest b r => setupBytes b r
  | .busReset => .bus [0x01]
  | .busSetup a e k => .bus (0x02 :: a.setWidth 8 :: e.setWidth 8 :: k.bytes)
  | .busOut a e d =>
    .bus (0x03 :: a.setWidth 8 :: e.setWidth 8 :: loByte (lengthWord d) :: hiByte (lengthWord d) :: d)
  | .busIn a e ack => .bus [0x04, a.setWidth 8, BitVec.ofBool ack ++ (0 : BitVec 3) ++ e]
  | .busSuspend => .bus [0x05]
  | .busResume => .bus [0x06]
  | .genericOnInit => .hook 0x0
  | .genericOnReset => .hook 0x1
  | .genericOnSetupReceptionComplete => .hook 0x2
  | .genericOnReceptionComplete => .hook 0x3
  | .genericOnTransmissionComplete => .hook 0x4
  | .controlOnInit => .hook 0x8
  | .controlOnReset => .hook 0x9
  | .controlOnSetupReceptionComplete => .hook 0xA
  | .controlOnReceptionComplete => .hook 0xB
  | .controlOnTransmissionComplete => .hook 0xC
  | .ctrSetup k => .ctrd k
  | .ctrReception k => .ctrd k
  | .ctrTransmission k => .ctrd k
  | .irqReset w => .istrd w
  | .irqCtr w => .istrd w
  | .irqSusp w => .istrd w
  | .irqWkup w => .istrd w

/-! ## Words of the opcode table

The table's rows of different formats share bit patterns (BUS 0x01 and HOOK 0x1, SETUP 0x0800 and
ISTRD 0x0800): a row's format cannot be read from its bits. `tableEncoded` picks the format by the
row's width and, where several remain, in a fixed order (log 19). -/

/-- The command of a header half-word with every operand half-word zero. -/
def tableCmd (h : HalfWord) : List HalfWord :=
  h :: List.replicate ((operandCount (headerOp h)).getD 0) 0

/-- The bus event of a code byte with every byte after it zero. -/
def tableBus (c : Byte) : List Byte :=
  if c = 0x02 then c :: List.replicate 10 0
  else if c = 0x03 then c :: List.replicate 4 0
  else if c = 0x04 then c :: List.replicate 2 0
  else [c]

/-- The setup packet whose first half-word is given and whose other bytes are zero. -/
def tableSetup (w : HalfWord) : List Byte := loByte w :: hiByte w :: List.replicate 6 0

/-- The encoding a table word of `nbits` bits stands for. -/
def tableEncoded (nbits w : Nat) : Encoded :=
  if nbits ≤ 4 then .hook (BitVec.ofNat 4 w)
  else if nbits ≤ 8 then
    if 1 ≤ w ∧ w ≤ 6 then .bus (tableBus (BitVec.ofNat 8 w))
    else if w < 16 then .hook (BitVec.ofNat 4 w)
    else .ctrd (BitVec.ofNat 17 w)
  else if nbits ≤ 16 then
    if (operandCount (w % 256)).isSome then .cmd (tableCmd (BitVec.ofNat 16 w))
    else if recognisedCodes.contains (BitVec.ofNat 8 (w / 256)) then .setup (tableSetup (BitVec.ofNat 16 w))
    else if (decodeIstrd (BitVec.ofNat 16 w)).isEmpty then .setup (tableSetup (BitVec.ofNat 16 w))
    else .istrd (BitVec.ofNat 16 w)
  else .ctrd (BitVec.ofNat 17 w)

/-- The instruction the decoder reads from a table word: the first row its encoding selects. -/
def decodeTableWord (nbits w : Nat) : Option Instr :=
  (decodeRows Params.vectors (tableEncoded nbits w)).head?

end Sys2Proof
end

