-- ==== Sys2Proof/Machine/State.lean ====
section
/-! DEFINITION. The state of the controller (spec 10_state.md), its launch data (R870), the outcomes
of a step and the power-on state (R801). -/

namespace Sys2Proof.Machine

/-- The agents that take steps (R4). -/
inductive Agent where
  | core | bus | app | desc
  deriving DecidableEq, Repr

/-- A slot of the endpoint table (R130). -/
inductive Slot where
  | unbound
  | bound (role : Role) (geom : Geometry) (gtype : EpType)
  deriving DecidableEq, Repr

/-- Control-transfer stage (R132): None, In, Out. -/
inductive Stage where
  | none | dataIn | dataOut
  deriving DecidableEq, Repr

/-- The pending descriptor cursor (R133). -/
structure Cursor where
  desc : Descriptor
  len  : HalfWord
  off  : HalfWord
  deriving DecidableEq, Repr

/-- Device status (R134). -/
inductive DevStatus where
  | disabled | powered | default | addressed | configured | suspended | attached
  deriving DecidableEq, Repr

/-- What CORE sees of the control role state when a statement branches on it (R132, R133). -/
structure RoleView where
  stage    : Stage
  cursor   : Option Cursor
  deferred : HalfWord
  deriving DecidableEq, Repr

/-- What a statement of an operation in progress was answered: the half-word an access read, that an access
wrote, or the control role state a branch saw (R137; log 16). -/
inductive Answer where
  | read (w : HalfWord)
  | wrote
  | role (v : RoleView)
  deriving DecidableEq, Repr

/-- CORE execution state (R137): the snapshots exist only while dispatching, the register snapshot only
once read. The remaining statements of the dispatch are those of the first row of `rest` after the ones
whose answers `had` lists, then the other rows of `rest` (log 16). -/
inductive CoreState where
  | idle
  | dispatching (istrSnap : HalfWord) (eprSnap : Option HalfWord) (rest : List Instr) (had : List Answer)
  deriving DecidableEq, Repr

/-- APP execution state (R137): the half-words of the command being run; its remaining statements are
those after the ones whose answers `had` lists (log 16). -/
inductive AppState where
  | idle
  | running (words : List HalfWord) (had : List Answer)
  deriving DecidableEq, Repr

/-- A value returned to APP (R334). -/
inductive ResultValue where
  | u16 (v : HalfWord)
  | u8 (v : Byte)
  | bytes (v : List Byte)
  deriving DecidableEq, Repr

/-- A trace event (R150). -/
inductive Event where
  | cbReset | cbSuspend | cbResume
  | descLookup (type index : Byte) (found : Bool)
  | descInit | descDeinit
  | hostIn (ep : EpNum) (bytes : List Byte)
  | result (v : ResultValue)
  deriving DecidableEq, Repr

/-- A fault kind with the info it records (R701). -/
inductive FaultKind where
  | pmRange (a : Nat)
  | pmAlign (a : Nat)
  | pmOwnership (n : EpNum) (a : Nat)
  | busPmRange (a : Nat)
  | eaDuplicate (ep : BitVec 4)
  deriving DecidableEq, Repr

/-- A fault record (R700): kind and info, the agent and the number of the rule that raised it. -/
structure FaultRecord where
  kind  : FaultKind
  agent : Agent
  rule  : Nat
  deriving DecidableEq, Repr

/-- A line of the APP program (R370, R870): a command or an IRQ wait point. -/
inductive Line where
  | cmd (words : List HalfWord)
  | irq
  deriving DecidableEq, Repr

/-- The state of the machine: everything 10_state.md gives the controller, then the launch data; `turns`
and `draws` are the model's own (logs 1 and 7). -/
structure State where
  -- implementation parameters (R10 to R21)
  params      : Params
  -- peripheral registers (R100, R110, R120, R122, R124, R126)
  eprs        : Vector HalfWord 8
  istr        : HalfWord
  cntr        : HalfWord
  daddr       : HalfWord
  btable      : HalfWord
  bcdr        : HalfWord
  -- endpoint table (R130) and control role state (R132)
  slots       : Vector Slot 8
  stage       : Stage
  remaining   : HalfWord
  cursor      : Option Cursor
  deferred    : HalfWord
  -- device state (R134 to R137)
  devStatus   : DevStatus
  preSuspend  : DevStatus
  initialized : Bool
  core        : CoreState
  app         : AppState
  -- collaborators (R140)
  clkOn       : Bool
  vdetOn      : Bool
  irqEnabled  : Bool
  pinsAf      : Bool
  -- packet memory (R141), as canonical (address, byte) pairs
  mem         : List Host.Cell
  -- trace, faults, refusals (R150, R151)
  trace       : List Event
  faults      : List FaultRecord
  refusals    : List RefuseReason
  -- launch data (R870), and the agents of the steps to come (R240; log 1)
  program     : List Line
  busIn       : List (List Byte)
  turns       : List Agent
  draws       : Nat
  deriving DecidableEq, Repr

/-- The power-on state (R801) under given parameters: no program, no schedule, no interleaving. Packet
memory lists nothing and an unlisted byte reads 0 (DESIGN CHOICE, log 6); `draws` is the model's own
counter (log 7). -/
def State.powerOn (p : Params) : State where
  params := p
  eprs := Vector.replicate 8 0x0000
  istr := 0x0000
  cntr := 0x0003
  daddr := 0x0000
  btable := 0x0000
  bcdr := 0x0000
  slots := (Vector.replicate 8 Slot.unbound).set 0 (.bound .control p.ep0 .control)
  stage := .none
  remaining := 0
  cursor := none
  deferred := 0
  devStatus := .disabled
  preSuspend := .disabled
  initialized := false
  core := .idle
  app := .idle
  clkOn := false
  vdetOn := false
  irqEnabled := false
  pinsAf := false
  mem := []
  trace := []
  faults := []
  refusals := []
  program := []
  busIn := []
  turns := []
  draws := 0

/-- The machine right after reset: power-on (R801) with the parameters of `Params.vectors` (log 4). -/
def State.reset : State := State.powerOn Params.vectors

/-- Why a step gives no next state. All are safe: the model stops where the spec gives no step. -/
inductive Fault where
  /-- Raised by `step` in a state with a recorded fault: no agent takes another step (R700). Safe. -/
  | faulted
  /-- Raised by `step` in the final state of a run (R870). Safe. -/
  | finalState
  /-- Raised by `step` when no agent has an enabled step and the state is not final (R870). Safe. -/
  | stuck
  /-- Raised by a BUS row whose event is not enabled: the controller is not attached (R650), or the
  matched endpoint is isochronous (R659), or its data is over 1023 bytes (R361). Safe. -/
  | busNotEnabled
  /-- Raised by DC_IRQ when a dispatch may not start: the line is deasserted or CORE is not idle
  (R711, R715). Safe. -/
  | dispatchNotEnabled
  /-- Raised by a CTRD row outside a dispatch, where there is no interrupt-status snapshot to name the
  endpoint (R608, R801). Safe. -/
  | notDispatching
  deriving DecidableEq, Repr

/-- Why the model gives no meaning. -/
inductive Refusal where
  /-- Raised by an arm of `exec` that has no meaning yet. Safe. -/
  | notModelled (mnemonic : String)
  /-- Raised by `step` when the parameters break R10, R12, R13 or R231: EP0_PARAMS refuses the initial
  state (R730). Safe. -/
  | ep0Params
  deriving DecidableEq, Repr

end Sys2Proof.Machine
end

