-- ==== Sys2Proof/Machine/Flags.lean ====
section
/-! DEFINITION. Registers, fields and flags: the endpoint control register's fields and write function
(R101, R102), the toggle-safe write word (R451), the interrupt-status register with its derived
fields (R110 to R112), the other registers' write rules and the interrupt line (R710). -/

namespace Sys2Proof.Machine

/-! ## Endpoint control registers -/

/-- The fields of an endpoint control register (R101), from bit 15 down. -/
structure EprFields where
  ctrRx  : Bool
  dtogRx : Bool
  statRx : BitVec 2
  setup  : Bool
  epType : BitVec 2
  epKind : Bool
  ctrTx  : Bool
  dtogTx : Bool
  statTx : BitVec 2
  ea     : BitVec 4
  deriving DecidableEq, Repr

/-- The fields of a register value (R101). -/
def eprFields (w : HalfWord) : EprFields where
  ctrRx  := w.getLsbD 15
  dtogRx := w.getLsbD 14
  statRx := w.extractLsb' 12 2
  setup  := w.getLsbD 11
  epType := w.extractLsb' 9 2
  epKind := w.getLsbD 8
  ctrTx  := w.getLsbD 7
  dtogTx := w.getLsbD 6
  statTx := w.extractLsb' 4 2
  ea     := w.extractLsb' 0 4

/-- The register value of given fields (R101). -/
def eprWord (f : EprFields) : HalfWord :=
  BitVec.ofBool f.ctrRx ++ BitVec.ofBool f.dtogRx ++ f.statRx ++ BitVec.ofBool f.setup ++ f.epType
    ++ BitVec.ofBool f.epKind ++ BitVec.ofBool f.ctrTx ++ BitVec.ofBool f.dtogTx ++ f.statTx ++ f.ea

/-- The hardware write function of an endpoint control register: the value after a software write of
`w` over `old` (R102). -/
def eprSwWrite (old w : HalfWord) : HalfWord :=
  let o := eprFields old
  let x := eprFields w
  eprWord {
    ctrRx := o.ctrRx && x.ctrRx
    dtogRx := o.dtogRx ^^ x.dtogRx
    statRx := o.statRx ^^^ x.statRx
    setup := o.setup
    epType := x.epType
    epKind := x.epKind
    ctrTx := o.ctrTx && x.ctrTx
    dtogTx := o.dtogTx ^^ x.dtogTx
    statTx := o.statTx ^^^ x.statTx
    ea := x.ea }

/-- The fields a toggle-safe write sets (`chg` of R451). -/
structure EprChange where
  ea     : Option (BitVec 4) := none
  epType : Option (BitVec 2) := none
  epKind : Option Bool := none
  statTx : Option (BitVec 2) := none
  statRx : Option (BitVec 2) := none
  deriving DecidableEq, Repr

/-- The CTR flags a toggle-safe write clears (`clr` of R451). -/
structure EprClear where
  ctrRx : Bool := false
  ctrTx : Bool := false
  deriving DecidableEq, Repr

/-- `ToggleSafeWrite(cur, chg, clr)`: the word to write (R451). -/
def toggleSafeWrite (cur : HalfWord) (chg : EprChange) (clr : EprClear) : HalfWord :=
  let c := eprFields cur
  eprWord {
    ctrRx := !clr.ctrRx
    dtogRx := false
    statRx := match chg.statRx with | some t => c.statRx ^^^ t | none => 0
    setup := false
    epType := chg.epType.getD c.epType
    epKind := chg.epKind.getD c.epKind
    ctrTx := !clr.ctrTx
    dtogTx := false
    statTx := match chg.statTx with | some t => c.statTx ^^^ t | none => 0
    ea := chg.ea.getD c.ea }

/-- EPR[n] (R100). -/
def State.epr (s : State) (n : EpNum) : HalfWord := s.eprs[n]

/-- The fields of EPR[n]. -/
def State.eprF (s : State) (n : EpNum) : EprFields := eprFields (s.epr n)

/-- EPR[n] set to a whole value: a hardware change, or the effect of a software write. -/
def State.setEpr (s : State) (n : EpNum) (w : HalfWord) : State :=
  { s with eprs := s.eprs.set n w }

/-- STAT_TX of EPR[n] (R310). -/
def State.statTx (s : State) (n : EpNum) : Stat := Stat.ofCode (s.eprF n).statTx

/-- STAT_RX of EPR[n] (R310). -/
def State.statRx (s : State) (n : EpNum) : Stat := Stat.ofCode (s.eprF n).statRx

/-- EP_TYPE of EPR[n] (R311). -/
def State.epType (s : State) (n : EpNum) : EpType := EpType.ofCode (s.eprF n).epType

/-- The endpoint numbers in ascending order. -/
def allEps : List EpNum := [0, 1, 2, 3, 4, 5, 6, 7]

/-! ## Interrupt-status register -/

/-- The write-0-to-clear latches of ISTR, bits 14:7 (R110). -/
def istrLatches : HalfWord := 0x7F80

/-- The latches after a software write `ISTR <- w` (R111). -/
def istrWrite (old w : HalfWord) : HalfWord := old &&& (w ||| ~~~istrLatches)

/-- A completed transfer is pending on endpoint n (R112). -/
def State.pending (s : State) (n : EpNum) : Bool := (s.eprF n).ctrRx || (s.eprF n).ctrTx

/-- The endpoints with a pending completion, ascending (R112). -/
def State.pendingEps (s : State) : List EpNum := allEps.filter s.pending

/-- ISTR.CTR, derived from the endpoint registers (R112). -/
def State.ctr (s : State) : Bool := allEps.any s.pending

/-- The endpoint an interrupt-status read names among the pending ones (R112, EP_PRIORITY of R17);
under `any` with several pending it is a free value, any one of them (log 7). -/
def chooseEp (pri : EpPriority) (draw : Nat) : List EpNum → Option EpNum
  | [] => none
  | [n] => some n
  | n :: ns =>
    match pri with
    | .lowestFirst => some n
    | .any => some ((n :: ns).getD (Config.epChoice draw % (n :: ns).length) n)

/-- The value of one read of ISTR (R110, R112): the latches, CTR, and DIR and EP_ID, which are free
values when CTR = 0 (log 7). -/
def State.istrRead (s : State) : HalfWord :=
  (s.istr &&& istrLatches) |||
    match chooseEp s.params.epPriority s.draws s.pendingEps with
    | some n =>
      0x8000 ||| (if (s.eprF n).ctrRx then 0x0010 else 0x0000) ||| BitVec.ofNat 16 n.val
    | none => (Config.idleDirEpId s.draws).setWidth 16

/-! ## The other registers -/

/-- CNTR after a software write: every field but bit 6 (R121). -/
def State.setCntr (s : State) (w : HalfWord) : State := { s with cntr := w &&& 0xFFBF }

/-- DADDR after a software write (R123). -/
def State.setDaddr (s : State) (w : HalfWord) : State := { s with daddr := w &&& 0x00FF }

/-- BTABLE after a software write (R125). -/
def State.setBtable (s : State) (w : HalfWord) : State := { s with btable := w &&& 0xFFF8 }

/-- BCDR after a software write (R127). -/
def State.setBcdr (s : State) (w : HalfWord) : State := { s with bcdr := w &&& 0x8000 }

/-- ISTR after a software write (R111). -/
def State.setIstr (s : State) (w : HalfWord) : State := { s with istr := istrWrite s.istr w }

/-- A register value with the bits of `m` set. -/
def setBits (m w : HalfWord) : HalfWord := w ||| m

/-- A register value with the bits of `m` clear. -/
def clearBits (m w : HalfWord) : HalfWord := w &&& ~~~m

/-- CTRM, WKUPM, SUSPM and RESETM, the four interrupt classes of CNTR (R120). -/
def cntrMasks : HalfWord := 0x9C00

/-- CNTR.PDWN, bit 1 (R120). -/
def cntrPdwn : HalfWord := 0x0002

/-- CNTR.FSUSP, bit 3 (R120). -/
def cntrFsusp : HalfWord := 0x0008

/-- DADDR.EF (R122). -/
def State.ef (s : State) : Bool := s.daddr.getLsbD 7

/-- DADDR.ADD (R122). -/
def State.add (s : State) : BitVec 7 := s.daddr.extractLsb' 0 7

/-- The controller is attached (R650). -/
def State.attached (s : State) : Bool :=
  s.clkOn && s.pinsAf && s.bcdr.getLsbD 15 && !s.cntr.getLsbD 1 && !s.cntr.getLsbD 0

/-- The interrupt line, a level (R710). -/
def State.irqLine (s : State) : Bool :=
  s.irqEnabled &&
    ((s.ctr && s.cntr.getLsbD 15) || (s.istr.getLsbD 10 && s.cntr.getLsbD 10) ||
     (s.istr.getLsbD 11 && s.cntr.getLsbD 11) || (s.istr.getLsbD 12 && s.cntr.getLsbD 12))

/-- A dispatch may start: the line is asserted, CORE and APP are idle and no fault is recorded (R711). -/
def State.canDispatch (s : State) : Bool :=
  s.irqLine && (s.core = .idle) && (s.app = .idle) && s.faults.isEmpty

/-- Device status codes (R312). -/
def DevStatus.code : DevStatus → HalfWord
  | .disabled => 0 | .powered => 1 | .default => 2 | .addressed => 3
  | .configured => 4 | .suspended => 5 | .attached => 6

/-- Stage codes (R313). -/
def Stage.code : Stage → Nat
  | .none => 0 | .dataIn => 1 | .dataOut => 2

end Sys2Proof.Machine
end

