-- ==== Sys2Proof/Machine/Memory.lean ====
section
/-! DEFINITION. Packet memory as a canonical list of (address, byte) pairs, its byte and cell views
(R201, R400), and the outcome of an operation. -/

namespace Sys2Proof.Machine

/-- What a byte no pair lists reads as (log 6). -/
def unlistedByte : Byte := 0

/-- Byte `a` of a memory. -/
def memGet : List Host.Cell → Nat → Byte
  | [], _ => unlistedByte
  | (b, v) :: m, a => if a = b then v else memGet m a

/-- A memory with byte `a` set to `v`: sorted, and unlisted when `v` is what an unlisted byte reads as. -/
def memSet : List Host.Cell → Nat → Byte → List Host.Cell
  | [], a, v => if v = unlistedByte then [] else [(a, v)]
  | (b, x) :: m, a, v =>
    if a < b then (if v = unlistedByte then (b, x) :: m else (a, v) :: (b, x) :: m)
    else if a = b then (if v = unlistedByte then m else (a, v) :: m)
    else (b, x) :: memSet m a v

/-- The addresses of a memory rise strictly from `lo` on and no pair holds the unlisted value. -/
def memWfFrom : Nat → List Host.Cell → Bool
  | _, [] => true
  | lo, (a, v) :: m => decide (lo ≤ a) && (v != unlistedByte) && memWfFrom (a + 1) m

/-- The canonical form of packet memory. -/
def Memory.wf (m : List Host.Cell) : Bool := memWfFrom 0 m

/-- A memory with the bytes `d` at `a`, `a+1`, … -/
def memSetBytes (m : List Host.Cell) (a : Nat) : List Byte → List Host.Cell
  | [] => m
  | b :: bs => memSetBytes (memSet m a b) (a + 1) bs

/-- The `l` bytes from `a` on. -/
def memGetBytes (m : List Host.Cell) (a : Nat) : Nat → List Byte
  | 0 => []
  | l + 1 => memGet m a :: memGetBytes m (a + 1) l

/-- Byte `a` of packet memory (R201). -/
def State.byte (s : State) (a : Nat) : Byte := memGet s.mem a

/-- Packet-memory cell `k` (R201, R400): byte 2k low, byte 2k+1 high. -/
def State.cell (s : State) (k : Nat) : HalfWord := ofBytes (s.byte (2 * k)) (s.byte (2 * k + 1))

/-- Cell `k` set to `v` (R400). -/
def State.setCell (s : State) (k : Nat) (v : HalfWord) : State :=
  { s with mem := memSet (memSet s.mem (2 * k) (loByte v)) (2 * k + 1) (hiByte v) }

/-- Bytes `d` stored from `a` on. -/
def State.setBytes (s : State) (a : Nat) (d : List Byte) : State :=
  { s with mem := memSetBytes s.mem a d }

/-- `getByte(c, a)` (R400). -/
def getByte (c : HalfWord) (a : Nat) : Byte := if a % 2 = 0 then loByte c else hiByte c

/-- `setByte(c, a, v)` (R400). -/
def setByte (c : HalfWord) (a : Nat) (v : Byte) : HalfWord :=
  if a % 2 = 0 then ofBytes v (hiByte c) else ofBytes (loByte c) v

/-- The outcome of an operation: it goes on with a value, or it ended because a fault was recorded. -/
inductive Res (α : Type) where
  | ok (a : α) (s : State)
  | stop (s : State)

/-- Run the next operation, unless the run has ended. -/
def Res.bind {α β : Type} (r : Res α) (f : α → State → Res β) : Res β :=
  match r with
  | .ok a s => f a s
  | .stop s => .stop s

/-- Run the next operation of one that returns nothing. -/
def Res.andThen {β : Type} (r : Res Unit) (f : State → Res β) : Res β :=
  match r with
  | .ok _ s => f s
  | .stop s => .stop s

/-- The state an operation leaves. -/
def Res.state {α : Type} : Res α → State
  | .ok _ s => s
  | .stop s => s

/-- An operation's outcome as a step: the state it leaves, a recorded fault being part of it (R700). -/
def Res.toOutcome {α : Type} (r : Res α) : Host.Outcome State Fault Refusal := .next r.state

/-- A fault has been recorded (R700). -/
def State.faulted (s : State) : Bool := !s.faults.isEmpty

/-- The code of a fault kind (R701). -/
def FaultKind.code : FaultKind → Nat
  | .pmRange _ => 1
  | .pmAlign _ => 2
  | .pmOwnership _ _ => 3
  | .busPmRange _ => 4
  | .eaDuplicate _ => 5

/-- `raise Fault(kind, info)`: the record is appended (R700). -/
def State.raise (s : State) (k : FaultKind) (a : Agent) (rule : Nat) : State :=
  { s with faults := s.faults ++ [⟨k, a, rule⟩] }

/-- `raise`, ending the operation (R700). -/
def raise {α : Type} (k : FaultKind) (a : Agent) (rule : Nat) (s : State) : Res α :=
  .stop (s.raise k a rule)

/-- `refuse(reason)`: the mark is set and nothing else changes (R730). -/
def State.refuse (s : State) (r : RefuseReason) : State := { s with refusals := s.refusals ++ [r] }

/-- The `refused` mark (R151). -/
def State.refused (s : State) : Bool := !s.refusals.isEmpty

/-- `emit Ev`: the event is appended to the trace (R150). -/
def State.emit (s : State) (e : Event) : State := { s with trace := s.trace ++ [e] }

end Sys2Proof.Machine
end

