-- ==== Sys2Proof/Machine/Operands.lean ====
section
/-! DEFINITION. Operand forms: the endpoint table and its geometries (R130, R131, R231), the
buffer-descriptor table's addresses and count codes (R409, R412 to R414), buffer ownership (R242,
R401), the descriptor provider (R522) and the validity of the parameters. -/

namespace Sys2Proof.Machine

/-! ## Endpoint table -/

/-- Slot n (R130). -/
def State.slot (s : State) (n : EpNum) : Slot := s.slots[n]

/-- Slot n set. -/
def State.setSlot (s : State) (n : EpNum) (x : Slot) : State := { s with slots := s.slots.set n x }

/-- The slot is bound (R130). -/
def slotBound : Slot → Bool
  | .unbound => false
  | .bound _ _ _ => true

/-- The geometry of a slot (R131); an unbound slot has none, and no admitted operation reads one (R450):
there the answer is four zeros (log 24). -/
def slotGeom : Slot → Geometry
  | .unbound => ⟨0, 0, 0, 0⟩
  | .bound _ g _ => g

/-- The role of a slot, `none` when unbound. -/
def slotRole : Slot → Option Role
  | .unbound => none
  | .bound r _ _ => some r

/-- Slot n is bound (R130). -/
def State.isBound (s : State) (n : EpNum) : Bool := slotBound (s.slot n)

/-- `geom[n]` (R131). -/
def State.geom (s : State) (n : EpNum) : Geometry := slotGeom (s.slot n)

/-- Role of slot n, `none` when unbound. -/
def State.role (s : State) (n : EpNum) : Option Role := slotRole (s.slot n)

/-- `geom[n] = g` (R458): the role and the declared type stay. -/
def State.setGeom (s : State) (n : EpNum) (g : Geometry) : State :=
  match s.slot n with
  | .unbound => s
  | .bound r _ t => s.setSlot n (.bound r g t)

/-! ## Geometry validity (R231) -/

/-- A receive size that COUNT_RX can encode (R412). -/
def rxEncodable (s : Nat) : Bool :=
  (s % 2 = 0 && 2 ≤ s && s ≤ 62) || (s % 32 = 0 && 64 ≤ s && s ≤ 1024)

/-- Two byte ranges (start, length) share a byte; an empty range shares none (log 25). -/
def overlaps (a l b k : Nat) : Bool := max a b < min (a + l) (b + k)

/-- The buffers of a geometry keep off the range (start, length). -/
def geomAvoids (g : Geometry) (a l : Nat) : Bool :=
  !overlaps g.txAddr.toNat g.txSize.toNat a l && !overlaps g.rxAddr.toNat g.rxSize.toNat a l

/-- Validity of a geometry for slot `n` against the geometries of the other bound slots (R231). -/
def geometryValid (p : Params) (n : EpNum) (others : List Geometry) (g : Geometry) : Bool :=
  g.txAddr.toNat % 2 = 0 && g.txAddr.toNat + g.txSize.toNat ≤ p.pmSize && g.txSize.toNat ≤ 1023
  && g.rxAddr.toNat % 2 = 0 && g.rxAddr.toNat + g.rxSize.toNat ≤ p.pmSize
  && rxEncodable g.rxSize.toNat
  && geomAvoids g p.bdtBase.toNat 64
  && !overlaps g.txAddr.toNat g.txSize.toNat g.rxAddr.toNat g.rxSize.toNat
  && others.all (fun o => geomAvoids g o.txAddr.toNat o.txSize.toNat && geomAvoids g o.rxAddr.toNat o.rxSize.toNat)
  && (n ≠ 0 || 8 ≤ g.rxSize.toNat)

/-- The geometries of the bound slots other than `n`. -/
def State.otherGeoms (s : State) (n : EpNum) : List Geometry :=
  (allEps.filter fun m => m ≠ n && s.isBound m).map s.geom

/-- The geometry may be given to slot `n` (R231, R731). -/
def State.geomOk (s : State) (n : EpNum) (g : Geometry) : Bool :=
  geometryValid s.params n (s.otherGeoms n) g

/-- The parameters meet R10, R12 and R13 (with R231 for slot 0). -/
def paramsValid (p : Params) : Bool :=
  p.pmSize % 2 = 0 && p.pmSize ≤ 65536
  && p.bdtBase.toNat % 8 = 0 && p.bdtBase.toNat + 64 ≤ p.pmSize
  && geometryValid p 0 [] p.ep0

/-! ## Buffer-descriptor table -/

/-- `BdtAddr(n, f)` (R409). -/
def State.bdtAddr (s : State) (n : EpNum) (f : BdtField) : Nat :=
  (s.btable.extractLsb' 3 13).toNat * 8 + 8 * n.val + 2 * f.code.toNat

/-- `EncodeRx(s)` (R412); a size that is not encodable has no value in the spec and gets a free one
(log 21). -/
def encodeRx (s : HalfWord) : HalfWord :=
  if s.toNat % 2 = 0 ∧ 2 ≤ s.toNat ∧ s.toNat ≤ 62 then BitVec.ofNat 16 (s.toNat / 2 * 1024)
  else if s.toNat % 32 = 0 ∧ 64 ≤ s.toNat ∧ s.toNat ≤ 1024 then
    BitVec.ofNat 16 (32768 + (s.toNat / 32 - 1) * 1024)
  else Config.unencodableCountRx s

/-- `Capacity(c)` (R413). -/
def capacity (c : HalfWord) : Nat :=
  if c.getLsbD 15 then 32 * ((c.extractLsb' 10 5).toNat + 1) else 2 * (c.extractLsb' 10 5).toNat

/-- `RxCount(c)`, bits 9:0 of a count field (R414, R303). -/
def rxCount (c : HalfWord) : Nat := (c.extractLsb' 0 10).toNat

/-- A count field with bits 9:0 replaced and bits 15:10 kept (R653, R654). -/
def withCount (c : HalfWord) (l : Nat) : HalfWord := c.extractLsb' 10 6 ++ BitVec.ofNat 10 l

/-! ## Buffer ownership (R242, R401) -/

/-- Byte `a` lies in the `l` bytes from `b` on. -/
def inRange (b l a : Nat) : Bool := decide (b ≤ a) && decide (a < b + l)

/-- Endpoint n's transmit side is the hardware's and owns byte `a`: its buffer or its two BDT fields. -/
def State.txOwns (s : State) (n : EpNum) (a : Nat) : Bool :=
  s.statTx n = .valid &&
    (inRange (s.geom n).txAddr.toNat (s.geom n).txSize.toNat a || inRange (s.bdtAddr n .addrTx) 4 a)

/-- Endpoint n's receive buffer is the hardware's and holds byte `a`. -/
def State.rxBufOwns (s : State) (n : EpNum) (a : Nat) : Bool :=
  s.statRx n = .valid && inRange (s.geom n).rxAddr.toNat (s.geom n).rxSize.toNat a

/-- Endpoint n's receive side is the hardware's and owns byte `a`: its buffer or its two BDT fields. -/
def State.rxOwns (s : State) (n : EpNum) (a : Nat) : Bool :=
  s.rxBufOwns n a || (s.statRx n = .valid && inRange (s.bdtAddr n .addrRx) 4 a)

/-- The endpoint whose ownership `OwnW(a)` meets, the least such number (R401; log 13). -/
def State.ownerW (s : State) (a : Nat) : Option EpNum :=
  allEps.find? fun n => s.isBound n && (s.txOwns n a || s.rxOwns n a)

/-- The endpoint whose ownership `OwnR(a)` meets (R401). -/
def State.ownerR (s : State) (a : Nat) : Option EpNum :=
  allEps.find? fun n => s.isBound n && s.rxBufOwns n a

/-- The first of the `l` bytes from `a` on that a write may not touch, with its owner (R401): none
while the controller is not attached. -/
def State.firstOwnedW (s : State) (a l : Nat) : Option (EpNum × Nat) :=
  if s.attached then (List.range l).findSome? fun i => (s.ownerW (a + i)).map fun n => (n, a + i)
  else none

/-- The first of the `l` bytes from `a` on that a read may not touch, with its owner (R401). -/
def State.firstOwnedR (s : State) (a l : Nat) : Option (EpNum × Nat) :=
  if s.attached then (List.range l).findSome? fun i => (s.ownerR (a + i)).map fun n => (n, a + i)
  else none

/-! ## The endpoint a dispatch serves (R608) -/

/-- The endpoint number in EP_ID, bits 3:0 of a status word; every derived EP_ID is below 8 (R112; log 16). -/
def epIdOf (w : HalfWord) : EpNum := (w.extractLsb' 0 3).toFin

/-- The endpoint the running dispatch serves, from `istr_snap` (R608). -/
def State.servedEp (s : State) : Option EpNum :=
  match s.core with
  | .idle => none
  | .dispatching w _ _ _ => some (epIdOf w)

/-! ## What stays as it is while CORE or APP runs an operation -/

/-- The parameters, the endpoint table and the endpoint a dispatch serves: no access and no bus event
changes one of them, so an operation's statements can be written down from them. -/
structure Context where
  params : Params
  slots  : Vector Slot 8
  served : Option EpNum
  deriving DecidableEq, Repr

/-- The context of a state. -/
def State.context (s : State) : Context := ⟨s.params, s.slots, s.servedEp⟩

/-- `geom[n]` (R131). -/
def Context.geom (c : Context) (n : EpNum) : Geometry := slotGeom c.slots[n]

/-- Slot n is bound (R130). -/
def Context.isBound (c : Context) (n : EpNum) : Bool := slotBound c.slots[n]

/-- Role of slot n. -/
def Context.role (c : Context) (n : EpNum) : Option Role := slotRole c.slots[n]

/-- `txSize0` (42 introduction). -/
def Context.txSize0 (c : Context) : Nat := (c.geom 0).txSize.toNat

/-! ## Descriptor provider (R522) -/

/-- `r.len`, 16 bits (R23). -/
def descLen (d : Descriptor) : HalfWord := BitVec.ofNat 16 (min d.bytes.length 65535)

/-- `r.data(i)` for `off ≤ i < off + l`. -/
def descSlice (d : Descriptor) (off l : Nat) : List Byte := (d.bytes.drop off).take l

/-- `DESC_PROVIDER(type, index)` (R21). -/
def lookupDescriptor (p : Params) (type index : Byte) : Option Descriptor :=
  p.descriptors.find? fun d => d.type = type && d.index = index

end Sys2Proof.Machine
end

