-- ==== Sys2Proof/Machine/BusEngine.lean ====
section
/-! DEFINITION. The bus engine (spec 44_bus_engine.md): endpoint match, the six bus events and the BUS
rows' meanings. Each event is one atomic step of the BUS agent (R240). -/

namespace Sys2Proof.Machine

/-! ## Endpoint match (R651) -/

/-- Direction of a token: SETUP and OUT are `rx`, IN is `tx`. -/
inductive Dir where
  | rx | tx
  deriving DecidableEq, Repr

/-- What `Match` finds (R651). -/
inductive TokenMatch where
  | noAnswer
  | duplicate
  | hit (n : EpNum)
  deriving DecidableEq, Repr

/-- The status of endpoint register n for a direction. -/
def State.dirStat (s : State) (d : Dir) (n : EpNum) : Stat :=
  match d with
  | .rx => s.statRx n
  | .tx => s.statTx n

/-- The candidates of a token: registers with its EA and a status that is not disabled (R651). -/
def State.candidates (s : State) (ep : BitVec 4) (d : Dir) : List EpNum :=
  allEps.filter fun n => (s.eprF n).ea = ep && s.dirStat d n ≠ .disabled

/-- `Match(ADDR, EP, dir)` (R651). -/
def State.busMatch (s : State) (addr : BitVec 7) (ep : BitVec 4) (d : Dir) : TokenMatch :=
  if s.ef && (addr = s.add) then
    match s.candidates ep d with
    | [] => .noAnswer
    | [n] => .hit n
    | _ :: _ :: _ => .duplicate
  else .noAnswer

/-- The token's matched endpoint is isochronous: the event is no step (R659). -/
def State.isoMatch (s : State) (addr : BitVec 7) (ep : BitVec 4) (d : Dir) : Bool :=
  match s.busMatch addr ep d with
  | .hit n => s.epType n = .isochronous
  | .noAnswer => false
  | .duplicate => false

/-- The event is enabled: the controller is attached (R650), a token's endpoint is not isochronous
(R659) and an OUT carries at most 1023 bytes (R361). -/
def State.busEnabled (s : State) (e : BusEvent) : Bool :=
  s.attached &&
    match e with
    | .reset => true
    | .setup a ep _ => !s.isoMatch a ep .rx
    | .out a ep d => !s.isoMatch a ep .rx && (d.length ≤ 1023)
    | .tokenIn a ep _ => !s.isoMatch a ep .tx
    | .suspend => true
    | .resume => true

/-! ## Packet memory as the bus engine reaches it (R662) -/

/-- A BDT field read in a transaction; outside packet memory it is BUS_PM_RANGE (R232; log 22). -/
def busField (n : EpNum) (f : BdtField) (rule : Nat) (s : State) : Res HalfWord :=
  if s.bdtAddr n f + 1 ≥ s.params.pmSize then raise (.busPmRange (s.bdtAddr n f)) .bus rule s
  else .ok (s.cell (s.bdtAddr n f / 2)) s

/-- `BusWrite(a, d)` (R662). -/
def busWrite (a : Nat) (d : List Byte) (rule : Nat) (s : State) : Res Unit :=
  if a + d.length > s.params.pmSize then raise (.busPmRange (a + d.length - 1)) .bus rule s
  else .ok () (s.setBytes a d)

/-- `BusRead(a, L)` (R662). -/
def busRead (a l : Nat) (rule : Nat) (s : State) : Res (List Byte) :=
  if a + l > s.params.pmSize then raise (.busPmRange (a + l - 1)) .bus rule s
  else .ok (memGetBytes s.mem a l) s

/-- `hw: COUNT_RX[9:0] <- L`, bits 15:10 kept (R653, R654). -/
def State.setRxCount (s : State) (n : EpNum) (l : Nat) : State :=
  s.setCell (s.bdtAddr n .countRx / 2) (withCount (s.cell (s.bdtAddr n .countRx / 2)) l)

/-! ## Events -/

/-- The fields of an endpoint register after a completed SETUP (R653, R658). -/
def afterSetup (naksTx : Bool) (f : EprFields) : EprFields :=
  { f with ctrRx := true, setup := true, statRx := Stat.nak.code, dtogRx := true, dtogTx := true,
           statTx := if naksTx then Stat.nak.code else f.statTx }

/-- The fields of an endpoint register after a completed OUT (R654, R658). -/
def afterOut (f : EprFields) : EprFields :=
  { f with ctrRx := true, setup := false, statRx := Stat.nak.code, dtogRx := !f.dtogRx }

/-- The fields of an endpoint register after an acknowledged IN (R655, R658). -/
def afterIn (f : EprFields) : EprFields :=
  { f with ctrTx := true, statTx := Stat.nak.code, dtogTx := !f.dtogTx }

/-- A hardware change of EPR[n]'s fields. -/
def State.hwEpr (s : State) (n : EpNum) (g : EprFields → EprFields) : State :=
  s.setEpr n (eprWord (g (s.eprF n)))

/-- BUS_RESET (R652). -/
def busReset (s : State) : Res Unit :=
  .ok () { s with eprs := Vector.replicate 8 0x0000, daddr := 0x0000, istr := s.istr ||| 0x0400 }

/-- A SETUP on a matched endpoint register (R653). -/
def busSetupAt (n : EpNum) (k : SetupPacket) (s : State) : Res Unit :=
  if s.epType n ≠ .control then .ok () s
  else if s.params.setupAccept = .validOnly ∧ s.statRx n ≠ .valid then .ok () s
  else
    (busField n .addrRx 653 s).bind fun a s =>
    (busField n .countRx 653 s).bind fun c s =>
    if capacity c < 8 then .ok () s
    else
      (busWrite a.toNat k.bytes 653 s).andThen fun s =>
      .ok () ((s.setRxCount n 8).hwEpr n (afterSetup s.params.setupNaksTx))

/-- BUS_SETUP (R653). -/
def busSetup (addr : BitVec 7) (ep : BitVec 4) (k : SetupPacket) (s : State) : Res Unit :=
  match s.busMatch addr ep .rx with
  | .noAnswer => .ok () s
  | .duplicate => raise (.eaDuplicate ep) .bus 653 s
  | .hit n => busSetupAt n k s

/-- An OUT on a matched endpoint register (R654). -/
def busOutAt (n : EpNum) (d : List Byte) (s : State) : Res Unit :=
  if s.statRx n ≠ .valid then .ok () s
  else
    (busField n .addrRx 654 s).bind fun a s =>
    (busField n .countRx 654 s).bind fun c s =>
    if d.length > capacity c then .ok () s
    else
      (busWrite a.toNat d 654 s).andThen fun s =>
      .ok () ((s.setRxCount n d.length).hwEpr n afterOut)

/-- BUS_OUT (R654). -/
def busOut (addr : BitVec 7) (ep : BitVec 4) (d : List Byte) (s : State) : Res Unit :=
  match s.busMatch addr ep .rx with
  | .noAnswer => .ok () s
  | .duplicate => raise (.eaDuplicate ep) .bus 654 s
  | .hit n => busOutAt n d s

/-- An IN on a matched endpoint register (R655). -/
def busInAt (n : EpNum) (ack : Bool) (s : State) : Res Unit :=
  if s.statTx n ≠ .valid then .ok () s
  else
    (busField n .addrTx 655 s).bind fun a s =>
    (busField n .countTx 655 s).bind fun c s =>
    (busRead a.toNat (rxCount c) 655 s).bind fun bytes s =>
    let s := s.emit (.hostIn n bytes)
    if ack then .ok () (s.hwEpr n afterIn) else .ok () s

/-- BUS_IN (R655). -/
def busIn (addr : BitVec 7) (ep : BitVec 4) (ack : Bool) (s : State) : Res Unit :=
  match s.busMatch addr ep .tx with
  | .noAnswer => .ok () s
  | .duplicate => raise (.eaDuplicate ep) .bus 655 s
  | .hit n => busInAt n ack s

/-- BUS_SUSPEND (R656). -/
def busSuspend (s : State) : Res Unit := .ok () { s with istr := s.istr ||| 0x0800 }

/-- BUS_RESUME (R657). -/
def busResume (s : State) : Res Unit := .ok () { s with istr := s.istr ||| 0x1000 }

/-- What an enabled event does. -/
def busEffect (e : BusEvent) (s : State) : Res Unit :=
  match e with
  | .reset => busReset s
  | .setup a ep k => busSetup a ep k s
  | .out a ep d => busOut a ep d s
  | .tokenIn a ep ack => busIn a ep ack s
  | .suspend => busSuspend s
  | .resume => busResume s

/-- An event as a step: its effect when enabled; otherwise the BUS agent has no such step (R650, R659). -/
def busOutcome (e : BusEvent) (s : State) : Host.Outcome State Fault Refusal :=
  if s.busEnabled e then (busEffect e s).toOutcome else .fault .busNotEnabled

/-- The next event of the schedule, when it is one and is enabled. -/
def State.nextBus (s : State) : Option (BusEvent × State) :=
  match s.busIn with
  | [] => none
  | b :: bs =>
    match decodeBus b with
    | none => none
    | some e => if s.busEnabled e then some (e, { s with busIn := bs }) else none

/-! ## The BUS rows -/

/-- BUS_RESET (R652). -/
def execBusReset (s : State) : Host.Outcome State Fault Refusal := busOutcome .reset s

/-- BUS_SETUP (R653). -/
def execBusSetup (addr : BitVec 7) (ep : BitVec 4) (k : SetupPacket) (s : State) :
    Host.Outcome State Fault Refusal := busOutcome (.setup addr ep k) s

/-- BUS_OUT (R654). -/
def execBusOut (addr : BitVec 7) (ep : BitVec 4) (d : List Byte) (s : State) :
    Host.Outcome State Fault Refusal := busOutcome (.out addr ep d) s

/-- BUS_IN (R655). -/
def execBusIn (addr : BitVec 7) (ep : BitVec 4) (ack : Bool) (s : State) :
    Host.Outcome State Fault Refusal := busOutcome (.tokenIn addr ep ack) s

/-- BUS_SUSPEND (R656). -/
def execBusSuspend (s : State) : Host.Outcome State Fault Refusal := busOutcome .suspend s

/-- BUS_RESUME (R657). -/
def execBusResume (s : State) : Host.Outcome State Fault Refusal := busOutcome .resume s

end Sys2Proof.Machine
end

