-- ==== Sys2Proof/Machine/Prog.lean ====
section
/-! DEFINITION. Operations of CORE and APP as statements, one peripheral-register or packet-memory cell access
each (R240): what an operation is, what it does when it runs undisturbed, its next access, and its
remaining statements (R137). An operation is no part of State: State holds the answers it has had. -/

namespace Sys2Proof.Machine

/-- The statements of an operation that ends with a value. -/
inductive Prog (α : Type) where
  /-- The end, with its value. -/
  | ret (a : α)
  /-- A check: the operation ends in the state `c` gives, or goes on. -/
  | stopIf (c : State → Option State) (next : Prog α)
  /-- One access that reads a half-word. -/
  | read (f : State → HalfWord) (next : HalfWord → Prog α)
  /-- One access that writes. -/
  | write (f : State → State) (next : Prog α)
  /-- A branch on the control role state. -/
  | look (next : RoleView → Prog α)
  /-- A controller-internal update. -/
  | update (f : State → State) (next : Prog α)

/-- One operation, then the one its value gives. -/
def Prog.bind {α β : Type} (p : Prog α) (q : α → Prog β) : Prog β :=
  match p with
  | .ret a => q a
  | .stopIf c k => .stopIf c (k.bind q)
  | .read f k => .read f fun w => (k w).bind q
  | .write f k => .write f (k.bind q)
  | .look k => .look fun v => (k v).bind q
  | .update f k => .update f (k.bind q)

/-- One operation, then another. -/
def Prog.andThen {β : Type} (p : Prog Unit) (q : Prog β) : Prog β := p.bind fun _ => q

/-- The control role state as a branch sees it. -/
def State.roleView (s : State) : RoleView := ⟨s.stage, s.cursor, s.deferred⟩

/-! ## The undisturbed run -/

/-- The whole operation, no step of another agent inside it. -/
def Prog.run {α : Type} (p : Prog α) (s : State) : Res α :=
  match p with
  | .ret a => .ok a s
  | .stopIf c k =>
    match c s with
    | some s' => .stop s'
    | none => k.run s
  | .read f k => (k (f s)).run s
  | .write f k => k.run (f s)
  | .look k => (k s.roleView).run s
  | .update f k => k.run (f s)

/-- An operation of a context as an instruction's outcome. -/
def perform (p : Context → Prog Unit) (s : State) : Host.Outcome State Fault Refusal :=
  ((p s.context).run s).toOutcome

/-! ## One access (R240) -/

/-- How far one step takes an operation: to its end, or past one access, with what its statements were
answered. -/
inductive Moved (α : Type) where
  | ended (r : Res α)
  | moved (new : List Answer) (s : State)

/-- A branch's answer noted before those of the statements after it. -/
def Moved.noting {α : Type} (v : RoleView) : Moved α → Moved α
  | .ended r => .ended r
  | .moved new s => .moved (.role v :: new) s

/-- The next access of an operation, with the checks and the updates before it (R240). -/
def Prog.advance {α : Type} (p : Prog α) (s : State) : Moved α :=
  match p with
  | .ret a => .ended (.ok a s)
  | .stopIf c k =>
    match c s with
    | some s' => .ended (.stop s')
    | none => k.advance s
  | .read f _ => .moved [.read (f s)] s
  | .write f _ => .moved [.wrote] (f s)
  | .look k => ((k s.roleView).advance s).noting s.roleView
  | .update f k => k.advance (f s)

/-- The statements that remain after those answered (R137). Answers that are none of the operation's own,
which no run holds, leave it where they cease to fit. -/
def Prog.resume {α : Type} (p : Prog α) (had : List Answer) : Prog α :=
  match p, had with
  | p, [] => p
  | .ret a, _ :: _ => .ret a
  | .stopIf _ k, a :: as => k.resume (a :: as)
  | .read _ k, .read w :: as => (k w).resume as
  | .read f k, _ :: _ => .read f k
  | .write _ k, .wrote :: as => k.resume as
  | .write f k, _ :: _ => .write f k
  | .look k, .role v :: as => (k v).resume as
  | .look k, _ :: _ => .look k
  | .update _ k, a :: as => k.resume (a :: as)

/-! ## Statements -/

/-- A controller-internal update. -/
def updating (f : State → State) : Prog Unit := .update f (.ret ())

/-- One access that reads. -/
def reading (f : State → HalfWord) : Prog HalfWord := .read f .ret

/-- One access that writes. -/
def writing (f : State → State) : Prog Unit := .write f (.ret ())

/-- A check that raises a fault, ending the operation (R700). -/
def raiseIf (ag : Agent) (rule : Nat) (c : State → Option FaultKind) : Prog Unit :=
  .stopIf (fun s => (c s).map fun k => s.raise k ag rule) (.ret ())

/-- A check that refuses the command, ending it (R730). -/
def refuseIf (c : State → Option RefuseReason) : Prog Unit :=
  .stopIf (fun s => (c s).map s.refuse) (.ret ())

end Sys2Proof.Machine
end

