-- ==== Sys2Proof/Machine/Ops.lean ====
section
/-! DEFINITION. The shared operations of CORE and APP, each the statements of its pseudocode (R240):
packet-memory operations (R400 to R411), the toggle-safe update (R452), buffer-descriptor commit,
transmit and receive (R459 to R461), command admission (R733), and the interrupt entry and return (R606,
R611, R714, R715). -/

namespace Sys2Proof.Machine

/-! ## Cells and registers, one access each -/

/-- `CellRead(k)` (R400). -/
def readCell (k : Nat) : Prog HalfWord := reading fun s => s.cell k

/-- What `CellWrite(k, v)` leaves (R400). Every caller checks the range first, and past PM_SIZE there is
no cell to set (log 28). -/
def State.storeCell (s : State) (k : Nat) (v : HalfWord) : State :=
  if 2 * k < s.params.pmSize then s.setCell k v else s

/-- `CellWrite(k, v)` (R400). -/
def writeCell (k : Nat) (v : HalfWord) : Prog Unit := writing fun s => s.storeCell k v

/-- A read of EPR[n]. -/
def readEpr (n : EpNum) : Prog HalfWord := reading fun s => s.epr n

/-- `EPR[n] <-w w`, a software write (R102). -/
def writeEpr (n : EpNum) (w : HalfWord) : Prog Unit :=
  writing fun s => s.setEpr n (eprSwWrite (s.epr n) w)

/-- `CNTR <- w` (R121). -/
def writeCntr (w : HalfWord) : Prog Unit := writing fun s => s.setCntr w

/-- A read-modify-write of CNTR, one read and one write (R121, 43 introduction). -/
def rmwCntr (f : HalfWord → HalfWord) : Prog Unit :=
  (reading State.cntr).bind fun v => writeCntr (f v)

/-- `DADDR <- w` (R123). -/
def writeDaddr (w : HalfWord) : Prog Unit := writing fun s => s.setDaddr w

/-- `BTABLE <- w` (R125). -/
def writeBtable (w : HalfWord) : Prog Unit := writing fun s => s.setBtable w

/-- `BCDR <- w` (R127). -/
def writeBcdr (w : HalfWord) : Prog Unit := writing fun s => s.setBcdr w

/-- `ISTR <- w` (R111). -/
def writeIstr (w : HalfWord) : Prog Unit := writing fun s => s.setIstr w

/-! ## Packet-memory operations (R402 to R408); `ag` and `rule` are what a fault records (log 11) -/

/-- `OwnW` of the `l` bytes from `a` on (R401). -/
def State.ownFaultW (s : State) (a l : Nat) : Option FaultKind :=
  (s.firstOwnedW a l).map fun o => .pmOwnership o.1 o.2

/-- `OwnR` of the `l` bytes from `a` on (R401). -/
def State.ownFaultR (s : State) (a l : Nat) : Option FaultKind :=
  (s.firstOwnedR a l).map fun o => .pmOwnership o.1 o.2

/-- `readHalfword(addr)` (R402). -/
def readHalfword (ag : Agent) (rule : Nat) (a : Nat) : Prog HalfWord :=
  (raiseIf ag rule fun s =>
    if a % 2 = 1 then some (.pmAlign a)
    else if a + 1 ≥ s.params.pmSize then some (.pmRange a)
    else s.ownFaultR a 2).andThen (readCell (a / 2))

/-- `writeHalfword(addr, value)` (R403). -/
def writeHalfword (ag : Agent) (rule : Nat) (a : Nat) (v : HalfWord) : Prog Unit :=
  (raiseIf ag rule fun s =>
    if a % 2 = 1 then some (.pmAlign a)
    else if a + 1 ≥ s.params.pmSize then some (.pmRange a)
    else s.ownFaultW a 2).andThen (writeCell (a / 2) v)

/-- `readByte(addr)` (R404). -/
def readByte (ag : Agent) (rule : Nat) (a : Nat) : Prog Byte :=
  (raiseIf ag rule fun s =>
    if a ≥ s.params.pmSize then some (.pmRange a) else s.ownFaultR a 1).andThen <|
  (readCell (a / 2)).bind fun c => .ret (getByte c a)

/-- `writeByte(addr, value)`, a half-word read-modify-write (R405). -/
def writeByte (ag : Agent) (rule : Nat) (a : Nat) (v : Byte) : Prog Unit :=
  (raiseIf ag rule fun s =>
    if a ≥ s.params.pmSize then some (.pmRange a) else s.ownFaultW a 1).andThen <|
  (readCell (a / 2)).bind fun c => writeCell (a / 2) (setByte c a v)

/-- The bytes of `count` cells from cell `k` on, in ascending order. -/
def readCells : Nat → Nat → Prog (List Byte)
  | 0, _ => .ret []
  | count + 1, k =>
    (readCell k).bind fun c =>
    (readCells count (k + 1)).bind fun bs => .ret (loByte c :: hiByte c :: bs)

/-- `MemRead(A, L)` (R406): the cells that hold the bytes, then those bytes of them. -/
def memRead (ag : Agent) (rule : Nat) (a l : Nat) : Prog (List Byte) :=
  if l = 0 then .ret []
  else
    (raiseIf ag rule fun s =>
      if a + l > s.params.pmSize then some (.pmRange (a + l - 1)) else s.ownFaultR a l).andThen <|
    (readCells ((a + l - 1) / 2 - a / 2 + 1) (a / 2)).bind fun bs => .ret ((bs.drop (a % 2)).take l)

/-- The whole cells and the trailing half cell of a block write, from cell `k` on (R407). -/
def writeCells : Nat → List Byte → Prog Unit
  | _, [] => .ret ()
  | k, [b] => (readCell k).bind fun c => writeCell k (ofBytes b (hiByte c))
  | k, b₀ :: b₁ :: bs => (writeCell k (ofBytes b₀ b₁)).andThen (writeCells (k + 1) bs)

/-- A block write from byte `a` on: the leading half cell when `a` is odd, then the rest (R407). -/
def writeBlock (a : Nat) (d : List Byte) : Prog Unit :=
  if a % 2 = 1 then
    match d with
    | [] => .ret ()
    | b :: bs =>
      (readCell (a / 2)).bind fun c =>
      (writeCell (a / 2) (ofBytes (loByte c) b)).andThen (writeCells (a / 2 + 1) bs)
  else writeCells (a / 2) d

/-- `MemWrite(A, L, d)` with L = |d| (R407). -/
def memWrite (ag : Agent) (rule : Nat) (a : Nat) (d : List Byte) : Prog Unit :=
  if d = [] then .ret ()
  else
    (raiseIf ag rule fun s =>
      if a + d.length > s.params.pmSize then some (.pmRange (a + d.length - 1))
      else s.ownFaultW a d.length).andThen (writeBlock a d)

/-- `count` cells from cell `k` on set to 0, ascending (R408). -/
def clearCells : Nat → Nat → Prog Unit
  | 0, _ => .ret ()
  | count + 1, k => (writeCell k 0).andThen (clearCells count (k + 1))

/-- `clear()` (R408). -/
def pmClear (ag : Agent) (rule : Nat) (c : Context) : Prog Unit :=
  (raiseIf ag rule fun s => s.ownFaultW 0 s.params.pmSize).andThen (clearCells (c.params.pmSize / 2) 0)

/-! ## Buffer-descriptor table (R410, R411) -/

/-- `BdtRead(n, F)` (R410); BTABLE is read in the step of the access (R409). -/
def bdtRead (ag : Agent) (rule : Nat) (n : EpNum) (f : BdtField) : Prog HalfWord :=
  (raiseIf ag rule fun s =>
    if s.bdtAddr n f + 1 ≥ s.params.pmSize then some (.pmRange (s.bdtAddr n f)) else none).andThen <|
  reading fun s => s.cell (s.bdtAddr n f / 2)

/-- The hardware owns the BDT field: its side's status is `valid` while attached (R411). -/
def State.bdtOwned (s : State) (n : EpNum) (f : BdtField) : Bool :=
  s.attached &&
    match f with
    | .addrTx => s.statTx n = .valid
    | .countTx => s.statTx n = .valid
    | .addrRx => s.statRx n = .valid
    | .countRx => s.statRx n = .valid

/-- `BdtWrite(n, F, V)` (R411). -/
def bdtWrite (ag : Agent) (rule : Nat) (n : EpNum) (f : BdtField) (v : HalfWord) : Prog Unit :=
  (raiseIf ag rule fun s =>
    if s.bdtAddr n f + 1 ≥ s.params.pmSize then some (.pmRange (s.bdtAddr n f))
    else if s.bdtOwned n f then some (.pmOwnership n (s.bdtAddr n f)) else none).andThen <|
  writing fun s => s.storeCell (s.bdtAddr n f / 2) v

/-! ## Endpoint operations (R452, R457 to R461) -/

/-- `EpRmw(n, chg, clr)`: a read and a write of EPR[n] (R452). -/
def epRmw (n : EpNum) (chg : EprChange) (clr : EprClear) : Prog Unit :=
  (readEpr n).bind fun cur => writeEpr n (toggleSafeWrite cur chg clr)

/-- `EpRmw(n, {STAT_TX = v})`. -/
def setTxStatus (n : EpNum) (v : Stat) : Prog Unit := epRmw n { statTx := some v.code } {}

/-- `EpRmw(n, {STAT_RX = v})`. -/
def setRxStatus (n : EpNum) (v : Stat) : Prog Unit := epRmw n { statRx := some v.code } {}

/-- `ClearCtr(n, snap)`: one write, computed from the snapshot (R457). -/
def clearCtr (n : EpNum) (snap : HalfWord) : Prog Unit :=
  writeEpr n (toggleSafeWrite snap {} { ctrRx := true, ctrTx := true })

/-- `CommitBd(n)`: four BDT writes in this order (R459). -/
def commitBd (ag : Agent) (n : EpNum) (c : Context) : Prog Unit :=
  let g := c.geom n
  (bdtWrite ag 459 n .addrTx g.txAddr).andThen <|
  (bdtWrite ag 459 n .countTx 0x0000).andThen <|
  (bdtWrite ag 459 n .addrRx g.rxAddr).andThen <|
  bdtWrite ag 459 n .countRx (encodeRx g.rxSize)

/-- `transmit(data, size)`: payload, COUNT_TX, then STAT_TX `valid` (R460). -/
def transmit (ag : Agent) (n : EpNum) (d : List Byte) (c : Context) : Prog Unit :=
  let g := c.geom n
  let cnt := min d.length g.txSize.toNat
  (memWrite ag 460 g.txAddr.toNat (d.take cnt)).andThen <|
  (bdtWrite ag 460 n .countTx (BitVec.ofNat 16 cnt)).andThen <|
  setTxStatus n .valid

/-- `receive(data, size)`: the received length, the payload, then STAT_RX `valid` (R461). -/
def receive (ag : Agent) (n : EpNum) (l : Nat) (c : Context) : Prog (List Byte) :=
  let g := c.geom n
  (bdtRead ag 461 n .countRx).bind fun v =>
  (memRead ag 461 g.rxAddr.toNat (min l (rxCount v))).bind fun out =>
  (setRxStatus n .valid).andThen (.ret out)

/-- An operation run on each listed slot that is bound, in order (R601, R607). -/
def forBound (f : EpNum → Prog Unit) (c : Context) : List EpNum → Prog Unit
  | [] => .ret ()
  | n :: ns => if c.isBound n then (f n).andThen (forBound f c ns) else forBound f c ns

/-! ## Interrupt entry and return (R606, R611, R711, R714, R715) -/

/-- Interrupt entry: the status word is saved in `istr_snap` and the latches cleared in one atomic
access; control goes to the handlers the word selects (R606, R714, R352). -/
def takeInterrupt (s : State) : State :=
  { s with
    core := .dispatching s.istrRead none (decodeIstrd s.istrRead) []
    istr := istrWrite s.istr 0x0000
    draws := s.draws + 1 }

/-- The APP program after a whole dispatch has run: an IRQ line it was waiting at is done (R870). -/
def afterDispatch : List Line → List Line
  | .irq :: ls => ls
  | ls => ls

/-- `DispatchExit()`: CORE is idle and the snapshots are gone (R611, R715). -/
def dispatchExit (s : State) : State :=
  { s with core := .idle, program := afterDispatch s.program }

/-- `epr_snap <- w`, during a dispatch (R608). -/
def State.setEprSnap (s : State) (w : HalfWord) : State :=
  match s.core with
  | .idle => s
  | .dispatching i _ rest had => { s with core := .dispatching i (some w) rest had }

/-- The remaining statements of the running dispatch set: its rows, and the answers the first has had. -/
def State.setRows (s : State) (rest : List Instr) (had : List Answer) : State :=
  match s.core with
  | .idle => s
  | .dispatching w e _ _ => { s with core := .dispatching w e rest had }

/-! ## Command admission (R733) -/

/-- Step 1: the controller is initialised. -/
def State.admitInit (s : State) : Option RefuseReason :=
  if s.initialized then none else some .notInit

/-- BDT_WRITE: steps 1 and 2. -/
def State.admitBdtWrite (n : EpNum) (s : State) : Option RefuseReason :=
  if s.initialized then (if n = 0 then some .ep0App else none) else some .notInit

/-- A command of 41_endpoint.md: steps 1, 2 and 3. -/
def State.admitEp (n : EpNum) (s : State) : Option RefuseReason :=
  if s.initialized then
    if n = 0 then some .ep0App else if s.isBound n then none else some .epUnbound
  else some .notInit

/-- A command: refused with a reason, or its operation (R730, R733). -/
def command (refusal : State → Option RefuseReason) (p : Prog Unit) : Prog Unit :=
  (refuseIf refusal).andThen p

/-- `emit Result(v)` of a command port operation (R334). -/
def giveResult {α : Type} (p : Prog α) (v : α → ResultValue) : Prog Unit :=
  p.bind fun a => updating fun s => s.emit (.result (v a))

end Sys2Proof.Machine
end

