-- ==== Sys2Proof/Machine/ControlSequencer.lean ====
section
/-! DEFINITION. The control-transfer sequencer (spec 42_control_sequencer.md): the role state's
actions, the request rules R507 to R515, the control hooks R501 to R503, R516, R517 and the generic
hooks R465, with the SETUP and HOOK rows' meanings. All of it runs on CORE. -/

namespace Sys2Proof.Machine

/-! ## Actions on the role state -/

/-- `transmit0(bytes)` (42 introduction, R460). -/
def transmit0 (d : List Byte) (c : Context) : Prog Unit := transmit .core 0 d c

/-- `rearm_rx()` (42 introduction). -/
def rearmRx : Prog Unit := setRxStatus 0 .valid

/-- `txSize0` (42 introduction). -/
def State.txSize0 (s : State) : Nat := (s.geom 0).txSize.toNat

/-- `DiscardCursor()` (R521). -/
def discardCursor (s : State) : State :=
  match s.cursor with
  | none => s
  | some _ => { s.emit .descDeinit with cursor := none }

/-- `EstablishStage(bmRequestType, wLength)` (R505). -/
def establishStage (r : Request) (s : State) : State :=
  if r.wLength = 0 then s
  else { s with stage := if r.bmRequestType.getLsbD 7 then .dataIn else .dataOut,
                remaining := r.wLength }

/-- `StatusStage()` (R520): address and enable bit in one write. -/
def statusStage : Prog Unit :=
  .look fun v =>
    if v.deferred = 0 then .ret ()
    else
      (writeDaddr (0x0080 ||| (v.deferred &&& 0x007F))).andThen <|
      updating fun s => { s with devStatus := .addressed, deferred := 0 }

/-- The size of the next chunk of a pending descriptor (R518). -/
def chunkSize (txSize : Nat) (c : Cursor) : Nat := min txSize (c.len.toNat - c.off.toNat)

/-- The cursor after a chunk (R518): advanced, or released when the descriptor is fully sent. -/
def advanceCursor (s : State) : State :=
  match s.cursor with
  | none => s
  | some c =>
    let off := c.off + BitVec.ofNat 16 (chunkSize s.txSize0 c)
    if c.len.toNat ≤ off.toNat then { s.emit .descDeinit with cursor := none }
    else { s with cursor := some { c with off := off } }

/-- `DataStageIn()` (R518). -/
def dataStageIn (x : Context) : Prog Unit :=
  .look fun v =>
    match v.cursor with
    | some c =>
      (transmit0 (descSlice c.desc c.off.toNat (chunkSize x.txSize0 c)) x).andThen <|
      updating advanceCursor
    | none => (updating fun s => { s with stage := .none }).andThen statusStage

/-- `DataStageOut()`: nothing (R519). -/
def dataStageOut : Prog Unit := .ret ()

/-! ## The request rules -/

/-- GET_STATUS's statements (R507). -/
def doGetStatus (c : Context) : Prog Unit := transmit0 c.params.getStatusResponse c

/-- CLEAR_FEATURE's statements (R508). -/
def doClearFeature (c : Context) : Prog Unit := transmit0 [] c

/-- SET_FEATURE's statements (R509). -/
def doSetFeature (c : Context) : Prog Unit := transmit0 [] c

/-- SET_ADDRESS's statements (R510). -/
def doSetAddress (r : Request) (c : Context) : Prog Unit :=
  (updating fun s => { s with deferred := r.wValue }).andThen (transmit0 [] c)

/-- After the first packet of a descriptor: a cursor if more is to come, else the handle is released
(R511). -/
def afterFirstPacket (d : Descriptor) (ts : Nat) (r : Request) (s : State) : State :=
  if ts < (descLen d).toNat ∧ ts < r.wLength.toNat then
    { s with cursor := some ⟨d, descLen d, BitVec.ofNat 16 ts⟩ }
  else s.emit .descDeinit

/-- GET_DESCRIPTOR's statements (R511): type in wValue[15:8], index in wValue[7:0] (R323). -/
def doGetDescriptor (r : Request) (c : Context) : Prog Unit :=
  match lookupDescriptor c.params (hiByte r.wValue) (loByte r.wValue) with
  | none => updating fun s => s.emit (.descLookup (hiByte r.wValue) (loByte r.wValue) false)
  | some d =>
    let ts := min (min r.wLength.toNat (descLen d).toNat) c.txSize0
    (updating fun s =>
      (s.emit (.descLookup (hiByte r.wValue) (loByte r.wValue) true)).emit .descInit).andThen <|
    (transmit0 (descSlice d 0 ts) c).andThen <|
    updating (afterFirstPacket d ts r)

/-- SET_DESCRIPTOR's statements (R512). -/
def doSetDescriptor (c : Context) : Prog Unit := transmit0 [] c

/-- GET_CONFIGURATION's statements (R513). -/
def doGetConfiguration (c : Context) : Prog Unit := transmit0 c.params.getConfigurationResponse c

/-- SET_CONFIGURATION's statements (R514). -/
def doSetConfiguration (c : Context) : Prog Unit :=
  (updating fun s => { s with devStatus := .configured }).andThen (transmit0 [] c)

/-- An unrecognised request: nothing (R515). -/
def doUnrecognisedRequest : Prog Unit := .ret ()

/-- The request rule a setup packet selected (R506). -/
def runRequest (q : RequestName) (r : Request) (c : Context) : Prog Unit :=
  match q with
  | .getStatus => doGetStatus c
  | .clearFeature => doClearFeature c
  | .setFeature => doSetFeature c
  | .setAddress => doSetAddress r c
  | .getDescriptor => doGetDescriptor r c
  | .setDescriptor => doSetDescriptor c
  | .getConfiguration => doGetConfiguration c
  | .setConfiguration => doSetConfiguration c
  | .unrecognised _ => doUnrecognisedRequest

/-! ## The hooks -/

/-- A hook of a generic endpoint: nothing (R465). -/
def genericHook : Prog Unit := .ret ()

/-- The control `onInit`: nothing (R501). -/
def doControlOnInit : Prog Unit := .ret ()

/-- The role state after `onReset` (R502). -/
def clearRole (s : State) : State :=
  { discardCursor { s with stage := .none, remaining := 0 } with deferred := 0 }

/-- The control `onReset` (R502). -/
def doControlOnReset : Prog Unit :=
  (epRmw 0 { epType := some EpType.control.code } {}).andThen <|
  (setTxStatus 0 .nak).andThen <|
  (setRxStatus 0 .valid).andThen <|
  updating clearRole

/-- The control `onSetupReceptionComplete` (R503). -/
def doControlOnSetup (c : Context) : Prog Unit :=
  (updating fun s => discardCursor { s with stage := .none, remaining := 0 }).andThen <|
  (memRead .core 503 (c.geom 0).rxAddr.toNat 8).bind fun bs =>
  let k := SetupPacket.ofBytes bs
  (updating (establishStage k.request)).andThen <|
  (runRequest (selectRequest c.params.reqTypeFilter k) k.request c).andThen rearmRx

/-- The control `onReceptionComplete` (R516). -/
def doControlOnReception (c : Context) : Prog Unit :=
  (.look fun v =>
    match v.stage with
    | .dataIn => dataStageIn c
    | .dataOut => dataStageOut
    | .none => statusStage : Prog Unit).andThen rearmRx

/-- The control `onTransmissionComplete` (R517). -/
def doControlOnTransmission (c : Context) : Prog Unit :=
  .look fun v =>
    match v.stage with
    | .dataIn => dataStageIn c
    | .none => if c.params.statusOnTxNone then statusStage else .ret ()
    | .dataOut => .ret ()

/-- The statements of a hook of a role (R466). -/
def runHook (r : Role) (h : Hook) (c : Context) : Prog Unit :=
  match r, h with
  | .generic, .onInit => genericHook
  | .generic, .onReset => genericHook
  | .generic, .onSetupReceptionComplete => genericHook
  | .generic, .onReceptionComplete => genericHook
  | .generic, .onTransmissionComplete => genericHook
  | .control, .onInit => doControlOnInit
  | .control, .onReset => doControlOnReset
  | .control, .onSetupReceptionComplete => doControlOnSetup c
  | .control, .onReceptionComplete => doControlOnReception c
  | .control, .onTransmissionComplete => doControlOnTransmission c

/-- `hook(n, h)` (R466): the role of slot n decides; an unbound slot has no hook (R608). -/
def hook (n : EpNum) (h : Hook) (c : Context) : Prog Unit :=
  match c.role n with
  | none => .ret ()
  | some r => runHook r h c

/-! ## The SETUP rows -/

/-- GET_STATUS (R507). -/
def execGetStatus (_ : Request) (s : State) : Host.Outcome State Fault Refusal := perform doGetStatus s

/-- CLEAR_FEATURE (R508): wValue and wIndex are not read. -/
def execClearFeature (_ : Request) (s : State) : Host.Outcome State Fault Refusal :=
  perform doClearFeature s

/-- SET_FEATURE (R509). -/
def execSetFeature (_ : Request) (s : State) : Host.Outcome State Fault Refusal := perform doSetFeature s

/-- SET_ADDRESS (R510). -/
def execSetAddress (r : Request) (s : State) : Host.Outcome State Fault Refusal :=
  perform (doSetAddress r) s

/-- GET_DESCRIPTOR (R511). -/
def execGetDescriptor (r : Request) (s : State) : Host.Outcome State Fault Refusal :=
  perform (doGetDescriptor r) s

/-- SET_DESCRIPTOR (R512). -/
def execSetDescriptor (_ : Request) (s : State) : Host.Outcome State Fault Refusal :=
  perform doSetDescriptor s

/-- GET_CONFIGURATION (R513). -/
def execGetConfiguration (_ : Request) (s : State) : Host.Outcome State Fault Refusal :=
  perform doGetConfiguration s

/-- SET_CONFIGURATION (R514): wValue is not read. -/
def execSetConfiguration (_ : Request) (s : State) : Host.Outcome State Fault Refusal :=
  perform doSetConfiguration s

/-- UNRECOGNISED_REQUEST (R515). -/
def execUnrecognisedRequest (_ : Byte) (_ : Request) (s : State) : Host.Outcome State Fault Refusal :=
  perform (fun _ => doUnrecognisedRequest) s

/-! ## The HOOK rows -/

/-- GENERIC_onInit (R465). -/
def execGenericOnInit (s : State) : Host.Outcome State Fault Refusal :=
  perform (runHook .generic .onInit) s

/-- GENERIC_onReset (R465). -/
def execGenericOnReset (s : State) : Host.Outcome State Fault Refusal :=
  perform (runHook .generic .onReset) s

/-- GENERIC_onSetupReceptionComplete (R465). -/
def execGenericOnSetupReceptionComplete (s : State) : Host.Outcome State Fault Refusal :=
  perform (runHook .generic .onSetupReceptionComplete) s

/-- GENERIC_onReceptionComplete (R465). -/
def execGenericOnReceptionComplete (s : State) : Host.Outcome State Fault Refusal :=
  perform (runHook .generic .onReceptionComplete) s

/-- GENERIC_onTransmissionComplete (R465). -/
def execGenericOnTransmissionComplete (s : State) : Host.Outcome State Fault Refusal :=
  perform (runHook .generic .onTransmissionComplete) s

/-- CONTROL_onInit (R501). -/
def execControlOnInit (s : State) : Host.Outcome State Fault Refusal :=
  perform (runHook .control .onInit) s

/-- CONTROL_onReset (R502). -/
def execControlOnReset (s : State) : Host.Outcome State Fault Refusal :=
  perform (runHook .control .onReset) s

/-- CONTROL_onSetupReceptionComplete (R503). -/
def execControlOnSetupReceptionComplete (s : State) : Host.Outcome State Fault Refusal :=
  perform (runHook .control .onSetupReceptionComplete) s

/-- CONTROL_onReceptionComplete (R516). -/
def execControlOnReceptionComplete (s : State) : Host.Outcome State Fault Refusal :=
  perform (runHook .control .onReceptionComplete) s

/-- CONTROL_onTransmissionComplete (R517). -/
def execControlOnTransmissionComplete (s : State) : Host.Outcome State Fault Refusal :=
  perform (runHook .control .onTransmissionComplete) s

end Sys2Proof.Machine
end

