-- ==== Sys2Proof/Machine/Endpoint.lean ====
section
/-! DEFINITION. The endpoint commands (spec 41_endpoint.md, R453 to R464), as APP issues them:
admission (R450, R733), the operation, the Result event. -/

namespace Sys2Proof.Machine

/-- Endpoint `reset()`: BDT commit, setAddress, onReset (R463). -/
def epReset (ag : Agent) (c : Context) (n : EpNum) : Prog Unit :=
  (commitBd ag n c).andThen <|
  (epRmw n { ea := some (BitVec.ofNat 4 n.val) } {}).andThen <|
  hook n .onReset c

/-- Endpoint initialisation: BDT commit, onInit (R464). -/
def epInit (ag : Agent) (c : Context) (n : EpNum) : Prog Unit :=
  (commitBd ag n c).andThen (hook n .onInit c)

/-- EP_SET_ADDRESS's statements (R453). -/
def doEpSetAddress (n : EpNum) (v : BitVec 4) : Prog Unit :=
  command (State.admitEp n) (epRmw n { ea := some v } {})

/-- EP_SET_ADDRESS (R453). -/
def execEpSetAddress (n : EpNum) (v : BitVec 4) (s : State) : Host.Outcome State Fault Refusal :=
  perform (fun _ => doEpSetAddress n v) s

/-- EP_SET_TYPE's statements (R454). -/
def doEpSetType (n : EpNum) (t : EpType) : Prog Unit :=
  command (State.admitEp n) (epRmw n { epType := some t.code } {})

/-- EP_SET_TYPE (R454). -/
def execEpSetType (n : EpNum) (t : EpType) (s : State) : Host.Outcome State Fault Refusal :=
  perform (fun _ => doEpSetType n t) s

/-- EP_SET_TX_STATUS's statements (R455). -/
def doEpSetTxStatus (n : EpNum) (v : Stat) : Prog Unit :=
  command (State.admitEp n) (setTxStatus n v)

/-- EP_SET_TX_STATUS (R455). -/
def execEpSetTxStatus (n : EpNum) (v : Stat) (s : State) : Host.Outcome State Fault Refusal :=
  perform (fun _ => doEpSetTxStatus n v) s

/-- EP_SET_RX_STATUS's statements (R456). -/
def doEpSetRxStatus (n : EpNum) (v : Stat) : Prog Unit :=
  command (State.admitEp n) (setRxStatus n v)

/-- EP_SET_RX_STATUS (R456). -/
def execEpSetRxStatus (n : EpNum) (v : Stat) (s : State) : Host.Outcome State Fault Refusal :=
  perform (fun _ => doEpSetRxStatus n v) s

/-- EP_CLEAR_CTR's statements: a read, then the clear (R457). -/
def doEpClearCtr (n : EpNum) : Prog Unit :=
  command (State.admitEp n) ((readEpr n).bind (clearCtr n))

/-- EP_CLEAR_CTR (R457). -/
def execEpClearCtr (n : EpNum) (s : State) : Host.Outcome State Fault Refusal :=
  perform (fun _ => doEpClearCtr n) s

/-- EP_SET_BD's statements (R458): an invalid geometry is refused, packet memory is not written. -/
def doEpSetBd (n : EpNum) (g : Geometry) : Prog Unit :=
  command (State.admitEp n) <|
  command (fun s => if s.geomOk n g then none else some .geometry) <|
  updating fun s => s.setGeom n g

/-- EP_SET_BD (R458). -/
def execEpSetBd (n : EpNum) (g : Geometry) (s : State) : Host.Outcome State Fault Refusal :=
  perform (fun _ => doEpSetBd n g) s

/-- EP_INIT_BD's statements (R459). -/
def doEpInitBd (n : EpNum) (c : Context) : Prog Unit := command (State.admitEp n) (commitBd .app n c)

/-- EP_INIT_BD (R459). -/
def execEpInitBd (n : EpNum) (s : State) : Host.Outcome State Fault Refusal := perform (doEpInitBd n) s

/-- EP_TRANSMIT's statements (R460). -/
def doEpTransmit (n : EpNum) (d : List Byte) (c : Context) : Prog Unit :=
  command (State.admitEp n) (transmit .app n d c)

/-- EP_TRANSMIT (R460). -/
def execEpTransmit (n : EpNum) (d : List Byte) (s : State) : Host.Outcome State Fault Refusal :=
  perform (doEpTransmit n d) s

/-- EP_RECEIVE's statements (R461). -/
def doEpReceive (n : EpNum) (l : HalfWord) (c : Context) : Prog Unit :=
  command (State.admitEp n) (giveResult (receive .app n l.toNat c) .bytes)

/-- EP_RECEIVE (R461). -/
def execEpReceive (n : EpNum) (l : HalfWord) (s : State) : Host.Outcome State Fault Refusal :=
  perform (doEpReceive n l) s

/-- EP_GET_RX_LEN's statements (R462). -/
def doEpGetRxLen (n : EpNum) : Prog Unit :=
  command (State.admitEp n)
    (giveResult (bdtRead .app 462 n .countRx) fun v => .u16 (BitVec.ofNat 16 (rxCount v)))

/-- EP_GET_RX_LEN (R462). -/
def execEpGetRxLen (n : EpNum) (s : State) : Host.Outcome State Fault Refusal :=
  perform (fun _ => doEpGetRxLen n) s

/-- EP_RESET's statements (R463). -/
def doEpReset (n : EpNum) (c : Context) : Prog Unit := command (State.admitEp n) (epReset .app c n)

/-- EP_RESET (R463). -/
def execEpReset (n : EpNum) (s : State) : Host.Outcome State Fault Refusal := perform (doEpReset n) s

/-- EP_INIT's statements (R464). -/
def doEpInit (n : EpNum) (c : Context) : Prog Unit := command (State.admitEp n) (epInit .app c n)

/-- EP_INIT (R464). -/
def execEpInit (n : EpNum) (s : State) : Host.Outcome State Fault Refusal := perform (doEpInit n) s

end Sys2Proof.Machine
end

