-- ==== Sys2Proof/Machine/DeviceController.lean ====
section
/-! DEFINITION. The device controller (spec 43_device_controller.md): init, connect, disconnect,
binding, status read, the interrupt entry point, the four handlers (format ISTRD) and the CTR
dispatch (format CTRD). -/

namespace Sys2Proof.Machine

/-! ## Commands -/

/-- DC_INIT's statements, `init()` (R601): admitted in every state (R733). -/
def doDcInit (c : Context) : Prog Unit :=
  (updating fun s => { s with clkOn := true, vdetOn := true }).andThen <|
  (writeCntr 0x0003).andThen <|
  (pmClear .app 601 c).andThen <|
  (writeIstr 0x0000).andThen <|
  (writeBtable c.params.bdtBase).andThen <|
  (writeDaddr 0x0000).andThen <|
  (forBound (epInit .app c) c allEps).andThen <|
  (writeCntr 0x0002).andThen <|
  updating fun s => { s with devStatus := .powered, initialized := true }

/-- DC_INIT (R601). -/
def execDcInit (s : State) : Host.Outcome State Fault Refusal := perform doDcInit s

/-- DC_CONNECT's statements, `connect()` (R602). -/
def doDcConnect : Prog Unit :=
  command State.admitInit <|
  (rmwCntr (clearBits cntrPdwn)).andThen <|
  (updating fun s => { s with irqEnabled := true }).andThen <|
  (rmwCntr (setBits cntrMasks)).andThen <|
  (updating fun s => { s with pinsAf := true }).andThen <|
  writeBcdr 0x8000

/-- DC_CONNECT (R602). -/
def execDcConnect (s : State) : Host.Outcome State Fault Refusal := perform (fun _ => doDcConnect) s

/-- DC_DISCONNECT's statements, `disconnect()` (R603). -/
def doDcDisconnect : Prog Unit :=
  command State.admitInit <|
  (writeBcdr 0x0000).andThen <|
  (updating fun s => { s with pinsAf := false }).andThen <|
  (rmwCntr (clearBits cntrMasks)).andThen <|
  (updating fun s => { s with irqEnabled := false }).andThen <|
  rmwCntr (setBits cntrPdwn)

/-- DC_DISCONNECT (R603). -/
def execDcDisconnect (s : State) : Host.Outcome State Fault Refusal :=
  perform (fun _ => doDcDisconnect) s

/-- The checks of DC_SET_ENDPOINT, in the order of the rule (R604, R733). -/
def State.admitBinding (n : EpNum) (t : EpType) (g : Geometry) (s : State) : Option RefuseReason :=
  if n = 0 then some .ep0Bound
  else if t = .control then some .badType
  else if s.geomOk n g then none else some .geometry

/-- DC_SET_ENDPOINT's statements (R604). -/
def doDcSetEndpoint (n : EpNum) (t : EpType) (g : Geometry) : Prog Unit :=
  command (State.admitBinding n t g) (updating fun s => s.setSlot n (.bound .generic g t))

/-- DC_SET_ENDPOINT (R604). -/
def execDcSetEndpoint (n : EpNum) (t : EpType) (g : Geometry) (s : State) :
    Host.Outcome State Fault Refusal :=
  perform (fun _ => doDcSetEndpoint n t g) s

/-- DC_GET_STATUS's statements (R605): admitted in every state (R733). -/
def doDcGetStatus : Prog Unit := updating fun s => s.emit (.result (.u16 s.devStatus.code))

/-- DC_GET_STATUS (R605). -/
def execDcGetStatus (s : State) : Host.Outcome State Fault Refusal := perform (fun _ => doDcGetStatus) s

/-- DC_IRQ issued by APP: refused (R734). -/
def doDcIrq : Prog Unit := refuseIf fun _ => some .irqByApp

/-- DC_IRQ, the interrupt entry point (R606, R711, R714): issued by APP, that is while APP runs a
command, it is refused (R734); otherwise it starts a dispatch when one may start (log 17). -/
def execDcIrq (s : State) : Host.Outcome State Fault Refusal :=
  if s.app ≠ .idle then perform (fun _ => doDcIrq) s
  else if s.canDispatch then .next (takeInterrupt s)
  else .fault .dispatchNotEnabled

/-! ## CTR dispatch (R351, R608) -/

/-- CTR_SETUP's statements: the hook of a completed SETUP on endpoint n. -/
def doCtrSetup (n : EpNum) (c : Context) : Prog Unit := hook n .onSetupReceptionComplete c

/-- CTR_RECEPTION's statements: the hook of a completed reception on endpoint n. -/
def doCtrReception (n : EpNum) (c : Context) : Prog Unit := hook n .onReceptionComplete c

/-- CTR_TRANSMISSION's statements: the hook of a completed transmission on endpoint n. -/
def doCtrTransmission (n : EpNum) (c : Context) : Prog Unit := hook n .onTransmissionComplete c

/-- The hooks a key selects, reception before transmission (R351, R608). -/
def ctrHooks (n : EpNum) (k : BitVec 17) (c : Context) : Prog Unit :=
  (if k.getLsbD 16 && k.getLsbD 11 then doCtrSetup n c
   else if k.getLsbD 16 then doCtrReception n c else .ret ()).andThen <|
  if k.getLsbD 7 then doCtrTransmission n c else .ret ()

/-- The dispatch key `{dir, snap}` (R351). -/
def ctrKey (dir : Bool) (snap : HalfWord) : BitVec 17 := BitVec.ofBool dir ++ snap

/-- A CTRD row run on the endpoint the dispatch serves. -/
def ctrRow (p : EpNum → Context → Prog Unit) (s : State) : Host.Outcome State Fault Refusal :=
  match s.servedEp with
  | none => .fault .notDispatching
  | some n => perform (p n) s

/-- CTR_SETUP (R608). -/
def execCtrSetup (_ : BitVec 17) (s : State) : Host.Outcome State Fault Refusal := ctrRow doCtrSetup s

/-- CTR_RECEPTION (R608). -/
def execCtrReception (_ : BitVec 17) (s : State) : Host.Outcome State Fault Refusal :=
  ctrRow doCtrReception s

/-- CTR_TRANSMISSION (R608). -/
def execCtrTransmission (_ : BitVec 17) (s : State) : Host.Outcome State Fault Refusal :=
  ctrRow doCtrTransmission s

/-! ## Handlers (R607 to R610) -/

/-- IRQ_RESET's statements, `BusReset()` (R607). -/
def doIrqReset (c : Context) : Prog Unit :=
  (writeDaddr 0x0080).andThen <|
  (forBound (epReset .core c) c allEps).andThen <|
  updating fun s => { s.emit .cbReset with devStatus := .default }

/-- IRQ_CTR's statements, `CtrHandling()` with the snapshot `w` (R608). -/
def doIrqCtr (w : HalfWord) (c : Context) : Prog Unit :=
  (readEpr (epIdOf w)).bind fun snap =>
  if c.isBound (epIdOf w) then
    (updating fun s => s.setEprSnap snap).andThen <|
    (clearCtr (epIdOf w) snap).andThen <|
    ctrHooks (epIdOf w) (ctrKey (w.getLsbD 4) snap) c
  else clearCtr (epIdOf w) snap

/-- IRQ_SUSP's statements, `Suspend()` (R609). -/
def doIrqSusp : Prog Unit :=
  (rmwCntr (setBits cntrFsusp)).andThen <|
  updating fun s => { s with preSuspend := s.devStatus, devStatus := .suspended }.emit .cbSuspend

/-- IRQ_WKUP's statements, `Wakeup()` (R610). -/
def doIrqWkup : Prog Unit :=
  (rmwCntr (clearBits cntrFsusp)).andThen <|
  updating fun s =>
    if s.devStatus = .suspended then { s with devStatus := s.preSuspend }.emit .cbResume else s

/-- IRQ_RESET (R607). -/
def execIrqReset (_ : HalfWord) (s : State) : Host.Outcome State Fault Refusal := perform doIrqReset s

/-- IRQ_CTR (R608). -/
def execIrqCtr (w : HalfWord) (s : State) : Host.Outcome State Fault Refusal := perform (doIrqCtr w) s

/-- IRQ_SUSP (R609). -/
def execIrqSusp (_ : HalfWord) (s : State) : Host.Outcome State Fault Refusal :=
  perform (fun _ => doIrqSusp) s

/-- IRQ_WKUP (R610). -/
def execIrqWkup (_ : HalfWord) (s : State) : Host.Outcome State Fault Refusal :=
  perform (fun _ => doIrqWkup) s

end Sys2Proof.Machine
end

