-- ==== Sys2Proof/Machine/PacketMemory.lean ====
section
/-! DEFINITION. The packet-memory and buffer-descriptor-table commands (R402 to R411), as APP issues
them on the command port: admission (R733), the operation, the Result event (R334). Of each command,
`do…` is its statements and `exec…` their undisturbed run. -/

namespace Sys2Proof.Machine

/-- PM_READ_HW's statements (R402). -/
def doPmReadHw (a : HalfWord) : Prog Unit :=
  command State.admitInit (giveResult (readHalfword .app 402 a.toNat) .u16)

/-- PM_READ_HW (R402). -/
def execPmReadHw (a : HalfWord) (s : State) : Host.Outcome State Fault Refusal :=
  perform (fun _ => doPmReadHw a) s

/-- PM_WRITE_HW's statements (R403). -/
def doPmWriteHw (a v : HalfWord) : Prog Unit := command State.admitInit (writeHalfword .app 403 a.toNat v)

/-- PM_WRITE_HW (R403). -/
def execPmWriteHw (a v : HalfWord) (s : State) : Host.Outcome State Fault Refusal :=
  perform (fun _ => doPmWriteHw a v) s

/-- PM_READ_B's statements (R404). -/
def doPmReadB (a : HalfWord) : Prog Unit :=
  command State.admitInit (giveResult (readByte .app 404 a.toNat) .u8)

/-- PM_READ_B (R404). -/
def execPmReadB (a : HalfWord) (s : State) : Host.Outcome State Fault Refusal :=
  perform (fun _ => doPmReadB a) s

/-- PM_WRITE_B's statements (R405). -/
def doPmWriteB (a : HalfWord) (v : Byte) : Prog Unit :=
  command State.admitInit (writeByte .app 405 a.toNat v)

/-- PM_WRITE_B (R405). -/
def execPmWriteB (a : HalfWord) (v : Byte) (s : State) : Host.Outcome State Fault Refusal :=
  perform (fun _ => doPmWriteB a v) s

/-- PM_READ's statements (R406). -/
def doPmRead (a l : HalfWord) : Prog Unit :=
  command State.admitInit (giveResult (memRead .app 406 a.toNat l.toNat) .bytes)

/-- PM_READ (R406). -/
def execPmRead (a l : HalfWord) (s : State) : Host.Outcome State Fault Refusal :=
  perform (fun _ => doPmRead a l) s

/-- PM_WRITE's statements (R407). -/
def doPmWrite (a : HalfWord) (d : List Byte) : Prog Unit :=
  command State.admitInit (memWrite .app 407 a.toNat d)

/-- PM_WRITE (R407). -/
def execPmWrite (a : HalfWord) (d : List Byte) (s : State) : Host.Outcome State Fault Refusal :=
  perform (fun _ => doPmWrite a d) s

/-- PM_CLEAR's statements (R408). -/
def doPmClear (c : Context) : Prog Unit := command State.admitInit (pmClear .app 408 c)

/-- PM_CLEAR (R408). -/
def execPmClear (s : State) : Host.Outcome State Fault Refusal := perform doPmClear s

/-- BDT_READ's statements (R410): any endpoint may be named (R733). -/
def doBdtRead (n : EpNum) (f : BdtField) : Prog Unit :=
  command State.admitInit (giveResult (bdtRead .app 410 n f) .u16)

/-- BDT_READ (R410). -/
def execBdtRead (n : EpNum) (f : BdtField) (s : State) : Host.Outcome State Fault Refusal :=
  perform (fun _ => doBdtRead n f) s

/-- BDT_WRITE's statements (R411). -/
def doBdtWrite (n : EpNum) (f : BdtField) (v : HalfWord) : Prog Unit :=
  command (State.admitBdtWrite n) (bdtWrite .app 411 n f v)

/-- BDT_WRITE (R411). -/
def execBdtWrite (n : EpNum) (f : BdtField) (v : HalfWord) (s : State) :
    Host.Outcome State Fault Refusal :=
  perform (fun _ => doBdtWrite n f v) s

end Sys2Proof.Machine
end

