-- ==== Sys2Proof/Machine/Dispatch.lean ====
section
/-! DEFINITION. The dispatch of an instruction to its meaning: one arm per constructor. -/

namespace Sys2Proof.Machine

/-- What an instruction does. -/
def exec (i : Instr) (s : State) : Host.Outcome State Fault Refusal :=
  match i with
  | .pmReadHw a => Sys2Proof.Machine.execPmReadHw a s
  | .pmWriteHw a v => Sys2Proof.Machine.execPmWriteHw a v s
  | .pmReadB a => Sys2Proof.Machine.execPmReadB a s
  | .pmWriteB a v => Sys2Proof.Machine.execPmWriteB a v s
  | .pmRead a l => Sys2Proof.Machine.execPmRead a l s
  | .pmWrite a d => Sys2Proof.Machine.execPmWrite a d s
  | .pmClear => Sys2Proof.Machine.execPmClear s
  | .bdtRead n f => Sys2Proof.Machine.execBdtRead n f s
  | .bdtWrite n f v => Sys2Proof.Machine.execBdtWrite n f v s
  | .epSetAddress n v => Sys2Proof.Machine.execEpSetAddress n v s
  | .epSetType n t => Sys2Proof.Machine.execEpSetType n t s
  | .epSetTxStatus n v => Sys2Proof.Machine.execEpSetTxStatus n v s
  | .epSetRxStatus n v => Sys2Proof.Machine.execEpSetRxStatus n v s
  | .epClearCtr n => Sys2Proof.Machine.execEpClearCtr n s
  | .epSetBd n g => Sys2Proof.Machine.execEpSetBd n g s
  | .epInitBd n => Sys2Proof.Machine.execEpInitBd n s
  | .epTransmit n d => Sys2Proof.Machine.execEpTransmit n d s
  | .epReceive n l => Sys2Proof.Machine.execEpReceive n l s
  | .epGetRxLen n => Sys2Proof.Machine.execEpGetRxLen n s
  | .epReset n => Sys2Proof.Machine.execEpReset n s
  | .epInit n => Sys2Proof.Machine.execEpInit n s
  | .dcInit => Sys2Proof.Machine.execDcInit s
  | .dcConnect => Sys2Proof.Machine.execDcConnect s
  | .dcDisconnect => Sys2Proof.Machine.execDcDisconnect s
  | .dcSetEndpoint n t g => Sys2Proof.Machine.execDcSetEndpoint n t g s
  | .dcGetStatus => Sys2Proof.Machine.execDcGetStatus s
  | .dcIrq => Sys2Proof.Machine.execDcIrq s
  | .getStatus r => Sys2Proof.Machine.execGetStatus r s
  | .clearFeature r => Sys2Proof.Machine.execClearFeature r s
  | .setFeature r => Sys2Proof.Machine.execSetFeature r s
  | .setAddress r => Sys2Proof.Machine.execSetAddress r s
  | .getDescriptor r => Sys2Proof.Machine.execGetDescriptor r s
  | .setDescriptor r => Sys2Proof.Machine.execSetDescriptor r s
  | .getConfiguration r => Sys2Proof.Machine.execGetConfiguration r s
  | .setConfiguration r => Sys2Proof.Machine.execSetConfiguration r s
  | .unrecognisedRequest bRequest r => Sys2Proof.Machine.execUnrecognisedRequest bRequest r s
  | .busReset => Sys2Proof.Machine.execBusReset s
  | .busSetup addr ep packet => Sys2Proof.Machine.execBusSetup addr ep packet s
  | .busOut addr ep d => Sys2Proof.Machine.execBusOut addr ep d s
  | .busIn addr ep ack => Sys2Proof.Machine.execBusIn addr ep ack s
  | .busSuspend => Sys2Proof.Machine.execBusSuspend s
  | .busResume => Sys2Proof.Machine.execBusResume s
  | .genericOnInit => Sys2Proof.Machine.execGenericOnInit s
  | .genericOnReset => Sys2Proof.Machine.execGenericOnReset s
  | .genericOnSetupReceptionComplete => Sys2Proof.Machine.execGenericOnSetupReceptionComplete s
  | .genericOnReceptionComplete => Sys2Proof.Machine.execGenericOnReceptionComplete s
  | .genericOnTransmissionComplete => Sys2Proof.Machine.execGenericOnTransmissionComplete s
  | .controlOnInit => Sys2Proof.Machine.execControlOnInit s
  | .controlOnReset => Sys2Proof.Machine.execControlOnReset s
  | .controlOnSetupReceptionComplete => Sys2Proof.Machine.execControlOnSetupReceptionComplete s
  | .controlOnReceptionComplete => Sys2Proof.Machine.execControlOnReceptionComplete s
  | .controlOnTransmissionComplete => Sys2Proof.Machine.execControlOnTransmissionComplete s
  | .ctrSetup k => Sys2Proof.Machine.execCtrSetup k s
  | .ctrReception k => Sys2Proof.Machine.execCtrReception k s
  | .ctrTransmission k => Sys2Proof.Machine.execCtrTransmission k s
  | .irqReset w => Sys2Proof.Machine.execIrqReset w s
  | .irqCtr w => Sys2Proof.Machine.execIrqCtr w s
  | .irqSusp w => Sys2Proof.Machine.execIrqSusp w s
  | .irqWkup w => Sys2Proof.Machine.execIrqWkup w s

end Sys2Proof.Machine
end

