-- ==== Sys2Proof/Machine/Programs.lean ====
section
/-! DEFINITION. The statements of every instruction that CORE or APP runs, for a step to take them one
access at a time (R240). -/

namespace Sys2Proof.Machine

/-- The statements of a CTRD row: its hook of the endpoint the dispatch serves (R608). -/
def servedHook (p : EpNum → Context → Prog Unit) (c : Context) : Prog Unit :=
  match c.served with
  | none => .ret ()
  | some n => p n c

/-- The statements of an instruction (R137). The BUS rows are no operation of CORE or APP and have none;
DC_IRQ's are those of an APP that issues it. -/
def program (i : Instr) (c : Context) : Prog Unit :=
  match i with
  | .pmReadHw a => doPmReadHw a
  | .pmWriteHw a v => doPmWriteHw a v
  | .pmReadB a => doPmReadB a
  | .pmWriteB a v => doPmWriteB a v
  | .pmRead a l => doPmRead a l
  | .pmWrite a d => doPmWrite a d
  | .pmClear => doPmClear c
  | .bdtRead n f => doBdtRead n f
  | .bdtWrite n f v => doBdtWrite n f v
  | .epSetAddress n v => doEpSetAddress n v
  | .epSetType n t => doEpSetType n t
  | .epSetTxStatus n v => doEpSetTxStatus n v
  | .epSetRxStatus n v => doEpSetRxStatus n v
  | .epClearCtr n => doEpClearCtr n
  | .epSetBd n g => doEpSetBd n g
  | .epInitBd n => doEpInitBd n c
  | .epTransmit n d => doEpTransmit n d c
  | .epReceive n l => doEpReceive n l c
  | .epGetRxLen n => doEpGetRxLen n
  | .epReset n => doEpReset n c
  | .epInit n => doEpInit n c
  | .dcInit => doDcInit c
  | .dcConnect => doDcConnect
  | .dcDisconnect => doDcDisconnect
  | .dcSetEndpoint n t g => doDcSetEndpoint n t g
  | .dcGetStatus => doDcGetStatus
  | .dcIrq => doDcIrq
  | .getStatus _ => doGetStatus c
  | .clearFeature _ => doClearFeature c
  | .setFeature _ => doSetFeature c
  | .setAddress r => doSetAddress r c
  | .getDescriptor r => doGetDescriptor r c
  | .setDescriptor _ => doSetDescriptor c
  | .getConfiguration _ => doGetConfiguration c
  | .setConfiguration _ => doSetConfiguration c
  | .unrecognisedRequest _ _ => doUnrecognisedRequest
  | .busReset => .ret ()
  | .busSetup _ _ _ => .ret ()
  | .busOut _ _ _ => .ret ()
  | .busIn _ _ _ => .ret ()
  | .busSuspend => .ret ()
  | .busResume => .ret ()
  | .genericOnInit => runHook .generic .onInit c
  | .genericOnReset => runHook .generic .onReset c
  | .genericOnSetupReceptionComplete => runHook .generic .onSetupReceptionComplete c
  | .genericOnReceptionComplete => runHook .generic .onReceptionComplete c
  | .genericOnTransmissionComplete => runHook .generic .onTransmissionComplete c
  | .controlOnInit => runHook .control .onInit c
  | .controlOnReset => runHook .control .onReset c
  | .controlOnSetupReceptionComplete => runHook .control .onSetupReceptionComplete c
  | .controlOnReceptionComplete => runHook .control .onReceptionComplete c
  | .controlOnTransmissionComplete => runHook .control .onTransmissionComplete c
  | .ctrSetup _ => servedHook doCtrSetup c
  | .ctrReception _ => servedHook doCtrReception c
  | .ctrTransmission _ => servedHook doCtrTransmission c
  | .irqReset _ => doIrqReset c
  | .irqCtr w => doIrqCtr w c
  | .irqSusp _ => doIrqSusp
  | .irqWkup _ => doIrqWkup

end Sys2Proof.Machine
end

