-- ==== Sys2Proof/Machine/Schedule.lean ====
section
/-! DEFINITION. Which agent moves next and what its step is (R240, R711, R732, R870): one access of CORE or
APP, or, with ATOMIC_DISPATCH, a whole dispatch or command; one event of BUS. -/

namespace Sys2Proof.Machine

/-! ## Which agent moves -/

/-- The agent has an enabled step: CORE while dispatching or when a dispatch may start (R711); APP
while running a command, or when CORE is idle and a command is next (R732); BUS when its next event
is enabled. DESC's answers are part of CORE's steps (R240). -/
def State.agentEnabled (s : State) : Agent → Bool
  | .core =>
    match s.core with
    | .idle => s.canDispatch
    | .dispatching _ _ _ _ => true
  | .app =>
    match s.app with
    | .running _ _ => true
    | .idle =>
      (s.core = .idle) &&
        match s.program with
        | .cmd _ :: _ => true
        | .irq :: _ => false
        | [] => false
  | .bus => s.nextBus.isSome
  | .desc => false

/-- The agent that moves when `turns` does not name an enabled one: CORE, else APP, else BUS (log 1). -/
def State.defaultAgent (s : State) : Option Agent := [Agent.core, .app, .bus].find? s.agentEnabled

/-- The agent that takes the next step, and the turns after it (log 1). -/
def State.nextAgent (s : State) : Option (Agent × List Agent) :=
  match s.turns with
  | [] => s.defaultAgent.map fun a => (a, [])
  | t :: ts => if s.agentEnabled t then some (t, ts) else s.defaultAgent.map fun a => (a, ts)

/-- The final state of a run (R870). -/
def State.isFinal (s : State) : Bool :=
  s.faults.isEmpty && s.refusals.isEmpty && s.program.isEmpty && s.busIn.isEmpty
    && (s.core = .idle) && (s.app = .idle) && !s.irqLine

/-! ## One access of CORE or APP (ATOMIC_DISPATCH = false) -/

/-- The next access of a dispatch with the rows `rest`, the first of which has had the answers `had`: with
the updates since the last access, those of the rows that end meanwhile among them. Without a further
access the dispatch exits (R240, R611; log 2). -/
def advanceRows (rest : List Instr) (had : List Answer) (s : State) : State :=
  match rest with
  | [] => dispatchExit s
  | i :: is =>
    match ((program i s.context).resume had).advance s with
    | .ended (.ok _ s') => advanceRows is [] (s'.setRows is [])
    | .ended (.stop s') => s'
    | .moved new s' => s'.setRows (i :: is) (had ++ new)

/-- APP after its command has ended: idle again, unless a fault was recorded (R732, R700; log 15). -/
def retire (s : State) : State := if s.faulted then s else { s with app := .idle }

/-- The next access of APP's command, which has had the answers `had`; without a further access it ends.
An illegal encoding is refused with no other effect (R240, R330, R360, R730). -/
def advanceCommand (ws : List HalfWord) (had : List Answer) (s : State) : State :=
  match decodeCmd s.params ws with
  | .error r => { s.refuse r with app := .idle }
  | .ok i =>
    match ((program i s.context).resume had).advance s with
    | .ended r => retire r.state
    | .moved new s' => { s' with app := .running ws (had ++ new) }

/-- APP starts its next command: it is running it from here on (R732, R137). -/
def startCommand (s : State) : State :=
  match s.program with
  | .cmd ws :: ls => { s with app := .running ws [], program := ls }
  | .irq :: _ => s
  | [] => s

/-! ## Whole operations (ATOMIC_DISPATCH = true) -/

/-- What runs an instruction: `exec`, which Step.lean gives. -/
abbrev Exec := Instr → State → Host.Outcome State Fault Refusal

/-- The next state of an outcome, changed by `f`. -/
def mapNext (f : State → State) : Host.Outcome State Fault Refusal → Host.Outcome State Fault Refusal
  | .next s => .next (f s)
  | .fault r => .fault r
  | .refused r => .refused r

/-- What follows the next state of an outcome. -/
def thenNext (o : Host.Outcome State Fault Refusal) (f : State → Host.Outcome State Fault Refusal) :
    Host.Outcome State Fault Refusal :=
  match o with
  | .next s => f s
  | .fault r => .fault r
  | .refused r => .refused r

/-- An instruction that has had the answers `had`, run to its end. -/
def finish (ex : Exec) (i : Instr) (had : List Answer) (s : State) : Host.Outcome State Fault Refusal :=
  if had = [] then ex i s else (((program i s.context).resume had).run s).toOutcome

/-- The rows of a dispatch run to its exit, or to a fault (R606, R611, R700). -/
def runRows (ex : Exec) (rest : List Instr) (had : List Answer) (s : State) :
    Host.Outcome State Fault Refusal :=
  match rest with
  | [] => .next (dispatchExit s)
  | i :: is =>
    thenNext (finish ex i had s) fun t =>
      if t.faulted then .next t else runRows ex is [] (t.setRows is [])

/-- A command run to its end. -/
def runCommand (ex : Exec) (ws : List HalfWord) (had : List Answer) (s : State) :
    Host.Outcome State Fault Refusal :=
  match decodeCmd s.params ws with
  | .error r => .next { s.refuse r with app := .idle }
  | .ok i => mapNext retire (finish ex i had s)

/-! ## The step of each agent -/

/-- The rows of the running dispatch, from its start on: a whole dispatch once entered. -/
def runDispatch (ex : Exec) (s : State) : Host.Outcome State Fault Refusal :=
  match s.core with
  | .idle => .next s
  | .dispatching _ _ rest had => runRows ex rest had s

/-- CORE's step: the interrupt entry or the next access of the dispatch; with ATOMIC_DISPATCH the whole
dispatch (R240, R606, R711). -/
def stepCore (ex : Exec) (s : State) : Host.Outcome State Fault Refusal :=
  match s.core with
  | .idle => if s.params.atomicDispatch then thenNext (ex .dcIrq s) (runDispatch ex) else ex .dcIrq s
  | .dispatching _ _ rest had =>
    if s.params.atomicDispatch then runRows ex rest had s else .next (advanceRows rest had s)

/-- APP's step: the next access of its command, the first one after it has started it; with
ATOMIC_DISPATCH the whole command (R240, R732). -/
def stepApp (ex : Exec) (s : State) : Host.Outcome State Fault Refusal :=
  let s := match s.app with | .idle => startCommand s | .running _ _ => s
  match s.app with
  | .idle => .fault .stuck
  | .running ws had =>
    if s.params.atomicDispatch then runCommand ex ws had s else .next (advanceCommand ws had s)

/-- BUS's step: its next event (R664). -/
def stepBus (ex : Exec) (s : State) : Host.Outcome State Fault Refusal :=
  match s.nextBus with
  | none => .fault .stuck
  | some (e, s') => ex e.toInstr s'

/-- The step of an agent. -/
def stepAgent (ex : Exec) (a : Agent) (s : State) : Host.Outcome State Fault Refusal :=
  match a with
  | .core => stepCore ex s
  | .app => stepApp ex s
  | .bus => stepBus ex s
  | .desc => .fault .stuck

/-- One step: none once a fault is recorded (R700) or when the parameters are refused (R730), else that
of the next agent. -/
def takeStep (ex : Exec) (s : State) : Host.Outcome State Fault Refusal :=
  if s.faulted then .fault .faulted
  else if !paramsValid s.params then .refused .ep0Params
  else
    match s.nextAgent with
    | none => .fault (if s.isFinal then .finalState else .stuck)
    | some (a, ts) => stepAgent ex a { s with turns := ts }

/-! ## Placing an instruction where the next step runs it (log 20) -/

/-- The controller attached, as a bus event needs (R650). -/
def placeAttached (s : State) : State :=
  { s with clkOn := true, pinsAf := true, bcdr := setBits 0x8000 s.bcdr, cntr := clearBits 0x0003 s.cntr }

/-- Whole operations in one step, so that the next one runs the whole instruction (R16, R240). -/
def placeAtomic (s : State) : State := { s with params := { s.params with atomicDispatch := true } }

/-- The interrupt line asserted by a latched RESET, CORE and APP idle, as DC_IRQ needs (R711). -/
def placeLine (s : State) : State :=
  { s with irqEnabled := true, cntr := setBits 0x0400 s.cntr, istr := setBits 0x0400 s.istr,
           core := .idle, app := .idle, turns := .core :: s.turns }

/-- A dispatch whose remaining rows are given. -/
def placeRows (w : HalfWord) (e : Option HalfWord) (rows : List Instr) (s : State) : State :=
  { placeAtomic s with core := .dispatching w e rows [], turns := .core :: s.turns }

/-- An encoding placed where the very next step runs it: a command as APP's running command (DC_IRQ
by the line), a bus event at the head of the schedule, any other row as the one row of a dispatch. -/
def placeEncoded (e : Encoded) (s : State) : State :=
  match e with
  | .cmd ws =>
    if (decodeCmd s.params ws).toOption = some .dcIrq then placeLine s
    else { placeAtomic s with app := .running ws [], core := .idle, turns := .app :: s.turns }
  | .bus bs => { placeAttached s with busIn := bs :: s.busIn, turns := .bus :: s.turns }
  | .setup bs => placeRows 0x0000 none ((decodeRows s.params (.setup bs)).take 1) s
  | .hook b => placeRows 0x0000 none ((decodeRows s.params (.hook b)).take 1) s
  | .ctrd k =>
    placeRows (if k.getLsbD 16 then 0x8010 else 0x8000) (some (k.setWidth 16))
      ((decodeRows s.params (.ctrd k)).take 1) s
  | .istrd w => placeRows w none ((decodeRows s.params (.istrd w)).take 1) s

end Sys2Proof.Machine
end

