-- ==== Sys2Proof/Machine/Step.lean ====
section
/-! DEFINITION. One step of the machine, and the placing of a table word for it. -/

namespace Sys2Proof.Machine

/-- One step: that of the next agent (Machine/Schedule.lean), its instructions run by `exec`. -/
def step (s : State) : Host.Outcome State Fault Refusal := takeStep exec s

/-- The state with a table word stored where `step` runs its next instruction (log 20). -/
def State.withFetchWord (s : State) (nbits w : Nat) : State := placeEncoded (tableEncoded nbits w) s

end Sys2Proof.Machine
end

