-- ==== Sys2Proof/Safety.lean ====
section
/-! DEFINITION. What the claims are about: the invariants of the machine, the conditions under which the
shared operations run to their end, the state each of them then leaves, in the terms of the spec's rules,
and runs of several steps. -/

namespace Sys2Proof.Machine

/-! ## Invariants -/

/-- Packet memory is in its canonical form and lists only bytes below PM_SIZE (R141, R202). -/
def State.MemOk (s : State) : Prop := Memory.wf s.mem = true ∧ ∀ c ∈ s.mem, c.1 < s.params.pmSize

/-- The reserved and held-0 bits of the peripheral registers are 0: CNTR bit 6 (R120), DADDR bits 15:8
(R122), BTABLE bits 2:0 (R124), BCDR bits 14:0 (R126), every stored bit of ISTR but WKUP, SUSP and RESET
(R110, R113). -/
def State.ReservedZero (s : State) : Prop :=
  s.cntr &&& 0x0040 = 0 ∧ s.daddr &&& 0xFF00 = 0 ∧ s.btable &&& 0x0007 = 0 ∧ s.bcdr &&& 0x7FFF = 0
    ∧ s.istr &&& 0xE3FF = 0

/-- Slot 0 is the control endpoint with the EP0 geometry and no other slot has the role Control (R130). -/
def State.SlotsOk (s : State) : Prop :=
  s.slot 0 = .bound .control s.params.ep0 .control ∧ ∀ n : EpNum, n ≠ 0 → s.role n ≠ some .control

/-- Every bound slot's geometry is valid against those of the other bound slots (R231). -/
def State.GeomsOk (s : State) : Prop := ∀ n : EpNum, s.isBound n = true → s.geomOk n (s.geom n) = true

/-- A pending cursor has bytes left to send and stands in a stage other than None (R524). -/
def State.CursorOk (s : State) : Prop :=
  ∀ c, s.cursor = some c → c.off.toNat < c.len.toNat ∧ s.stage ≠ .none

/-- A pending cursor has bytes left to send: the half of R524 that also holds between two accesses. -/
def State.CursorLive (s : State) : Prop := ∀ c, s.cursor = some c → c.off.toNat < c.len.toNat

/-- Neither a dispatch's row nor APP's command has had an answer: each stands at its start. -/
def State.AtStart (s : State) : Prop :=
  (∀ w e rest had, s.core = .dispatching w e rest had → had = [])
    ∧ ∀ ws had, s.app = .running ws had → had = []

/-- The rows a dispatch is made of: the four handlers (R606). -/
def isHandler : Instr → Bool
  | .irqReset _ => true
  | .irqCtr _ => true
  | .irqSusp _ => true
  | .irqWkup _ => true
  | _ => false

/-- The rows a dispatch still has to run are handlers (R606). -/
def State.RowsOk (s : State) : Prop :=
  ∀ w e rest had, s.core = .dispatching w e rest had → ∀ i ∈ rest, isHandler i = true

/-- CORE and APP are never both at work (R732). -/
def State.Exclusive (s : State) : Prop := s.core = .idle ∨ s.app = .idle

/-- The status Attached is never entered nor remembered (R134, R600). -/
def State.NeverAttached (s : State) : Prop := s.devStatus ≠ .attached ∧ s.preSuspend ≠ .attached

/-! ## Conditions and results of the shared operations -/

/-- Byte `x` lies in the transmit buffer of a geometry (R131). -/
def inTxBuffer (g : Geometry) (x : Nat) : Prop := g.txAddr.toNat ≤ x ∧ x < g.txAddr.toNat + g.txSize.toNat

/-- Byte `x` lies in the receive buffer of a geometry (R131). -/
def inRxBuffer (g : Geometry) (x : Nat) : Prop := g.rxAddr.toNat ≤ x ∧ x < g.rxAddr.toNat + g.rxSize.toNat

/-- EPR[n] with its fields changed by `g`. -/
def State.withEpr (s : State) (n : EpNum) (g : EprFields → EprFields) : State :=
  s.setEpr n (eprWord (g (s.eprF n)))

/-- An endpoint command may run: initialised, not endpoint 0, bound (R450, R733). -/
def State.epAdmitted (s : State) (n : EpNum) : Bool := s.initialized && n ≠ 0 && s.isBound n

/-- Byte range `[a, a+l)` may be read by software: in packet memory and not of an armed receive buffer
(R202, R401). -/
def State.mayRead (s : State) (a l : Nat) : Bool := a + l ≤ s.params.pmSize && (s.firstOwnedR a l).isNone

/-- Byte range `[a, a+l)` may be written by software (R202, R401). -/
def State.mayWrite (s : State) (a l : Nat) : Bool := a + l ≤ s.params.pmSize && (s.firstOwnedW a l).isNone

/-- The eight bytes of a committed BDT entry (R301, R459): ADDR_TX, COUNT_TX = 0, ADDR_RX, COUNT_RX. -/
def bdtEntry (g : Geometry) : List Byte :=
  [loByte g.txAddr, hiByte g.txAddr, 0, 0, loByte g.rxAddr, hiByte g.rxAddr,
   loByte (encodeRx g.rxSize), hiByte (encodeRx g.rxSize)]

/-- `CommitBd(n)` raises nothing: the entry lies in packet memory and neither side is armed while
attached (R459). -/
def State.canCommit (s : State) (n : EpNum) : Bool :=
  s.bdtAddr n .addrTx + 8 ≤ s.params.pmSize
    && !(s.attached && (s.statTx n = .valid || s.statRx n = .valid))

/-- The state after `CommitBd(n)` (R459). -/
def State.committed (s : State) (n : EpNum) : State := s.setBytes (s.bdtAddr n .addrTx) (bdtEntry (s.geom n))

/-- `cnt` of `transmit` (R460). -/
def State.sendCount (s : State) (n : EpNum) (d : List Byte) : Nat := min d.length (s.geom n).txSize.toNat

/-- `transmit` raises nothing: the payload's bytes may be written, COUNT_TX lies in packet memory and
the transmit side is not armed while attached (R460). -/
def State.canSend (s : State) (n : EpNum) (d : List Byte) : Bool :=
  (s.sendCount n d = 0 || s.mayWrite (s.geom n).txAddr.toNat (s.sendCount n d))
    && s.bdtAddr n .countTx + 1 < s.params.pmSize && !s.bdtOwned n .countTx

/-- The fault `transmit` raises before its first write (R407, R411, R460): of the payload's bytes, or of
COUNT_TX when there is no payload. -/
def State.sendFault (s : State) (n : EpNum) (d : List Byte) : Option FaultKind :=
  if s.sendCount n d = 0 then
    if s.params.pmSize ≤ s.bdtAddr n .countTx + 1 then some (.pmRange (s.bdtAddr n .countTx))
    else if s.bdtOwned n .countTx then some (.pmOwnership n (s.bdtAddr n .countTx)) else none
  else if s.params.pmSize < (s.geom n).txAddr.toNat + s.sendCount n d then
    some (.pmRange ((s.geom n).txAddr.toNat + s.sendCount n d - 1))
  else s.ownFaultW (s.geom n).txAddr.toNat (s.sendCount n d)

/-- The state after `transmit` (R460): payload, COUNT_TX, STAT_TX `valid`. -/
def State.sent (s : State) (n : EpNum) (d : List Byte) : State :=
  ((s.setBytes (s.geom n).txAddr.toNat (d.take (s.sendCount n d))).setBytes (s.bdtAddr n .countTx)
    [loByte (BitVec.ofNat 16 (s.sendCount n d)), hiByte (BitVec.ofNat 16 (s.sendCount n d))]).withEpr n
    fun f => { f with statTx := Stat.valid.code }

/-- The state after `EpRmw(n, {STAT_RX = valid})` with no bus step inside (R452). -/
def State.rearmed (s : State) (n : EpNum) : State :=
  s.withEpr n fun f => { f with statRx := Stat.valid.code }

/-- The state after `StatusStage()` (R520). -/
def State.statusDone (s : State) : State :=
  if s.deferred = 0 then s
  else { s with daddr := 0x0080 ||| (s.deferred &&& 0x007F), devStatus := .addressed, deferred := 0 }

/-- The state after the control `onReset` (R502). -/
def State.roleReset (s : State) : State :=
  let s := s.withEpr 0 fun f =>
    { f with epType := EpType.control.code, statTx := Stat.nak.code, statRx := Stat.valid.code }
  { s with stage := .none, remaining := 0, deferred := 0, cursor := none,
           trace := s.trace ++ (if s.cursor.isSome then [.descDeinit] else []) }

/-- The setup packet in endpoint 0's receive buffer (R503, R504). -/
def State.receivedPacket (s : State) : SetupPacket :=
  .ofBytes ((List.range 8).map fun j => s.byte ((s.geom 0).rxAddr.toNat + j))

/-- The request rule that packet selects (R506). -/
def State.receivedRequest (s : State) : RequestName := selectRequest s.params.reqTypeFilter s.receivedPacket

/-- The number of bytes of the next chunk of a pending descriptor (R518). -/
def State.chunk (s : State) (c : Cursor) : Nat := chunkSize s.txSize0 c

/-- The bytes of the next chunk (R518). -/
def State.chunkBytes (s : State) (c : Cursor) : List Byte := descSlice c.desc c.off.toNat (s.chunk c)

/-- The state after a chunk was sent: the cursor moved on, or released at the descriptor's end (R518). -/
def State.chunkSent (s : State) (c : Cursor) : State :=
  let t := s.sent 0 (s.chunkBytes c)
  if c.len.toNat ≤ c.off.toNat + s.chunk c then { t with cursor := none, trace := t.trace ++ [.descDeinit] }
  else { t with cursor := some { c with off := BitVec.ofNat 16 (c.off.toNat + s.chunk c) } }

/-! ## Admission and frames, row by row -/

/-- The order of boot: the clock runs only after `init()`, which also points BTABLE at the BDT
(R601, R810, R811). -/
def State.BootOk (s : State) : Prop :=
  (s.clkOn = true → s.initialized = true) ∧ (s.initialized = true → s.btable = s.params.bdtBase)

/-- The refusal of a command of 41_endpoint.md (R733). -/
def State.epRefusal (s : State) (n : EpNum) : Option RefuseReason :=
  if s.initialized = false then some .notInit
  else if n = 0 then some .ep0App
  else if s.isBound n = false then some .epUnbound
  else none

/-- The refusal of any other command that needs `init()` (R733). -/
def State.initRefusal (s : State) : Option RefuseReason :=
  if s.initialized = false then some .notInit else none

/-- Command admission (R733, R604, R734): the reason a command is refused before any access. -/
def admissionRefusal (s : State) : Instr → Option RefuseReason
  | .pmReadHw _ => s.initRefusal
  | .pmWriteHw _ _ => s.initRefusal
  | .pmReadB _ => s.initRefusal
  | .pmWriteB _ _ => s.initRefusal
  | .pmRead _ _ => s.initRefusal
  | .pmWrite _ _ => s.initRefusal
  | .pmClear => s.initRefusal
  | .bdtRead _ _ => s.initRefusal
  | .bdtWrite n _ _ =>
    if s.initialized = false then some .notInit else if n = 0 then some .ep0App else none
  | .epSetAddress n _ => s.epRefusal n
  | .epSetType n _ => s.epRefusal n
  | .epSetTxStatus n _ => s.epRefusal n
  | .epSetRxStatus n _ => s.epRefusal n
  | .epClearCtr n => s.epRefusal n
  | .epSetBd n _ => s.epRefusal n
  | .epInitBd n => s.epRefusal n
  | .epTransmit n _ => s.epRefusal n
  | .epReceive n _ => s.epRefusal n
  | .epGetRxLen n => s.epRefusal n
  | .epReset n => s.epRefusal n
  | .epInit n => s.epRefusal n
  | .dcConnect => s.initRefusal
  | .dcDisconnect => s.initRefusal
  | .dcSetEndpoint n t _ =>
    if n = 0 then some .ep0Bound else if t = .control then some .badType else none
  | .dcIrq => if s.app = .idle then none else some .irqByApp
  | _ => none

/-- The byte ranges (start, length) a control hook may store to: endpoint 0's transmit buffer and its
COUNT_TX (R460, R518). -/
def State.controlStores (s : State) : List (Nat × Nat) :=
  [((s.geom 0).txAddr.toNat, s.txSize0), (s.bdtAddr 0 .countTx, 2)]

/-- The byte ranges `transmit` stores to (R460). -/
def State.sendStores (s : State) (n : EpNum) (d : List Byte) : List (Nat × Nat) :=
  [((s.geom n).txAddr.toNat, s.sendCount n d), (s.bdtAddr n .countTx, 2)]

/-- The byte ranges an accepted reception stores to: the packet at ADDR_RX, and COUNT_RX (R653, R654). -/
def State.receptionStores (s : State) (n : EpNum) (l : Nat) : List (Nat × Nat) :=
  [((s.cell (s.bdtAddr n .addrRx / 2)).toNat, l), (s.bdtAddr n .countRx, 2)]

/-- The byte ranges of packet memory an instruction may store to. -/
def State.stores (s : State) : Instr → List (Nat × Nat)
  | .pmWriteHw a _ => [(a.toNat, 2)]
  | .pmWriteB a _ => [(a.toNat, 1)]
  | .pmWrite a d => [(a.toNat, d.length)]
  | .pmClear => [(0, s.params.pmSize)]
  | .bdtWrite n f _ => [(s.bdtAddr n f, 2)]
  | .epInitBd n => [(s.bdtAddr n .addrTx, 8)]
  | .epTransmit n d => s.sendStores n d
  | .epReset n => [(s.bdtAddr n .addrTx, 8)]
  | .epInit n => [(s.bdtAddr n .addrTx, 8)]
  | .dcInit => [(0, s.params.pmSize)]
  | .getStatus _ => s.sendStores 0 s.params.getStatusResponse
  | .clearFeature _ => s.sendStores 0 []
  | .setFeature _ => s.sendStores 0 []
  | .setAddress _ => s.sendStores 0 []
  | .getDescriptor _ => s.controlStores
  | .setDescriptor _ => s.sendStores 0 []
  | .getConfiguration _ => s.sendStores 0 s.params.getConfigurationResponse
  | .setConfiguration _ => s.sendStores 0 []
  | .busSetup a ep _ =>
    match s.busMatch a ep .rx with
    | .hit n => s.receptionStores n 8
    | _ => []
  | .busOut a ep d =>
    match s.busMatch a ep .rx with
    | .hit n => s.receptionStores n d.length
    | _ => []
  | .controlOnSetupReceptionComplete => s.controlStores
  | .controlOnReceptionComplete => s.controlStores
  | .controlOnTransmissionComplete => s.controlStores
  | .ctrSetup _ => s.controlStores
  | .ctrReception _ => s.controlStores
  | .ctrTransmission _ => s.controlStores
  | .irqReset _ => (allEps.filter s.isBound).map fun n => (s.bdtAddr n .addrTx, 8)
  | .irqCtr _ => s.controlStores
  | _ => []

/-- The endpoint registers an instruction may change. -/
def State.touches (s : State) : Instr → List EpNum
  | .epSetAddress n _ => [n]
  | .epSetType n _ => [n]
  | .epSetTxStatus n _ => [n]
  | .epSetRxStatus n _ => [n]
  | .epClearCtr n => [n]
  | .epTransmit n _ => [n]
  | .epReceive n _ => [n]
  | .epReset n => [n]
  | .getStatus _ => [0]
  | .clearFeature _ => [0]
  | .setFeature _ => [0]
  | .setAddress _ => [0]
  | .getDescriptor _ => [0]
  | .setDescriptor _ => [0]
  | .getConfiguration _ => [0]
  | .setConfiguration _ => [0]
  | .busReset => allEps
  | .busSetup a ep _ =>
    match s.busMatch a ep .rx with
    | .hit n => [n]
    | _ => []
  | .busOut a ep _ =>
    match s.busMatch a ep .rx with
    | .hit n => [n]
    | _ => []
  | .busIn a ep _ =>
    match s.busMatch a ep .tx with
    | .hit n => [n]
    | _ => []
  | .controlOnReset => [0]
  | .controlOnSetupReceptionComplete => [0]
  | .controlOnReceptionComplete => [0]
  | .controlOnTransmissionComplete => [0]
  | .ctrSetup _ => [0]
  | .ctrReception _ => [0]
  | .ctrTransmission _ => [0]
  | .irqReset _ => allEps.filter s.isBound
  | .irqCtr w => [epIdOf w, 0]
  | _ => []

/-- The rows that run the control sequencer on an event: its hooks, and what calls them (R466, R608). -/
def runsSequencer : Instr → Bool
  | .controlOnSetupReceptionComplete => true
  | .controlOnReceptionComplete => true
  | .controlOnTransmissionComplete => true
  | .ctrSetup _ => true
  | .ctrReception _ => true
  | .ctrTransmission _ => true
  | .irqCtr _ => true
  | _ => false

/-- The rows that may run the control role's setup hook (R503, R608). -/
def runsSetup : Instr → Bool
  | .controlOnSetupReceptionComplete => true
  | .ctrSetup _ => true
  | .irqCtr _ => true
  | _ => false

/-- The rows that may run the status stage (R516, R517, R520, R608). -/
def runsStatus : Instr → Bool
  | .controlOnReceptionComplete => true
  | .controlOnTransmissionComplete => true
  | .ctrReception _ => true
  | .ctrTransmission _ => true
  | .irqCtr _ => true
  | _ => false

/-- The BUS rows. -/
def isBusRow : Instr → Bool
  | .busReset => true
  | .busSetup _ _ _ => true
  | .busOut _ _ _ => true
  | .busIn _ _ _ => true
  | .busSuspend => true
  | .busResume => true
  | _ => false

/-! ## Runs -/

/-- `k` steps, one after another. -/
def steps : Nat → State → Host.Outcome State Fault Refusal
  | 0, s => .next s
  | k + 1, s => thenNext (step s) (steps k)

/-- A run may be judged at a state: no fault recorded and nothing refused (R872). -/
def State.clean (s : State) : Bool := s.faults.isEmpty && s.refusals.isEmpty

end Sys2Proof.Machine
end

