-- ==== Sys2Proof/Certificates/Slice0/Obligations.lean ====
section
/-! DEFINITION. The statements about the machine, from the spec's numbered rules. `exec` runs one instruction
undisturbed; what another agent's steps between its accesses do is said of `step` (R240). -/

open Sys2Proof Sys2Proof.Machine

/-! ## Reset and boot -/

/-- Power-on (R801, first column): every value the spec gives, for all parameters; packet memory, a draw in the
spec, is not stated about. -/
def Obligations.PowerOnValues : Prop :=
  ∀ p : Params,
    let s := State.powerOn p
    (∀ n : EpNum, s.epr n = 0x0000) ∧ s.istr = 0x0000 ∧ s.ctr = false ∧ s.cntr = 0x0003 ∧ s.daddr = 0x0000
    ∧ s.btable = 0x0000 ∧ s.bcdr = 0x0000
    ∧ s.slot 0 = .bound .control p.ep0 .control ∧ (∀ n : EpNum, n ≠ 0 → s.slot n = .unbound)
    ∧ s.stage = .none ∧ s.remaining = 0 ∧ s.cursor = none ∧ s.deferred = 0
    ∧ s.devStatus = .disabled ∧ s.preSuspend = .disabled ∧ s.initialized = false
    ∧ s.core = .idle ∧ s.app = .idle
    ∧ s.clkOn = false ∧ s.vdetOn = false ∧ s.irqEnabled = false ∧ s.pinsAf = false
    ∧ s.trace = [] ∧ s.faults = [] ∧ s.refused = false

/-- The invariants hold at power-on; the validity of the bound geometries where R231 holds of the endpoint-0
parameters (else the initial state is refused, R730). -/
def Obligations.PowerOnInvariants : Prop :=
  ∀ p : Params,
    let s := State.powerOn p
    s.MemOk ∧ s.ReservedZero ∧ s.BootOk ∧ s.Exclusive ∧ s.NeverAttached ∧ s.SlotsOk ∧ s.CursorOk ∧ s.RowsOk
    ∧ (paramsValid p = true → s.GeomsOk)

/-- The boot sequence reaches the reset table (R801, columns 2 to 4; R810): from power-on with slot 0 the only bound
slot, DC_INIT, DC_CONNECT, a bus reset and its whole dispatch, nothing in between. Each column is the state before
with the rows named here changed and every other row kept, but for packet memory, said byte by byte. That CORE moves
when `turns` names nobody is log 1's choice, `draws` the model's own counter (log 7). -/
def Obligations.BootReachesResetTable : Prop :=
  ∀ p : Params, paramsValid p = true →
    ∃ s₁ s₂ s₃ t k,
      -- after init
      exec .dcInit (State.powerOn p) = .next s₁
      ∧ s₁ = { State.powerOn p with
          cntr := 0x0002, btable := p.bdtBase, devStatus := .powered, initialized := true, clkOn := true,
          vdetOn := true, mem := s₁.mem }
      ∧ (∀ x, s₁.byte x = if p.bdtBase.toNat ≤ x ∧ x < p.bdtBase.toNat + 8
                          then (bdtEntry p.ep0).getD (x - p.bdtBase.toNat) 0 else 0)
      -- after connect
      ∧ exec .dcConnect s₁ = .next s₂
      ∧ s₂ = { s₁ with cntr := 0x9C00, bcdr := 0x8000, irqEnabled := true, pinsAf := true }
      ∧ s₂.attached = true
      -- after the bus reset and its dispatch
      ∧ exec .busReset s₂ = .next s₃ ∧ steps k s₃ = .next t
      ∧ t = { s₂ with eprs := t.eprs, daddr := 0x0080, devStatus := .default, trace := [.cbReset], draws := t.draws }
      ∧ t.epr 0 = 0x3220 ∧ (∀ n : EpNum, n ≠ 0 → t.epr n = 0x0000) ∧ t.ctr = false

/-- Recovery (R723): from a state with no fault, the controller attached, CORE and APP idle and RESETM and the
interrupt enabled, a bus reset and one whole dispatch with no other step inside leave endpoint 0 ready, whatever
went before. That CORE moves when `turns` names nobody is log 1's choice. -/
def Obligations.BusResetRecovers : Prop :=
  ∀ s : State, paramsValid s.params = true → s.faults = [] → s.attached = true →
    s.irqEnabled = true → s.cntr.getLsbD 10 = true → s.core = .idle → s.app = .idle → s.turns = [] →
    s.SlotsOk → s.BootOk →
    ∃ s₁ t k, exec .busReset s = .next s₁ ∧ steps k s₁ = .next t
      ∧ (t.eprF 0).epType = EpType.control.code ∧ t.statTx 0 = .nak ∧ t.statRx 0 = .valid
      ∧ (t.eprF 0).ea = 0 ∧ t.stage = .none ∧ t.cursor = none ∧ t.deferred = 0
      ∧ t.daddr = 0x0080 ∧ t.devStatus = .default ∧ t.core = .idle ∧ t.faults = []

/-! ## Packet memory -/

/-- Reads of packet memory (R402, R404, R406; byte view R201, R211): a readable half-word, byte or block is answered
in a Result event and nothing else changes. -/
def Obligations.PacketMemoryReads : Prop :=
  ∀ s : State, s.initialized = true →
    (∀ a : HalfWord, a.toNat % 2 = 0 → s.mayRead a.toNat 2 = true →
      exec (.pmReadHw a) s = .next (s.emit (.result (.u16 (ofBytes (s.byte a.toNat) (s.byte (a.toNat + 1)))))))
    ∧ (∀ a : HalfWord, s.mayRead a.toNat 1 = true →
      exec (.pmReadB a) s = .next (s.emit (.result (.u8 (s.byte a.toNat)))))
    ∧ (∀ a l : HalfWord, l = 0 ∨ s.mayRead a.toNat l.toNat = true →
      exec (.pmRead a l) s = .next (s.emit (.result (.bytes ((List.range l.toNat).map fun i => s.byte (a.toNat + i))))))

/-- Writes of packet memory (R403, R405, R407, R408): a writable half-word, byte or block is stored, every other
byte and all other state stays; PM_CLEAR leaves every byte 0. -/
def Obligations.PacketMemoryWrites : Prop :=
  ∀ s : State, s.initialized = true → s.MemOk → s.params.pmSize % 2 = 0 →
    (∀ a v : HalfWord, a.toNat % 2 = 0 → s.mayWrite a.toNat 2 = true →
      exec (.pmWriteHw a v) s = .next (s.setBytes a.toNat [loByte v, hiByte v]))
    ∧ (∀ (a : HalfWord) (v : Byte), s.mayWrite a.toNat 1 = true →
      exec (.pmWriteB a v) s = .next (s.setBytes a.toNat [v]))
    ∧ (∀ (a : HalfWord) (d : List Byte), d = [] ∨ s.mayWrite a.toNat d.length = true →
      exec (.pmWrite a d) s = .next (s.setBytes a.toNat d))
    ∧ (s.mayWrite 0 s.params.pmSize = true →
      ∃ t, exec .pmClear s = .next t ∧ t = { s with mem := t.mem } ∧ ∀ x, t.byte x = 0)

/-- The BDT helpers (R409, R410, R411): field f of endpoint n stands at (BTABLE[15:3] << 3) + 8n + 2f; a read
answers its half-word, a write of a field the hardware does not own stores it. A field outside packet memory is a
range fault of either; a write of a field of an armed side while attached is an ownership fault (R242). -/
def Obligations.BdtReadWrite : Prop :=
  ∀ (s : State) (n : EpNum) (f : BdtField), s.initialized = true →
    let a := 8 * (s.btable.toNat / 8) + 8 * n.val + 2 * f.code.toNat
    let owned := s.attached = true ∧
      ((f = .addrTx ∨ f = .countTx) ∧ s.statTx n = .valid ∨ (f = .addrRx ∨ f = .countRx) ∧ s.statRx n = .valid)
    (a + 1 < s.params.pmSize →
      exec (.bdtRead n f) s = .next (s.emit (.result (.u16 (ofBytes (s.byte a) (s.byte (a + 1))))))
      ∧ (∀ v : HalfWord, n ≠ 0 →
          (¬ owned → exec (.bdtWrite n f v) s = .next (s.setBytes a [loByte v, hiByte v]))
          ∧ (owned → exec (.bdtWrite n f v) s = .next (s.raise (.pmOwnership n a) .app 411))))
    ∧ (s.params.pmSize ≤ a + 1 →
      exec (.bdtRead n f) s = .next (s.raise (.pmRange a) .app 410)
      ∧ ∀ v : HalfWord, n ≠ 0 → exec (.bdtWrite n f v) s = .next (s.raise (.pmRange a) .app 411))

/-- The faults of the packet-memory commands (R202, R221, R242, R701, R702): alignment before range before
ownership, each recorded with its address, with no other effect; and the codes of the five kinds. The rule recorded
is log 11's choice, the address of a block's range fault the last byte (log 12, beside R701), the endpoint of an
ownership fault the least that owns the byte (log 13). -/
def Obligations.PacketMemoryFaults : Prop :=
  ∀ (s : State) (a : HalfWord), s.initialized = true →
    (a.toNat % 2 = 1 →
      exec (.pmReadHw a) s = .next (s.raise (.pmAlign a.toNat) .app 402)
      ∧ ∀ v, exec (.pmWriteHw a v) s = .next (s.raise (.pmAlign a.toNat) .app 403))
    ∧ (a.toNat % 2 = 0 → s.params.pmSize ≤ a.toNat + 1 →
      exec (.pmReadHw a) s = .next (s.raise (.pmRange a.toNat) .app 402)
      ∧ ∀ v, exec (.pmWriteHw a v) s = .next (s.raise (.pmRange a.toNat) .app 403))
    ∧ (s.params.pmSize ≤ a.toNat →
      exec (.pmReadB a) s = .next (s.raise (.pmRange a.toNat) .app 404)
      ∧ ∀ v, exec (.pmWriteB a v) s = .next (s.raise (.pmRange a.toNat) .app 405))
    ∧ (∀ l : HalfWord, l ≠ 0 → s.params.pmSize < a.toNat + l.toNat →
      exec (.pmRead a l) s = .next (s.raise (.pmRange (a.toNat + l.toNat - 1)) .app 406))
    ∧ (∀ d : List Byte, d ≠ [] → s.params.pmSize < a.toNat + d.length →
      exec (.pmWrite a d) s = .next (s.raise (.pmRange (a.toNat + d.length - 1)) .app 407))
    ∧ (∀ n x, a.toNat % 2 = 0 → a.toNat + 2 ≤ s.params.pmSize →
      (s.firstOwnedR a.toNat 2 = some (n, x) →
        exec (.pmReadHw a) s = .next (s.raise (.pmOwnership n x) .app 402))
      ∧ (s.firstOwnedW a.toNat 2 = some (n, x) →
        ∀ v, exec (.pmWriteHw a v) s = .next (s.raise (.pmOwnership n x) .app 403)))
    ∧ (∀ n x, a.toNat < s.params.pmSize →
      (s.firstOwnedR a.toNat 1 = some (n, x) →
        exec (.pmReadB a) s = .next (s.raise (.pmOwnership n x) .app 404))
      ∧ (s.firstOwnedW a.toNat 1 = some (n, x) →
        ∀ v, exec (.pmWriteB a v) s = .next (s.raise (.pmOwnership n x) .app 405)))
    ∧ (∀ (l : HalfWord) n x, l ≠ 0 → a.toNat + l.toNat ≤ s.params.pmSize →
      s.firstOwnedR a.toNat l.toNat = some (n, x) →
      exec (.pmRead a l) s = .next (s.raise (.pmOwnership n x) .app 406))
    ∧ (∀ (d : List Byte) n x, d ≠ [] → a.toNat + d.length ≤ s.params.pmSize →
      s.firstOwnedW a.toNat d.length = some (n, x) →
      exec (.pmWrite a d) s = .next (s.raise (.pmOwnership n x) .app 407))
    ∧ (∀ n x, s.firstOwnedW 0 s.params.pmSize = some (n, x) →
      exec .pmClear s = .next (s.raise (.pmOwnership n x) .app 408))
    ∧ (∀ x n ep, (FaultKind.pmRange x).code = 1 ∧ (FaultKind.pmAlign x).code = 2
      ∧ (FaultKind.pmOwnership n x).code = 3 ∧ (FaultKind.busPmRange x).code = 4
      ∧ (FaultKind.eaDuplicate ep).code = 5)

/-- Buffer ownership (R242, R401): a byte range is withheld from software exactly when the controller is attached
and some byte of it lies, for a bound endpoint, in the transmit buffer or transmit BDT fields of an armed transmit
side (writes only), in the receive buffer of an armed receive side (reads and writes), or in its receive BDT fields
(writes only). -/
def Obligations.BufferOwnership : Prop :=
  ∀ (s : State) (a l : Nat),
    ((s.firstOwnedW a l).isSome = true ↔
      s.attached = true ∧ ∃ (x : Nat) (n : EpNum), a ≤ x ∧ x < a + l ∧ s.isBound n = true ∧
        ((s.statTx n = .valid ∧
            ((s.geom n).txAddr.toNat ≤ x ∧ x < (s.geom n).txAddr.toNat + (s.geom n).txSize.toNat
             ∨ s.bdtAddr n .addrTx ≤ x ∧ x < s.bdtAddr n .addrTx + 4))
         ∨ (s.statRx n = .valid ∧
            ((s.geom n).rxAddr.toNat ≤ x ∧ x < (s.geom n).rxAddr.toNat + (s.geom n).rxSize.toNat
             ∨ s.bdtAddr n .addrRx ≤ x ∧ x < s.bdtAddr n .addrRx + 4))))
    ∧ ((s.firstOwnedR a l).isSome = true ↔
      s.attached = true ∧ ∃ (x : Nat) (n : EpNum), a ≤ x ∧ x < a + l ∧ s.isBound n = true ∧
        s.statRx n = .valid ∧
        (s.geom n).rxAddr.toNat ≤ x ∧ x < (s.geom n).rxAddr.toNat + (s.geom n).rxSize.toNat)

/-- Round trip (R415): what PM_WRITE stored, PM_READ answers, and every byte outside is unchanged. -/
def Obligations.WriteReadRoundTrip : Prop :=
  ∀ (s : State) (a l : HalfWord) (d : List Byte), s.initialized = true →
    Memory.wf s.mem = true → d.length = l.toNat → a.toNat + l.toNat ≤ s.params.pmSize →
    s.firstOwnedW a.toNat l.toNat = none → s.firstOwnedR a.toNat l.toNat = none →
    ∃ t, exec (.pmWrite a d) s = .next t
      ∧ exec (.pmRead a l) t = .next (t.emit (.result (.bytes d)))
      ∧ ∀ x, x < a.toNat ∨ a.toNat + l.toNat ≤ x → t.byte x = s.byte x

/-- The receive-count codes (R412, R413, R414): the two encodings, the capacity they denote whatever the count bits
are, and their round trip. -/
def Obligations.ReceiveCountCodes : Prop :=
  (∀ z : HalfWord, (z.toNat % 2 = 0 ∧ 2 ≤ z.toNat ∧ z.toNat ≤ 62) →
    (encodeRx z).toNat = z.toNat / 2 * 2 ^ 10 ∧ capacity (encodeRx z) = z.toNat)
  ∧ (∀ z : HalfWord, (z.toNat % 32 = 0 ∧ 64 ≤ z.toNat ∧ z.toNat ≤ 1024) →
    (encodeRx z).toNat = 2 ^ 15 + (z.toNat / 32 - 1) * 2 ^ 10 ∧ capacity (encodeRx z) = z.toNat)
  ∧ (∀ c : HalfWord, capacity c =
    if c.toNat / 2 ^ 15 = 0 then 2 * (c.toNat / 2 ^ 10 % 32) else 32 * (c.toNat / 2 ^ 10 % 32 + 1))
  ∧ (∀ c : HalfWord, rxCount c = c.toNat % 2 ^ 10)
  ∧ (∀ (c : HalfWord) (l : Nat), l < 2 ^ 10 → capacity (withCount c l) = capacity c ∧ rxCount (withCount c l) = l)

/-! ## Frames -/

/-- Memory frame, every instruction: a byte outside the ranges the row stores to reads after as it read before. -/
def Obligations.MemoryFrame : Prop :=
  ∀ (i : Instr) (s t : State), Memory.wf s.mem = true → s.SlotsOk → exec i s = .next t →
    ∀ x, (∀ r ∈ s.stores i, x < r.1 ∨ r.1 + r.2 ≤ x) → t.byte x = s.byte x

/-- Peripheral-register frame, every instruction: an endpoint register the row does not touch keeps its value, and
CNTR, DADDR, BTABLE, BCDR and the ISTR latches are changed only by the rows whose rules write them (R111, R121,
R123, R125, R127). -/
def Obligations.PeripheralRegisterFrame : Prop :=
  ∀ (i : Instr) (s t : State), exec i s = .next t →
    (s.SlotsOk → ∀ n : EpNum, n ∉ s.touches i → t.epr n = s.epr n)
    ∧ (t.cntr ≠ s.cntr → i = .dcInit ∨ i = .dcConnect ∨ i = .dcDisconnect ∨ (∃ w, i = .irqSusp w) ∨ ∃ w, i = .irqWkup w)
    ∧ (t.daddr ≠ s.daddr → i = .dcInit ∨ i = .busReset ∨ (∃ w, i = .irqReset w) ∨ runsStatus i = true)
    ∧ (t.btable ≠ s.btable → i = .dcInit)
    ∧ (t.bcdr ≠ s.bcdr → i = .dcConnect ∨ i = .dcDisconnect)
    ∧ (t.istr ≠ s.istr → i = .dcInit ∨ i = .dcIrq ∨ i = .busReset ∨ i = .busSuspend ∨ i = .busResume)

/-- Controller-state frame, every instruction: bindings, collaborators, `initialized`, `pre_suspend`, the control
role state and the execution states are changed only by the rows whose rules write them (R130, R135, R136, R137,
R140, R500); the parameters, APP's state and the launch data by none; a BUS row changes only registers, packet
memory, the trace and the faults. -/
def Obligations.ControllerStateFrame : Prop :=
  ∀ (i : Instr) (s t : State), exec i s = .next t →
    t.params = s.params ∧ t.app = s.app ∧ t.program = s.program ∧ t.turns = s.turns ∧ t.busIn = s.busIn
    ∧ (t.slots ≠ s.slots → (∃ n g, i = .epSetBd n g) ∨ ∃ n ty g, i = .dcSetEndpoint n ty g)
    ∧ (t.clkOn ≠ s.clkOn ∨ t.vdetOn ≠ s.vdetOn ∨ t.initialized ≠ s.initialized → i = .dcInit)
    ∧ (t.irqEnabled ≠ s.irqEnabled ∨ t.pinsAf ≠ s.pinsAf → i = .dcConnect ∨ i = .dcDisconnect)
    ∧ (t.preSuspend ≠ s.preSuspend → ∃ w, i = .irqSusp w)
    ∧ (t.core ≠ s.core → i = .dcIrq ∨ ∃ w, i = .irqCtr w)
    ∧ (t.stage ≠ s.stage ∨ t.remaining ≠ s.remaining →
        i = .controlOnReset ∨ runsSequencer i = true ∨ (∃ w, i = .irqReset w) ∨ ∃ n, i = .epReset n)
    ∧ (t.cursor ≠ s.cursor →
        (∃ r, i = .getDescriptor r) ∨ i = .controlOnReset ∨ runsSequencer i = true ∨ (∃ w, i = .irqReset w)
          ∨ ∃ n, i = .epReset n)
    ∧ (t.deferred ≠ s.deferred →
        (∃ r, i = .setAddress r) ∨ i = .controlOnReset ∨ runsSequencer i = true ∨ (∃ w, i = .irqReset w)
          ∨ ∃ n, i = .epReset n)
    ∧ (isBusRow i = true → t = { s with
        eprs := t.eprs, istr := t.istr, daddr := t.daddr, mem := t.mem, trace := t.trace, faults := t.faults })

/-! ## Endpoint registers -/

/-- The hardware write function of an endpoint register, bit by bit (R102). -/
def Obligations.EndpointRegisterWrite : Prop :=
  ∀ old w : HalfWord, ∀ k < 16,
    (eprSwWrite old w).getLsbD k =
      if k = 15 ∨ k = 7 then old.getLsbD k && w.getLsbD k
      else if k = 14 ∨ k = 13 ∨ k = 12 ∨ k = 6 ∨ k = 5 ∨ k = 4 then old.getLsbD k ^^ w.getLsbD k
      else if k = 11 then old.getLsbD k
      else w.getLsbD k

/-- The toggle-safe write word reaches its target (R451): through R102 the fields named in `chg` end at their given
values, the CTR flags named in `clr` are cleared, every other field is unchanged. -/
def Obligations.ToggleSafeWriteReachesTarget : Prop :=
  ∀ (cur : HalfWord) (chg : EprChange) (clr : EprClear),
    let f := eprFields cur
    eprFields (eprSwWrite cur (toggleSafeWrite cur chg clr)) =
      { ctrRx := if clr.ctrRx then false else f.ctrRx
        dtogRx := f.dtogRx
        statRx := chg.statRx.getD f.statRx
        setup := f.setup
        epType := chg.epType.getD f.epType
        epKind := chg.epKind.getD f.epKind
        ctrTx := if clr.ctrTx then false else f.ctrTx
        dtogTx := f.dtogTx
        statTx := chg.statTx.getD f.statTx
        ea := chg.ea.getD f.ea }

/-- Whatever the BUS makes of the register between the read and the write (R468, R821): a toggle-safe write clears
no CTR flag it was not told to clear, no software write changes DTOG_RX, DTOG_TX or SETUP, and a status named in
`chg` ends at (live value) xor (value read) xor (target), one not named at its live value. -/
def Obligations.ToggleSafeWriteUnderRace : Prop :=
  ∀ (cur live : HalfWord) (chg : EprChange) (clr : EprClear),
    let c := eprFields cur
    let l := eprFields live
    let f := eprFields (eprSwWrite live (toggleSafeWrite cur chg clr))
    f.dtogRx = l.dtogRx ∧ f.dtogTx = l.dtogTx ∧ f.setup = l.setup
    ∧ (clr.ctrRx = false → f.ctrRx = l.ctrRx) ∧ (clr.ctrTx = false → f.ctrTx = l.ctrTx)
    ∧ (clr.ctrRx = true → f.ctrRx = false) ∧ (clr.ctrTx = true → f.ctrTx = false)
    ∧ f.statRx = (match chg.statRx with | some v => l.statRx ^^^ (c.statRx ^^^ v) | none => l.statRx)
    ∧ f.statTx = (match chg.statTx with | some v => l.statTx ^^^ (c.statTx ^^^ v) | none => l.statTx)
    ∧ (∀ w : HalfWord, (eprFields (eprSwWrite live w)).setup = l.setup)

/-- The register setters and the flag clear (R453 to R457), undisturbed: the one field named changes, every other
field, register, byte and piece of state stays. -/
def Obligations.EndpointSetters : Prop :=
  ∀ (s : State) (n : EpNum), s.epAdmitted n = true →
    (∀ v, exec (.epSetAddress n v) s = .next (s.withEpr n fun f => { f with ea := v }))
    ∧ (∀ ty, exec (.epSetType n ty) s = .next (s.withEpr n fun f => { f with epType := ty.code }))
    ∧ (∀ v, exec (.epSetTxStatus n v) s = .next (s.withEpr n fun f => { f with statTx := v.code }))
    ∧ (∀ v, exec (.epSetRxStatus n v) s = .next (s.withEpr n fun f => { f with statRx := v.code }))
    ∧ exec (.epClearCtr n) s = .next (s.withEpr n fun f => { f with ctrRx := false, ctrTx := false })

/-- Idempotence (R467): a second setter with the same value, no bus step between them, changes nothing; the register
reads the value. Stated for the four setters APP has and, of EP_KIND, for the write word itself. -/
def Obligations.SettersIdempotent : Prop :=
  (∀ (s t : State) (n : EpNum), s.epAdmitted n = true →
    (∀ v, exec (.epSetTxStatus n v) s = .next t → exec (.epSetTxStatus n v) t = .next t ∧ t.statTx n = v)
    ∧ (∀ v, exec (.epSetRxStatus n v) s = .next t → exec (.epSetRxStatus n v) t = .next t ∧ t.statRx n = v)
    ∧ (∀ v, exec (.epSetAddress n v) s = .next t → exec (.epSetAddress n v) t = .next t ∧ (t.eprF n).ea = v)
    ∧ (∀ v, exec (.epSetType n v) s = .next t → exec (.epSetType n v) t = .next t ∧ t.epType n = v))
  ∧ (∀ (cur : HalfWord) (b : Bool),
      let r := eprSwWrite cur (toggleSafeWrite cur { epKind := some b } {})
      eprSwWrite r (toggleSafeWrite r { epKind := some b } {}) = r ∧ (eprFields r).epKind = b)
  ∧ (∀ (cur : HalfWord) (v : BitVec 2),
      let r := eprSwWrite cur (toggleSafeWrite cur { statTx := some v } {})
      (eprFields (toggleSafeWrite r { statTx := some v } {})).statTx = 0)
  ∧ (∀ (cur : HalfWord) (v : BitVec 2),
      let r := eprSwWrite cur (toggleSafeWrite cur { statRx := some v } {})
      (eprFields (toggleSafeWrite r { statRx := some v } {})).statRx = 0)

/-! ## Endpoint operations -/

/-- EP_SET_BD (R458, R731): a geometry valid against the other bound slots becomes the slot's, packet memory and
every register stay; an invalid one is refused. Valid is what R231 asks: even addresses, both buffers inside packet
memory, txSize at most 1023, an encodable rxSize, at least 8 for slot 0, and no byte of a buffer in the BDT, in the
other buffer or in a buffer of another bound slot; an empty buffer has no byte to share (log 25). -/
def Obligations.SetBufferDescriptor : Prop :=
  ∀ (s : State) (n : EpNum) (g : Geometry),
    (s.epAdmitted n = true →
      (s.geomOk n g = true → exec (.epSetBd n g) s = .next (s.setGeom n g) ∧ (s.setGeom n g).geom n = g
        ∧ (s.setGeom n g).role n = s.role n)
      ∧ (s.geomOk n g = false → exec (.epSetBd n g) s = .next (s.refuse .geometry)))
    ∧ (s.geomOk n g = true ↔
        g.txAddr.toNat % 2 = 0 ∧ g.txAddr.toNat + g.txSize.toNat ≤ s.params.pmSize ∧ g.txSize.toNat ≤ 1023
        ∧ g.rxAddr.toNat % 2 = 0 ∧ g.rxAddr.toNat + g.rxSize.toNat ≤ s.params.pmSize
        ∧ (g.rxSize.toNat % 2 = 0 ∧ 2 ≤ g.rxSize.toNat ∧ g.rxSize.toNat ≤ 62
            ∨ g.rxSize.toNat % 32 = 0 ∧ 64 ≤ g.rxSize.toNat ∧ g.rxSize.toNat ≤ 1024)
        ∧ (n = 0 → 8 ≤ g.rxSize.toNat)
        ∧ (∀ x, ¬ (inTxBuffer g x ∧ inRxBuffer g x))
        ∧ ∀ x, inTxBuffer g x ∨ inRxBuffer g x →
            ¬ (s.params.bdtBase.toNat ≤ x ∧ x < s.params.bdtBase.toNat + 64)
            ∧ ∀ m : EpNum, m ≠ n → s.isBound m = true → ¬ inTxBuffer (s.geom m) x ∧ ¬ inRxBuffer (s.geom m) x)

/-- Buffer-descriptor commit, endpoint initialisation and endpoint reset (R459, R464, R463 for a generic endpoint):
the entry's eight bytes are written, and EP_RESET sets EA to the slot's number. On an armed endpoint (R459, R702)
each of the three faults in its commit: with STAT_TX `valid` before any write, with STAT_RX only after the transmit
fields are written; so does each where the entry lies outside packet memory. That the rule recorded is 459 is log
11's choice. -/
def Obligations.BufferDescriptorCommit : Prop :=
  ∀ (s : State) (n : EpNum), s.epAdmitted n = true →
    (s.canCommit n = true →
      exec (.epInitBd n) s = .next (s.committed n)
      ∧ exec (.epInit n) s = .next (s.committed n)
      ∧ (s.role n = some .generic →
          exec (.epReset n) s = .next ((s.committed n).withEpr n fun f => { f with ea := BitVec.ofNat 4 n.val })))
    ∧ ∀ i, i = .epInitBd n ∨ i = .epInit n ∨ i = .epReset n →
      (s.params.pmSize ≤ s.bdtAddr n .addrTx + 1 →
        exec i s = .next (s.raise (.pmRange (s.bdtAddr n .addrTx)) .app 459))
      ∧ (s.attached = true → s.bdtAddr n .addrTx + 8 ≤ s.params.pmSize →
        (s.statTx n = .valid → exec i s = .next (s.raise (.pmOwnership n (s.bdtAddr n .addrTx)) .app 459))
        ∧ (s.statTx n ≠ .valid → s.statRx n = .valid →
          exec i s = .next
            ((s.setBytes (s.bdtAddr n .addrTx) [loByte (s.geom n).txAddr, hiByte (s.geom n).txAddr, 0, 0]).raise
              (.pmOwnership n (s.bdtAddr n .addrRx)) .app 459)))

/-- EP_TRANSMIT (R460, R720): the payload cut to txSize, then COUNT_TX, then STAT_TX `valid`; on an armed transmit
side, or a payload outside packet memory, a fault and no write. The rule recorded is log 11's choice, the address of
the range fault the payload's last byte (log 12, beside R701), the owner the least number (log 13). -/
def Obligations.Transmit : Prop :=
  ∀ (s : State) (n : EpNum) (d : List Byte), s.epAdmitted n = true →
    (Memory.wf s.mem = true → s.canSend n d = true →
      exec (.epTransmit n d) s = .next (s.sent n d))
    ∧ (s.sendCount n d ≠ 0 → s.params.pmSize < (s.geom n).txAddr.toNat + s.sendCount n d →
      exec (.epTransmit n d) s =
        .next (s.raise (.pmRange ((s.geom n).txAddr.toNat + s.sendCount n d - 1)) .app 460))
    ∧ (∀ m x, s.sendCount n d ≠ 0 → (s.geom n).txAddr.toNat + s.sendCount n d ≤ s.params.pmSize →
      s.firstOwnedW (s.geom n).txAddr.toNat (s.sendCount n d) = some (m, x) →
      exec (.epTransmit n d) s = .next (s.raise (.pmOwnership m x) .app 460))
    ∧ (s.sendCount n d = 0 → s.bdtAddr n .countTx + 1 < s.params.pmSize → s.attached = true →
      s.statTx n = .valid →
      exec (.epTransmit n d) s = .next (s.raise (.pmOwnership n (s.bdtAddr n .countTx)) .app 460))

/-- EP_RECEIVE and EP_GET_RX_LEN (R461, R462): the received length is COUNT_RX[9:0]; `receive` answers at most that
many bytes of the receive buffer and rearms reception. On an armed receive buffer, or outside packet memory,
`receive` faults and reception is not rearmed. The rule recorded is log 11's choice, the address of the payload's
range fault its last byte (log 12, beside R701), the endpoint the least that owns the byte (log 13). -/
def Obligations.Receive : Prop :=
  ∀ (s : State) (n : EpNum), s.epAdmitted n = true →
    let c := s.bdtAddr n .countRx
    let rl := (ofBytes (s.byte c) (s.byte (c + 1))).toNat % 1024
    (s.params.pmSize ≤ c + 1 →
      exec (.epGetRxLen n) s = .next (s.raise (.pmRange c) .app 462)
      ∧ ∀ l : HalfWord, exec (.epReceive n l) s = .next (s.raise (.pmRange c) .app 461))
    ∧ (c + 1 < s.params.pmSize →
      exec (.epGetRxLen n) s = .next (s.emit (.result (.u16 (BitVec.ofNat 16 rl))))
      ∧ ∀ l : HalfWord,
        let a := (s.geom n).rxAddr.toNat
        let k := min l.toNat rl
        (k = 0 ∨ s.mayRead a k = true → exec (.epReceive n l) s = .next ((s.rearmed n).emit (.result (.bytes
          ((List.range k).map fun i => s.byte (a + i))))))
        ∧ (k ≠ 0 → s.params.pmSize < a + k →
          exec (.epReceive n l) s = .next (s.raise (.pmRange (a + k - 1)) .app 461))
        ∧ (k ≠ 0 → a + k ≤ s.params.pmSize →
          (∀ m x, s.firstOwnedR a k = some (m, x) →
            exec (.epReceive n l) s = .next (s.raise (.pmOwnership m x) .app 461))
          ∧ (s.attached = true → s.statRx n = .valid → (s.geom n).rxSize ≠ 0 →
            ∃ m, s.firstOwnedR a k = some (m, a))))

/-! ## Device controller -/

/-- DC_INIT (R601), from every state: the registers, the packet memory zero but for the BDT entries of the bound
slots, the status; everything else kept (R802). While CNTR holds a value it writes no bus event is a step (R650). -/
def Obligations.DeviceInit : Prop :=
  ∀ s : State, paramsValid s.params = true → s.MemOk →
    ∃ t, exec .dcInit s = .next t
      ∧ t.clkOn = true ∧ t.vdetOn = true ∧ t.cntr = 0x0002 ∧ t.istr &&& 0x7F80 = 0
      ∧ t.btable = s.params.bdtBase ∧ t.daddr = 0x0000 ∧ t.devStatus = .powered ∧ t.initialized = true
      ∧ (∀ n : EpNum, s.isBound n = true → ∀ k < 8,
          t.byte (s.params.bdtBase.toNat + 8 * n.val + k) = (bdtEntry (s.geom n)).getD k 0)
      ∧ (∀ x, (∀ n : EpNum, s.isBound n = true →
            x < s.params.bdtBase.toNat + 8 * n.val ∨ s.params.bdtBase.toNat + 8 * n.val + 8 ≤ x) → t.byte x = 0)
      ∧ t = { s with clkOn := t.clkOn, vdetOn := t.vdetOn, cntr := t.cntr, istr := t.istr, btable := t.btable,
                     daddr := t.daddr, devStatus := t.devStatus, initialized := t.initialized, mem := t.mem }
      ∧ ∀ u : State, u.cntr = 0x0003 ∨ u.cntr = 0x0002 → u.nextBus = none

/-- DC_CONNECT and DC_DISCONNECT (R602, R603): transceiver, interrupt line, the four interrupt classes, pins and
pull-up; nothing else, `dev_status` included. -/
def Obligations.ConnectDisconnect : Prop :=
  ∀ s : State, s.initialized = true →
    exec .dcConnect s = .next { s with
      cntr := (s.cntr &&& 0xFFBD) ||| 0x9C00, irqEnabled := true, pinsAf := true, bcdr := 0x8000 }
    ∧ exec .dcDisconnect s = .next { s with
      bcdr := 0x0000, pinsAf := false, cntr := (s.cntr &&& 0x63BF) ||| 0x0002, irqEnabled := false }

/-- DC_SET_ENDPOINT (R604): slot 0, then the type, then the geometry; else the slot is bound, and nothing else
changes, before `init()` or after. -/
def Obligations.SetEndpoint : Prop :=
  ∀ (s : State) (n : EpNum) (ty : EpType) (g : Geometry),
    exec (.dcSetEndpoint n ty g) s = .next
      (if n = 0 then s.refuse .ep0Bound
       else if ty = .control then s.refuse .badType
       else if s.geomOk n g = false then s.refuse .geometry
       else { s with slots := s.slots.set n (.bound .generic g ty) })

/-- DC_GET_STATUS (R605): the status code of R312, in every state. -/
def Obligations.GetDeviceStatus : Prop :=
  ∀ s : State, exec .dcGetStatus s = .next (s.emit (.result (.u16 (match s.devStatus with
    | .disabled => 0 | .powered => 1 | .default => 2 | .addressed => 3 | .configured => 4
    | .suspended => 5 | .attached => 6))))

/-- Command admission (R733, R734, R604): a command the rules do not admit is refused with the reason they give, and
nothing else changes. That DC_IRQ counts as issued by APP while APP is not idle is the model's choice (log 17). -/
def Obligations.CommandAdmission : Prop :=
  ∀ (i : Instr) (s : State) (r : RefuseReason), admissionRefusal s i = some r → exec i s = .next (s.refuse r)

/-! ## Interrupts -/

/-- One read of ISTR (R110, R111, R112), whatever the draws: the latches, reserved bits 0, CTR exactly when some
endpoint is pending, and then EP_ID one pending endpoint (the least under `lowest_first`) and DIR its CTR_RX. -/
def Obligations.InterruptStatusRead : Prop :=
  ∀ s : State,
    let w := s.istrRead
    w &&& 0x7F80 = s.istr &&& 0x7F80 ∧ w &&& 0x0060 = 0
    ∧ (w.getLsbD 15 = true ↔ ∃ n : EpNum, s.pending n = true)
    ∧ (w.getLsbD 15 = true → ∃ n : EpNum, w.extractLsb' 0 4 = BitVec.ofNat 4 n.val ∧ s.pending n = true
        ∧ w.getLsbD 4 = (s.eprF n).ctrRx
        ∧ (s.params.epPriority = .lowestFirst → ∀ m : EpNum, s.pending m = true → n ≤ m))

/-- The interrupt line is a level (R710), and a dispatch may start exactly when it is asserted, CORE and APP are
idle and no fault is recorded (R711). -/
def Obligations.InterruptLine : Prop :=
  ∀ s : State,
    (s.irqLine = true ↔ s.irqEnabled = true ∧
      (((∃ n : EpNum, (s.eprF n).ctrRx = true ∨ (s.eprF n).ctrTx = true) ∧ s.cntr.getLsbD 15 = true)
       ∨ (s.istr.getLsbD 10 = true ∧ s.cntr.getLsbD 10 = true)
       ∨ (s.istr.getLsbD 11 = true ∧ s.cntr.getLsbD 11 = true)
       ∨ (s.istr.getLsbD 12 = true ∧ s.cntr.getLsbD 12 = true)))
    ∧ (s.canDispatch = true ↔ s.irqLine = true ∧ s.core = .idle ∧ s.app = .idle ∧ s.faults = [])

/-- Interrupt entry (R606, R711, R713, R714): the status word is saved and the latches cleared in one step, and the
handlers it selects are to run: RESET alone, else CTR, SUSP, WKUP in this order. Holding the remaining statements as
that list of rows is the model's choice (log 16), as is `draws`, its own counter of status reads (log 7). -/
def Obligations.InterruptEntry : Prop :=
  ∀ s : State, s.canDispatch = true →
    let w := s.istrRead
    exec .dcIrq s = .next { s with
      core := .dispatching w none
        (if w.getLsbD 10 then [.irqReset w]
         else (if w.getLsbD 15 then [.irqCtr w] else []) ++ (if w.getLsbD 11 then [.irqSusp w] else [])
           ++ (if w.getLsbD 12 then [.irqWkup w] else [])) []
      istr := s.istr &&& 0x807F
      draws := s.draws + 1 }

/-- The RESET handler (R607, R463, R502): DADDR, every bound entry committed and EA set, the control role reset, the
callback, the status Default; unbound registers, other bytes and all other state kept. -/
def Obligations.ResetHandling : Prop :=
  ∀ (s : State) (w : HalfWord), Memory.wf s.mem = true → s.SlotsOk →
    (∀ n : EpNum, s.isBound n = true → s.canCommit n = true) →
    ∃ t, exec (.irqReset w) s = .next t
      ∧ t.daddr = 0x0080 ∧ t.devStatus = .default
      ∧ t.trace = s.trace ++ (if s.cursor.isSome then [.descDeinit] else []) ++ [.cbReset]
      ∧ t.eprF 0 = { s.eprF 0 with
          ea := 0, epType := EpType.control.code, statTx := Stat.nak.code, statRx := Stat.valid.code }
      ∧ (∀ n : EpNum, n ≠ 0 → s.isBound n = true → t.eprF n = { s.eprF n with ea := BitVec.ofNat 4 n.val })
      ∧ (∀ n : EpNum, s.isBound n = false → t.epr n = s.epr n)
      ∧ t.stage = .none ∧ t.remaining = 0 ∧ t.cursor = none ∧ t.deferred = 0
      ∧ (∀ n : EpNum, s.isBound n = true → ∀ k < 8,
          t.byte (s.bdtAddr n .addrTx + k) = (bdtEntry (s.geom n)).getD k 0)
      ∧ (∀ x, (∀ n : EpNum, s.isBound n = true → x < s.bdtAddr n .addrTx ∨ s.bdtAddr n .addrTx + 8 ≤ x) →
          t.byte x = s.byte x)
      ∧ t = { s with daddr := t.daddr, devStatus := t.devStatus, trace := t.trace, eprs := t.eprs, mem := t.mem,
                     stage := t.stage, remaining := t.remaining, cursor := t.cursor, deferred := t.deferred }

/-- The CTR handler (R608, R351): the served endpoint's two CTR flags are cleared by one write; on a bound slot the
snapshot is kept and the hooks its key selects run, reception before transmission, the second only if the first
raised no fault. -/
def Obligations.CtrHandling : Prop :=
  ∀ (s : State) (w : HalfWord),
    let n := epIdOf w
    let snap := s.eprF n
    let clear := fun f : EprFields => { f with ctrRx := false, ctrTx := false }
    let s₁ := (s.setEprSnap (s.epr n)).withEpr n clear
    (s.isBound n = false → exec (.irqCtr w) s = .next (s.withEpr n clear))
    ∧ (s.role n = some .generic → exec (.irqCtr w) s = .next s₁)
    ∧ (s.role n = some .control →
        ∃ s₂ t, exec (.irqCtr w) s = .next t
          ∧ (if w.getLsbD 4 = true ∧ snap.setup = true then exec .controlOnSetupReceptionComplete s₁ = .next s₂
             else if w.getLsbD 4 = true then exec .controlOnReceptionComplete s₁ = .next s₂
             else s₂ = s₁)
          ∧ (if s₂.faults = s₁.faults ∧ snap.ctrTx = true then exec .controlOnTransmissionComplete s₂ = .next t
             else t = s₂))

/-- The CTRD rows (R608): within a dispatch, each runs its hook of the slot EP_ID names, by the slot's role; an
unbound slot has no hook; outside a dispatch there is no such slot. That a row acts whatever its key, which selected
it, is log 8's deduction, and that it stops as `notDispatching` outside a dispatch log 27's. -/
def Obligations.CtrRows : Prop :=
  ∀ (s : State) (k : BitVec 17),
    (∀ n r, s.servedEp = some n → s.role n = some r →
      (∃ t, exec (.ctrSetup k) s = .next t ∧ exec (hookInstr r .onSetupReceptionComplete) s = .next t)
      ∧ (∃ t, exec (.ctrReception k) s = .next t ∧ exec (hookInstr r .onReceptionComplete) s = .next t)
      ∧ (∃ t, exec (.ctrTransmission k) s = .next t ∧ exec (hookInstr r .onTransmissionComplete) s = .next t))
    ∧ (∀ n, s.servedEp = some n → s.isBound n = false →
      exec (.ctrSetup k) s = .next s ∧ exec (.ctrReception k) s = .next s ∧ exec (.ctrTransmission k) s = .next s)
    ∧ (s.core = .idle →
      exec (.ctrSetup k) s = .fault .notDispatching ∧ exec (.ctrReception k) s = .fault .notDispatching
        ∧ exec (.ctrTransmission k) s = .fault .notDispatching)

/-- The SUSP and WKUP handlers (R609, R610, R828): FSUSP, the remembered status, the callback; a wakeup restores the
status only from Suspended. -/
def Obligations.SuspendWakeup : Prop :=
  ∀ (s : State) (w : HalfWord),
    exec (.irqSusp w) s = .next { s with
      cntr := (s.cntr &&& 0xFFBF) ||| 0x0008, preSuspend := s.devStatus, devStatus := .suspended,
      trace := s.trace ++ [.cbSuspend] }
    ∧ (s.devStatus = .suspended → exec (.irqWkup w) s = .next { s with
      cntr := s.cntr &&& 0xFFB7, devStatus := s.preSuspend, trace := s.trace ++ [.cbResume] })
    ∧ (s.devStatus ≠ .suspended → exec (.irqWkup w) s = .next { s with cntr := s.cntr &&& 0xFFB7 })

/-! ## Control sequencer -/

/-- The requests with a fixed response (R507 to R510, R512 to R514): the response is transmitted on endpoint 0; only
SET_ADDRESS keeps its value, in `deferred` and not in DADDR, and only SET_CONFIGURATION changes the status. Where
CORE's transmit faults, on an armed endpoint 0 among others (R827, R829), nothing but that value or status has
changed. The rule recorded is log 11's choice, the range fault's address log 12's, the owner log 13's. -/
def Obligations.FixedResponseRequests : Prop :=
  ∀ (s : State) (r : Request), Memory.wf s.mem = true →
    (s.canSend 0 [] = true →
      exec (.clearFeature r) s = .next (s.sent 0 [])
      ∧ exec (.setFeature r) s = .next (s.sent 0 [])
      ∧ exec (.setDescriptor r) s = .next (s.sent 0 [])
      ∧ exec (.setAddress r) s = .next { s.sent 0 [] with deferred := r.wValue }
      ∧ exec (.setConfiguration r) s = .next { s.sent 0 [] with devStatus := .configured })
    ∧ (s.canSend 0 s.params.getStatusResponse = true →
      exec (.getStatus r) s = .next (s.sent 0 s.params.getStatusResponse))
    ∧ (s.canSend 0 s.params.getConfigurationResponse = true →
      exec (.getConfiguration r) s = .next (s.sent 0 s.params.getConfigurationResponse))
    ∧ (∀ k, s.sendFault 0 [] = some k →
      exec (.clearFeature r) s = .next (s.raise k .core 460)
      ∧ exec (.setFeature r) s = .next (s.raise k .core 460)
      ∧ exec (.setDescriptor r) s = .next (s.raise k .core 460)
      ∧ exec (.setAddress r) s = .next (({ s with deferred := r.wValue } : State).raise k .core 460)
      ∧ exec (.setConfiguration r) s = .next (({ s with devStatus := .configured } : State).raise k .core 460))
    ∧ (∀ k, s.sendFault 0 s.params.getStatusResponse = some k →
      exec (.getStatus r) s = .next (s.raise k .core 460))
    ∧ (∀ k, s.sendFault 0 s.params.getConfigurationResponse = some k →
      exec (.getConfiguration r) s = .next (s.raise k .core 460))
    ∧ (∀ d, s.attached = true → s.isBound 0 = true → s.statTx 0 = .valid →
      (s.geom 0).txAddr.toNat + s.txSize0 ≤ s.params.pmSize → s.bdtAddr 0 .countTx + 1 < s.params.pmSize →
      ∃ m x, s.sendFault 0 d = some (.pmOwnership m x))

/-- GET_DESCRIPTOR (R511, R722): a missing descriptor is looked up and dropped; else the first packet of at most
min(wLength, len, txSize0) bytes, and a cursor where both the descriptor and the request go on beyond it. Where
CORE's transmit faults (R827, R829), the descriptor was looked up and there is no cursor; the record is as logs 11,
12 and 13 say. -/
def Obligations.GetDescriptor : Prop :=
  ∀ (s : State) (r : Request), Memory.wf s.mem = true →
    let ty := hiByte r.wValue
    let ix := loByte r.wValue
    (lookupDescriptor s.params ty ix = none →
      exec (.getDescriptor r) s = .next { s with trace := s.trace ++ [.descLookup ty ix false] })
    ∧ (∀ d, lookupDescriptor s.params ty ix = some d →
        let ts := min (min r.wLength.toNat (descLen d).toNat) s.txSize0
        (s.canSend 0 (d.bytes.take ts) = true →
          let t := s.sent 0 (d.bytes.take ts)
          exec (.getDescriptor r) s = .next
            (if ts < (descLen d).toNat ∧ ts < r.wLength.toNat then
              { t with trace := s.trace ++ [.descLookup ty ix true, .descInit]
                       cursor := some ⟨d, descLen d, BitVec.ofNat 16 ts⟩ }
             else { t with trace := s.trace ++ [.descLookup ty ix true, .descInit, .descDeinit] }))
        ∧ (∀ k, s.sendFault 0 (d.bytes.take ts) = some k →
          exec (.getDescriptor r) s = .next
            (({ s with trace := s.trace ++ [.descLookup ty ix true, .descInit] } : State).raise k .core 460)))

/-- The rows that change nothing (R465, R501, R515): the generic hooks, the control `onInit` and an unrecognised
request, in every state. -/
def Obligations.NoEffectRows : Prop :=
  ∀ s : State,
    exec .genericOnInit s = .next s ∧ exec .genericOnReset s = .next s
    ∧ exec .genericOnSetupReceptionComplete s = .next s ∧ exec .genericOnReceptionComplete s = .next s
    ∧ exec .genericOnTransmissionComplete s = .next s ∧ exec .controlOnInit s = .next s
    ∧ ∀ b r, exec (.unrecognisedRequest b r) s = .next s

/-- The control `onReset` (R502): type control, transmit `nak`, receive `valid`, the role state cleared, a pending
cursor released; regardless of prior state. -/
def Obligations.ControlReset : Prop :=
  ∀ s : State, exec .controlOnReset s = .next s.roleReset

/-- Setup reception (R503, R504, R505, R506): the old transfer is dropped, the eight bytes decoded, the stage
established by wLength and the direction bit, the selected request run, and reception rearmed unless the request
raised a fault. Where the eight bytes may not be read, armed or outside packet memory, the old transfer is dropped
and the read faults, with nothing else done; the record is as logs 11, 12 and 13 say. -/
def Obligations.SetupReception : Prop :=
  ∀ s : State,
    let a := (s.geom 0).rxAddr.toNat
    let s₀ : State := { s with
      stage := .none, remaining := 0, cursor := none
      trace := s.trace ++ (if s.cursor.isSome then [.descDeinit] else []) }
    (∀ k : SetupPacket, s.mayRead a 8 = true → (∀ j < 8, s.byte (a + j) = k.bytes.getD j 0) →
      let s₁ : State := { s₀ with
        stage := if k.wLength = 0 then .none else if k.bmRequestType.getLsbD 7 then .dataIn else .dataOut
        remaining := k.wLength }
      ∃ s₂, exec (decodeSetup s.params k) s₁ = .next s₂
        ∧ exec .controlOnSetupReceptionComplete s = .next (if s₂.faults = s₁.faults then s₂.rearmed 0 else s₂))
    ∧ (s.params.pmSize < a + 8 →
      exec .controlOnSetupReceptionComplete s = .next (s₀.raise (.pmRange (a + 7)) .core 503))
    ∧ (a + 8 ≤ s.params.pmSize →
      (∀ m x, s.firstOwnedR a 8 = some (m, x) →
        exec .controlOnSetupReceptionComplete s = .next (s₀.raise (.pmOwnership m x) .core 503))
      ∧ (s.attached = true → s.isBound 0 = true → s.statRx 0 = .valid → (s.geom 0).rxSize ≠ 0 →
        ∃ m, s.firstOwnedR a 8 = some (m, a)))

/-- Reception complete on endpoint 0 (R516, R518, R519, R520, R523): by stage, the next chunk, the collapse to the
status stage, nothing, or the status stage; reception is rearmed. Where CORE's transmit faults (R827, R829), the
cursor is kept and reception is not rearmed; the record is as logs 11, 12 and 13 say. -/
def Obligations.ReceptionComplete : Prop :=
  ∀ s : State, Memory.wf s.mem = true → s.CursorOk →
    (s.stage = .none → exec .controlOnReceptionComplete s = .next (s.statusDone.rearmed 0))
    ∧ (s.stage = .dataOut → exec .controlOnReceptionComplete s = .next (s.rearmed 0))
    ∧ (s.stage = .dataIn → s.cursor = none →
        exec .controlOnReceptionComplete s = .next (({ s with stage := .none }).statusDone.rearmed 0))
    ∧ (∀ c, s.stage = .dataIn → s.cursor = some c → s.canSend 0 (s.chunkBytes c) = true →
        exec .controlOnReceptionComplete s = .next ((s.chunkSent c).rearmed 0))
    ∧ (∀ c k, s.stage = .dataIn → s.cursor = some c → s.sendFault 0 (s.chunkBytes c) = some k →
        exec .controlOnReceptionComplete s = .next (s.raise k .core 460))

/-- Transmission complete on endpoint 0 (R517, R518, R520, R523): by stage, the next chunk, the collapse to the
status stage, the status stage where STATUS_ON_TX_NONE says so, or nothing. Where CORE's transmit faults (R827,
R829), the cursor is kept; the record is as logs 11, 12 and 13 say. -/
def Obligations.TransmissionComplete : Prop :=
  ∀ s : State, Memory.wf s.mem = true → s.CursorOk →
    (s.stage = .none → exec .controlOnTransmissionComplete s =
      .next (if s.params.statusOnTxNone then s.statusDone else s))
    ∧ (s.stage = .dataOut → exec .controlOnTransmissionComplete s = .next s)
    ∧ (s.stage = .dataIn → s.cursor = none →
        exec .controlOnTransmissionComplete s = .next ({ s with stage := .none }).statusDone)
    ∧ (∀ c, s.stage = .dataIn → s.cursor = some c → s.canSend 0 (s.chunkBytes c) = true →
        exec .controlOnTransmissionComplete s = .next (s.chunkSent c))
    ∧ (∀ c k, s.stage = .dataIn → s.cursor = some c → s.sendFault 0 (s.chunkBytes c) = some k →
        exec .controlOnTransmissionComplete s = .next (s.raise k .core 460))

/-! ## Bus engine -/

/-- Attachment, bus reset, suspend and resume (R650, R652, R656, R657): while attached each has its effect and no
other; while not attached no bus event is a step. -/
def Obligations.BusResetSuspendResume : Prop :=
  ∀ s : State,
    (s.attached = true ↔ s.clkOn = true ∧ s.pinsAf = true ∧ s.bcdr.getLsbD 15 = true ∧ s.cntr.getLsbD 1 = false
      ∧ s.cntr.getLsbD 0 = false)
    ∧ (s.attached = true →
        exec .busReset s = .next { s with
          eprs := Vector.replicate 8 0x0000, daddr := 0x0000, istr := s.istr ||| 0x0400 }
        ∧ exec .busSuspend s = .next { s with istr := s.istr ||| 0x0800 }
        ∧ exec .busResume s = .next { s with istr := s.istr ||| 0x1000 })
    ∧ (s.attached = false → ∀ i, isBusRow i = true → exec i s = .fault .busNotEnabled)

/-- Endpoint match (R651): no answer, one register, or two. -/
def Obligations.EndpointMatch : Prop :=
  ∀ (s : State) (addr : BitVec 7) (ep : BitVec 4) (dir : Dir),
    let answers := fun n : EpNum => (s.eprF n).ea = ep ∧ s.dirStat dir n ≠ .disabled
    (s.busMatch addr ep dir = .noAnswer ↔ s.ef = false ∨ addr ≠ s.add ∨ ∀ n, ¬ answers n)
    ∧ (∀ n, s.busMatch addr ep dir = .hit n ↔
        s.ef = true ∧ addr = s.add ∧ answers n ∧ ∀ m, answers m → m = n)
    ∧ (s.busMatch addr ep dir = .duplicate ↔
        s.ef = true ∧ addr = s.add ∧ ∃ n m, n ≠ m ∧ answers n ∧ answers m)

/-- A SETUP token (R653, R658, R659, R662), outcome by outcome in the rule's order; an accepted one stores the
packet at ADDR_RX, sets COUNT_RX[9:0] to 8 and hands endpoint n to software. That a fault records rule 653, where
R701 names R651 and R662, is log 11's choice, and the address of the range fault, the packet's last byte, log 12's
(beside R701). -/
def Obligations.BusSetup : Prop :=
  ∀ (s : State) (addr : BitVec 7) (ep : BitVec 4) (k : SetupPacket), s.attached = true →
    (s.busMatch addr ep .rx = .noAnswer → exec (.busSetup addr ep k) s = .next s)
    ∧ (s.busMatch addr ep .rx = .duplicate →
        exec (.busSetup addr ep k) s = .next (s.raise (.eaDuplicate ep) .bus 653))
    ∧ (∀ n, s.busMatch addr ep .rx = .hit n →
        (s.epType n = .isochronous → exec (.busSetup addr ep k) s = .fault .busNotEnabled)
        ∧ (s.epType n = .bulk ∨ s.epType n = .interrupt → exec (.busSetup addr ep k) s = .next s)
        ∧ (s.epType n = .control →
            (s.params.setupAccept = .validOnly → s.statRx n ≠ .valid → exec (.busSetup addr ep k) s = .next s)
            ∧ (s.params.setupAccept = .unlessDisabled ∨ s.statRx n = .valid →
                s.bdtAddr n .addrTx + 8 ≤ s.params.pmSize →
                let a := (s.cell (s.bdtAddr n .addrRx / 2)).toNat
                let c := s.cell (s.bdtAddr n .countRx / 2)
                (capacity c < 8 → exec (.busSetup addr ep k) s = .next s)
                ∧ (8 ≤ capacity c → s.params.pmSize < a + 8 →
                    exec (.busSetup addr ep k) s = .next (s.raise (.busPmRange (a + 7)) .bus 653))
                ∧ (8 ≤ capacity c → a + 8 ≤ s.params.pmSize →
                    exec (.busSetup addr ep k) s = .next (((s.setBytes a k.bytes).setRxCount n 8).withEpr n
                      fun f => { f with ctrRx := true, setup := true, statRx := Stat.nak.code,
                                        dtogRx := true, dtogTx := true,
                                        statTx := if s.params.setupNaksTx then Stat.nak.code else f.statTx })))))

/-- An OUT token (R654, R658, R659, R662, R663), outcome by outcome. That a fault records rule 654, where R701 names
R651 and R662, is log 11's choice, and the address of the range fault, the packet's last byte, log 12's (beside
R701). -/
def Obligations.BusOut : Prop :=
  ∀ (s : State) (addr : BitVec 7) (ep : BitVec 4) (d : List Byte), s.attached = true → d.length ≤ 1023 →
    (s.busMatch addr ep .rx = .noAnswer → exec (.busOut addr ep d) s = .next s)
    ∧ (s.busMatch addr ep .rx = .duplicate →
        exec (.busOut addr ep d) s = .next (s.raise (.eaDuplicate ep) .bus 654))
    ∧ (∀ n, s.busMatch addr ep .rx = .hit n →
        (s.epType n = .isochronous → exec (.busOut addr ep d) s = .fault .busNotEnabled)
        ∧ (s.epType n ≠ .isochronous →
            (s.statRx n = .nak ∨ s.statRx n = .stall → exec (.busOut addr ep d) s = .next s)
            ∧ (s.statRx n = .valid → s.bdtAddr n .addrTx + 8 ≤ s.params.pmSize →
                let a := (s.cell (s.bdtAddr n .addrRx / 2)).toNat
                let c := s.cell (s.bdtAddr n .countRx / 2)
                (capacity c < d.length → exec (.busOut addr ep d) s = .next s)
                ∧ (d.length ≤ capacity c → s.params.pmSize < a + d.length →
                    exec (.busOut addr ep d) s = .next (s.raise (.busPmRange (a + d.length - 1)) .bus 654))
                ∧ (d.length ≤ capacity c → a + d.length ≤ s.params.pmSize →
                    exec (.busOut addr ep d) s = .next (((s.setBytes a d).setRxCount n d.length).withEpr n
                      fun f => { f with ctrRx := true, setup := false, statRx := Stat.nak.code,
                                        dtogRx := !f.dtogRx })))))

/-- An IN token (R655, R658, R659, R661 to R663), outcome by outcome: the packet of COUNT_TX[9:0] bytes at ADDR_TX
is observed; an acknowledged one sets CTR_TX and `nak` and inverts DTOG_TX, an unacknowledged one stays armed. That
a fault records rule 655, where R701 names R651 and R662, is log 11's choice, and the address of the range fault,
the packet's last byte, log 12's (beside R701). -/
def Obligations.BusIn : Prop :=
  ∀ (s : State) (addr : BitVec 7) (ep : BitVec 4) (ack : Bool), s.attached = true →
    (s.busMatch addr ep .tx = .noAnswer → exec (.busIn addr ep ack) s = .next s)
    ∧ (s.busMatch addr ep .tx = .duplicate →
        exec (.busIn addr ep ack) s = .next (s.raise (.eaDuplicate ep) .bus 655))
    ∧ (∀ n, s.busMatch addr ep .tx = .hit n →
        (s.epType n = .isochronous → exec (.busIn addr ep ack) s = .fault .busNotEnabled)
        ∧ (s.epType n ≠ .isochronous →
            (s.statTx n = .nak ∨ s.statTx n = .stall → exec (.busIn addr ep ack) s = .next s)
            ∧ (s.statTx n = .valid → s.bdtAddr n .addrTx + 8 ≤ s.params.pmSize →
                let a := (s.cell (s.bdtAddr n .addrTx / 2)).toNat
                let l := (s.cell (s.bdtAddr n .countTx / 2)).toNat % 1024
                let e := Event.hostIn n ((List.range l).map fun j => s.byte (a + j))
                (s.params.pmSize < a + l →
                    exec (.busIn addr ep ack) s = .next (s.raise (.busPmRange (a + l - 1)) .bus 655))
                ∧ (a + l ≤ s.params.pmSize →
                    exec (.busIn addr ep ack) s = .next (if ack then
                      (s.emit e).withEpr n fun f => { f with ctrTx := true, statTx := Stat.nak.code,
                                                              dtogTx := !f.dtogTx }
                      else s.emit e)))))

/-! ## The step and the encodings -/

/-- A step runs the decoded instruction (R240, R330, R360, R606, R611, R700, R711, R730, R732): APP's half-words,
CORE's next row and BUS's next event, each in the state in which its agent's turn is spent, and what the step adds
around the instruction; no step once a fault is recorded. With ATOMIC_DISPATCH a step of CORE or APP is a whole
dispatch or command; without, the next access of the instruction's statements `program i`, whose undisturbed run
`exec i` is. That APP takes its command up in the step of its first access, and that the updates after the last
access, with the exit or the command's end, are a step of their own, are log 2's deductions, since R240 does not
speak of them. That APP stays Running after a fault is the model's choice (log 15), and that the exit takes the IRQ
wait point off APP's program its deduction (log 18). -/
def Obligations.StepRunsDecodedInstruction : Prop :=
  ∀ s : State, paramsValid s.params = true →
    (s.faults ≠ [] → step s = .fault .faulted)
    ∧ (s.faults = [] →
      -- APP
      (∀ ts ws ls, s.nextAgent = some (.app, ts) → s.app = .idle → s.program = .cmd ws :: ls →
        step s = step { s with app := .running ws [], program := ls, turns := .app :: ts })
      ∧ (∀ ts ws had, s.nextAgent = some (.app, ts) → s.app = .running ws had →
        (∀ r, decodeCmd s.params ws = .error r → step s = .next { s.refuse r with turns := ts, app := .idle })
        ∧ (∀ i, decodeCmd s.params ws = .ok i →
          let retired := fun t : State => if t.faulted then t else { t with app := .idle }
          (s.params.atomicDispatch = true → had = [] →
            step s = mapNext retired (exec i { s with turns := ts }))
          ∧ (s.params.atomicDispatch = false →
            step s = .next (match ((program i s.context).resume had).advance { s with turns := ts } with
              | .ended r => retired r.state
              | .moved new t => { t with app := .running ws (had ++ new) }))))
      -- CORE
      ∧ (∀ ts, s.nextAgent = some (.core, ts) → s.core = .idle →
        (s.params.atomicDispatch = false → step s = exec .dcIrq { s with turns := ts })
        ∧ (s.params.atomicDispatch = true → ∀ t w rows, exec .dcIrq { s with turns := ts } = .next t →
          t.core = .dispatching w none rows [] → step s = runRows exec rows [] t))
      ∧ (∀ ts w e rows, s.nextAgent = some (.core, ts) → s.core = .dispatching w e rows [] →
        s.params.atomicDispatch = true → step s = runRows exec rows [] { s with turns := ts })
      ∧ (∀ t, runRows exec [] [] t = .next { t with core := .idle, program := afterDispatch t.program })
      ∧ (∀ i rows t, runRows exec (i :: rows) [] t =
        thenNext (exec i t) fun u => if u.faulted then .next u else runRows exec rows [] (u.setRows rows []))
      ∧ (∀ ts w e i rows had, s.nextAgent = some (.core, ts) → s.core = .dispatching w e (i :: rows) had →
        s.params.atomicDispatch = false →
        step s = .next (match ((program i s.context).resume had).advance { s with turns := ts } with
          | .ended (.ok _ t) => advanceRows rows [] (t.setRows rows [])
          | .ended (.stop t) => t
          | .moved new t => t.setRows (i :: rows) (had ++ new)))
      ∧ (∀ ts w e had, s.nextAgent = some (.core, ts) → s.core = .dispatching w e [] had →
        step s = .next { s with turns := ts, core := .idle, program := afterDispatch s.program })
      -- BUS
      ∧ (∀ ts b bs ev, s.nextAgent = some (.bus, ts) → s.busIn = b :: bs → decodeBus b = some ev →
        step s = exec ev.toInstr { s with turns := ts, busIn := bs }))

/-- Steps of one access each add up to the whole instruction (R240, R137): with nobody else's step between them,
APP's command from its first access on ends in the state `exec` gives, APP idle again unless a fault was recorded;
and a dispatch's rows end in the state their instructions give one after another, CORE idle again likewise. After a
fault the execution state alone differs, by the answers it still holds (log 16). That the agent at work moves when
`turns` names nobody is log 1's choice. -/
def Obligations.UndisturbedStepsRunInstruction : Prop :=
  ∀ s t : State, paramsValid s.params = true → s.params.atomicDispatch = false → s.faults = [] → s.turns = [] →
    (∀ ws i, s.app = .running ws [] → s.core = .idle → decodeCmd s.params ws = .ok i → exec i s = .next t →
      ∃ k u, steps k s = .next u ∧ { u with app := .idle } = { t with app := .idle }
        ∧ (t.faults = [] → u.app = .idle))
    ∧ (∀ w e rows, s.core = .dispatching w e rows [] → s.app = .idle → s.RowsOk → runRows exec rows [] s = .next t →
      ∃ k u, steps k s = .next u ∧ { u with core := .idle } = { t with core := .idle } ∧ (t.faults = [] → u = t))

/-- Decode and encode agree, every instruction at every operand its encoding admits (30_encoding.md): the rows its
encoding selects hold the instruction, and for CMD, SETUP, BUS and HOOK it is the only one. -/
def Obligations.DecodeOfEncode : Prop :=
  ∀ (p : Params) (i : Instr), i.wf p = true →
    i ∈ decodeRows p (encode i)
    ∧ ((∀ k, encode i ≠ .ctrd k) → (∀ w, encode i ≠ .istrd w) → decodeRows p (encode i) = [i])

/-- Where a word has one meaning, encode and decode agree the other way (R320 to R323, R331 to R335, R341, R350,
R360, R361): what a legal command, setup packet, bus event or hook code decodes to encodes to it again, and is
well-formed; so no illegal one is accepted. -/
def Obligations.EncodeOfDecode : Prop :=
  (∀ (p : Params) (ws : List HalfWord) (i : Instr), decodeCmd p ws = .ok i → encode i = .cmd ws ∧ i.wf p = true)
  ∧ (∀ (p : Params) (bs : List Byte) (e : BusEvent), decodeBus bs = some e →
      encode e.toInstr = .bus bs ∧ e.toInstr.wf p = true)
  ∧ (∀ (b : BitVec 4) (i : Instr), decodeHook b = some i → encode i = .hook b)
  ∧ (∀ (p : Params) (bs : List Byte), bs.length = 8 →
      encode (decodeSetup p (.ofBytes bs)) = .setup bs ∧ (decodeSetup p (.ofBytes bs)).wf p = true)

/-- A few words written out from the spec's encoding tables decode to what they stand for (R331 to R333, R320, R341,
R350 to R352). -/
def Obligations.SampleWords : Prop :=
  decodeRows Params.vectors (.cmd [0x0006, 0x0041, 0x0003, 0xBBAA, 0x00CC]) = [.pmWrite 0x41 [0xAA, 0xBB, 0xCC]]
  ∧ decodeRows Params.vectors (.cmd [0x0112, 0x0003]) = [.epSetTxStatus 1 .valid]
  ∧ decodeRows Params.vectors (.cmd [0x0123, 0x0000, 0x0100, 0x0040, 0x0140, 0x0040])
      = [.dcSetEndpoint 1 .bulk ⟨0x100, 64, 0x140, 64⟩]
  ∧ decodeRows Params.vectors (.setup [0x80, 0x06, 0x00, 0x01, 0x00, 0x00, 0x12, 0x00])
      = [.getDescriptor ⟨0x80, 0x0100, 0, 18⟩]
  ∧ decodeRows Params.vectors (.bus [0x04, 0x05, 0x80]) = [.busIn 5 0 true]
  ∧ decodeRows Params.vectors (.hook 0xC) = [.controlOnTransmissionComplete]
  ∧ decodeRows Params.vectors (.ctrd 0x1AAA0) = [.ctrSetup 0x1AAA0, .ctrTransmission 0x1AAA0]
  ∧ decodeRows Params.vectors (.istrd 0x9810) = [.irqCtr 0x9810, .irqSusp 0x9810, .irqWkup 0x9810]

/-! ## Invariants of every step -/

/-- Packet memory stays canonical and inside PM_SIZE (R141, R202): no step stores at or above it. -/
def Obligations.MemoryInvariant : Prop :=
  ∀ s t : State, s.MemOk → step s = .next t → t.MemOk

/-- Reserved and held-0 register bits stay 0, CORE and APP never both work, and Attached is never entered, with
every step (R110, R113, R120 to R127, R134, R600, R732); the boot order is kept by every instruction as a whole
(R810). -/
def Obligations.RegisterAndModeInvariant : Prop :=
  (∀ s t : State, s.ReservedZero → s.Exclusive → s.NeverAttached → step s = .next t →
    t.ReservedZero ∧ t.Exclusive ∧ t.NeverAttached)
  ∧ (∀ (i : Instr) (s t : State), paramsValid s.params = true → s.BootOk → exec i s = .next t → t.BootOk)

/-- The bindings stay as R130 and R231 say: slot 0 the control endpoint, no other slot control, and every bound
geometry valid against the others. -/
def Obligations.BindingInvariant : Prop :=
  ∀ s t : State, s.SlotsOk → s.GeomsOk → step s = .next t → t.SlotsOk ∧ t.GeomsOk

/-- The control role's cursor invariant (R524). A pending cursor has bytes left to send and a dispatch is made of
handlers, with every step, between two accesses too. That it also stands in a stage other than None is kept by every
instruction as a whole but a GET_DESCRIPTOR run by itself, without the setup reception that established the stage,
and so by every step that is a whole dispatch or command. -/
def Obligations.CursorInvariant : Prop :=
  (∀ s t : State, s.CursorLive → s.RowsOk → step s = .next t → t.CursorLive ∧ t.RowsOk)
  ∧ (∀ (i : Instr) (s t : State), (∀ r, i ≠ .getDescriptor r) → s.CursorOk → exec i s = .next t → t.CursorOk)
  ∧ (∀ s t : State, s.params.atomicDispatch = true → s.AtStart → s.CursorOk → s.RowsOk → step s = .next t →
      t.AtStart ∧ t.CursorOk ∧ t.RowsOk)

/-! ## Whole-machine rules -/

/-- The transitions of `dev_status` (R600): each is made by the row of its rule and by no other. Configured is
reached through a setup reception only when its packet is a SET_CONFIGURATION, Addressed only by a status stage with
an address deferred, before the row or by the SET_ADDRESS its own setup reception ran. -/
def Obligations.DeviceStatusTransitions : Prop :=
  ∀ (i : Instr) (s t : State), exec i s = .next t → t.devStatus ≠ s.devStatus →
    (i = .dcInit ∧ t.devStatus = .powered)
    ∨ ((∃ w, i = .irqReset w) ∧ t.devStatus = .default)
    ∨ ((∃ w, i = .irqSusp w) ∧ t.devStatus = .suspended ∧ t.preSuspend = s.devStatus)
    ∨ ((∃ w, i = .irqWkup w) ∧ s.devStatus = .suspended ∧ t.devStatus = s.preSuspend)
    ∨ ((∃ r, i = .setConfiguration r) ∧ t.devStatus = .configured)
    ∨ (runsSetup i = true ∧ t.devStatus = .configured ∧ s.receivedRequest = .setConfiguration)
    ∨ (runsStatus i = true ∧ t.devStatus = .addressed
        ∧ (s.deferred ≠ 0
           ∨ (∃ w, i = .irqCtr w) ∧ s.receivedRequest = .setAddress ∧ s.receivedPacket.wValue ≠ 0))

/-- Hardware-owned fields (R103): no row but a BUS one sets CTR_RX, CTR_TX or SETUP, or changes SETUP, DTOG_RX or
DTOG_TX, of any endpoint register. -/
def Obligations.HardwareOwnedFields : Prop :=
  ∀ (i : Instr) (s t : State), isBusRow i = false → exec i s = .next t → ∀ n : EpNum,
    (t.eprF n).setup = (s.eprF n).setup ∧ (t.eprF n).dtogRx = (s.eprF n).dtogRx
    ∧ (t.eprF n).dtogTx = (s.eprF n).dtogTx
    ∧ ((t.eprF n).ctrRx = true → (s.eprF n).ctrRx = true) ∧ ((t.eprF n).ctrTx = true → (s.eprF n).ctrTx = true)

/-- The trace, the faults and the refusals only grow, and the parameters are fixed (R150, R151, R700, R730). -/
def Obligations.ObservationsOnlyGrow : Prop :=
  ∀ s t : State, step s = .next t →
    s.trace <+: t.trace ∧ s.faults <+: t.faults ∧ s.refusals <+: t.refusals ∧ t.params = s.params

/-- The lost completion of R820 is a run of the model, with steps of one access (R240): an acknowledged IN that
falls between the read and the write of EP_CLEAR_CTR completes, and its CTR_TX is cleared with the rest. The fourth
step, the command's end, is a step of its own by log 2's deduction; `turns` is empty there, so that APP takes it and
not BUS is log 1's default order. -/
def Obligations.LostCompletion : Prop :=
  ∀ (s : State) (ws : List HalfWord) (n : EpNum) (b : List Byte) (bs : List (List Byte)) (addr : BitVec 7)
    (ep : BitVec 4),
    paramsValid s.params = true → s.params.atomicDispatch = false → s.faults = [] → s.core = .idle →
    s.app = .running ws [] → decodeCmd s.params ws = .ok (.epClearCtr n) → s.turns = [.app, .bus, .app] →
    s.epAdmitted n = true → s.attached = true →
    s.busIn = b :: bs → decodeBus b = some (.tokenIn addr ep true) → s.busMatch addr ep .tx = .hit n →
    s.epType n ≠ .isochronous → s.statTx n = .valid → s.bdtAddr n .addrTx + 8 ≤ s.params.pmSize →
    (s.cell (s.bdtAddr n .addrTx / 2)).toNat + (s.cell (s.bdtAddr n .countTx / 2)).toNat % 1024 ≤ s.params.pmSize →
    ∃ t bytes, steps 4 s = .next t ∧ t.trace = s.trace ++ [.hostIn n bytes]
      ∧ t.statTx n = .nak ∧ (t.eprF n).ctrTx = false ∧ t.busIn = bs ∧ t.app = .idle
end

