-- ==== Sys2Proof/Laws/Memory.lean ====
section
/-! SUPPORT. Packet memory: read after write, the canonical form and its extensionality, byte ranges,
cells, and the block write of R407 as a byte range. -/

namespace Sys2Proof.Machine

theorem memGet_below {m : List Host.Cell} {lo a : Nat} (h : memWfFrom lo m = true) (ha : a < lo) :
    memGet m a = unlistedByte := by
  induction m generalizing lo with
  | nil => rfl
  | cons c m ih =>
    obtain ⟨b, v⟩ := c
    simp only [memWfFrom, Bool.and_eq_true, decide_eq_true_eq] at h
    have hne : a ≠ b := by omega
    simp only [memGet, hne, if_false]
    exact ih h.2 (by omega)

theorem memGet_memSet_from {m : List Host.Cell} {lo : Nat} (h : memWfFrom lo m = true) (a : Nat)
    (v : Byte) (x : Nat) : memGet (memSet m a v) x = if x = a then v else memGet m x := by
  induction m generalizing lo with
  | nil =>
    by_cases hv : v = unlistedByte <;> by_cases hx : x = a <;> simp [memSet, memGet, hv, hx]
  | cons c m ih =>
    obtain ⟨b, w⟩ := c
    have h' := h
    simp only [memWfFrom, Bool.and_eq_true, decide_eq_true_eq] at h
    have below : ∀ y, y < b + 1 → memGet m y = unlistedByte := fun y hy => memGet_below h.2 hy
    by_cases hab : a < b
    · by_cases hv : v = unlistedByte <;> by_cases hx : x = a <;>
        simp [memSet, memGet, hab, hv, hx]
      have h1 : a ≠ b := by omega
      simp [h1, below a (by omega)]
    · by_cases he : a = b
      · subst he
        by_cases hv : v = unlistedByte <;> by_cases hx : x = a <;>
          simp [memSet, memGet, hv, hx, below a (by omega)]
      · by_cases hxb : x = b
        · have : x ≠ a := by omega
          simp [memSet, memGet, hab, he, hxb]
          omega
        · simp [memSet, memGet, hab, he, hxb, ih h.2]

/-- A read after a write: the byte written, every other byte as it was. -/
theorem memGet_memSet {m : List Host.Cell} (h : Memory.wf m = true) (a : Nat) (v : Byte) (x : Nat) :
    memGet (memSet m a v) x = if x = a then v else memGet m x :=
  memGet_memSet_from h a v x

theorem memWfFrom_mono {m : List Host.Cell} {lo lo' : Nat} (hl : lo ≤ lo')
    (h : memWfFrom lo' m = true) : memWfFrom lo m = true := by
  cases m with
  | nil => rfl
  | cons c m =>
    obtain ⟨b, w⟩ := c
    simp only [memWfFrom, Bool.and_eq_true, decide_eq_true_eq] at h ⊢
    exact ⟨⟨by omega, h.1.2⟩, h.2⟩

theorem memSet_wf_from {m : List Host.Cell} {lo : Nat} (h : memWfFrom lo m = true) {a : Nat}
    (ha : lo ≤ a) (v : Byte) : memWfFrom lo (memSet m a v) = true := by
  induction m generalizing lo with
  | nil => by_cases hv : v = unlistedByte <;> simp [memSet, memWfFrom, hv, ha]
  | cons c m ih =>
    obtain ⟨b, w⟩ := c
    simp only [memWfFrom, Bool.and_eq_true, decide_eq_true_eq] at h
    by_cases hab : a < b
    · by_cases hv : v = unlistedByte
      · simp [memSet, memWfFrom, hab, hv, h]
      · have : a + 1 ≤ b := hab
        simp only [memSet, hab, if_true, hv, if_false, memWfFrom, Bool.and_eq_true, decide_eq_true_eq,
          bne_iff_ne, ne_eq, not_false_eq_true, and_true] at h ⊢
        exact ⟨ha, ⟨this, h.1.2⟩, h.2⟩
    · by_cases he : a = b
      · subst he
        by_cases hv : v = unlistedByte
        · simp only [memSet, lt_irrefl, if_false, if_true, hv]
          exact memWfFrom_mono (by omega) h.2
        · simp [memSet, memWfFrom, hv, h]
      · have := ih h.2 (show b + 1 ≤ a by omega)
        simp only [memSet, hab, he, if_false, memWfFrom, Bool.and_eq_true, decide_eq_true_eq]
        exact ⟨h.1, this⟩

/-- A write keeps the canonical form. -/
theorem memSet_wf {m : List Host.Cell} (h : Memory.wf m = true) (a : Nat) (v : Byte) :
    Memory.wf (memSet m a v) = true := memSet_wf_from h (Nat.zero_le a) v

theorem memWfFrom_ext {m m' : List Host.Cell} {lo : Nat} (h : memWfFrom lo m = true)
    (h' : memWfFrom lo m' = true) (heq : ∀ x, memGet m x = memGet m' x) : m = m' := by
  induction m generalizing m' lo with
  | nil =>
    cases m' with
    | nil => rfl
    | cons c m' =>
      obtain ⟨b, w⟩ := c
      simp only [memWfFrom, Bool.and_eq_true, decide_eq_true_eq, bne_iff_ne] at h'
      have := heq b
      simp [memGet] at this
      exact absurd this.symm h'.1.2
  | cons c m ih =>
    obtain ⟨b, w⟩ := c
    cases m' with
    | nil =>
      simp only [memWfFrom, Bool.and_eq_true, decide_eq_true_eq, bne_iff_ne] at h
      have := heq b
      simp [memGet] at this
      exact absurd this h.1.2
    | cons c' m' =>
      obtain ⟨b', w'⟩ := c'
      have hw := h
      have hw' := h'
      simp only [memWfFrom, Bool.and_eq_true, decide_eq_true_eq, bne_iff_ne] at h h'
      have hb : b = b' := by
        rcases Nat.lt_trichotomy b b' with hlt | heq' | hgt
        · have := heq b
          simp only [memGet, if_true, Nat.ne_of_lt hlt, if_false] at this
          rw [memGet_below h'.2 (by omega)] at this
          exact absurd this h.1.2
        · exact heq'
        · have := heq b'
          simp only [memGet, if_true, Nat.ne_of_lt hgt, if_false] at this
          rw [memGet_below h.2 (by omega)] at this
          exact absurd this.symm h'.1.2
      subst hb
      have hv : w = w' := by simpa [memGet] using heq b
      subst hv
      have : m = m' := by
        refine ih h.2 h'.2 fun x => ?_
        by_cases hx : x = b
        · subst hx
          rw [memGet_below h.2 (by omega), memGet_below h'.2 (by omega)]
        · simpa [memGet, hx] using heq x
      rw [this]

/-- Canonical memories that read alike are equal. -/
theorem memory_ext {m m' : List Host.Cell} (h : Memory.wf m = true) (h' : Memory.wf m' = true)
    (heq : ∀ x, memGet m x = memGet m' x) : m = m' := memWfFrom_ext h h' heq

theorem memSetBytes_wf {m : List Host.Cell} (h : Memory.wf m = true) (a : Nat) (d : List Byte) :
    Memory.wf (memSetBytes m a d) = true := by
  induction d generalizing m a with
  | nil => exact h
  | cons b d ih => exact ih (memSet_wf h a b) (a + 1)

/-- A read after the store of a byte range: the stored byte inside, the old byte outside. -/
theorem memGet_memSetBytes {m : List Host.Cell} (h : Memory.wf m = true) (a : Nat) (d : List Byte)
    (x : Nat) : memGet (memSetBytes m a d) x =
      if a ≤ x ∧ x < a + d.length then d.getD (x - a) 0 else memGet m x := by
  induction d generalizing m a with
  | nil => simp [memSetBytes]
  | cons b d ih =>
    rw [memSetBytes, ih (memSet_wf h a b), memGet_memSet h]
    by_cases h1 : x = a
    · subst h1
      simp
    · by_cases h2 : a + 1 ≤ x ∧ x < a + 1 + d.length
      · have h3 : a ≤ x ∧ x < a + (b :: d).length := by simp; omega
        have h4 : x - a = (x - (a + 1)) + 1 := by omega
        rw [if_pos h2, if_pos h3, h4]
        simp
      · have h3 : ¬ (a ≤ x ∧ x < a + (b :: d).length) := by simp; omega
        rw [if_neg h2, if_neg h3, if_neg h1]

theorem memGetBytes_length (m : List Host.Cell) (a l : Nat) : (memGetBytes m a l).length = l := by
  induction l generalizing a with
  | zero => rfl
  | succ l ih => simp [memGetBytes, ih]

theorem memGetBytes_congr {m m' : List Host.Cell} {a l : Nat}
    (h : ∀ x, a ≤ x → x < a + l → memGet m x = memGet m' x) : memGetBytes m a l = memGetBytes m' a l := by
  induction l generalizing a with
  | zero => rfl
  | succ l ih =>
    simp only [memGetBytes]
    rw [h a (by omega) (by omega), ih fun x h1 h2 => h x (by omega) (by omega)]

/-- Bytes stored are the bytes read back. -/
theorem memGetBytes_memSetBytes {m : List Host.Cell} (h : Memory.wf m = true) (a : Nat) (d : List Byte) :
    memGetBytes (memSetBytes m a d) a d.length = d := by
  induction d generalizing m a with
  | nil => rfl
  | cons b d ih =>
    simp only [List.length_cons, memGetBytes, memSetBytes]
    rw [ih (memSet_wf h a b), memGet_memSetBytes (memSet_wf h a b), memGet_memSet h]
    simp

theorem memSetBytes_append {m : List Host.Cell} (a : Nat) (d e : List Byte) :
    memSetBytes m a (d ++ e) = memSetBytes (memSetBytes m a d) (a + d.length) e := by
  induction d generalizing m a with
  | nil => rfl
  | cons b d ih =>
    simp only [List.cons_append, memSetBytes, List.length_cons]
    rw [ih, show a + 1 + d.length = a + (d.length + 1) by omega]

/-- Every address a store lists is listed before or lies in the stored range. -/
theorem mem_memSet {m : List Host.Cell} {a : Nat} {v : Byte} {c : Host.Cell} (h : c ∈ memSet m a v) :
    c ∈ m ∨ c.1 = a := by
  induction m with
  | nil =>
    simp only [memSet] at h
    split at h <;> simp_all
  | cons b m ih =>
    obtain ⟨b, w⟩ := b
    simp only [memSet] at h
    split at h
    · split at h <;> simp_all
      rcases h with h | h | h <;> simp [h]
    · split at h
      · split at h <;> simp_all
        rcases h with h | h <;> simp [h]
      · simp only [List.mem_cons] at h ⊢
        rcases h with h | h
        · exact .inl (.inl h)
        · rcases ih h with h | h
          · exact .inl (.inr h)
          · exact .inr h

theorem memSetBytes_bound {m : List Host.Cell} {k : Nat} (h : ∀ c ∈ m, c.1 < k) {a : Nat} {d : List Byte}
    (ha : a + d.length ≤ k) : ∀ c ∈ memSetBytes m a d, c.1 < k := by
  induction d generalizing m a with
  | nil => exact h
  | cons b d ih =>
    refine ih (fun c hc => ?_) (by simp at ha; omega)
    rcases mem_memSet hc with h1 | h1
    · exact h c h1
    · simp at ha; omega

/-! ## Bytes and cells of a state -/

@[simp] theorem loByte_ofBytes (a b : Byte) : loByte (ofBytes a b) = a := by
  unfold loByte ofBytes; ext i hi
  simp only [BitVec.getElem_extractLsb', BitVec.getLsbD_append]
  simp [hi, BitVec.getLsbD_eq_getElem]

@[simp] theorem hiByte_ofBytes (a b : Byte) : hiByte (ofBytes a b) = b := by
  unfold hiByte ofBytes; ext i hi
  simp only [BitVec.getElem_extractLsb', BitVec.getLsbD_append]
  simp [hi, BitVec.getLsbD_eq_getElem]

@[simp] theorem ofBytes_lo_hi (w : HalfWord) : ofBytes (loByte w) (hiByte w) = w := by
  unfold ofBytes loByte hiByte
  ext i hi
  simp only [BitVec.getElem_append, BitVec.getElem_extractLsb']
  split
  · simp [BitVec.getLsbD_eq_getElem hi]
  · rw [show 8 + (i - 8) = i by omega]; exact BitVec.getLsbD_eq_getElem hi

@[simp] theorem byte_setBytes {s : State} (h : Memory.wf s.mem = true) (a : Nat) (d : List Byte) (x : Nat) :
    (s.setBytes a d).byte x = if a ≤ x ∧ x < a + d.length then d.getD (x - a) 0 else s.byte x :=
  memGet_memSetBytes h a d x

/-- A cell write is the store of its two bytes. -/
theorem setCell_eq_setBytes (s : State) (k : Nat) (v : HalfWord) :
    s.setCell k v = s.setBytes (2 * k) [loByte v, hiByte v] := rfl

theorem setBytes_setBytes (s : State) (a : Nat) (d e : List Byte) :
    (s.setBytes a d).setBytes (a + d.length) e = s.setBytes a (d ++ e) := by
  simp [State.setBytes, memSetBytes_append]

/-- Storing what is there changes nothing. -/
theorem memSetBytes_self {m : List Host.Cell} (h : Memory.wf m = true) (a : Nat) (d : List Byte)
    (hd : memGetBytes m a d.length = d) : memSetBytes m a d = m := by
  refine memory_ext (memSetBytes_wf h a d) h fun x => ?_
  rw [memGet_memSetBytes h]
  split
  · rename_i hx
    conv_lhs => rw [← hd]
    clear hd
    generalize d.length = l at hx
    induction l generalizing a with
    | zero => omega
    | succ l ih =>
      by_cases hxa : x = a
      · subst hxa; simp [memGetBytes]
      · have : x - a = (x - (a + 1)) + 1 := by omega
        rw [memGetBytes, this, List.getD_cons_succ]
        exact ih (a + 1) ⟨by omega, by omega⟩
  · rfl

end Sys2Proof.Machine
end

