-- ==== Sys2Proof/Laws/State.lean ====
section
/-! SUPPORT. What each named update of a state leaves in each field: one lemma per field and update,
true by definition, so that no proof unfolds a record update. -/

namespace Sys2Proof.Machine

/-! ## `setEpr` -/

@[simp] theorem setEpr_params (s : State) (n : EpNum) (w : HalfWord) :
    (s.setEpr n w).params = s.params := rfl
@[simp] theorem setEpr_eprs (s : State) (n : EpNum) (w : HalfWord) :
    (s.setEpr n w).eprs = s.eprs.set n w := rfl
@[simp] theorem setEpr_istr (s : State) (n : EpNum) (w : HalfWord) :
    (s.setEpr n w).istr = s.istr := rfl
@[simp] theorem setEpr_cntr (s : State) (n : EpNum) (w : HalfWord) :
    (s.setEpr n w).cntr = s.cntr := rfl
@[simp] theorem setEpr_daddr (s : State) (n : EpNum) (w : HalfWord) :
    (s.setEpr n w).daddr = s.daddr := rfl
@[simp] theorem setEpr_btable (s : State) (n : EpNum) (w : HalfWord) :
    (s.setEpr n w).btable = s.btable := rfl
@[simp] theorem setEpr_bcdr (s : State) (n : EpNum) (w : HalfWord) :
    (s.setEpr n w).bcdr = s.bcdr := rfl
@[simp] theorem setEpr_slots (s : State) (n : EpNum) (w : HalfWord) :
    (s.setEpr n w).slots = s.slots := rfl
@[simp] theorem setEpr_stage (s : State) (n : EpNum) (w : HalfWord) :
    (s.setEpr n w).stage = s.stage := rfl
@[simp] theorem setEpr_remaining (s : State) (n : EpNum) (w : HalfWord) :
    (s.setEpr n w).remaining = s.remaining := rfl
@[simp] theorem setEpr_cursor (s : State) (n : EpNum) (w : HalfWord) :
    (s.setEpr n w).cursor = s.cursor := rfl
@[simp] theorem setEpr_deferred (s : State) (n : EpNum) (w : HalfWord) :
    (s.setEpr n w).deferred = s.deferred := rfl
@[simp] theorem setEpr_devStatus (s : State) (n : EpNum) (w : HalfWord) :
    (s.setEpr n w).devStatus = s.devStatus := rfl
@[simp] theorem setEpr_preSuspend (s : State) (n : EpNum) (w : HalfWord) :
    (s.setEpr n w).preSuspend = s.preSuspend := rfl
@[simp] theorem setEpr_initialized (s : State) (n : EpNum) (w : HalfWord) :
    (s.setEpr n w).initialized = s.initialized := rfl
@[simp] theorem setEpr_core (s : State) (n : EpNum) (w : HalfWord) :
    (s.setEpr n w).core = s.core := rfl
@[simp] theorem setEpr_app (s : State) (n : EpNum) (w : HalfWord) :
    (s.setEpr n w).app = s.app := rfl
@[simp] theorem setEpr_clkOn (s : State) (n : EpNum) (w : HalfWord) :
    (s.setEpr n w).clkOn = s.clkOn := rfl
@[simp] theorem setEpr_vdetOn (s : State) (n : EpNum) (w : HalfWord) :
    (s.setEpr n w).vdetOn = s.vdetOn := rfl
@[simp] theorem setEpr_irqEnabled (s : State) (n : EpNum) (w : HalfWord) :
    (s.setEpr n w).irqEnabled = s.irqEnabled := rfl
@[simp] theorem setEpr_pinsAf (s : State) (n : EpNum) (w : HalfWord) :
    (s.setEpr n w).pinsAf = s.pinsAf := rfl
@[simp] theorem setEpr_mem (s : State) (n : EpNum) (w : HalfWord) :
    (s.setEpr n w).mem = s.mem := rfl
@[simp] theorem setEpr_trace (s : State) (n : EpNum) (w : HalfWord) :
    (s.setEpr n w).trace = s.trace := rfl
@[simp] theorem setEpr_faults (s : State) (n : EpNum) (w : HalfWord) :
    (s.setEpr n w).faults = s.faults := rfl
@[simp] theorem setEpr_refusals (s : State) (n : EpNum) (w : HalfWord) :
    (s.setEpr n w).refusals = s.refusals := rfl
@[simp] theorem setEpr_program (s : State) (n : EpNum) (w : HalfWord) :
    (s.setEpr n w).program = s.program := rfl
@[simp] theorem setEpr_busIn (s : State) (n : EpNum) (w : HalfWord) :
    (s.setEpr n w).busIn = s.busIn := rfl
@[simp] theorem setEpr_turns (s : State) (n : EpNum) (w : HalfWord) :
    (s.setEpr n w).turns = s.turns := rfl
@[simp] theorem setEpr_draws (s : State) (n : EpNum) (w : HalfWord) :
    (s.setEpr n w).draws = s.draws := rfl

/-! ## `setCntr` -/

@[simp] theorem setCntr_params (s : State) (w : HalfWord) :
    (s.setCntr w).params = s.params := rfl
@[simp] theorem setCntr_eprs (s : State) (w : HalfWord) :
    (s.setCntr w).eprs = s.eprs := rfl
@[simp] theorem setCntr_istr (s : State) (w : HalfWord) :
    (s.setCntr w).istr = s.istr := rfl
@[simp] theorem setCntr_cntr (s : State) (w : HalfWord) :
    (s.setCntr w).cntr = w &&& 0xFFBF := rfl
@[simp] theorem setCntr_daddr (s : State) (w : HalfWord) :
    (s.setCntr w).daddr = s.daddr := rfl
@[simp] theorem setCntr_btable (s : State) (w : HalfWord) :
    (s.setCntr w).btable = s.btable := rfl
@[simp] theorem setCntr_bcdr (s : State) (w : HalfWord) :
    (s.setCntr w).bcdr = s.bcdr := rfl
@[simp] theorem setCntr_slots (s : State) (w : HalfWord) :
    (s.setCntr w).slots = s.slots := rfl
@[simp] theorem setCntr_stage (s : State) (w : HalfWord) :
    (s.setCntr w).stage = s.stage := rfl
@[simp] theorem setCntr_remaining (s : State) (w : HalfWord) :
    (s.setCntr w).remaining = s.remaining := rfl
@[simp] theorem setCntr_cursor (s : State) (w : HalfWord) :
    (s.setCntr w).cursor = s.cursor := rfl
@[simp] theorem setCntr_deferred (s : State) (w : HalfWord) :
    (s.setCntr w).deferred = s.deferred := rfl
@[simp] theorem setCntr_devStatus (s : State) (w : HalfWord) :
    (s.setCntr w).devStatus = s.devStatus := rfl
@[simp] theorem setCntr_preSuspend (s : State) (w : HalfWord) :
    (s.setCntr w).preSuspend = s.preSuspend := rfl
@[simp] theorem setCntr_initialized (s : State) (w : HalfWord) :
    (s.setCntr w).initialized = s.initialized := rfl
@[simp] theorem setCntr_core (s : State) (w : HalfWord) :
    (s.setCntr w).core = s.core := rfl
@[simp] theorem setCntr_app (s : State) (w : HalfWord) :
    (s.setCntr w).app = s.app := rfl
@[simp] theorem setCntr_clkOn (s : State) (w : HalfWord) :
    (s.setCntr w).clkOn = s.clkOn := rfl
@[simp] theorem setCntr_vdetOn (s : State) (w : HalfWord) :
    (s.setCntr w).vdetOn = s.vdetOn := rfl
@[simp] theorem setCntr_irqEnabled (s : State) (w : HalfWord) :
    (s.setCntr w).irqEnabled = s.irqEnabled := rfl
@[simp] theorem setCntr_pinsAf (s : State) (w : HalfWord) :
    (s.setCntr w).pinsAf = s.pinsAf := rfl
@[simp] theorem setCntr_mem (s : State) (w : HalfWord) :
    (s.setCntr w).mem = s.mem := rfl
@[simp] theorem setCntr_trace (s : State) (w : HalfWord) :
    (s.setCntr w).trace = s.trace := rfl
@[simp] theorem setCntr_faults (s : State) (w : HalfWord) :
    (s.setCntr w).faults = s.faults := rfl
@[simp] theorem setCntr_refusals (s : State) (w : HalfWord) :
    (s.setCntr w).refusals = s.refusals := rfl
@[simp] theorem setCntr_program (s : State) (w : HalfWord) :
    (s.setCntr w).program = s.program := rfl
@[simp] theorem setCntr_busIn (s : State) (w : HalfWord) :
    (s.setCntr w).busIn = s.busIn := rfl
@[simp] theorem setCntr_turns (s : State) (w : HalfWord) :
    (s.setCntr w).turns = s.turns := rfl
@[simp] theorem setCntr_draws (s : State) (w : HalfWord) :
    (s.setCntr w).draws = s.draws := rfl

/-! ## `setDaddr` -/

@[simp] theorem setDaddr_params (s : State) (w : HalfWord) :
    (s.setDaddr w).params = s.params := rfl
@[simp] theorem setDaddr_eprs (s : State) (w : HalfWord) :
    (s.setDaddr w).eprs = s.eprs := rfl
@[simp] theorem setDaddr_istr (s : State) (w : HalfWord) :
    (s.setDaddr w).istr = s.istr := rfl
@[simp] theorem setDaddr_cntr (s : State) (w : HalfWord) :
    (s.setDaddr w).cntr = s.cntr := rfl
@[simp] theorem setDaddr_daddr (s : State) (w : HalfWord) :
    (s.setDaddr w).daddr = w &&& 0x00FF := rfl
@[simp] theorem setDaddr_btable (s : State) (w : HalfWord) :
    (s.setDaddr w).btable = s.btable := rfl
@[simp] theorem setDaddr_bcdr (s : State) (w : HalfWord) :
    (s.setDaddr w).bcdr = s.bcdr := rfl
@[simp] theorem setDaddr_slots (s : State) (w : HalfWord) :
    (s.setDaddr w).slots = s.slots := rfl
@[simp] theorem setDaddr_stage (s : State) (w : HalfWord) :
    (s.setDaddr w).stage = s.stage := rfl
@[simp] theorem setDaddr_remaining (s : State) (w : HalfWord) :
    (s.setDaddr w).remaining = s.remaining := rfl
@[simp] theorem setDaddr_cursor (s : State) (w : HalfWord) :
    (s.setDaddr w).cursor = s.cursor := rfl
@[simp] theorem setDaddr_deferred (s : State) (w : HalfWord) :
    (s.setDaddr w).deferred = s.deferred := rfl
@[simp] theorem setDaddr_devStatus (s : State) (w : HalfWord) :
    (s.setDaddr w).devStatus = s.devStatus := rfl
@[simp] theorem setDaddr_preSuspend (s : State) (w : HalfWord) :
    (s.setDaddr w).preSuspend = s.preSuspend := rfl
@[simp] theorem setDaddr_initialized (s : State) (w : HalfWord) :
    (s.setDaddr w).initialized = s.initialized := rfl
@[simp] theorem setDaddr_core (s : State) (w : HalfWord) :
    (s.setDaddr w).core = s.core := rfl
@[simp] theorem setDaddr_app (s : State) (w : HalfWord) :
    (s.setDaddr w).app = s.app := rfl
@[simp] theorem setDaddr_clkOn (s : State) (w : HalfWord) :
    (s.setDaddr w).clkOn = s.clkOn := rfl
@[simp] theorem setDaddr_vdetOn (s : State) (w : HalfWord) :
    (s.setDaddr w).vdetOn = s.vdetOn := rfl
@[simp] theorem setDaddr_irqEnabled (s : State) (w : HalfWord) :
    (s.setDaddr w).irqEnabled = s.irqEnabled := rfl
@[simp] theorem setDaddr_pinsAf (s : State) (w : HalfWord) :
    (s.setDaddr w).pinsAf = s.pinsAf := rfl
@[simp] theorem setDaddr_mem (s : State) (w : HalfWord) :
    (s.setDaddr w).mem = s.mem := rfl
@[simp] theorem setDaddr_trace (s : State) (w : HalfWord) :
    (s.setDaddr w).trace = s.trace := rfl
@[simp] theorem setDaddr_faults (s : State) (w : HalfWord) :
    (s.setDaddr w).faults = s.faults := rfl
@[simp] theorem setDaddr_refusals (s : State) (w : HalfWord) :
    (s.setDaddr w).refusals = s.refusals := rfl
@[simp] theorem setDaddr_program (s : State) (w : HalfWord) :
    (s.setDaddr w).program = s.program := rfl
@[simp] theorem setDaddr_busIn (s : State) (w : HalfWord) :
    (s.setDaddr w).busIn = s.busIn := rfl
@[simp] theorem setDaddr_turns (s : State) (w : HalfWord) :
    (s.setDaddr w).turns = s.turns := rfl
@[simp] theorem setDaddr_draws (s : State) (w : HalfWord) :
    (s.setDaddr w).draws = s.draws := rfl

/-! ## `setBtable` -/

@[simp] theorem setBtable_params (s : State) (w : HalfWord) :
    (s.setBtable w).params = s.params := rfl
@[simp] theorem setBtable_eprs (s : State) (w : HalfWord) :
    (s.setBtable w).eprs = s.eprs := rfl
@[simp] theorem setBtable_istr (s : State) (w : HalfWord) :
    (s.setBtable w).istr = s.istr := rfl
@[simp] theorem setBtable_cntr (s : State) (w : HalfWord) :
    (s.setBtable w).cntr = s.cntr := rfl
@[simp] theorem setBtable_daddr (s : State) (w : HalfWord) :
    (s.setBtable w).daddr = s.daddr := rfl
@[simp] theorem setBtable_btable (s : State) (w : HalfWord) :
    (s.setBtable w).btable = w &&& 0xFFF8 := rfl
@[simp] theorem setBtable_bcdr (s : State) (w : HalfWord) :
    (s.setBtable w).bcdr = s.bcdr := rfl
@[simp] theorem setBtable_slots (s : State) (w : HalfWord) :
    (s.setBtable w).slots = s.slots := rfl
@[simp] theorem setBtable_stage (s : State) (w : HalfWord) :
    (s.setBtable w).stage = s.stage := rfl
@[simp] theorem setBtable_remaining (s : State) (w : HalfWord) :
    (s.setBtable w).remaining = s.remaining := rfl
@[simp] theorem setBtable_cursor (s : State) (w : HalfWord) :
    (s.setBtable w).cursor = s.cursor := rfl
@[simp] theorem setBtable_deferred (s : State) (w : HalfWord) :
    (s.setBtable w).deferred = s.deferred := rfl
@[simp] theorem setBtable_devStatus (s : State) (w : HalfWord) :
    (s.setBtable w).devStatus = s.devStatus := rfl
@[simp] theorem setBtable_preSuspend (s : State) (w : HalfWord) :
    (s.setBtable w).preSuspend = s.preSuspend := rfl
@[simp] theorem setBtable_initialized (s : State) (w : HalfWord) :
    (s.setBtable w).initialized = s.initialized := rfl
@[simp] theorem setBtable_core (s : State) (w : HalfWord) :
    (s.setBtable w).core = s.core := rfl
@[simp] theorem setBtable_app (s : State) (w : HalfWord) :
    (s.setBtable w).app = s.app := rfl
@[simp] theorem setBtable_clkOn (s : State) (w : HalfWord) :
    (s.setBtable w).clkOn = s.clkOn := rfl
@[simp] theorem setBtable_vdetOn (s : State) (w : HalfWord) :
    (s.setBtable w).vdetOn = s.vdetOn := rfl
@[simp] theorem setBtable_irqEnabled (s : State) (w : HalfWord) :
    (s.setBtable w).irqEnabled = s.irqEnabled := rfl
@[simp] theorem setBtable_pinsAf (s : State) (w : HalfWord) :
    (s.setBtable w).pinsAf = s.pinsAf := rfl
@[simp] theorem setBtable_mem (s : State) (w : HalfWord) :
    (s.setBtable w).mem = s.mem := rfl
@[simp] theorem setBtable_trace (s : State) (w : HalfWord) :
    (s.setBtable w).trace = s.trace := rfl
@[simp] theorem setBtable_faults (s : State) (w : HalfWord) :
    (s.setBtable w).faults = s.faults := rfl
@[simp] theorem setBtable_refusals (s : State) (w : HalfWord) :
    (s.setBtable w).refusals = s.refusals := rfl
@[simp] theorem setBtable_program (s : State) (w : HalfWord) :
    (s.setBtable w).program = s.program := rfl
@[simp] theorem setBtable_busIn (s : State) (w : HalfWord) :
    (s.setBtable w).busIn = s.busIn := rfl
@[simp] theorem setBtable_turns (s : State) (w : HalfWord) :
    (s.setBtable w).turns = s.turns := rfl
@[simp] theorem setBtable_draws (s : State) (w : HalfWord) :
    (s.setBtable w).draws = s.draws := rfl

/-! ## `setBcdr` -/

@[simp] theorem setBcdr_params (s : State) (w : HalfWord) :
    (s.setBcdr w).params = s.params := rfl
@[simp] theorem setBcdr_eprs (s : State) (w : HalfWord) :
    (s.setBcdr w).eprs = s.eprs := rfl
@[simp] theorem setBcdr_istr (s : State) (w : HalfWord) :
    (s.setBcdr w).istr = s.istr := rfl
@[simp] theorem setBcdr_cntr (s : State) (w : HalfWord) :
    (s.setBcdr w).cntr = s.cntr := rfl
@[simp] theorem setBcdr_daddr (s : State) (w : HalfWord) :
    (s.setBcdr w).daddr = s.daddr := rfl
@[simp] theorem setBcdr_btable (s : State) (w : HalfWord) :
    (s.setBcdr w).btable = s.btable := rfl
@[simp] theorem setBcdr_bcdr (s : State) (w : HalfWord) :
    (s.setBcdr w).bcdr = w &&& 0x8000 := rfl
@[simp] theorem setBcdr_slots (s : State) (w : HalfWord) :
    (s.setBcdr w).slots = s.slots := rfl
@[simp] theorem setBcdr_stage (s : State) (w : HalfWord) :
    (s.setBcdr w).stage = s.stage := rfl
@[simp] theorem setBcdr_remaining (s : State) (w : HalfWord) :
    (s.setBcdr w).remaining = s.remaining := rfl
@[simp] theorem setBcdr_cursor (s : State) (w : HalfWord) :
    (s.setBcdr w).cursor = s.cursor := rfl
@[simp] theorem setBcdr_deferred (s : State) (w : HalfWord) :
    (s.setBcdr w).deferred = s.deferred := rfl
@[simp] theorem setBcdr_devStatus (s : State) (w : HalfWord) :
    (s.setBcdr w).devStatus = s.devStatus := rfl
@[simp] theorem setBcdr_preSuspend (s : State) (w : HalfWord) :
    (s.setBcdr w).preSuspend = s.preSuspend := rfl
@[simp] theorem setBcdr_initialized (s : State) (w : HalfWord) :
    (s.setBcdr w).initialized = s.initialized := rfl
@[simp] theorem setBcdr_core (s : State) (w : HalfWord) :
    (s.setBcdr w).core = s.core := rfl
@[simp] theorem setBcdr_app (s : State) (w : HalfWord) :
    (s.setBcdr w).app = s.app := rfl
@[simp] theorem setBcdr_clkOn (s : State) (w : HalfWord) :
    (s.setBcdr w).clkOn = s.clkOn := rfl
@[simp] theorem setBcdr_vdetOn (s : State) (w : HalfWord) :
    (s.setBcdr w).vdetOn = s.vdetOn := rfl
@[simp] theorem setBcdr_irqEnabled (s : State) (w : HalfWord) :
    (s.setBcdr w).irqEnabled = s.irqEnabled := rfl
@[simp] theorem setBcdr_pinsAf (s : State) (w : HalfWord) :
    (s.setBcdr w).pinsAf = s.pinsAf := rfl
@[simp] theorem setBcdr_mem (s : State) (w : HalfWord) :
    (s.setBcdr w).mem = s.mem := rfl
@[simp] theorem setBcdr_trace (s : State) (w : HalfWord) :
    (s.setBcdr w).trace = s.trace := rfl
@[simp] theorem setBcdr_faults (s : State) (w : HalfWord) :
    (s.setBcdr w).faults = s.faults := rfl
@[simp] theorem setBcdr_refusals (s : State) (w : HalfWord) :
    (s.setBcdr w).refusals = s.refusals := rfl
@[simp] theorem setBcdr_program (s : State) (w : HalfWord) :
    (s.setBcdr w).program = s.program := rfl
@[simp] theorem setBcdr_busIn (s : State) (w : HalfWord) :
    (s.setBcdr w).busIn = s.busIn := rfl
@[simp] theorem setBcdr_turns (s : State) (w : HalfWord) :
    (s.setBcdr w).turns = s.turns := rfl
@[simp] theorem setBcdr_draws (s : State) (w : HalfWord) :
    (s.setBcdr w).draws = s.draws := rfl

/-! ## `setIstr` -/

@[simp] theorem setIstr_params (s : State) (w : HalfWord) :
    (s.setIstr w).params = s.params := rfl
@[simp] theorem setIstr_eprs (s : State) (w : HalfWord) :
    (s.setIstr w).eprs = s.eprs := rfl
@[simp] theorem setIstr_istr (s : State) (w : HalfWord) :
    (s.setIstr w).istr = istrWrite s.istr w := rfl
@[simp] theorem setIstr_cntr (s : State) (w : HalfWord) :
    (s.setIstr w).cntr = s.cntr := rfl
@[simp] theorem setIstr_daddr (s : State) (w : HalfWord) :
    (s.setIstr w).daddr = s.daddr := rfl
@[simp] theorem setIstr_btable (s : State) (w : HalfWord) :
    (s.setIstr w).btable = s.btable := rfl
@[simp] theorem setIstr_bcdr (s : State) (w : HalfWord) :
    (s.setIstr w).bcdr = s.bcdr := rfl
@[simp] theorem setIstr_slots (s : State) (w : HalfWord) :
    (s.setIstr w).slots = s.slots := rfl
@[simp] theorem setIstr_stage (s : State) (w : HalfWord) :
    (s.setIstr w).stage = s.stage := rfl
@[simp] theorem setIstr_remaining (s : State) (w : HalfWord) :
    (s.setIstr w).remaining = s.remaining := rfl
@[simp] theorem setIstr_cursor (s : State) (w : HalfWord) :
    (s.setIstr w).cursor = s.cursor := rfl
@[simp] theorem setIstr_deferred (s : State) (w : HalfWord) :
    (s.setIstr w).deferred = s.deferred := rfl
@[simp] theorem setIstr_devStatus (s : State) (w : HalfWord) :
    (s.setIstr w).devStatus = s.devStatus := rfl
@[simp] theorem setIstr_preSuspend (s : State) (w : HalfWord) :
    (s.setIstr w).preSuspend = s.preSuspend := rfl
@[simp] theorem setIstr_initialized (s : State) (w : HalfWord) :
    (s.setIstr w).initialized = s.initialized := rfl
@[simp] theorem setIstr_core (s : State) (w : HalfWord) :
    (s.setIstr w).core = s.core := rfl
@[simp] theorem setIstr_app (s : State) (w : HalfWord) :
    (s.setIstr w).app = s.app := rfl
@[simp] theorem setIstr_clkOn (s : State) (w : HalfWord) :
    (s.setIstr w).clkOn = s.clkOn := rfl
@[simp] theorem setIstr_vdetOn (s : State) (w : HalfWord) :
    (s.setIstr w).vdetOn = s.vdetOn := rfl
@[simp] theorem setIstr_irqEnabled (s : State) (w : HalfWord) :
    (s.setIstr w).irqEnabled = s.irqEnabled := rfl
@[simp] theorem setIstr_pinsAf (s : State) (w : HalfWord) :
    (s.setIstr w).pinsAf = s.pinsAf := rfl
@[simp] theorem setIstr_mem (s : State) (w : HalfWord) :
    (s.setIstr w).mem = s.mem := rfl
@[simp] theorem setIstr_trace (s : State) (w : HalfWord) :
    (s.setIstr w).trace = s.trace := rfl
@[simp] theorem setIstr_faults (s : State) (w : HalfWord) :
    (s.setIstr w).faults = s.faults := rfl
@[simp] theorem setIstr_refusals (s : State) (w : HalfWord) :
    (s.setIstr w).refusals = s.refusals := rfl
@[simp] theorem setIstr_program (s : State) (w : HalfWord) :
    (s.setIstr w).program = s.program := rfl
@[simp] theorem setIstr_busIn (s : State) (w : HalfWord) :
    (s.setIstr w).busIn = s.busIn := rfl
@[simp] theorem setIstr_turns (s : State) (w : HalfWord) :
    (s.setIstr w).turns = s.turns := rfl
@[simp] theorem setIstr_draws (s : State) (w : HalfWord) :
    (s.setIstr w).draws = s.draws := rfl

/-! ## `setBytes` -/

@[simp] theorem setBytes_params (s : State) (a : Nat) (d : List Byte) :
    (s.setBytes a d).params = s.params := rfl
@[simp] theorem setBytes_eprs (s : State) (a : Nat) (d : List Byte) :
    (s.setBytes a d).eprs = s.eprs := rfl
@[simp] theorem setBytes_istr (s : State) (a : Nat) (d : List Byte) :
    (s.setBytes a d).istr = s.istr := rfl
@[simp] theorem setBytes_cntr (s : State) (a : Nat) (d : List Byte) :
    (s.setBytes a d).cntr = s.cntr := rfl
@[simp] theorem setBytes_daddr (s : State) (a : Nat) (d : List Byte) :
    (s.setBytes a d).daddr = s.daddr := rfl
@[simp] theorem setBytes_btable (s : State) (a : Nat) (d : List Byte) :
    (s.setBytes a d).btable = s.btable := rfl
@[simp] theorem setBytes_bcdr (s : State) (a : Nat) (d : List Byte) :
    (s.setBytes a d).bcdr = s.bcdr := rfl
@[simp] theorem setBytes_slots (s : State) (a : Nat) (d : List Byte) :
    (s.setBytes a d).slots = s.slots := rfl
@[simp] theorem setBytes_stage (s : State) (a : Nat) (d : List Byte) :
    (s.setBytes a d).stage = s.stage := rfl
@[simp] theorem setBytes_remaining (s : State) (a : Nat) (d : List Byte) :
    (s.setBytes a d).remaining = s.remaining := rfl
@[simp] theorem setBytes_cursor (s : State) (a : Nat) (d : List Byte) :
    (s.setBytes a d).cursor = s.cursor := rfl
@[simp] theorem setBytes_deferred (s : State) (a : Nat) (d : List Byte) :
    (s.setBytes a d).deferred = s.deferred := rfl
@[simp] theorem setBytes_devStatus (s : State) (a : Nat) (d : List Byte) :
    (s.setBytes a d).devStatus = s.devStatus := rfl
@[simp] theorem setBytes_preSuspend (s : State) (a : Nat) (d : List Byte) :
    (s.setBytes a d).preSuspend = s.preSuspend := rfl
@[simp] theorem setBytes_initialized (s : State) (a : Nat) (d : List Byte) :
    (s.setBytes a d).initialized = s.initialized := rfl
@[simp] theorem setBytes_core (s : State) (a : Nat) (d : List Byte) :
    (s.setBytes a d).core = s.core := rfl
@[simp] theorem setBytes_app (s : State) (a : Nat) (d : List Byte) :
    (s.setBytes a d).app = s.app := rfl
@[simp] theorem setBytes_clkOn (s : State) (a : Nat) (d : List Byte) :
    (s.setBytes a d).clkOn = s.clkOn := rfl
@[simp] theorem setBytes_vdetOn (s : State) (a : Nat) (d : List Byte) :
    (s.setBytes a d).vdetOn = s.vdetOn := rfl
@[simp] theorem setBytes_irqEnabled (s : State) (a : Nat) (d : List Byte) :
    (s.setBytes a d).irqEnabled = s.irqEnabled := rfl
@[simp] theorem setBytes_pinsAf (s : State) (a : Nat) (d : List Byte) :
    (s.setBytes a d).pinsAf = s.pinsAf := rfl
@[simp] theorem setBytes_mem (s : State) (a : Nat) (d : List Byte) :
    (s.setBytes a d).mem = memSetBytes s.mem a d := rfl
@[simp] theorem setBytes_trace (s : State) (a : Nat) (d : List Byte) :
    (s.setBytes a d).trace = s.trace := rfl
@[simp] theorem setBytes_faults (s : State) (a : Nat) (d : List Byte) :
    (s.setBytes a d).faults = s.faults := rfl
@[simp] theorem setBytes_refusals (s : State) (a : Nat) (d : List Byte) :
    (s.setBytes a d).refusals = s.refusals := rfl
@[simp] theorem setBytes_program (s : State) (a : Nat) (d : List Byte) :
    (s.setBytes a d).program = s.program := rfl
@[simp] theorem setBytes_busIn (s : State) (a : Nat) (d : List Byte) :
    (s.setBytes a d).busIn = s.busIn := rfl
@[simp] theorem setBytes_turns (s : State) (a : Nat) (d : List Byte) :
    (s.setBytes a d).turns = s.turns := rfl
@[simp] theorem setBytes_draws (s : State) (a : Nat) (d : List Byte) :
    (s.setBytes a d).draws = s.draws := rfl

/-! ## `setCell` -/

@[simp] theorem setCell_params (s : State) (k : Nat) (v : HalfWord) :
    (s.setCell k v).params = s.params := rfl
@[simp] theorem setCell_eprs (s : State) (k : Nat) (v : HalfWord) :
    (s.setCell k v).eprs = s.eprs := rfl
@[simp] theorem setCell_istr (s : State) (k : Nat) (v : HalfWord) :
    (s.setCell k v).istr = s.istr := rfl
@[simp] theorem setCell_cntr (s : State) (k : Nat) (v : HalfWord) :
    (s.setCell k v).cntr = s.cntr := rfl
@[simp] theorem setCell_daddr (s : State) (k : Nat) (v : HalfWord) :
    (s.setCell k v).daddr = s.daddr := rfl
@[simp] theorem setCell_btable (s : State) (k : Nat) (v : HalfWord) :
    (s.setCell k v).btable = s.btable := rfl
@[simp] theorem setCell_bcdr (s : State) (k : Nat) (v : HalfWord) :
    (s.setCell k v).bcdr = s.bcdr := rfl
@[simp] theorem setCell_slots (s : State) (k : Nat) (v : HalfWord) :
    (s.setCell k v).slots = s.slots := rfl
@[simp] theorem setCell_stage (s : State) (k : Nat) (v : HalfWord) :
    (s.setCell k v).stage = s.stage := rfl
@[simp] theorem setCell_remaining (s : State) (k : Nat) (v : HalfWord) :
    (s.setCell k v).remaining = s.remaining := rfl
@[simp] theorem setCell_cursor (s : State) (k : Nat) (v : HalfWord) :
    (s.setCell k v).cursor = s.cursor := rfl
@[simp] theorem setCell_deferred (s : State) (k : Nat) (v : HalfWord) :
    (s.setCell k v).deferred = s.deferred := rfl
@[simp] theorem setCell_devStatus (s : State) (k : Nat) (v : HalfWord) :
    (s.setCell k v).devStatus = s.devStatus := rfl
@[simp] theorem setCell_preSuspend (s : State) (k : Nat) (v : HalfWord) :
    (s.setCell k v).preSuspend = s.preSuspend := rfl
@[simp] theorem setCell_initialized (s : State) (k : Nat) (v : HalfWord) :
    (s.setCell k v).initialized = s.initialized := rfl
@[simp] theorem setCell_core (s : State) (k : Nat) (v : HalfWord) :
    (s.setCell k v).core = s.core := rfl
@[simp] theorem setCell_app (s : State) (k : Nat) (v : HalfWord) :
    (s.setCell k v).app = s.app := rfl
@[simp] theorem setCell_clkOn (s : State) (k : Nat) (v : HalfWord) :
    (s.setCell k v).clkOn = s.clkOn := rfl
@[simp] theorem setCell_vdetOn (s : State) (k : Nat) (v : HalfWord) :
    (s.setCell k v).vdetOn = s.vdetOn := rfl
@[simp] theorem setCell_irqEnabled (s : State) (k : Nat) (v : HalfWord) :
    (s.setCell k v).irqEnabled = s.irqEnabled := rfl
@[simp] theorem setCell_pinsAf (s : State) (k : Nat) (v : HalfWord) :
    (s.setCell k v).pinsAf = s.pinsAf := rfl
@[simp] theorem setCell_mem (s : State) (k : Nat) (v : HalfWord) :
    (s.setCell k v).mem = memSetBytes s.mem (2 * k) [loByte v, hiByte v] := rfl
@[simp] theorem setCell_trace (s : State) (k : Nat) (v : HalfWord) :
    (s.setCell k v).trace = s.trace := rfl
@[simp] theorem setCell_faults (s : State) (k : Nat) (v : HalfWord) :
    (s.setCell k v).faults = s.faults := rfl
@[simp] theorem setCell_refusals (s : State) (k : Nat) (v : HalfWord) :
    (s.setCell k v).refusals = s.refusals := rfl
@[simp] theorem setCell_program (s : State) (k : Nat) (v : HalfWord) :
    (s.setCell k v).program = s.program := rfl
@[simp] theorem setCell_busIn (s : State) (k : Nat) (v : HalfWord) :
    (s.setCell k v).busIn = s.busIn := rfl
@[simp] theorem setCell_turns (s : State) (k : Nat) (v : HalfWord) :
    (s.setCell k v).turns = s.turns := rfl
@[simp] theorem setCell_draws (s : State) (k : Nat) (v : HalfWord) :
    (s.setCell k v).draws = s.draws := rfl

/-! ## `setSlot` -/

@[simp] theorem setSlot_params (s : State) (n : EpNum) (x : Slot) :
    (s.setSlot n x).params = s.params := rfl
@[simp] theorem setSlot_eprs (s : State) (n : EpNum) (x : Slot) :
    (s.setSlot n x).eprs = s.eprs := rfl
@[simp] theorem setSlot_istr (s : State) (n : EpNum) (x : Slot) :
    (s.setSlot n x).istr = s.istr := rfl
@[simp] theorem setSlot_cntr (s : State) (n : EpNum) (x : Slot) :
    (s.setSlot n x).cntr = s.cntr := rfl
@[simp] theorem setSlot_daddr (s : State) (n : EpNum) (x : Slot) :
    (s.setSlot n x).daddr = s.daddr := rfl
@[simp] theorem setSlot_btable (s : State) (n : EpNum) (x : Slot) :
    (s.setSlot n x).btable = s.btable := rfl
@[simp] theorem setSlot_bcdr (s : State) (n : EpNum) (x : Slot) :
    (s.setSlot n x).bcdr = s.bcdr := rfl
@[simp] theorem setSlot_slots (s : State) (n : EpNum) (x : Slot) :
    (s.setSlot n x).slots = s.slots.set n x := rfl
@[simp] theorem setSlot_stage (s : State) (n : EpNum) (x : Slot) :
    (s.setSlot n x).stage = s.stage := rfl
@[simp] theorem setSlot_remaining (s : State) (n : EpNum) (x : Slot) :
    (s.setSlot n x).remaining = s.remaining := rfl
@[simp] theorem setSlot_cursor (s : State) (n : EpNum) (x : Slot) :
    (s.setSlot n x).cursor = s.cursor := rfl
@[simp] theorem setSlot_deferred (s : State) (n : EpNum) (x : Slot) :
    (s.setSlot n x).deferred = s.deferred := rfl
@[simp] theorem setSlot_devStatus (s : State) (n : EpNum) (x : Slot) :
    (s.setSlot n x).devStatus = s.devStatus := rfl
@[simp] theorem setSlot_preSuspend (s : State) (n : EpNum) (x : Slot) :
    (s.setSlot n x).preSuspend = s.preSuspend := rfl
@[simp] theorem setSlot_initialized (s : State) (n : EpNum) (x : Slot) :
    (s.setSlot n x).initialized = s.initialized := rfl
@[simp] theorem setSlot_core (s : State) (n : EpNum) (x : Slot) :
    (s.setSlot n x).core = s.core := rfl
@[simp] theorem setSlot_app (s : State) (n : EpNum) (x : Slot) :
    (s.setSlot n x).app = s.app := rfl
@[simp] theorem setSlot_clkOn (s : State) (n : EpNum) (x : Slot) :
    (s.setSlot n x).clkOn = s.clkOn := rfl
@[simp] theorem setSlot_vdetOn (s : State) (n : EpNum) (x : Slot) :
    (s.setSlot n x).vdetOn = s.vdetOn := rfl
@[simp] theorem setSlot_irqEnabled (s : State) (n : EpNum) (x : Slot) :
    (s.setSlot n x).irqEnabled = s.irqEnabled := rfl
@[simp] theorem setSlot_pinsAf (s : State) (n : EpNum) (x : Slot) :
    (s.setSlot n x).pinsAf = s.pinsAf := rfl
@[simp] theorem setSlot_mem (s : State) (n : EpNum) (x : Slot) :
    (s.setSlot n x).mem = s.mem := rfl
@[simp] theorem setSlot_trace (s : State) (n : EpNum) (x : Slot) :
    (s.setSlot n x).trace = s.trace := rfl
@[simp] theorem setSlot_faults (s : State) (n : EpNum) (x : Slot) :
    (s.setSlot n x).faults = s.faults := rfl
@[simp] theorem setSlot_refusals (s : State) (n : EpNum) (x : Slot) :
    (s.setSlot n x).refusals = s.refusals := rfl
@[simp] theorem setSlot_program (s : State) (n : EpNum) (x : Slot) :
    (s.setSlot n x).program = s.program := rfl
@[simp] theorem setSlot_busIn (s : State) (n : EpNum) (x : Slot) :
    (s.setSlot n x).busIn = s.busIn := rfl
@[simp] theorem setSlot_turns (s : State) (n : EpNum) (x : Slot) :
    (s.setSlot n x).turns = s.turns := rfl
@[simp] theorem setSlot_draws (s : State) (n : EpNum) (x : Slot) :
    (s.setSlot n x).draws = s.draws := rfl

/-! ## `emit` -/

@[simp] theorem emit_params (s : State) (e : Event) :
    (s.emit e).params = s.params := rfl
@[simp] theorem emit_eprs (s : State) (e : Event) :
    (s.emit e).eprs = s.eprs := rfl
@[simp] theorem emit_istr (s : State) (e : Event) :
    (s.emit e).istr = s.istr := rfl
@[simp] theorem emit_cntr (s : State) (e : Event) :
    (s.emit e).cntr = s.cntr := rfl
@[simp] theorem emit_daddr (s : State) (e : Event) :
    (s.emit e).daddr = s.daddr := rfl
@[simp] theorem emit_btable (s : State) (e : Event) :
    (s.emit e).btable = s.btable := rfl
@[simp] theorem emit_bcdr (s : State) (e : Event) :
    (s.emit e).bcdr = s.bcdr := rfl
@[simp] theorem emit_slots (s : State) (e : Event) :
    (s.emit e).slots = s.slots := rfl
@[simp] theorem emit_stage (s : State) (e : Event) :
    (s.emit e).stage = s.stage := rfl
@[simp] theorem emit_remaining (s : State) (e : Event) :
    (s.emit e).remaining = s.remaining := rfl
@[simp] theorem emit_cursor (s : State) (e : Event) :
    (s.emit e).cursor = s.cursor := rfl
@[simp] theorem emit_deferred (s : State) (e : Event) :
    (s.emit e).deferred = s.deferred := rfl
@[simp] theorem emit_devStatus (s : State) (e : Event) :
    (s.emit e).devStatus = s.devStatus := rfl
@[simp] theorem emit_preSuspend (s : State) (e : Event) :
    (s.emit e).preSuspend = s.preSuspend := rfl
@[simp] theorem emit_initialized (s : State) (e : Event) :
    (s.emit e).initialized = s.initialized := rfl
@[simp] theorem emit_core (s : State) (e : Event) :
    (s.emit e).core = s.core := rfl
@[simp] theorem emit_app (s : State) (e : Event) :
    (s.emit e).app = s.app := rfl
@[simp] theorem emit_clkOn (s : State) (e : Event) :
    (s.emit e).clkOn = s.clkOn := rfl
@[simp] theorem emit_vdetOn (s : State) (e : Event) :
    (s.emit e).vdetOn = s.vdetOn := rfl
@[simp] theorem emit_irqEnabled (s : State) (e : Event) :
    (s.emit e).irqEnabled = s.irqEnabled := rfl
@[simp] theorem emit_pinsAf (s : State) (e : Event) :
    (s.emit e).pinsAf = s.pinsAf := rfl
@[simp] theorem emit_mem (s : State) (e : Event) :
    (s.emit e).mem = s.mem := rfl
@[simp] theorem emit_trace (s : State) (e : Event) :
    (s.emit e).trace = s.trace ++ [e] := rfl
@[simp] theorem emit_faults (s : State) (e : Event) :
    (s.emit e).faults = s.faults := rfl
@[simp] theorem emit_refusals (s : State) (e : Event) :
    (s.emit e).refusals = s.refusals := rfl
@[simp] theorem emit_program (s : State) (e : Event) :
    (s.emit e).program = s.program := rfl
@[simp] theorem emit_busIn (s : State) (e : Event) :
    (s.emit e).busIn = s.busIn := rfl
@[simp] theorem emit_turns (s : State) (e : Event) :
    (s.emit e).turns = s.turns := rfl
@[simp] theorem emit_draws (s : State) (e : Event) :
    (s.emit e).draws = s.draws := rfl

/-! ## `raise` -/

@[simp] theorem raise_params (s : State) (k : FaultKind) (a : Agent) (r : Nat) :
    (s.raise k a r).params = s.params := rfl
@[simp] theorem raise_eprs (s : State) (k : FaultKind) (a : Agent) (r : Nat) :
    (s.raise k a r).eprs = s.eprs := rfl
@[simp] theorem raise_istr (s : State) (k : FaultKind) (a : Agent) (r : Nat) :
    (s.raise k a r).istr = s.istr := rfl
@[simp] theorem raise_cntr (s : State) (k : FaultKind) (a : Agent) (r : Nat) :
    (s.raise k a r).cntr = s.cntr := rfl
@[simp] theorem raise_daddr (s : State) (k : FaultKind) (a : Agent) (r : Nat) :
    (s.raise k a r).daddr = s.daddr := rfl
@[simp] theorem raise_btable (s : State) (k : FaultKind) (a : Agent) (r : Nat) :
    (s.raise k a r).btable = s.btable := rfl
@[simp] theorem raise_bcdr (s : State) (k : FaultKind) (a : Agent) (r : Nat) :
    (s.raise k a r).bcdr = s.bcdr := rfl
@[simp] theorem raise_slots (s : State) (k : FaultKind) (a : Agent) (r : Nat) :
    (s.raise k a r).slots = s.slots := rfl
@[simp] theorem raise_stage (s : State) (k : FaultKind) (a : Agent) (r : Nat) :
    (s.raise k a r).stage = s.stage := rfl
@[simp] theorem raise_remaining (s : State) (k : FaultKind) (a : Agent) (r : Nat) :
    (s.raise k a r).remaining = s.remaining := rfl
@[simp] theorem raise_cursor (s : State) (k : FaultKind) (a : Agent) (r : Nat) :
    (s.raise k a r).cursor = s.cursor := rfl
@[simp] theorem raise_deferred (s : State) (k : FaultKind) (a : Agent) (r : Nat) :
    (s.raise k a r).deferred = s.deferred := rfl
@[simp] theorem raise_devStatus (s : State) (k : FaultKind) (a : Agent) (r : Nat) :
    (s.raise k a r).devStatus = s.devStatus := rfl
@[simp] theorem raise_preSuspend (s : State) (k : FaultKind) (a : Agent) (r : Nat) :
    (s.raise k a r).preSuspend = s.preSuspend := rfl
@[simp] theorem raise_initialized (s : State) (k : FaultKind) (a : Agent) (r : Nat) :
    (s.raise k a r).initialized = s.initialized := rfl
@[simp] theorem raise_core (s : State) (k : FaultKind) (a : Agent) (r : Nat) :
    (s.raise k a r).core = s.core := rfl
@[simp] theorem raise_app (s : State) (k : FaultKind) (a : Agent) (r : Nat) :
    (s.raise k a r).app = s.app := rfl
@[simp] theorem raise_clkOn (s : State) (k : FaultKind) (a : Agent) (r : Nat) :
    (s.raise k a r).clkOn = s.clkOn := rfl
@[simp] theorem raise_vdetOn (s : State) (k : FaultKind) (a : Agent) (r : Nat) :
    (s.raise k a r).vdetOn = s.vdetOn := rfl
@[simp] theorem raise_irqEnabled (s : State) (k : FaultKind) (a : Agent) (r : Nat) :
    (s.raise k a r).irqEnabled = s.irqEnabled := rfl
@[simp] theorem raise_pinsAf (s : State) (k : FaultKind) (a : Agent) (r : Nat) :
    (s.raise k a r).pinsAf = s.pinsAf := rfl
@[simp] theorem raise_mem (s : State) (k : FaultKind) (a : Agent) (r : Nat) :
    (s.raise k a r).mem = s.mem := rfl
@[simp] theorem raise_trace (s : State) (k : FaultKind) (a : Agent) (r : Nat) :
    (s.raise k a r).trace = s.trace := rfl
@[simp] theorem raise_faults (s : State) (k : FaultKind) (a : Agent) (r : Nat) :
    (s.raise k a r).faults = s.faults ++ [⟨k, a, r⟩] := rfl
@[simp] theorem raise_refusals (s : State) (k : FaultKind) (a : Agent) (r : Nat) :
    (s.raise k a r).refusals = s.refusals := rfl
@[simp] theorem raise_program (s : State) (k : FaultKind) (a : Agent) (r : Nat) :
    (s.raise k a r).program = s.program := rfl
@[simp] theorem raise_busIn (s : State) (k : FaultKind) (a : Agent) (r : Nat) :
    (s.raise k a r).busIn = s.busIn := rfl
@[simp] theorem raise_turns (s : State) (k : FaultKind) (a : Agent) (r : Nat) :
    (s.raise k a r).turns = s.turns := rfl
@[simp] theorem raise_draws (s : State) (k : FaultKind) (a : Agent) (r : Nat) :
    (s.raise k a r).draws = s.draws := rfl

/-! ## `refuse` -/

@[simp] theorem refuse_params (s : State) (r : RefuseReason) :
    (s.refuse r).params = s.params := rfl
@[simp] theorem refuse_eprs (s : State) (r : RefuseReason) :
    (s.refuse r).eprs = s.eprs := rfl
@[simp] theorem refuse_istr (s : State) (r : RefuseReason) :
    (s.refuse r).istr = s.istr := rfl
@[simp] theorem refuse_cntr (s : State) (r : RefuseReason) :
    (s.refuse r).cntr = s.cntr := rfl
@[simp] theorem refuse_daddr (s : State) (r : RefuseReason) :
    (s.refuse r).daddr = s.daddr := rfl
@[simp] theorem refuse_btable (s : State) (r : RefuseReason) :
    (s.refuse r).btable = s.btable := rfl
@[simp] theorem refuse_bcdr (s : State) (r : RefuseReason) :
    (s.refuse r).bcdr = s.bcdr := rfl
@[simp] theorem refuse_slots (s : State) (r : RefuseReason) :
    (s.refuse r).slots = s.slots := rfl
@[simp] theorem refuse_stage (s : State) (r : RefuseReason) :
    (s.refuse r).stage = s.stage := rfl
@[simp] theorem refuse_remaining (s : State) (r : RefuseReason) :
    (s.refuse r).remaining = s.remaining := rfl
@[simp] theorem refuse_cursor (s : State) (r : RefuseReason) :
    (s.refuse r).cursor = s.cursor := rfl
@[simp] theorem refuse_deferred (s : State) (r : RefuseReason) :
    (s.refuse r).deferred = s.deferred := rfl
@[simp] theorem refuse_devStatus (s : State) (r : RefuseReason) :
    (s.refuse r).devStatus = s.devStatus := rfl
@[simp] theorem refuse_preSuspend (s : State) (r : RefuseReason) :
    (s.refuse r).preSuspend = s.preSuspend := rfl
@[simp] theorem refuse_initialized (s : State) (r : RefuseReason) :
    (s.refuse r).initialized = s.initialized := rfl
@[simp] theorem refuse_core (s : State) (r : RefuseReason) :
    (s.refuse r).core = s.core := rfl
@[simp] theorem refuse_app (s : State) (r : RefuseReason) :
    (s.refuse r).app = s.app := rfl
@[simp] theorem refuse_clkOn (s : State) (r : RefuseReason) :
    (s.refuse r).clkOn = s.clkOn := rfl
@[simp] theorem refuse_vdetOn (s : State) (r : RefuseReason) :
    (s.refuse r).vdetOn = s.vdetOn := rfl
@[simp] theorem refuse_irqEnabled (s : State) (r : RefuseReason) :
    (s.refuse r).irqEnabled = s.irqEnabled := rfl
@[simp] theorem refuse_pinsAf (s : State) (r : RefuseReason) :
    (s.refuse r).pinsAf = s.pinsAf := rfl
@[simp] theorem refuse_mem (s : State) (r : RefuseReason) :
    (s.refuse r).mem = s.mem := rfl
@[simp] theorem refuse_trace (s : State) (r : RefuseReason) :
    (s.refuse r).trace = s.trace := rfl
@[simp] theorem refuse_faults (s : State) (r : RefuseReason) :
    (s.refuse r).faults = s.faults := rfl
@[simp] theorem refuse_refusals (s : State) (r : RefuseReason) :
    (s.refuse r).refusals = s.refusals ++ [r] := rfl
@[simp] theorem refuse_program (s : State) (r : RefuseReason) :
    (s.refuse r).program = s.program := rfl
@[simp] theorem refuse_busIn (s : State) (r : RefuseReason) :
    (s.refuse r).busIn = s.busIn := rfl
@[simp] theorem refuse_turns (s : State) (r : RefuseReason) :
    (s.refuse r).turns = s.turns := rfl
@[simp] theorem refuse_draws (s : State) (r : RefuseReason) :
    (s.refuse r).draws = s.draws := rfl

/-! ## `storeCell` -/

@[simp] theorem storeCell_params (s : State) (k : Nat) (v : HalfWord) :
    (s.storeCell k v).params = s.params := by
  unfold State.storeCell; split <;> rfl
@[simp] theorem storeCell_eprs (s : State) (k : Nat) (v : HalfWord) :
    (s.storeCell k v).eprs = s.eprs := by
  unfold State.storeCell; split <;> rfl
@[simp] theorem storeCell_istr (s : State) (k : Nat) (v : HalfWord) :
    (s.storeCell k v).istr = s.istr := by
  unfold State.storeCell; split <;> rfl
@[simp] theorem storeCell_cntr (s : State) (k : Nat) (v : HalfWord) :
    (s.storeCell k v).cntr = s.cntr := by
  unfold State.storeCell; split <;> rfl
@[simp] theorem storeCell_daddr (s : State) (k : Nat) (v : HalfWord) :
    (s.storeCell k v).daddr = s.daddr := by
  unfold State.storeCell; split <;> rfl
@[simp] theorem storeCell_btable (s : State) (k : Nat) (v : HalfWord) :
    (s.storeCell k v).btable = s.btable := by
  unfold State.storeCell; split <;> rfl
@[simp] theorem storeCell_bcdr (s : State) (k : Nat) (v : HalfWord) :
    (s.storeCell k v).bcdr = s.bcdr := by
  unfold State.storeCell; split <;> rfl
@[simp] theorem storeCell_slots (s : State) (k : Nat) (v : HalfWord) :
    (s.storeCell k v).slots = s.slots := by
  unfold State.storeCell; split <;> rfl
@[simp] theorem storeCell_stage (s : State) (k : Nat) (v : HalfWord) :
    (s.storeCell k v).stage = s.stage := by
  unfold State.storeCell; split <;> rfl
@[simp] theorem storeCell_remaining (s : State) (k : Nat) (v : HalfWord) :
    (s.storeCell k v).remaining = s.remaining := by
  unfold State.storeCell; split <;> rfl
@[simp] theorem storeCell_cursor (s : State) (k : Nat) (v : HalfWord) :
    (s.storeCell k v).cursor = s.cursor := by
  unfold State.storeCell; split <;> rfl
@[simp] theorem storeCell_deferred (s : State) (k : Nat) (v : HalfWord) :
    (s.storeCell k v).deferred = s.deferred := by
  unfold State.storeCell; split <;> rfl
@[simp] theorem storeCell_devStatus (s : State) (k : Nat) (v : HalfWord) :
    (s.storeCell k v).devStatus = s.devStatus := by
  unfold State.storeCell; split <;> rfl
@[simp] theorem storeCell_preSuspend (s : State) (k : Nat) (v : HalfWord) :
    (s.storeCell k v).preSuspend = s.preSuspend := by
  unfold State.storeCell; split <;> rfl
@[simp] theorem storeCell_initialized (s : State) (k : Nat) (v : HalfWord) :
    (s.storeCell k v).initialized = s.initialized := by
  unfold State.storeCell; split <;> rfl
@[simp] theorem storeCell_core (s : State) (k : Nat) (v : HalfWord) :
    (s.storeCell k v).core = s.core := by
  unfold State.storeCell; split <;> rfl
@[simp] theorem storeCell_app (s : State) (k : Nat) (v : HalfWord) :
    (s.storeCell k v).app = s.app := by
  unfold State.storeCell; split <;> rfl
@[simp] theorem storeCell_clkOn (s : State) (k : Nat) (v : HalfWord) :
    (s.storeCell k v).clkOn = s.clkOn := by
  unfold State.storeCell; split <;> rfl
@[simp] theorem storeCell_vdetOn (s : State) (k : Nat) (v : HalfWord) :
    (s.storeCell k v).vdetOn = s.vdetOn := by
  unfold State.storeCell; split <;> rfl
@[simp] theorem storeCell_irqEnabled (s : State) (k : Nat) (v : HalfWord) :
    (s.storeCell k v).irqEnabled = s.irqEnabled := by
  unfold State.storeCell; split <;> rfl
@[simp] theorem storeCell_pinsAf (s : State) (k : Nat) (v : HalfWord) :
    (s.storeCell k v).pinsAf = s.pinsAf := by
  unfold State.storeCell; split <;> rfl
@[simp] theorem storeCell_trace (s : State) (k : Nat) (v : HalfWord) :
    (s.storeCell k v).trace = s.trace := by
  unfold State.storeCell; split <;> rfl
@[simp] theorem storeCell_faults (s : State) (k : Nat) (v : HalfWord) :
    (s.storeCell k v).faults = s.faults := by
  unfold State.storeCell; split <;> rfl
@[simp] theorem storeCell_refusals (s : State) (k : Nat) (v : HalfWord) :
    (s.storeCell k v).refusals = s.refusals := by
  unfold State.storeCell; split <;> rfl
@[simp] theorem storeCell_program (s : State) (k : Nat) (v : HalfWord) :
    (s.storeCell k v).program = s.program := by
  unfold State.storeCell; split <;> rfl
@[simp] theorem storeCell_busIn (s : State) (k : Nat) (v : HalfWord) :
    (s.storeCell k v).busIn = s.busIn := by
  unfold State.storeCell; split <;> rfl
@[simp] theorem storeCell_turns (s : State) (k : Nat) (v : HalfWord) :
    (s.storeCell k v).turns = s.turns := by
  unfold State.storeCell; split <;> rfl
@[simp] theorem storeCell_draws (s : State) (k : Nat) (v : HalfWord) :
    (s.storeCell k v).draws = s.draws := by
  unfold State.storeCell; split <;> rfl

/-! ## `setEprSnap` -/

@[simp] theorem setEprSnap_params (s : State) (w : HalfWord) :
    (s.setEprSnap w).params = s.params := by
  unfold State.setEprSnap; split <;> rfl
@[simp] theorem setEprSnap_eprs (s : State) (w : HalfWord) :
    (s.setEprSnap w).eprs = s.eprs := by
  unfold State.setEprSnap; split <;> rfl
@[simp] theorem setEprSnap_istr (s : State) (w : HalfWord) :
    (s.setEprSnap w).istr = s.istr := by
  unfold State.setEprSnap; split <;> rfl
@[simp] theorem setEprSnap_cntr (s : State) (w : HalfWord) :
    (s.setEprSnap w).cntr = s.cntr := by
  unfold State.setEprSnap; split <;> rfl
@[simp] theorem setEprSnap_daddr (s : State) (w : HalfWord) :
    (s.setEprSnap w).daddr = s.daddr := by
  unfold State.setEprSnap; split <;> rfl
@[simp] theorem setEprSnap_btable (s : State) (w : HalfWord) :
    (s.setEprSnap w).btable = s.btable := by
  unfold State.setEprSnap; split <;> rfl
@[simp] theorem setEprSnap_bcdr (s : State) (w : HalfWord) :
    (s.setEprSnap w).bcdr = s.bcdr := by
  unfold State.setEprSnap; split <;> rfl
@[simp] theorem setEprSnap_slots (s : State) (w : HalfWord) :
    (s.setEprSnap w).slots = s.slots := by
  unfold State.setEprSnap; split <;> rfl
@[simp] theorem setEprSnap_stage (s : State) (w : HalfWord) :
    (s.setEprSnap w).stage = s.stage := by
  unfold State.setEprSnap; split <;> rfl
@[simp] theorem setEprSnap_remaining (s : State) (w : HalfWord) :
    (s.setEprSnap w).remaining = s.remaining := by
  unfold State.setEprSnap; split <;> rfl
@[simp] theorem setEprSnap_cursor (s : State) (w : HalfWord) :
    (s.setEprSnap w).cursor = s.cursor := by
  unfold State.setEprSnap; split <;> rfl
@[simp] theorem setEprSnap_deferred (s : State) (w : HalfWord) :
    (s.setEprSnap w).deferred = s.deferred := by
  unfold State.setEprSnap; split <;> rfl
@[simp] theorem setEprSnap_devStatus (s : State) (w : HalfWord) :
    (s.setEprSnap w).devStatus = s.devStatus := by
  unfold State.setEprSnap; split <;> rfl
@[simp] theorem setEprSnap_preSuspend (s : State) (w : HalfWord) :
    (s.setEprSnap w).preSuspend = s.preSuspend := by
  unfold State.setEprSnap; split <;> rfl
@[simp] theorem setEprSnap_initialized (s : State) (w : HalfWord) :
    (s.setEprSnap w).initialized = s.initialized := by
  unfold State.setEprSnap; split <;> rfl
@[simp] theorem setEprSnap_app (s : State) (w : HalfWord) :
    (s.setEprSnap w).app = s.app := by
  unfold State.setEprSnap; split <;> rfl
@[simp] theorem setEprSnap_clkOn (s : State) (w : HalfWord) :
    (s.setEprSnap w).clkOn = s.clkOn := by
  unfold State.setEprSnap; split <;> rfl
@[simp] theorem setEprSnap_vdetOn (s : State) (w : HalfWord) :
    (s.setEprSnap w).vdetOn = s.vdetOn := by
  unfold State.setEprSnap; split <;> rfl
@[simp] theorem setEprSnap_irqEnabled (s : State) (w : HalfWord) :
    (s.setEprSnap w).irqEnabled = s.irqEnabled := by
  unfold State.setEprSnap; split <;> rfl
@[simp] theorem setEprSnap_pinsAf (s : State) (w : HalfWord) :
    (s.setEprSnap w).pinsAf = s.pinsAf := by
  unfold State.setEprSnap; split <;> rfl
@[simp] theorem setEprSnap_mem (s : State) (w : HalfWord) :
    (s.setEprSnap w).mem = s.mem := by
  unfold State.setEprSnap; split <;> rfl
@[simp] theorem setEprSnap_trace (s : State) (w : HalfWord) :
    (s.setEprSnap w).trace = s.trace := by
  unfold State.setEprSnap; split <;> rfl
@[simp] theorem setEprSnap_faults (s : State) (w : HalfWord) :
    (s.setEprSnap w).faults = s.faults := by
  unfold State.setEprSnap; split <;> rfl
@[simp] theorem setEprSnap_refusals (s : State) (w : HalfWord) :
    (s.setEprSnap w).refusals = s.refusals := by
  unfold State.setEprSnap; split <;> rfl
@[simp] theorem setEprSnap_program (s : State) (w : HalfWord) :
    (s.setEprSnap w).program = s.program := by
  unfold State.setEprSnap; split <;> rfl
@[simp] theorem setEprSnap_busIn (s : State) (w : HalfWord) :
    (s.setEprSnap w).busIn = s.busIn := by
  unfold State.setEprSnap; split <;> rfl
@[simp] theorem setEprSnap_turns (s : State) (w : HalfWord) :
    (s.setEprSnap w).turns = s.turns := by
  unfold State.setEprSnap; split <;> rfl
@[simp] theorem setEprSnap_draws (s : State) (w : HalfWord) :
    (s.setEprSnap w).draws = s.draws := by
  unfold State.setEprSnap; split <;> rfl

/-! ## `setRows` -/

@[simp] theorem setRows_params (s : State) (rest : List Instr) (had : List Answer) :
    (s.setRows rest had).params = s.params := by
  unfold State.setRows; split <;> rfl
@[simp] theorem setRows_eprs (s : State) (rest : List Instr) (had : List Answer) :
    (s.setRows rest had).eprs = s.eprs := by
  unfold State.setRows; split <;> rfl
@[simp] theorem setRows_istr (s : State) (rest : List Instr) (had : List Answer) :
    (s.setRows rest had).istr = s.istr := by
  unfold State.setRows; split <;> rfl
@[simp] theorem setRows_cntr (s : State) (rest : List Instr) (had : List Answer) :
    (s.setRows rest had).cntr = s.cntr := by
  unfold State.setRows; split <;> rfl
@[simp] theorem setRows_daddr (s : State) (rest : List Instr) (had : List Answer) :
    (s.setRows rest had).daddr = s.daddr := by
  unfold State.setRows; split <;> rfl
@[simp] theorem setRows_btable (s : State) (rest : List Instr) (had : List Answer) :
    (s.setRows rest had).btable = s.btable := by
  unfold State.setRows; split <;> rfl
@[simp] theorem setRows_bcdr (s : State) (rest : List Instr) (had : List Answer) :
    (s.setRows rest had).bcdr = s.bcdr := by
  unfold State.setRows; split <;> rfl
@[simp] theorem setRows_slots (s : State) (rest : List Instr) (had : List Answer) :
    (s.setRows rest had).slots = s.slots := by
  unfold State.setRows; split <;> rfl
@[simp] theorem setRows_stage (s : State) (rest : List Instr) (had : List Answer) :
    (s.setRows rest had).stage = s.stage := by
  unfold State.setRows; split <;> rfl
@[simp] theorem setRows_remaining (s : State) (rest : List Instr) (had : List Answer) :
    (s.setRows rest had).remaining = s.remaining := by
  unfold State.setRows; split <;> rfl
@[simp] theorem setRows_cursor (s : State) (rest : List Instr) (had : List Answer) :
    (s.setRows rest had).cursor = s.cursor := by
  unfold State.setRows; split <;> rfl
@[simp] theorem setRows_deferred (s : State) (rest : List Instr) (had : List Answer) :
    (s.setRows rest had).deferred = s.deferred := by
  unfold State.setRows; split <;> rfl
@[simp] theorem setRows_devStatus (s : State) (rest : List Instr) (had : List Answer) :
    (s.setRows rest had).devStatus = s.devStatus := by
  unfold State.setRows; split <;> rfl
@[simp] theorem setRows_preSuspend (s : State) (rest : List Instr) (had : List Answer) :
    (s.setRows rest had).preSuspend = s.preSuspend := by
  unfold State.setRows; split <;> rfl
@[simp] theorem setRows_initialized (s : State) (rest : List Instr) (had : List Answer) :
    (s.setRows rest had).initialized = s.initialized := by
  unfold State.setRows; split <;> rfl
@[simp] theorem setRows_app (s : State) (rest : List Instr) (had : List Answer) :
    (s.setRows rest had).app = s.app := by
  unfold State.setRows; split <;> rfl
@[simp] theorem setRows_clkOn (s : State) (rest : List Instr) (had : List Answer) :
    (s.setRows rest had).clkOn = s.clkOn := by
  unfold State.setRows; split <;> rfl
@[simp] theorem setRows_vdetOn (s : State) (rest : List Instr) (had : List Answer) :
    (s.setRows rest had).vdetOn = s.vdetOn := by
  unfold State.setRows; split <;> rfl
@[simp] theorem setRows_irqEnabled (s : State) (rest : List Instr) (had : List Answer) :
    (s.setRows rest had).irqEnabled = s.irqEnabled := by
  unfold State.setRows; split <;> rfl
@[simp] theorem setRows_pinsAf (s : State) (rest : List Instr) (had : List Answer) :
    (s.setRows rest had).pinsAf = s.pinsAf := by
  unfold State.setRows; split <;> rfl
@[simp] theorem setRows_mem (s : State) (rest : List Instr) (had : List Answer) :
    (s.setRows rest had).mem = s.mem := by
  unfold State.setRows; split <;> rfl
@[simp] theorem setRows_trace (s : State) (rest : List Instr) (had : List Answer) :
    (s.setRows rest had).trace = s.trace := by
  unfold State.setRows; split <;> rfl
@[simp] theorem setRows_faults (s : State) (rest : List Instr) (had : List Answer) :
    (s.setRows rest had).faults = s.faults := by
  unfold State.setRows; split <;> rfl
@[simp] theorem setRows_refusals (s : State) (rest : List Instr) (had : List Answer) :
    (s.setRows rest had).refusals = s.refusals := by
  unfold State.setRows; split <;> rfl
@[simp] theorem setRows_program (s : State) (rest : List Instr) (had : List Answer) :
    (s.setRows rest had).program = s.program := by
  unfold State.setRows; split <;> rfl
@[simp] theorem setRows_busIn (s : State) (rest : List Instr) (had : List Answer) :
    (s.setRows rest had).busIn = s.busIn := by
  unfold State.setRows; split <;> rfl
@[simp] theorem setRows_turns (s : State) (rest : List Instr) (had : List Answer) :
    (s.setRows rest had).turns = s.turns := by
  unfold State.setRows; split <;> rfl
@[simp] theorem setRows_draws (s : State) (rest : List Instr) (had : List Answer) :
    (s.setRows rest had).draws = s.draws := by
  unfold State.setRows; split <;> rfl

/-! ## `takeInterrupt` -/

@[simp] theorem takeInterrupt_params (s : State) : (takeInterrupt s).params = s.params := rfl
@[simp] theorem takeInterrupt_eprs (s : State) : (takeInterrupt s).eprs = s.eprs := rfl
@[simp] theorem takeInterrupt_cntr (s : State) : (takeInterrupt s).cntr = s.cntr := rfl
@[simp] theorem takeInterrupt_daddr (s : State) : (takeInterrupt s).daddr = s.daddr := rfl
@[simp] theorem takeInterrupt_btable (s : State) : (takeInterrupt s).btable = s.btable := rfl
@[simp] theorem takeInterrupt_bcdr (s : State) : (takeInterrupt s).bcdr = s.bcdr := rfl
@[simp] theorem takeInterrupt_slots (s : State) : (takeInterrupt s).slots = s.slots := rfl
@[simp] theorem takeInterrupt_stage (s : State) : (takeInterrupt s).stage = s.stage := rfl
@[simp] theorem takeInterrupt_remaining (s : State) : (takeInterrupt s).remaining = s.remaining := rfl
@[simp] theorem takeInterrupt_cursor (s : State) : (takeInterrupt s).cursor = s.cursor := rfl
@[simp] theorem takeInterrupt_deferred (s : State) : (takeInterrupt s).deferred = s.deferred := rfl
@[simp] theorem takeInterrupt_devStatus (s : State) : (takeInterrupt s).devStatus = s.devStatus := rfl
@[simp] theorem takeInterrupt_preSuspend (s : State) : (takeInterrupt s).preSuspend = s.preSuspend := rfl
@[simp] theorem takeInterrupt_initialized (s : State) : (takeInterrupt s).initialized = s.initialized := rfl
@[simp] theorem takeInterrupt_app (s : State) : (takeInterrupt s).app = s.app := rfl
@[simp] theorem takeInterrupt_clkOn (s : State) : (takeInterrupt s).clkOn = s.clkOn := rfl
@[simp] theorem takeInterrupt_vdetOn (s : State) : (takeInterrupt s).vdetOn = s.vdetOn := rfl
@[simp] theorem takeInterrupt_irqEnabled (s : State) : (takeInterrupt s).irqEnabled = s.irqEnabled := rfl
@[simp] theorem takeInterrupt_pinsAf (s : State) : (takeInterrupt s).pinsAf = s.pinsAf := rfl
@[simp] theorem takeInterrupt_mem (s : State) : (takeInterrupt s).mem = s.mem := rfl
@[simp] theorem takeInterrupt_trace (s : State) : (takeInterrupt s).trace = s.trace := rfl
@[simp] theorem takeInterrupt_faults (s : State) : (takeInterrupt s).faults = s.faults := rfl
@[simp] theorem takeInterrupt_refusals (s : State) : (takeInterrupt s).refusals = s.refusals := rfl
@[simp] theorem takeInterrupt_program (s : State) : (takeInterrupt s).program = s.program := rfl
@[simp] theorem takeInterrupt_busIn (s : State) : (takeInterrupt s).busIn = s.busIn := rfl
@[simp] theorem takeInterrupt_turns (s : State) : (takeInterrupt s).turns = s.turns := rfl

/-! ## `dispatchExit` -/

@[simp] theorem dispatchExit_params (s : State) : (dispatchExit s).params = s.params := rfl
@[simp] theorem dispatchExit_eprs (s : State) : (dispatchExit s).eprs = s.eprs := rfl
@[simp] theorem dispatchExit_istr (s : State) : (dispatchExit s).istr = s.istr := rfl
@[simp] theorem dispatchExit_cntr (s : State) : (dispatchExit s).cntr = s.cntr := rfl
@[simp] theorem dispatchExit_daddr (s : State) : (dispatchExit s).daddr = s.daddr := rfl
@[simp] theorem dispatchExit_btable (s : State) : (dispatchExit s).btable = s.btable := rfl
@[simp] theorem dispatchExit_bcdr (s : State) : (dispatchExit s).bcdr = s.bcdr := rfl
@[simp] theorem dispatchExit_slots (s : State) : (dispatchExit s).slots = s.slots := rfl
@[simp] theorem dispatchExit_stage (s : State) : (dispatchExit s).stage = s.stage := rfl
@[simp] theorem dispatchExit_remaining (s : State) : (dispatchExit s).remaining = s.remaining := rfl
@[simp] theorem dispatchExit_cursor (s : State) : (dispatchExit s).cursor = s.cursor := rfl
@[simp] theorem dispatchExit_deferred (s : State) : (dispatchExit s).deferred = s.deferred := rfl
@[simp] theorem dispatchExit_devStatus (s : State) : (dispatchExit s).devStatus = s.devStatus := rfl
@[simp] theorem dispatchExit_preSuspend (s : State) : (dispatchExit s).preSuspend = s.preSuspend := rfl
@[simp] theorem dispatchExit_initialized (s : State) : (dispatchExit s).initialized = s.initialized := rfl
@[simp] theorem dispatchExit_app (s : State) : (dispatchExit s).app = s.app := rfl
@[simp] theorem dispatchExit_clkOn (s : State) : (dispatchExit s).clkOn = s.clkOn := rfl
@[simp] theorem dispatchExit_vdetOn (s : State) : (dispatchExit s).vdetOn = s.vdetOn := rfl
@[simp] theorem dispatchExit_irqEnabled (s : State) : (dispatchExit s).irqEnabled = s.irqEnabled := rfl
@[simp] theorem dispatchExit_pinsAf (s : State) : (dispatchExit s).pinsAf = s.pinsAf := rfl
@[simp] theorem dispatchExit_mem (s : State) : (dispatchExit s).mem = s.mem := rfl
@[simp] theorem dispatchExit_trace (s : State) : (dispatchExit s).trace = s.trace := rfl
@[simp] theorem dispatchExit_faults (s : State) : (dispatchExit s).faults = s.faults := rfl
@[simp] theorem dispatchExit_refusals (s : State) : (dispatchExit s).refusals = s.refusals := rfl
@[simp] theorem dispatchExit_busIn (s : State) : (dispatchExit s).busIn = s.busIn := rfl
@[simp] theorem dispatchExit_turns (s : State) : (dispatchExit s).turns = s.turns := rfl
@[simp] theorem dispatchExit_draws (s : State) : (dispatchExit s).draws = s.draws := rfl
@[simp] theorem dispatchExit_core (s : State) : (dispatchExit s).core = .idle := rfl

/-! ## Derived reads -/

@[simp] theorem epr_setEpr (s : State) (n m : EpNum) (w : HalfWord) :
    (s.setEpr n w).epr m = if n = m then w else s.epr m := by
  by_cases h : n = m
  · subst h; simp [State.epr, State.setEpr]
  · have h' : n.val ≠ m.val := fun e => h (Fin.ext e)
    simp [State.epr, State.setEpr, h, h']

@[simp] theorem slot_setSlot (s : State) (n m : EpNum) (x : Slot) :
    (s.setSlot n x).slot m = if n = m then x else s.slot m := by
  by_cases h : n = m
  · subst h; simp [State.slot, State.setSlot]
  · have h' : n.val ≠ m.val := fun e => h (Fin.ext e)
    simp [State.slot, State.setSlot, h, h']

theorem state_epr_ext {v w : Vector HalfWord 8} (h : ∀ n : EpNum, v[n] = w[n]) : v = w := by
  refine Vector.ext fun i hi => ?_
  exact h ⟨i, hi⟩

/-- A write of the value a register holds changes nothing. -/
theorem setEpr_self (s : State) (n : EpNum) : s.setEpr n (s.epr n) = s := by
  unfold State.setEpr State.epr
  simp

end Sys2Proof.Machine
end

