-- ==== Sys2Proof/Laws/Epr.lean ====
section
/-! SUPPORT. Endpoint registers: fields and register value determine each other, and the field codes
determine their names. -/

namespace Sys2Proof.Machine

/-- Each bit of the register value of given fields (R101). -/
theorem getLsbD_eprWord (f : EprFields) (x : Nat) : (eprWord f).getLsbD x =
    if x < 4 then f.ea.getLsbD x else
    if x - 4 < 2 then f.statTx.getLsbD (x - 4) else
    if x - 4 - 2 < 1 then (BitVec.ofBool f.dtogTx).getLsbD (x - 4 - 2) else
    if x - 4 - 2 - 1 < 1 then (BitVec.ofBool f.ctrTx).getLsbD (x - 4 - 2 - 1) else
    if x - 4 - 2 - 1 - 1 < 1 then (BitVec.ofBool f.epKind).getLsbD (x - 4 - 2 - 1 - 1) else
    if x - 4 - 2 - 1 - 1 - 1 < 2 then f.epType.getLsbD (x - 4 - 2 - 1 - 1 - 1) else
    if x - 4 - 2 - 1 - 1 - 1 - 2 < 1 then (BitVec.ofBool f.setup).getLsbD (x - 4 - 2 - 1 - 1 - 1 - 2) else
    if x - 4 - 2 - 1 - 1 - 1 - 2 - 1 < 2 then f.statRx.getLsbD (x - 4 - 2 - 1 - 1 - 1 - 2 - 1) else
    if x - 4 - 2 - 1 - 1 - 1 - 2 - 1 - 2 < 1 then
      (BitVec.ofBool f.dtogRx).getLsbD (x - 4 - 2 - 1 - 1 - 1 - 2 - 1 - 2) else
      (BitVec.ofBool f.ctrRx).getLsbD (x - 4 - 2 - 1 - 1 - 1 - 2 - 1 - 2 - 1) := by
  simp only [eprWord, BitVec.getLsbD_append]

/-- The fields of the register value of given fields are those fields (R101). -/
@[simp] theorem eprFields_eprWord (f : EprFields) : eprFields (eprWord f) = f := by
  obtain ⟨a, b, c, d, e, g, h, i, j, k⟩ := f
  simp only [eprFields, EprFields.mk.injEq]
  refine ⟨?_, ?_, ?_, ?_, ?_, ?_, ?_, ?_, ?_, ?_⟩
  case refine_3 | refine_5 | refine_9 | refine_10 =>
    ext x hx
    simp only [BitVec.getElem_extractLsb', getLsbD_eprWord]
    interval_cases x <;> simp
  all_goals simp only [getLsbD_eprWord]; simp

/-- A register value is the value of its fields (R101). -/
@[simp] theorem eprWord_eprFields (w : HalfWord) : eprWord (eprFields w) = w := by
  simp only [eprFields, eprWord]
  ext x hx
  simp only [BitVec.getElem_append, BitVec.getElem_extractLsb']
  interval_cases x <;> simp [BitVec.getLsbD_eq_getElem, BitVec.getElem_ofBool]

@[simp] theorem stat_ofCode_code (v : Stat) : Stat.ofCode v.code = v := by cases v <;> rfl

@[simp] theorem stat_code_ofCode (b : BitVec 2) : (Stat.ofCode b).code = b := by
  revert b; decide

@[simp] theorem epType_ofCode_code (t : EpType) : EpType.ofCode t.code = t := by cases t <;> rfl

@[simp] theorem epType_code_ofCode (b : BitVec 2) : (EpType.ofCode b).code = b := by
  revert b; decide

@[simp] theorem bdtField_ofCode_code (f : BdtField) : BdtField.ofCode f.code = f := by cases f <;> rfl

@[simp] theorem bdtField_code_ofCode (b : BitVec 2) : (BdtField.ofCode b).code = b := by
  revert b; decide

@[simp] theorem eprF_withEpr (s : State) (n m : EpNum) (g : EprFields → EprFields) :
    (s.withEpr n g).eprF m = if n = m then g (s.eprF n) else s.eprF m := by
  unfold State.withEpr State.eprF
  rw [epr_setEpr]
  split
  · simp
  · rfl

theorem hwEpr_eq_withEpr (s : State) (n : EpNum) (g : EprFields → EprFields) :
    s.hwEpr n g = s.withEpr n g := rfl

end Sys2Proof.Machine
end

