-- ==== Sys2Proof/Laws/Prog.lean ====
section
/-! SUPPORT. Operations as statements: what sequencing does to an undisturbed run, how a run is made of
single accesses, and the lemma by which an invariant of every statement is one of every step. -/

namespace Sys2Proof.Machine

/-! ## Outcomes -/

@[simp] theorem bind_ok {α β : Type} (a : α) (s : State) (f : α → State → Res β) :
    (Res.ok a s).bind f = f a s := rfl

@[simp] theorem bind_stop {α β : Type} (s : State) (f : α → State → Res β) :
    (Res.stop s : Res α).bind f = .stop s := rfl

@[simp] theorem andThen_ok {β : Type} (u : Unit) (s : State) (f : State → Res β) :
    (Res.ok u s).andThen f = f s := rfl

@[simp] theorem andThen_stop {β : Type} (s : State) (f : State → Res β) :
    (Res.stop s : Res Unit).andThen f = .stop s := rfl

@[simp] theorem toOutcome_ok {α : Type} (a : α) (s : State) : (Res.ok a s).toOutcome = .next s := rfl

@[simp] theorem toOutcome_stop {α : Type} (s : State) : (Res.stop s : Res α).toOutcome = .next s := rfl

@[simp] theorem state_ok {α : Type} (a : α) (s : State) : (Res.ok a s).state = s := rfl

@[simp] theorem state_stop {α : Type} (s : State) : (Res.stop s : Res α).state = s := rfl

/-! ## Undisturbed runs -/

@[simp] theorem run_ret {α : Type} (a : α) (s : State) : (Prog.ret a).run s = .ok a s := rfl

@[simp] theorem run_reading (f : State → HalfWord) (s : State) : (reading f).run s = .ok (f s) s := rfl

@[simp] theorem run_writing (f : State → State) (s : State) : (writing f).run s = .ok () (f s) := rfl

@[simp] theorem run_updating (f : State → State) (s : State) : (updating f).run s = .ok () (f s) := rfl

@[simp] theorem run_look {α : Type} (k : RoleView → Prog α) (s : State) :
    (Prog.look k).run s = (k s.roleView).run s := rfl

/-- A sequence runs the first operation, then, unless it ended the whole, the second. -/
@[simp] theorem run_bind {α β : Type} (p : Prog α) (q : α → Prog β) (s : State) :
    (p.bind q).run s = (p.run s).bind fun a t => (q a).run t := by
  induction p generalizing s with
  | ret a => rfl
  | stopIf c k ih =>
    simp only [Prog.bind, Prog.run]
    split
    · rfl
    · exact ih s
  | read f k ih => exact ih _ _
  | write f k ih => exact ih _
  | look k ih => exact ih _ _
  | update f k ih => exact ih _

@[simp] theorem run_andThen {β : Type} (p : Prog Unit) (q : Prog β) (s : State) :
    (p.andThen q).run s = (p.run s).andThen fun t => q.run t := by
  unfold Prog.andThen
  rw [run_bind]
  cases p.run s <;> rfl

theorem run_raiseIf_none {ag : Agent} {rule : Nat} {c : State → Option FaultKind} {s : State}
    (h : c s = none) : (raiseIf ag rule c).run s = .ok () s := by
  simp [raiseIf, Prog.run, h]

theorem run_raiseIf_some {ag : Agent} {rule : Nat} {c : State → Option FaultKind} {s : State}
    {k : FaultKind} (h : c s = some k) : (raiseIf ag rule c).run s = .stop (s.raise k ag rule) := by
  simp [raiseIf, Prog.run, h]

theorem run_refuseIf_none {c : State → Option RefuseReason} {s : State} (h : c s = none) :
    (refuseIf c).run s = .ok () s := by
  simp [refuseIf, Prog.run, h]

theorem run_refuseIf_some {c : State → Option RefuseReason} {s : State} {r : RefuseReason}
    (h : c s = some r) : (refuseIf c).run s = .stop (s.refuse r) := by
  simp [refuseIf, Prog.run, h]

/-- An admitted command is its operation. -/
theorem run_command_none {c : State → Option RefuseReason} {p : Prog Unit} {s : State} (h : c s = none) :
    (command c p).run s = p.run s := by
  simp [command, run_refuseIf_none h]

/-- A refused command has its reason recorded and no other effect (R730). -/
theorem run_command_some {c : State → Option RefuseReason} {p : Prog Unit} {s : State}
    {r : RefuseReason} (h : c s = some r) : (command c p).run s = .stop (s.refuse r) := by
  simp [command, run_refuseIf_some h]

/-! ## A run, access by access -/

/-- The answers fit the operation: they are those of its own statements, in order. -/
def Prog.fits {α : Type} (p : Prog α) (had : List Answer) : Bool :=
  match p, had with
  | _, [] => true
  | .ret _, _ :: _ => false
  | .stopIf _ k, a :: as => k.fits (a :: as)
  | .read _ k, .read w :: as => (k w).fits as
  | .read _ _, _ :: _ => false
  | .write _ k, .wrote :: as => k.fits as
  | .write _ _, _ :: _ => false
  | .look k, .role v :: as => (k v).fits as
  | .look _, _ :: _ => false
  | .update _ k, a :: as => k.fits (a :: as)

@[simp] theorem resume_nil {α : Type} (p : Prog α) : p.resume [] = p := by cases p <;> rfl

@[simp] theorem fits_nil {α : Type} (p : Prog α) : p.fits [] = true := by cases p <;> rfl

/-- An advance that moves answers at least one statement. -/
theorem advance_ne_nil {α : Type} {p : Prog α} {s t : State} {new : List Answer}
    (h : p.advance s = .moved new t) : new ≠ [] := by
  induction p generalizing s new with
  | ret a => cases h
  | stopIf c k ih =>
    simp only [Prog.advance] at h
    split at h
    · cases h
    · exact ih h
  | read f k _ => cases h; simp
  | write f k _ => cases h; simp
  | look k ih =>
    simp only [Prog.advance] at h
    cases hk : (k s.roleView).advance s with
    | ended r => rw [hk] at h; cases h
    | moved n u => rw [hk] at h; cases h; simp
  | update f k ih => exact ih h

/-- One access and then the undisturbed rest is the undisturbed run. -/
theorem run_of_advance {α : Type} (p : Prog α) (s : State) :
    (∀ r, p.advance s = .ended r → p.run s = r) ∧
    (∀ new t, p.advance s = .moved new t → p.fits new = true ∧ p.run s = (p.resume new).run t) := by
  induction p generalizing s with
  | ret a => exact ⟨fun r h => by cases h; rfl, fun _ _ h => by cases h⟩
  | stopIf c k ih =>
    simp only [Prog.advance, Prog.run]
    split
    · exact ⟨fun r h => by cases h; rfl, fun _ _ h => by cases h⟩
    · refine ⟨(ih s).1, fun new t h => ?_⟩
      obtain ⟨hf, hr⟩ := (ih s).2 new t h
      cases new with
      | nil => exact absurd rfl (advance_ne_nil h)
      | cons a as => exact ⟨hf, hr⟩
  | read f k _ =>
    refine ⟨fun _ h => (by cases h), fun new t h => ?_⟩
    cases h
    exact ⟨by simp [Prog.fits], by simp [Prog.run, Prog.resume]⟩
  | write f k _ =>
    refine ⟨fun _ h => (by cases h), fun new t h => ?_⟩
    cases h
    exact ⟨by simp [Prog.fits], by simp [Prog.run, Prog.resume]⟩
  | look k ih =>
    simp only [Prog.advance, Prog.run]
    cases hk : (k s.roleView).advance s with
    | ended r => exact ⟨fun r' h => by cases h; exact (ih _ s).1 r hk, fun _ _ h => by cases h⟩
    | moved n u =>
      refine ⟨fun _ h => (by cases h), fun new t h => ?_⟩
      cases h
      exact (ih _ s).2 n u hk
  | update f k ih =>
    refine ⟨(ih _).1, fun new t h => ?_⟩
    obtain ⟨hf, hr⟩ := (ih _).2 new t h
    cases new with
    | nil => exact absurd rfl (advance_ne_nil h)
    | cons a as => exact ⟨hf, hr⟩

/-- The statements after more answers are those after the later ones of what the earlier ones left. -/
theorem resume_append {α : Type} {p : Prog α} {had new : List Answer} (h : p.fits had = true) :
    p.resume (had ++ new) = (p.resume had).resume new := by
  induction p generalizing had with
  | ret a =>
    cases had with
    | nil => simp
    | cons b bs => cases h
  | stopIf c k ih =>
    cases had with
    | nil => simp
    | cons b bs => exact ih h
  | read f k ih =>
    cases had with
    | nil => simp
    | cons b bs => cases b with
      | read w => exact ih w h
      | wrote => cases h
      | role v => cases h
  | write f k ih =>
    cases had with
    | nil => simp
    | cons b bs => cases b with
      | read w => cases h
      | wrote => exact ih h
      | role v => cases h
  | look k ih =>
    cases had with
    | nil => simp
    | cons b bs => cases b with
      | read w => cases h
      | wrote => cases h
      | role v => exact ih v h
  | update f k ih =>
    cases had with
    | nil => simp
    | cons b bs => exact ih h

theorem fits_append {α : Type} {p : Prog α} {had new : List Answer} (h : p.fits had = true)
    (h' : (p.resume had).fits new = true) : p.fits (had ++ new) = true := by
  induction p generalizing had with
  | ret a =>
    cases had with
    | nil => simpa using h'
    | cons b bs => cases h
  | stopIf c k ih =>
    cases had with
    | nil => simpa using h'
    | cons b bs => exact ih h h'
  | read f k ih =>
    cases had with
    | nil => simpa using h'
    | cons b bs => cases b with
      | read w => exact ih w h h'
      | wrote => cases h
      | role v => cases h
  | write f k ih =>
    cases had with
    | nil => simpa using h'
    | cons b bs => cases b with
      | read w => cases h
      | wrote => exact ih h h'
      | role v => cases h
  | look k ih =>
    cases had with
    | nil => simpa using h'
    | cons b bs => cases b with
      | read w => cases h
      | wrote => cases h
      | role v => exact ih v h h'
  | update f k ih =>
    cases had with
    | nil => simpa using h'
    | cons b bs => exact ih h h'

/-! ## An operation ends (R717) -/

/-- `q` is what remains of `p` after one access. -/
def Prog.After {α : Type} (q p : Prog α) : Prop := ∃ s new t, p.advance s = .moved new t ∧ q = p.resume new

/-- Every operation comes to its end, whatever its accesses are answered. -/
theorem acc_after {α : Type} (p : Prog α) : Acc Prog.After p := by
  induction p with
  | ret a => exact ⟨_, fun q ⟨_, _, _, h, _⟩ => by cases h⟩
  | stopIf c k ih =>
    refine ⟨_, fun q ⟨s, new, t, h, hq⟩ => ?_⟩
    simp only [Prog.advance] at h
    split at h
    · cases h
    · obtain ⟨b, bs, rfl⟩ := List.exists_cons_of_ne_nil (advance_ne_nil h)
      exact ih.inv ⟨s, _, t, h, hq⟩
  | read f k ih =>
    refine ⟨_, fun q ⟨s, new, t, h, hq⟩ => ?_⟩
    obtain ⟨rfl, -⟩ : [Answer.read (f s)] = new ∧ s = t := by simpa [Prog.advance] using h
    rw [hq]
    simpa [Prog.resume] using ih (f s)
  | write f k ih =>
    refine ⟨_, fun q ⟨s, new, t, h, hq⟩ => ?_⟩
    cases h
    rw [hq]
    simpa [Prog.resume] using ih
  | look k ih =>
    refine ⟨_, fun q ⟨s, new, t, h, hq⟩ => ?_⟩
    simp only [Prog.advance] at h
    cases hk : (k s.roleView).advance s with
    | ended r => rw [hk] at h; cases h
    | moved n u => rw [hk] at h; cases h; exact (ih _).inv ⟨s, n, _, hk, hq⟩
  | update f k ih =>
    refine ⟨_, fun q ⟨s, new, t, h, hq⟩ => ?_⟩
    obtain ⟨b, bs, rfl⟩ := List.exists_cons_of_ne_nil (advance_ne_nil h)
    exact ih.inv ⟨f s, _, t, h, hq⟩

/-! ## Invariants of every statement -/

/-- Every statement of the operation keeps `P`, whatever it is answered. -/
def Prog.Keeps {α : Type} (P : State → Prop) : Prog α → Prop
  | .ret _ => True
  | .stopIf c k => (∀ s t, P s → c s = some t → P t) ∧ k.Keeps P
  | .read _ k => ∀ w, (k w).Keeps P
  | .write f k => (∀ s, P s → P (f s)) ∧ k.Keeps P
  | .look k => ∀ v, (k v).Keeps P
  | .update f k => (∀ s, P s → P (f s)) ∧ k.Keeps P

theorem keeps_bind {α β : Type} {P : State → Prop} {p : Prog α} {q : α → Prog β} (hp : p.Keeps P)
    (hq : ∀ a, (q a).Keeps P) : (p.bind q).Keeps P := by
  induction p with
  | ret a => exact hq a
  | stopIf c k ih => exact ⟨hp.1, ih hp.2⟩
  | read f k ih => exact fun w => ih w (hp w)
  | write f k ih => exact ⟨hp.1, ih hp.2⟩
  | look k ih => exact fun v => ih v (hp v)
  | update f k ih => exact ⟨hp.1, ih hp.2⟩

theorem keeps_andThen {β : Type} {P : State → Prop} {p : Prog Unit} {q : Prog β} (hp : p.Keeps P)
    (hq : q.Keeps P) : (p.andThen q).Keeps P := keeps_bind hp fun _ => hq

theorem keeps_reading {P : State → Prop} (f : State → HalfWord) : (reading f).Keeps P := fun _ => trivial

theorem keeps_writing {P : State → Prop} {f : State → State} (h : ∀ s, P s → P (f s)) :
    (writing f).Keeps P := ⟨h, trivial⟩

theorem keeps_updating {P : State → Prop} {f : State → State} (h : ∀ s, P s → P (f s)) :
    (updating f).Keeps P := ⟨h, trivial⟩

theorem keeps_raiseIf {P : State → Prop} {ag : Agent} {rule : Nat} {c : State → Option FaultKind}
    (h : ∀ s k, P s → P (s.raise k ag rule)) : (raiseIf ag rule c).Keeps P := by
  refine ⟨fun s t hs ht => ?_, trivial⟩
  obtain ⟨k, -, rfl⟩ := Option.map_eq_some_iff.mp ht
  exact h s k hs

theorem keeps_refuseIf {P : State → Prop} {c : State → Option RefuseReason}
    (h : ∀ s r, P s → P (s.refuse r)) : (refuseIf c).Keeps P := by
  refine ⟨fun s t hs ht => ?_, trivial⟩
  obtain ⟨r, -, rfl⟩ := Option.map_eq_some_iff.mp ht
  exact h s r hs

theorem keeps_resume {α : Type} {P : State → Prop} {p : Prog α} (hp : p.Keeps P) (had : List Answer) :
    (p.resume had).Keeps P := by
  induction p generalizing had with
  | ret a => cases had <;> exact hp
  | stopIf c k ih =>
    cases had with
    | nil => simpa using hp
    | cons b bs => exact ih hp.2 _
  | read f k ih =>
    cases had with
    | nil => simpa using hp
    | cons b bs => cases b with
      | read w => exact ih w (hp w) _
      | wrote => exact hp
      | role v => exact hp
  | write f k ih =>
    cases had with
    | nil => simpa using hp
    | cons b bs => cases b with
      | read w => exact hp
      | wrote => exact ih hp.2 _
      | role v => exact hp
  | look k ih =>
    cases had with
    | nil => simpa using hp
    | cons b bs => cases b with
      | read w => exact hp
      | wrote => exact hp
      | role v => exact ih v (hp v) _
  | update f k ih =>
    cases had with
    | nil => simpa using hp
    | cons b bs => exact ih hp.2 _

/-- The state one access leaves, or the end. -/
def Moved.state {α : Type} : Moved α → State
  | .ended r => r.state
  | .moved _ s => s

theorem state_noting {α : Type} (v : RoleView) (m : Moved α) : (m.noting v).state = m.state := by
  cases m <;> rfl

/-- An invariant of every statement is one of every access. -/
theorem keeps_advance {α : Type} {P : State → Prop} {p : Prog α} (hp : p.Keeps P) {s : State} (hs : P s) :
    P (p.advance s).state := by
  induction p generalizing s with
  | ret a => exact hs
  | stopIf c k ih =>
    simp only [Prog.advance]
    split
    · rename_i t ht; exact hp.1 s t hs ht
    · exact ih hp.2 hs
  | read f k _ => exact hs
  | write f k _ => exact hp.1 s hs
  | look k ih =>
    simp only [Prog.advance]
    rw [state_noting]
    exact ih _ (hp _) hs
  | update f k ih => exact ih hp.2 (hp.1 s hs)

/-- An invariant of every statement is one of the undisturbed run. -/
theorem keeps_run {α : Type} {P : State → Prop} {p : Prog α} (hp : p.Keeps P) {s : State} (hs : P s) :
    P (p.run s).state := by
  induction p generalizing s with
  | ret a => exact hs
  | stopIf c k ih =>
    simp only [Prog.run]
    split
    · rename_i t ht; exact hp.1 s t hs ht
    · exact ih hp.2 hs
  | read f k ih => exact ih _ (hp _) hs
  | write f k ih => exact ih hp.2 (hp.1 s hs)
  | look k ih => exact ih _ (hp _) hs
  | update f k ih => exact ih hp.2 (hp.1 s hs)

end Sys2Proof.Machine
end

