-- ==== Sys2Proof/Laws/Ops.lean ====
section
/-! SUPPORT. The shared operations: what a bus event may change, and what each operation of CORE and APP does
when it runs undisturbed: one lemma per operation, for proofs to cite instead of unfolding it. -/

namespace Sys2Proof.Machine

/-! ## Bus events -/

/-- Two states that differ only in what a bus event may change. -/
def BusChange (s t : State) : Prop :=
  t = { s with eprs := t.eprs, istr := t.istr, daddr := t.daddr, mem := t.mem, trace := t.trace,
               faults := t.faults }

theorem BusChange.refl (s : State) : BusChange s s := rfl

theorem BusChange.trans {s t u : State} (h : BusChange s t) (h' : BusChange t u) : BusChange s u := by
  unfold BusChange at *
  rw [h'] ; rw [h]

theorem busChange_busField {n : EpNum} {f : BdtField} {rule : Nat} {s : State} :
    BusChange s (busField n f rule s).state := by
  unfold busField; split <;> rfl

theorem busChange_busSetupAt (n : EpNum) (k : SetupPacket) (s : State) :
    BusChange s (busSetupAt n k s).state := by
  unfold busSetupAt busField busWrite raise
  repeat' first | rfl | split | (simp only [bind_ok])

theorem busChange_busOutAt (n : EpNum) (d : List Byte) (s : State) :
    BusChange s (busOutAt n d s).state := by
  unfold busOutAt busField busWrite raise
  repeat' first | rfl | split | (simp only [bind_ok])

theorem busChange_busInAt (n : EpNum) (ack : Bool) (s : State) :
    BusChange s (busInAt n ack s).state := by
  unfold busInAt busField busRead raise
  repeat' first | rfl | split | (simp only [bind_ok])

/-- What a bus event may change: endpoint registers, ISTR, DADDR, packet memory, the trace, the faults. -/
theorem busChange_busEffect (e : BusEvent) (s : State) : BusChange s (busEffect e s).state := by
  cases e with
  | reset => rfl
  | setup a ep k =>
    simp only [busEffect, busSetup]
    split
    · rfl
    · rfl
    · exact busChange_busSetupAt _ _ _
  | out a ep d =>
    simp only [busEffect, busOut]
    split
    · rfl
    · rfl
    · exact busChange_busOutAt _ _ _
  | tokenIn a ep ack =>
    simp only [busEffect, busIn]
    split
    · rfl
    · rfl
    · exact busChange_busInAt _ _ _
  | suspend => rfl
  | resume => rfl

theorem nextBus_eq {s s' : State} {e : BusEvent} (h : s.nextBus = some (e, s')) :
    ∃ b, s.busIn = b :: s'.busIn ∧ decodeBus b = some e ∧ s.busEnabled e = true ∧
      s' = { s with busIn := s'.busIn } := by
  unfold State.nextBus at h
  split at h
  · cases h
  · rename_i b bs hb
    split at h
    · cases h
    · rename_i e' he
      split at h
      · rename_i hen
        cases h
        exact ⟨b, hb, he, hen, rfl⟩
      · cases h

/-- No bus event is enabled while the controller is not attached (R650). -/
theorem nextBus_detached {s : State} (h : s.attached = false) : s.nextBus = none := by
  unfold State.nextBus
  split
  · rfl
  · split
    · rfl
    · simp [State.busEnabled, h]

/-! ## Admission -/

theorem admitEp_none {s : State} {n : EpNum} (h : s.epAdmitted n = true) : s.admitEp n = none := by
  simp only [State.epAdmitted, Bool.and_eq_true, decide_eq_true_eq] at h
  simp [State.admitEp, h]

theorem admitInit_none {s : State} (h : s.initialized = true) : s.admitInit = none := by
  simp [State.admitInit, h]

/-! ## Contexts -/

@[simp] theorem context_geom (s : State) (n : EpNum) : s.context.geom n = s.geom n := rfl
@[simp] theorem context_isBound (s : State) (n : EpNum) : s.context.isBound n = s.isBound n := rfl
@[simp] theorem context_role (s : State) (n : EpNum) : s.context.role n = s.role n := rfl
@[simp] theorem context_params (s : State) : s.context.params = s.params := rfl
@[simp] theorem context_txSize0 (s : State) : s.context.txSize0 = s.txSize0 := rfl
@[simp] theorem context_served (s : State) : s.context.served = s.servedEp := rfl

/-! ## Cells and registers -/

theorem storeCell_of_lt {s : State} {k : Nat} (h : 2 * k < s.params.pmSize) (v : HalfWord) :
    s.storeCell k v = s.setCell k v := by simp [State.storeCell, h]

@[simp] theorem run_readCell (k : Nat) (s : State) : (readCell k).run s = .ok (s.cell k) s := rfl

theorem run_writeCell {s : State} {k : Nat} (h : 2 * k < s.params.pmSize) (v : HalfWord) :
    (writeCell k v).run s = .ok () (s.setCell k v) := by
  simp [writeCell, storeCell_of_lt h]

@[simp] theorem run_readEpr (n : EpNum) (s : State) : (readEpr n).run s = .ok (s.epr n) s := rfl

@[simp] theorem run_writeEpr (n : EpNum) (w : HalfWord) (s : State) :
    (writeEpr n w).run s = .ok () (s.setEpr n (eprSwWrite (s.epr n) w)) := rfl

@[simp] theorem run_writeCntr (w : HalfWord) (s : State) : (writeCntr w).run s = .ok () (s.setCntr w) := rfl

@[simp] theorem run_rmwCntr (f : HalfWord → HalfWord) (s : State) :
    (rmwCntr f).run s = .ok () (s.setCntr (f s.cntr)) := rfl

@[simp] theorem run_writeDaddr (w : HalfWord) (s : State) : (writeDaddr w).run s = .ok () (s.setDaddr w) := rfl

@[simp] theorem run_writeBtable (w : HalfWord) (s : State) : (writeBtable w).run s = .ok () (s.setBtable w) := rfl

@[simp] theorem run_writeBcdr (w : HalfWord) (s : State) : (writeBcdr w).run s = .ok () (s.setBcdr w) := rfl

@[simp] theorem run_writeIstr (w : HalfWord) (s : State) : (writeIstr w).run s = .ok () (s.setIstr w) := rfl

/-- A toggle-safe update (R452). -/
@[simp] theorem run_epRmw (n : EpNum) (chg : EprChange) (clr : EprClear) (s : State) :
    (epRmw n chg clr).run s =
      .ok () (s.setEpr n (eprSwWrite (s.epr n) (toggleSafeWrite (s.epr n) chg clr))) := rfl

/-- A clear computed from a snapshot (R457). -/
@[simp] theorem run_clearCtr (n : EpNum) (snap : HalfWord) (s : State) :
    (clearCtr n snap).run s = .ok () (s.setEpr n (eprSwWrite (s.epr n)
      (toggleSafeWrite snap {} { ctrRx := true, ctrTx := true }))) := rfl

/-! ## Cells and blocks -/

theorem cell_bytes (s : State) (k : Nat) :
    loByte (s.cell k) = s.byte (2 * k) ∧ hiByte (s.cell k) = s.byte (2 * k + 1) := by
  simp [State.cell]

theorem run_readCells (s : State) (count k : Nat) :
    (readCells count k).run s = .ok (memGetBytes s.mem (2 * k) (2 * count)) s := by
  induction count generalizing k with
  | zero => rfl
  | succ c ih =>
    simp only [readCells, run_bind, run_readCell, bind_ok, ih, run_ret]
    rw [show 2 * (c + 1) = 2 * c + 1 + 1 by ring]
    simp [memGetBytes, State.cell, State.byte, Nat.mul_add]

theorem memGetBytes_drop (m : List Host.Cell) (a l j : Nat) :
    (memGetBytes m a l).drop j = memGetBytes m (a + j) (l - j) := by
  induction j generalizing a l with
  | zero => simp
  | succ j ih =>
    cases l with
    | zero => simp [memGetBytes]
    | succ l =>
      simp only [memGetBytes, List.drop_succ_cons, ih]
      rw [show a + 1 + j = a + (j + 1) by omega, show l + 1 - (j + 1) = l - j by omega]

theorem memGetBytes_take (m : List Host.Cell) (a l j : Nat) :
    (memGetBytes m a l).take j = memGetBytes m a (min j l) := by
  induction j generalizing a l with
  | zero => simp [memGetBytes]
  | succ j ih =>
    cases l with
    | zero => simp [memGetBytes]
    | succ l => simp [memGetBytes, ih, Nat.succ_min_succ]

/-- A block read of readable bytes answers those bytes (R406). -/
theorem run_memRead {s : State} (ag : Agent) (rule a l : Nat) (hr : l = 0 ∨ s.mayRead a l = true) :
    (memRead ag rule a l).run s = .ok (memGetBytes s.mem a l) s := by
  unfold memRead
  split
  · rename_i hl; subst hl; rfl
  · rename_i hl
    simp only [hl, false_or, State.mayRead, Bool.and_eq_true, decide_eq_true_eq,
      Option.isNone_iff_eq_none] at hr
    have hc : (if a + l > s.params.pmSize then some (FaultKind.pmRange (a + l - 1)) else s.ownFaultR a l)
        = none := by
      rw [if_neg (by omega)]; simp [State.ownFaultR, hr.2]
    rw [run_andThen, run_raiseIf_none hc, andThen_ok]
    simp only [run_bind, run_readCells, bind_ok, run_ret]
    rw [memGetBytes_drop, memGetBytes_take]
    congr 2
    · omega
    · omega

theorem setCell_getByte {s : State} (k : Nat) : s.setCell k (s.cell k) =
    s.setBytes (2 * k) [s.byte (2 * k), s.byte (2 * k + 1)] := by
  simp [setCell_eq_setBytes, State.cell]

/-- Two canonical stores that read alike everywhere are the same state. -/
theorem setBytes_ext {s : State} (h : Memory.wf s.mem = true) {a b : Nat} {d e : List Byte}
    (heq : ∀ x, (s.setBytes a d).byte x = (s.setBytes b e).byte x) : s.setBytes a d = s.setBytes b e := by
  have : memSetBytes s.mem a d = memSetBytes s.mem b e :=
    memory_ext (memSetBytes_wf h _ _) (memSetBytes_wf h _ _) heq
  simp [State.setBytes, this]

theorem run_writeCells {s : State} (hw : Memory.wf s.mem = true) (k : Nat) (d : List Byte)
    (hk : 2 * k + d.length ≤ s.params.pmSize) : (writeCells k d).run s = .ok () (s.setBytes (2 * k) d) := by
  match d with
  | [] => rfl
  | [b] =>
    simp only [List.length_cons, List.length_nil] at hk
    simp only [writeCells, run_bind, run_readCell, bind_ok]
    rw [run_writeCell (by omega)]
    refine congrArg _ ?_
    rw [setCell_eq_setBytes]
    refine setBytes_ext hw fun x => ?_
    rw [byte_setBytes hw, byte_setBytes hw]
    simp only [loByte_ofBytes, hiByte_ofBytes, (cell_bytes s k).2, List.length_cons, List.length_nil]
    by_cases h1 : x = 2 * k
    · subst h1; simp
    · by_cases h2 : x = 2 * k + 1
      · subst h2; simp
      · rw [if_neg (by omega), if_neg (by omega)]
  | b₀ :: b₁ :: bs =>
    simp only [List.length_cons] at hk
    simp only [writeCells, run_andThen]
    rw [run_writeCell (by omega), andThen_ok,
      run_writeCells (by simpa using memSetBytes_wf hw _ _) (k + 1) bs (by simp only [setCell_params]; omega)]
    rw [setCell_eq_setBytes]
    simp only [loByte_ofBytes, hiByte_ofBytes]
    have := setBytes_setBytes s (2 * k) [b₀, b₁] bs
    simp only [List.length_cons, List.length_nil, List.cons_append, List.nil_append] at this
    rw [show 2 * (k + 1) = 2 * k + (0 + 1 + 1) by omega, this]

/-- A block write stores its bytes and nothing else (R407). -/
theorem run_writeBlock {s : State} (hw : Memory.wf s.mem = true) (a : Nat) (d : List Byte)
    (ha : a + d.length ≤ s.params.pmSize) : (writeBlock a d).run s = .ok () (s.setBytes a d) := by
  unfold writeBlock
  split
  · rename_i hodd
    cases d with
    | nil => rfl
    | cons b bs =>
      simp only [List.length_cons] at ha
      simp only [run_bind, run_readCell, bind_ok, run_andThen]
      rw [run_writeCell (by omega), andThen_ok, run_writeCells (by simpa using memSetBytes_wf hw _ _) _ _
        (by simp only [setCell_params]; omega)]
      rw [setCell_eq_setBytes]
      simp only [loByte_ofBytes, hiByte_ofBytes, (cell_bytes s _).1]
      have h1 := setBytes_setBytes s (2 * (a / 2)) [s.byte (2 * (a / 2)), b] bs
      simp only [List.length_cons, List.length_nil, List.cons_append, List.nil_append] at h1
      rw [show 2 * (a / 2 + 1) = 2 * (a / 2) + (0 + 1 + 1) by omega, h1]
      refine congrArg _ (setBytes_ext hw fun x => ?_)
      rw [byte_setBytes hw, byte_setBytes hw]
      have ha : a = 2 * (a / 2) + 1 := by omega
      generalize a / 2 = q at ha
      subst ha
      simp only [List.length_cons]
      by_cases h1 : x = 2 * q
      · subst h1; simp
      · by_cases h2 : 2 * q + 1 ≤ x ∧ x < 2 * q + 1 + (bs.length + 1)
        · rw [if_pos h2, if_pos (by omega), show x - 2 * q = (x - (2 * q + 1)) + 1 by omega,
            List.getD_cons_succ]
        · rw [if_neg h2, if_neg (by omega)]
  · rw [run_writeCells hw _ _ (by omega), show 2 * (a / 2) = a by omega]

/-- A block write of writable bytes stores them (R407). -/
theorem run_memWrite {s : State} (hw : Memory.wf s.mem = true) (ag : Agent) (rule a : Nat)
    (d : List Byte) (hm : d.length = 0 ∨ s.mayWrite a d.length = true) :
    (memWrite ag rule a d).run s = .ok () (s.setBytes a d) := by
  unfold memWrite
  split
  · rename_i hd; subst hd; rfl
  · rename_i hd
    have hl : d.length ≠ 0 := by simpa using hd
    simp only [hl, false_or, State.mayWrite, Bool.and_eq_true, decide_eq_true_eq,
      Option.isNone_iff_eq_none] at hm
    have hc : (if a + d.length > s.params.pmSize then some (FaultKind.pmRange (a + d.length - 1))
        else s.ownFaultW a d.length) = none := by
      rw [if_neg (by omega)]; simp [State.ownFaultW, hm.2]
    rw [run_andThen, run_raiseIf_none hc, andThen_ok, run_writeBlock hw _ _ hm.1]

/-- A block write of bytes the hardware owns changes nothing and records the first of them (R242, R407). -/
theorem run_memWrite_owned {s : State} (ag : Agent) (rule a : Nat) (d : List Byte) {n : EpNum} {x : Nat}
    (hd : d ≠ []) (ha : a + d.length ≤ s.params.pmSize) (ho : s.firstOwnedW a d.length = some (n, x)) :
    (memWrite ag rule a d).run s = .stop (s.raise (.pmOwnership n x) ag rule) := by
  unfold memWrite
  rw [if_neg hd, run_andThen, run_raiseIf_some (k := .pmOwnership n x) (by
    rw [if_neg (by omega)]; simp [State.ownFaultW, ho])]
  rfl

/-! ## Buffer-descriptor table -/

/-- A BDT address is even (R409). -/
theorem bdtAddr_even (s : State) (n : EpNum) (f : BdtField) : 2 * (s.bdtAddr n f / 2) = s.bdtAddr n f := by
  unfold State.bdtAddr; omega

/-- A BDT write stores its two bytes (R411). -/
theorem run_bdtWrite {s : State} (ag : Agent) (rule : Nat) (n : EpNum) (f : BdtField) (v : HalfWord)
    (hp : s.bdtAddr n f + 1 < s.params.pmSize) (ho : s.bdtOwned n f = false) :
    (bdtWrite ag rule n f v).run s = .ok () (s.setBytes (s.bdtAddr n f) [loByte v, hiByte v]) := by
  have := bdtAddr_even s n f
  unfold bdtWrite
  rw [run_andThen, run_raiseIf_none (by rw [if_neg (by omega), ho]; rfl), andThen_ok, run_writing,
    storeCell_of_lt (by omega), setCell_eq_setBytes, this]

/-- A BDT write of an armed side, or of a field outside packet memory, changes nothing (R411). -/
theorem run_bdtWrite_owned {s : State} (ag : Agent) (rule : Nat) (n : EpNum) (f : BdtField) (v : HalfWord)
    (hp : s.bdtAddr n f + 1 < s.params.pmSize) (ho : s.bdtOwned n f = true) :
    (bdtWrite ag rule n f v).run s = .stop (s.raise (.pmOwnership n (s.bdtAddr n f)) ag rule) := by
  unfold bdtWrite
  rw [run_andThen, run_raiseIf_some (k := .pmOwnership n (s.bdtAddr n f))
    (by rw [if_neg (by omega), ho]; rfl)]
  rfl

/-- A BDT read answers its cell (R410). -/
theorem run_bdtRead {s : State} (ag : Agent) (rule : Nat) (n : EpNum) (f : BdtField)
    (hp : s.bdtAddr n f + 1 < s.params.pmSize) :
    (bdtRead ag rule n f).run s = .ok (s.cell (s.bdtAddr n f / 2)) s := by
  unfold bdtRead
  rw [run_andThen, run_raiseIf_none (by rw [if_neg (by omega)]), andThen_ok, run_reading]

@[simp] theorem bdtAddr_setBytes (s : State) (a : Nat) (d : List Byte) (n : EpNum) (f : BdtField) :
    (s.setBytes a d).bdtAddr n f = s.bdtAddr n f := rfl

@[simp] theorem bdtOwned_setBytes (s : State) (a : Nat) (d : List Byte) (n : EpNum) (f : BdtField) :
    (s.setBytes a d).bdtOwned n f = s.bdtOwned n f := rfl

/-- A commit stores the eight bytes of the endpoint's entry (R459). -/
theorem run_commitBd {s : State} (ag : Agent) (n : EpNum) {x : Context} (hx : x.geom n = s.geom n)
    (hc : s.canCommit n = true) : (commitBd ag n x).run s = .ok () (s.committed n) := by
  simp only [State.canCommit, Bool.and_eq_true, decide_eq_true_eq, Bool.not_eq_true'] at hc
  obtain ⟨hp, ho⟩ := hc
  have addr : ∀ f : BdtField, s.bdtAddr n f = s.bdtAddr n .addrTx + 2 * f.code.toNat := by
    intro f
    have h0 : BdtField.addrTx.code.toNat = 0 := rfl
    simp only [State.bdtAddr, h0]
    omega
  have hcode : ∀ f : BdtField, f.code.toNat ≤ 3 := by intro f; cases f <;> decide
  have own : ∀ f : BdtField, s.bdtOwned n f = false := by
    intro f
    simp only [Bool.and_eq_false_iff, Bool.or_eq_false_iff] at ho
    simp only [State.bdtOwned, Bool.and_eq_false_iff]
    rcases ho with ho | ⟨h1, h2⟩
    · exact .inl ho
    · cases f
      · exact .inr h1
      · exact .inr h1
      · exact .inr h2
      · exact .inr h2
  have hin : ∀ f : BdtField, s.bdtAddr n f + 1 < s.params.pmSize := by
    intro f; have := hcode f; have := addr f; omega
  unfold commitBd
  simp only [hx, run_andThen]
  rw [run_bdtWrite _ _ _ _ _ (hin _) (own _), andThen_ok,
    run_bdtWrite _ _ _ _ _ (by simpa using hin _) (by simpa using own _), andThen_ok,
    run_bdtWrite _ _ _ _ _ (by simpa using hin _) (by simpa using own _), andThen_ok,
    run_bdtWrite _ _ _ _ _ (by simpa using hin _) (by simpa using own _)]
  simp only [bdtAddr_setBytes, addr .countTx, addr .addrRx, addr .countRx]
  have e1 := fun d e => setBytes_setBytes s (s.bdtAddr n .addrTx) d e
  simp only [BdtField.code, State.committed, bdtEntry]
  rw [show s.bdtAddr n .addrTx + 2 * BitVec.toNat (1 : BitVec 2) = s.bdtAddr n .addrTx
      + [loByte (s.geom n).txAddr, hiByte (s.geom n).txAddr].length from rfl, e1,
    show s.bdtAddr n .addrTx + 2 * BitVec.toNat (2 : BitVec 2) = s.bdtAddr n .addrTx
      + ([loByte (s.geom n).txAddr, hiByte (s.geom n).txAddr] ++ [loByte 0, hiByte 0]).length from rfl, e1,
    show s.bdtAddr n .addrTx + 2 * BitVec.toNat (3 : BitVec 2) = s.bdtAddr n .addrTx
      + ([loByte (s.geom n).txAddr, hiByte (s.geom n).txAddr] ++ [loByte 0, hiByte 0]
        ++ [loByte (s.geom n).rxAddr, hiByte (s.geom n).rxAddr]).length from rfl, e1]
  rfl

/-- A transmit that faults before its first write changes nothing and records the fault (R460). -/
theorem run_transmit_fault {s : State} (ag : Agent) (n : EpNum) (d : List Byte) {x : Context}
    (hx : x.geom n = s.geom n) {k : FaultKind} (h : s.sendFault n d = some k) :
    (transmit ag n d x).run s = .stop (s.raise k ag 460) := by
  have hl : (d.take (s.sendCount n d)).length = s.sendCount n d := by
    simp only [List.length_take, State.sendCount]; omega
  have hc : min d.length (x.geom n).txSize.toNat = s.sendCount n d := by rw [hx]; rfl
  unfold State.sendFault at h
  unfold transmit
  simp only [hc]
  rw [hx]
  split at h
  · rename_i h0
    have hd : d.take (s.sendCount n d) = [] := by rw [h0]; rfl
    rw [run_andThen, hd, memWrite, if_pos rfl, run_ret, andThen_ok, run_andThen, bdtWrite, run_andThen,
      run_raiseIf_some (k := k) (by simpa using h)]
    rfl
  · rename_i h0
    have hd : d.take (s.sendCount n d) ≠ [] := by
      intro hn
      rw [hn] at hl
      exact h0 hl.symm
    rw [run_andThen, memWrite, if_neg hd, run_andThen, hl, run_raiseIf_some (k := k) (by simpa using h)]
    rfl

end Sys2Proof.Machine
end

