-- ==== Sys2Proof/Laws/Step.lean ====
section
/-! SUPPORT. What a step can be, and that an instruction's meaning is the undisturbed run of its statements. -/

namespace Sys2Proof.Machine

/-- The CTRD rows. -/
def isCtrRow : Instr → Bool
  | .ctrSetup _ => true
  | .ctrReception _ => true
  | .ctrTransmission _ => true
  | _ => false

/-- A meaning is the undisturbed run of the instruction's statements. -/
theorem exec_eq_perform {i : Instr} {s : State} (hb : isBusRow i = false) (hd : i ≠ .dcIrq)
    (hc : isCtrRow i = false ∨ s.servedEp ≠ none) : exec i s = perform (program i) s := by
  cases i with
  | dcIrq => exact absurd rfl hd
  | busReset => cases hb
  | busSetup a e k => cases hb
  | busOut a e d => cases hb
  | busIn a e k => cases hb
  | busSuspend => cases hb
  | busResume => cases hb
  | ctrSetup k =>
    obtain ⟨n, hn⟩ := Option.ne_none_iff_exists'.mp (hc.resolve_left (by simp [isCtrRow]))
    simp [exec, execCtrSetup, ctrRow, hn, perform, program, servedHook]
  | ctrReception k =>
    obtain ⟨n, hn⟩ := Option.ne_none_iff_exists'.mp (hc.resolve_left (by simp [isCtrRow]))
    simp [exec, execCtrReception, ctrRow, hn, perform, program, servedHook]
  | ctrTransmission k =>
    obtain ⟨n, hn⟩ := Option.ne_none_iff_exists'.mp (hc.resolve_left (by simp [isCtrRow]))
    simp [exec, execCtrTransmission, ctrRow, hn, perform, program, servedHook]
  | _ => rfl

/-- A step that answers a state is one of the agent whose turn it is, in a state without a fault. -/
theorem step_cases {s t : State} (h : step s = .next t) :
    s.faults = [] ∧ paramsValid s.params = true ∧
      ∃ a ts, s.nextAgent = some (a, ts) ∧ stepAgent exec a { s with turns := ts } = .next t := by
  unfold step takeStep at h
  split at h
  · cases h
  · rename_i hf
    split at h
    · cases h
    · rename_i hp
      split at h
      · cases h
      · rename_i a ts ha
        exact ⟨by simpa [State.faulted] using hf, by simpa using hp, a, ts, ha, h⟩

/-- One access of CORE or APP is what `advanceRows` or `advanceCommand` makes of it. -/
theorem stepCore_dispatching {s : State} {w : HalfWord} {e : Option HalfWord} {rest : List Instr}
    {had : List Answer} (hc : s.core = .dispatching w e rest had) (ha : s.params.atomicDispatch = false) :
    stepCore exec s = .next (advanceRows rest had s) := by
  simp [stepCore, hc, ha]

theorem stepApp_running {s : State} {ws : List HalfWord} {had : List Answer}
    (hr : s.app = .running ws had) (ha : s.params.atomicDispatch = false) :
    stepApp exec s = .next (advanceCommand ws had s) := by
  simp [stepApp, hr, ha]

end Sys2Proof.Machine
end

