-- ==== Sys2Proof/Laws/Blind.lean ====
section
/-! SUPPORT. No statement reads or writes the answers that CORE's and APP's execution states hold: an
operation does the same whatever they are. -/

namespace Sys2Proof.Machine

/-- CORE's execution state without its answers. -/
def CoreState.forget : CoreState → CoreState
  | .idle => .idle
  | .dispatching w e rest _ => .dispatching w e rest []

/-- APP's execution state without its answers. -/
def AppState.forget : AppState → AppState
  | .idle => .idle
  | .running ws _ => .running ws []

/-- The state without the answers of the operations in progress. -/
def State.forget (s : State) : State := { s with core := s.core.forget, app := s.app.forget }

/-! ## Operations that commute with a change of the state -/

/-- Every statement of the operation does the same before and after `F`. -/
def Prog.Blind {α : Type} (F : State → State) : Prog α → Prop
  | .ret _ => True
  | .stopIf c k => (∀ s, c (F s) = (c s).map F) ∧ k.Blind F
  | .read f k => (∀ s, f (F s) = f s) ∧ ∀ w, (k w).Blind F
  | .write f k => (∀ s, f (F s) = F (f s)) ∧ k.Blind F
  | .look k => (∀ s : State, (F s).roleView = s.roleView) ∧ ∀ v, (k v).Blind F
  | .update f k => (∀ s, f (F s) = F (f s)) ∧ k.Blind F

/-- An outcome, its state changed by `F`. -/
def Res.mapState {α : Type} (F : State → State) : Res α → Res α
  | .ok a s => .ok a (F s)
  | .stop s => .stop (F s)

theorem blind_run {α : Type} {F : State → State} {p : Prog α} (hp : p.Blind F) (s : State) :
    p.run (F s) = (p.run s).mapState F := by
  induction p generalizing s with
  | ret a => rfl
  | stopIf c k ih =>
    simp only [Prog.run, hp.1]
    cases hc : c s with
    | none => exact ih hp.2 s
    | some t => rfl
  | read f k ih => simpa [Prog.run, hp.1] using ih _ (hp.2 _) s
  | write f k ih => simpa [Prog.run, hp.1] using ih hp.2 (f s)
  | look k ih => simpa [Prog.run, hp.1] using ih _ (hp.2 _) s
  | update f k ih => simpa [Prog.run, hp.1] using ih hp.2 (f s)

theorem blind_bind {α β : Type} {F : State → State} {p : Prog α} {q : α → Prog β} (hp : p.Blind F)
    (hq : ∀ a, (q a).Blind F) : (p.bind q).Blind F := by
  induction p with
  | ret a => exact hq a
  | stopIf c k ih => exact ⟨hp.1, ih hp.2⟩
  | read f k ih => exact ⟨hp.1, fun w => ih w (hp.2 w)⟩
  | write f k ih => exact ⟨hp.1, ih hp.2⟩
  | look k ih => exact ⟨hp.1, fun v => ih v (hp.2 v)⟩
  | update f k ih => exact ⟨hp.1, ih hp.2⟩

theorem blind_andThen {β : Type} {F : State → State} {p : Prog Unit} {q : Prog β} (hp : p.Blind F)
    (hq : q.Blind F) : (p.andThen q).Blind F := blind_bind hp fun _ => hq

theorem blind_ret {α : Type} {F : State → State} (a : α) : (Prog.ret a).Blind F := trivial

/-! ## The shared operations are blind to the answers -/

theorem blind_reading {f : State → HalfWord} (h : ∀ s : State, f s.forget = f s) :
    (reading f).Blind State.forget := ⟨h, fun _ => trivial⟩

theorem blind_writing {f : State → State} (h : ∀ s : State, f s.forget = (f s).forget) :
    (writing f).Blind State.forget := ⟨h, trivial⟩

theorem blind_updating {f : State → State} (h : ∀ s : State, f s.forget = (f s).forget) :
    (updating f).Blind State.forget := ⟨h, trivial⟩

theorem blind_look {α : Type} {k : RoleView → Prog α} (h : ∀ v, (k v).Blind State.forget) :
    (Prog.look k).Blind State.forget := ⟨fun _ => rfl, h⟩

theorem blind_raiseIf {ag : Agent} {rule : Nat} {c : State → Option FaultKind}
    (h : ∀ s : State, c s.forget = c s) : (raiseIf ag rule c).Blind State.forget := by
  refine ⟨fun s => ?_, trivial⟩
  show Option.map _ (c s.forget) = Option.map _ (Option.map _ (c s))
  rw [h, Option.map_map]
  rfl

theorem blind_refuseIf {c : State → Option RefuseReason} (h : ∀ s : State, c s.forget = c s) :
    (refuseIf c).Blind State.forget := by
  refine ⟨fun s => ?_, trivial⟩
  show Option.map _ (c s.forget) = Option.map _ (Option.map _ (c s))
  rw [h, Option.map_map]
  rfl

theorem blind_command {c : State → Option RefuseReason} {p : Prog Unit} (h : ∀ s : State, c s.forget = c s)
    (hp : p.Blind State.forget) : (command c p).Blind State.forget := blind_andThen (blind_refuseIf h) hp

theorem blind_giveResult {α : Type} {p : Prog α} (v : α → ResultValue) (hp : p.Blind State.forget) :
    (giveResult p v).Blind State.forget := blind_bind hp fun _ => blind_updating fun _ => rfl

theorem blind_readCell (k : Nat) : (readCell k).Blind State.forget := blind_reading fun _ => rfl

theorem forget_storeCell (k : Nat) (v : HalfWord) (s : State) :
    s.forget.storeCell k v = (s.storeCell k v).forget := by
  have h : s.forget.params = s.params := rfl
  unfold State.storeCell
  rw [h]
  split <;> rfl

theorem blind_writeCell (k : Nat) (v : HalfWord) : (writeCell k v).Blind State.forget :=
  blind_writing (forget_storeCell k v)

theorem blind_readEpr (n : EpNum) : (readEpr n).Blind State.forget := blind_reading fun _ => rfl

theorem blind_writeEpr (n : EpNum) (w : HalfWord) : (writeEpr n w).Blind State.forget :=
  blind_writing fun _ => rfl

theorem blind_rmwCntr (f : HalfWord → HalfWord) : (rmwCntr f).Blind State.forget :=
  blind_bind (blind_reading fun _ => rfl) fun _ => blind_writing fun _ => rfl

theorem blind_readCells (count k : Nat) : (readCells count k).Blind State.forget := by
  induction count generalizing k with
  | zero => exact trivial
  | succ n ih => exact blind_bind (blind_readCell k) fun _ => blind_bind (ih _) fun _ => trivial

theorem blind_clearCells (count k : Nat) : (clearCells count k).Blind State.forget := by
  induction count generalizing k with
  | zero => exact trivial
  | succ n ih => exact blind_andThen (blind_writeCell k 0) (ih _)

theorem blind_writeCells (k : Nat) (d : List Byte) : (writeCells k d).Blind State.forget := by
  fun_induction writeCells k d with
  | case1 => exact trivial
  | case2 k b => exact blind_bind (blind_readCell k) fun _ => blind_writeCell _ _
  | case3 k b₀ b₁ bs ih => exact blind_andThen (blind_writeCell _ _) ih

theorem blind_writeBlock (a : Nat) (d : List Byte) : (writeBlock a d).Blind State.forget := by
  unfold writeBlock
  split
  · split
    · exact trivial
    · exact blind_bind (blind_readCell _) fun _ => blind_andThen (blind_writeCell _ _) (blind_writeCells _ _)
  · exact blind_writeCells _ _

theorem blind_memRead (ag : Agent) (rule a l : Nat) : (memRead ag rule a l).Blind State.forget := by
  unfold memRead
  split
  · exact trivial
  · exact blind_andThen (blind_raiseIf fun _ => rfl) (blind_bind (blind_readCells _ _) fun _ => trivial)

theorem blind_memWrite (ag : Agent) (rule a : Nat) (d : List Byte) :
    (memWrite ag rule a d).Blind State.forget := by
  unfold memWrite
  split
  · exact trivial
  · exact blind_andThen (blind_raiseIf fun _ => rfl) (blind_writeBlock _ _)

theorem blind_readHalfword (ag : Agent) (rule a : Nat) : (readHalfword ag rule a).Blind State.forget :=
  blind_andThen (blind_raiseIf fun _ => rfl) (blind_readCell _)

theorem blind_writeHalfword (ag : Agent) (rule a : Nat) (v : HalfWord) :
    (writeHalfword ag rule a v).Blind State.forget :=
  blind_andThen (blind_raiseIf fun _ => rfl) (blind_writeCell _ _)

theorem blind_readByte (ag : Agent) (rule a : Nat) : (readByte ag rule a).Blind State.forget :=
  blind_andThen (blind_raiseIf fun _ => rfl) (blind_bind (blind_readCell _) fun _ => trivial)

theorem blind_writeByte (ag : Agent) (rule a : Nat) (v : Byte) :
    (writeByte ag rule a v).Blind State.forget :=
  blind_andThen (blind_raiseIf fun _ => rfl) (blind_bind (blind_readCell _) fun _ => blind_writeCell _ _)

theorem blind_pmClear (ag : Agent) (rule : Nat) (c : Context) : (pmClear ag rule c).Blind State.forget :=
  blind_andThen (blind_raiseIf fun _ => rfl) (blind_clearCells _ _)

theorem blind_bdtRead (ag : Agent) (rule : Nat) (n : EpNum) (f : BdtField) :
    (bdtRead ag rule n f).Blind State.forget :=
  blind_andThen (blind_raiseIf fun _ => rfl) (blind_reading fun _ => rfl)

theorem blind_bdtWrite (ag : Agent) (rule : Nat) (n : EpNum) (f : BdtField) (v : HalfWord) :
    (bdtWrite ag rule n f v).Blind State.forget :=
  blind_andThen (blind_raiseIf fun _ => rfl) (blind_writing fun s => forget_storeCell _ v s)

theorem blind_epRmw (n : EpNum) (chg : EprChange) (clr : EprClear) : (epRmw n chg clr).Blind State.forget :=
  blind_bind (blind_readEpr n) fun _ => blind_writeEpr _ _

theorem blind_commitBd (ag : Agent) (n : EpNum) (c : Context) : (commitBd ag n c).Blind State.forget :=
  blind_andThen (blind_bdtWrite _ _ _ _ _) <| blind_andThen (blind_bdtWrite _ _ _ _ _) <|
    blind_andThen (blind_bdtWrite _ _ _ _ _) (blind_bdtWrite _ _ _ _ _)

theorem blind_transmit (ag : Agent) (n : EpNum) (d : List Byte) (c : Context) :
    (transmit ag n d c).Blind State.forget :=
  blind_andThen (blind_memWrite _ _ _ _) (blind_andThen (blind_bdtWrite _ _ _ _ _) (blind_epRmw _ _ _))

theorem blind_receive (ag : Agent) (n : EpNum) (l : Nat) (c : Context) :
    (receive ag n l c).Blind State.forget :=
  blind_bind (blind_bdtRead _ _ _ _) fun _ => blind_bind (blind_memRead _ _ _ _) fun _ =>
    blind_andThen (blind_epRmw _ _ _) trivial

theorem blind_forBound {f : EpNum → Prog Unit} (h : ∀ n, (f n).Blind State.forget) (c : Context)
    (ns : List EpNum) : (forBound f c ns).Blind State.forget := by
  induction ns with
  | nil => exact trivial
  | cons n ns ih =>
    unfold forBound
    split
    · exact blind_andThen (h n) ih
    · exact ih

/-! ## The control sequencer -/

theorem forget_setEprSnap (w : HalfWord) (s : State) : s.forget.setEprSnap w = (s.setEprSnap w).forget := by
  cases h : s.core <;> simp [State.setEprSnap, State.forget, CoreState.forget, h]

theorem blind_statusStage : statusStage.Blind State.forget := by
  refine blind_look fun v => ?_
  split
  · exact trivial
  · exact blind_andThen (blind_writing fun _ => rfl) (blind_updating fun _ => rfl)

theorem blind_dataStageIn (c : Context) : (dataStageIn c).Blind State.forget := by
  refine blind_look fun v => ?_
  split
  · refine blind_andThen (blind_transmit _ _ _ _) (blind_updating fun s => ?_)
    unfold advanceCursor
    cases h : s.cursor with
    | none => simp [State.forget, h]
    | some c =>
      have ht : s.forget.txSize0 = s.txSize0 := rfl
      simp only [State.forget, h] at ht ⊢
      simp only [ht]
      split <;> rfl
  · exact blind_andThen (blind_updating fun _ => rfl) blind_statusStage

theorem blind_getDescriptor (r : Request) (c : Context) : (doGetDescriptor r c).Blind State.forget := by
  unfold doGetDescriptor
  split
  · exact blind_updating fun _ => rfl
  · refine blind_andThen (blind_updating fun _ => rfl) <| blind_andThen (blind_transmit _ _ _ _) <|
      blind_updating fun s => ?_
    unfold afterFirstPacket
    split <;> rfl

theorem blind_setAddress (r : Request) (c : Context) : (doSetAddress r c).Blind State.forget :=
  blind_andThen (blind_updating fun _ => rfl) (blind_transmit _ _ _ _)

theorem blind_setConfiguration (c : Context) : (doSetConfiguration c).Blind State.forget :=
  blind_andThen (blind_updating fun _ => rfl) (blind_transmit _ _ _ _)

theorem blind_runRequest (q : RequestName) (r : Request) (c : Context) :
    (runRequest q r c).Blind State.forget := by
  cases q with
  | setAddress => exact blind_setAddress r c
  | getDescriptor => exact blind_getDescriptor r c
  | setConfiguration => exact blind_setConfiguration c
  | unrecognised b => exact trivial
  | _ => exact blind_transmit _ _ _ _

theorem blind_runHook (r : Role) (h : Hook) (c : Context) : (runHook r h c).Blind State.forget := by
  cases r with
  | generic => cases h <;> exact trivial
  | control =>
    cases h with
    | onInit => exact trivial
    | onReset =>
      refine blind_andThen (blind_epRmw _ _ _) <| blind_andThen (blind_epRmw _ _ _) <|
        blind_andThen (blind_epRmw _ _ _) <| blind_updating fun s => ?_
      cases h : s.cursor <;> simp [clearRole, discardCursor, State.forget, State.emit, h]
    | onSetupReceptionComplete =>
      refine blind_andThen (blind_updating fun s => ?_) <|
        blind_bind (blind_memRead _ _ _ _) fun bs => blind_andThen (blind_updating fun s => ?_) <|
        blind_andThen (blind_runRequest _ _ _) (blind_epRmw _ _ _)
      · cases h : s.cursor <;> simp [discardCursor, State.forget, State.emit, h]
      · unfold establishStage
        split <;> rfl
    | onReceptionComplete =>
      refine blind_andThen (blind_look fun v => ?_) (blind_epRmw _ _ _)
      split
      · exact blind_dataStageIn c
      · exact trivial
      · exact blind_statusStage
    | onTransmissionComplete =>
      refine blind_look fun v => ?_
      split
      · exact blind_dataStageIn c
      · split
        · exact blind_statusStage
        · exact trivial
      · exact trivial

theorem blind_hook (n : EpNum) (h : Hook) (c : Context) : (hook n h c).Blind State.forget := by
  unfold hook
  split
  · exact trivial
  · exact blind_runHook _ _ _

theorem blind_epReset (ag : Agent) (c : Context) (n : EpNum) : (epReset ag c n).Blind State.forget :=
  blind_andThen (blind_commitBd _ _ _) (blind_andThen (blind_epRmw _ _ _) (blind_hook _ _ _))

theorem blind_epInit (ag : Agent) (c : Context) (n : EpNum) : (epInit ag c n).Blind State.forget :=
  blind_andThen (blind_commitBd _ _ _) (blind_hook _ _ _)

/-! ## Every instruction -/

theorem blind_servedHook {p : EpNum → Context → Prog Unit} (h : ∀ n c, (p n c).Blind State.forget)
    (c : Context) : (servedHook p c).Blind State.forget := by
  unfold servedHook
  split
  · exact trivial
  · exact h _ c

theorem blind_irqCtr (w : HalfWord) (c : Context) : (doIrqCtr w c).Blind State.forget := by
  refine blind_bind (blind_readEpr _) fun snap => ?_
  have hc : (clearCtr (epIdOf w) snap).Blind State.forget := blind_writeEpr _ _
  split
  · refine blind_andThen (blind_updating fun s => forget_setEprSnap snap s) (blind_andThen hc ?_)
    refine blind_andThen ?_ ?_
    · split
      · exact blind_hook _ _ _
      · split
        · exact blind_hook _ _ _
        · exact trivial
    · split
      · exact blind_hook _ _ _
      · exact trivial
  · exact hc

theorem forget_setGeom (n : EpNum) (g : Geometry) (s : State) : s.forget.setGeom n g = (s.setGeom n g).forget := by
  have h : s.forget.slot n = s.slot n := rfl
  unfold State.setGeom
  rw [h]
  cases s.slot n <;> rfl

/-- An instruction's statements do the same whatever answers the state holds. -/
theorem blind_program (i : Instr) (c : Context) : (program i c).Blind State.forget := by
  cases i with
  | pmReadHw a => exact blind_command (fun _ => rfl) (blind_giveResult _ (blind_readHalfword _ _ _))
  | pmWriteHw a v => exact blind_command (fun _ => rfl) (blind_writeHalfword _ _ _ _)
  | pmReadB a => exact blind_command (fun _ => rfl) (blind_giveResult _ (blind_readByte _ _ _))
  | pmWriteB a v => exact blind_command (fun _ => rfl) (blind_writeByte _ _ _ _)
  | pmRead a l => exact blind_command (fun _ => rfl) (blind_giveResult _ (blind_memRead _ _ _ _))
  | pmWrite a d => exact blind_command (fun _ => rfl) (blind_memWrite _ _ _ _)
  | pmClear => exact blind_command (fun _ => rfl) (blind_pmClear _ _ _)
  | bdtRead n f => exact blind_command (fun _ => rfl) (blind_giveResult _ (blind_bdtRead _ _ _ _))
  | bdtWrite n f v => exact blind_command (fun _ => rfl) (blind_bdtWrite _ _ _ _ _)
  | epSetAddress n v => exact blind_command (fun _ => rfl) (blind_epRmw _ _ _)
  | epSetType n t => exact blind_command (fun _ => rfl) (blind_epRmw _ _ _)
  | epSetTxStatus n v => exact blind_command (fun _ => rfl) (blind_epRmw _ _ _)
  | epSetRxStatus n v => exact blind_command (fun _ => rfl) (blind_epRmw _ _ _)
  | epClearCtr n => exact blind_command (fun _ => rfl) (blind_bind (blind_readEpr n) fun _ => blind_writeEpr _ _)
  | epSetBd n g =>
    exact blind_command (fun _ => rfl) <| blind_command (fun _ => rfl) <| blind_updating (forget_setGeom n g)
  | epInitBd n => exact blind_command (fun _ => rfl) (blind_commitBd _ _ _)
  | epTransmit n d => exact blind_command (fun _ => rfl) (blind_transmit _ _ _ _)
  | epReceive n l => exact blind_command (fun _ => rfl) (blind_giveResult _ (blind_receive _ _ _ _))
  | epGetRxLen n => exact blind_command (fun _ => rfl) (blind_giveResult _ (blind_bdtRead _ _ _ _))
  | epReset n => exact blind_command (fun _ => rfl) (blind_epReset _ _ _)
  | epInit n => exact blind_command (fun _ => rfl) (blind_epInit _ _ _)
  | dcInit =>
    exact blind_andThen (blind_updating fun _ => rfl) <| blind_andThen (blind_writing fun _ => rfl) <|
      blind_andThen (blind_pmClear _ _ _) <| blind_andThen (blind_writing fun _ => rfl) <|
      blind_andThen (blind_writing fun _ => rfl) <| blind_andThen (blind_writing fun _ => rfl) <|
      blind_andThen (blind_forBound (blind_epInit _ _) _ _) <| blind_andThen (blind_writing fun _ => rfl) <|
      blind_updating fun _ => rfl
  | dcConnect =>
    exact blind_command (fun _ => rfl) <| blind_andThen (blind_rmwCntr _) <|
      blind_andThen (blind_updating fun _ => rfl) <| blind_andThen (blind_rmwCntr _) <|
      blind_andThen (blind_updating fun _ => rfl) (blind_writing fun _ => rfl)
  | dcDisconnect =>
    exact blind_command (fun _ => rfl) <| blind_andThen (blind_writing fun _ => rfl) <|
      blind_andThen (blind_updating fun _ => rfl) <| blind_andThen (blind_rmwCntr _) <|
      blind_andThen (blind_updating fun _ => rfl) (blind_rmwCntr _)
  | dcSetEndpoint n t g => exact blind_command (fun _ => rfl) (blind_updating fun _ => rfl)
  | dcGetStatus => exact blind_updating fun _ => rfl
  | dcIrq => exact blind_refuseIf fun _ => rfl
  | getStatus r => exact blind_transmit _ _ _ _
  | clearFeature r => exact blind_transmit _ _ _ _
  | setFeature r => exact blind_transmit _ _ _ _
  | setAddress r => exact blind_setAddress r c
  | getDescriptor r => exact blind_getDescriptor r c
  | setDescriptor r => exact blind_transmit _ _ _ _
  | getConfiguration r => exact blind_transmit _ _ _ _
  | setConfiguration r => exact blind_setConfiguration c
  | unrecognisedRequest b r => exact trivial
  | busReset => exact trivial
  | busSetup a e k => exact trivial
  | busOut a e d => exact trivial
  | busIn a e k => exact trivial
  | busSuspend => exact trivial
  | busResume => exact trivial
  | genericOnInit => exact blind_runHook .generic .onInit c
  | genericOnReset => exact blind_runHook .generic .onReset c
  | genericOnSetupReceptionComplete => exact blind_runHook .generic .onSetupReceptionComplete c
  | genericOnReceptionComplete => exact blind_runHook .generic .onReceptionComplete c
  | genericOnTransmissionComplete => exact blind_runHook .generic .onTransmissionComplete c
  | controlOnInit => exact blind_runHook .control .onInit c
  | controlOnReset => exact blind_runHook .control .onReset c
  | controlOnSetupReceptionComplete => exact blind_runHook .control .onSetupReceptionComplete c
  | controlOnReceptionComplete => exact blind_runHook .control .onReceptionComplete c
  | controlOnTransmissionComplete => exact blind_runHook .control .onTransmissionComplete c
  | ctrSetup k => exact blind_servedHook (fun _ _ => blind_hook _ _ _) c
  | ctrReception k => exact blind_servedHook (fun _ _ => blind_hook _ _ _) c
  | ctrTransmission k => exact blind_servedHook (fun _ _ => blind_hook _ _ _) c
  | irqReset w =>
    exact blind_andThen (blind_writing fun _ => rfl) <| blind_andThen (blind_forBound (blind_epReset _ _) _ _) <|
      blind_updating fun _ => rfl
  | irqCtr w => exact blind_irqCtr w c
  | irqSusp w => exact blind_andThen (blind_rmwCntr _) (blind_updating fun _ => rfl)
  | irqWkup w =>
    refine blind_andThen (blind_rmwCntr _) (blind_updating fun s => ?_)
    by_cases h : s.devStatus = .suspended <;> simp [State.forget, State.emit, h]

end Sys2Proof.Machine
end

