-- ==== Sys2Proof/Laws/Kept.lean ====
section
/-! SUPPORT. A property that the accesses and the internal updates keep is one that every instruction's
statements keep: the lemma by which an invariant of the registers, of packet memory or of what no
instruction changes becomes one of every step. -/

namespace Sys2Proof.Machine

/-- Only state internal to the controller differs: role state, device state, collaborators and what a run
records. -/
def InternalChange (s t : State) : Prop :=
  t = { s with stage := t.stage, remaining := t.remaining, cursor := t.cursor, deferred := t.deferred,
               devStatus := t.devStatus, preSuspend := t.preSuspend, initialized := t.initialized,
               clkOn := t.clkOn, vdetOn := t.vdetOn, irqEnabled := t.irqEnabled, pinsAf := t.pinsAf,
               trace := t.trace, faults := t.faults, refusals := t.refusals }

/-- A property kept by every access and every internal update of CORE and APP, the binding of a slot
apart. -/
structure Kept (P : State → Prop) : Prop where
  store : ∀ s k v, P s → P (s.storeCell k v)
  epr : ∀ s n w, P s → P (s.setEpr n (eprSwWrite (s.epr n) w))
  cntr : ∀ s w, P s → P (s.setCntr w)
  daddr : ∀ s w, P s → P (s.setDaddr w)
  btable : ∀ s w, P s → P (s.setBtable w)
  bcdr : ∀ s w, P s → P (s.setBcdr w)
  istr : ∀ s w, P s → P (s.setIstr w)
  snap : ∀ s w, P s → P (s.setEprSnap w)
  inside : ∀ s t, InternalChange s t → P s → P t

variable {P : State → Prop} (h : Kept P)
include h

theorem Kept.updating {f : State → State} (hf : ∀ s, InternalChange s (f s)) : (updating f).Keeps P :=
  keeps_updating fun s => h.inside s _ (hf s)

theorem Kept.raiseIf (ag : Agent) (rule : Nat) (c : State → Option FaultKind) : (raiseIf ag rule c).Keeps P :=
  keeps_raiseIf fun s _ => h.inside s _ rfl

theorem Kept.command (c : State → Option RefuseReason) {p : Prog Unit} (hp : p.Keeps P) :
    (command c p).Keeps P := keeps_andThen (keeps_refuseIf fun s _ => h.inside s _ rfl) hp

theorem Kept.giveResult {α : Type} {p : Prog α} (v : α → ResultValue) (hp : p.Keeps P) :
    (giveResult p v).Keeps P := keeps_bind hp fun _ => h.updating fun _ => rfl

/-! ## The shared operations -/

theorem Kept.writeCell (k : Nat) (v : HalfWord) : (writeCell k v).Keeps P :=
  keeps_writing fun s => h.store s k v

theorem Kept.writeEpr (n : EpNum) (w : HalfWord) : (writeEpr n w).Keeps P :=
  keeps_writing fun s => h.epr s n w

theorem Kept.rmwCntr (f : HalfWord → HalfWord) : (rmwCntr f).Keeps P :=
  keeps_bind (keeps_reading _) fun _ => keeps_writing fun s => h.cntr s _

omit h in
theorem keeps_readCells (count k : Nat) : (readCells count k).Keeps P := by
  induction count generalizing k with
  | zero => exact trivial
  | succ n ih => exact keeps_bind (keeps_reading _) fun _ => keeps_bind (ih _) fun _ => trivial

theorem Kept.clearCells (count k : Nat) : (clearCells count k).Keeps P := by
  induction count generalizing k with
  | zero => exact trivial
  | succ n ih => exact keeps_andThen (h.writeCell k 0) (ih _)

theorem Kept.writeCells (k : Nat) (d : List Byte) : (writeCells k d).Keeps P := by
  fun_induction Sys2Proof.Machine.writeCells k d with
  | case1 => exact trivial
  | case2 k b => exact keeps_bind (keeps_reading _) fun _ => h.writeCell _ _
  | case3 k b₀ b₁ bs ih => exact keeps_andThen (h.writeCell _ _) ih

theorem Kept.writeBlock (a : Nat) (d : List Byte) : (writeBlock a d).Keeps P := by
  unfold Sys2Proof.Machine.writeBlock
  split
  · split
    · exact trivial
    · exact keeps_bind (keeps_reading _) fun _ => keeps_andThen (h.writeCell _ _) (h.writeCells _ _)
  · exact h.writeCells _ _

theorem Kept.memRead (ag : Agent) (rule a l : Nat) : (memRead ag rule a l).Keeps P := by
  unfold Sys2Proof.Machine.memRead
  split
  · exact trivial
  · exact keeps_andThen (h.raiseIf _ _ _) (keeps_bind (keeps_readCells _ _) fun _ => trivial)

theorem Kept.memWrite (ag : Agent) (rule a : Nat) (d : List Byte) : (memWrite ag rule a d).Keeps P := by
  unfold Sys2Proof.Machine.memWrite
  split
  · exact trivial
  · exact keeps_andThen (h.raiseIf _ _ _) (h.writeBlock _ _)

theorem Kept.readHalfword (ag : Agent) (rule a : Nat) : (readHalfword ag rule a).Keeps P :=
  keeps_andThen (h.raiseIf _ _ _) (keeps_reading _)

theorem Kept.writeHalfword (ag : Agent) (rule a : Nat) (v : HalfWord) : (writeHalfword ag rule a v).Keeps P :=
  keeps_andThen (h.raiseIf _ _ _) (h.writeCell _ _)

theorem Kept.readByte (ag : Agent) (rule a : Nat) : (readByte ag rule a).Keeps P :=
  keeps_andThen (h.raiseIf _ _ _) (keeps_bind (keeps_reading _) fun _ => trivial)

theorem Kept.writeByte (ag : Agent) (rule a : Nat) (v : Byte) : (writeByte ag rule a v).Keeps P :=
  keeps_andThen (h.raiseIf _ _ _) (keeps_bind (keeps_reading _) fun _ => h.writeCell _ _)

theorem Kept.pmClear (ag : Agent) (rule : Nat) (c : Context) : (pmClear ag rule c).Keeps P :=
  keeps_andThen (h.raiseIf _ _ _) (h.clearCells _ _)

theorem Kept.bdtRead (ag : Agent) (rule : Nat) (n : EpNum) (f : BdtField) : (bdtRead ag rule n f).Keeps P :=
  keeps_andThen (h.raiseIf _ _ _) (keeps_reading _)

theorem Kept.bdtWrite (ag : Agent) (rule : Nat) (n : EpNum) (f : BdtField) (v : HalfWord) :
    (bdtWrite ag rule n f v).Keeps P :=
  keeps_andThen (h.raiseIf _ _ _) (keeps_writing fun s => h.store s _ v)

theorem Kept.epRmw (n : EpNum) (chg : EprChange) (clr : EprClear) : (epRmw n chg clr).Keeps P :=
  keeps_bind (keeps_reading _) fun _ => h.writeEpr _ _

theorem Kept.commitBd (ag : Agent) (n : EpNum) (c : Context) : (commitBd ag n c).Keeps P :=
  keeps_andThen (h.bdtWrite _ _ _ _ _) <| keeps_andThen (h.bdtWrite _ _ _ _ _) <|
    keeps_andThen (h.bdtWrite _ _ _ _ _) (h.bdtWrite _ _ _ _ _)

theorem Kept.transmit (ag : Agent) (n : EpNum) (d : List Byte) (c : Context) : (transmit ag n d c).Keeps P :=
  keeps_andThen (h.memWrite _ _ _ _) (keeps_andThen (h.bdtWrite _ _ _ _ _) (h.epRmw _ _ _))

theorem Kept.receive (ag : Agent) (n : EpNum) (l : Nat) (c : Context) : (receive ag n l c).Keeps P :=
  keeps_bind (h.bdtRead _ _ _ _) fun _ => keeps_bind (h.memRead _ _ _ _) fun _ =>
    keeps_andThen (h.epRmw _ _ _) trivial

omit h in
theorem keeps_forBound {f : EpNum → Prog Unit} (hf : ∀ n, (f n).Keeps P) (c : Context) (ns : List EpNum) :
    (forBound f c ns).Keeps P := by
  induction ns with
  | nil => exact trivial
  | cons n ns ih =>
    unfold forBound
    split
    · exact keeps_andThen (hf n) ih
    · exact ih

/-! ## The control sequencer -/

theorem Kept.statusStage : statusStage.Keeps P := by
  intro v
  dsimp only
  split
  · exact trivial
  · exact keeps_andThen (keeps_writing fun s => h.daddr s _) (h.updating fun _ => rfl)

theorem Kept.dataStageIn (c : Context) : (dataStageIn c).Keeps P := by
  intro v
  dsimp only
  split
  · refine keeps_andThen (h.transmit _ _ _ _) (h.updating fun s => ?_)
    unfold advanceCursor
    split
    · rfl
    · dsimp only
      split <;> rfl
  · exact keeps_andThen (h.updating fun _ => rfl) h.statusStage

theorem Kept.getDescriptor (r : Request) (c : Context) : (doGetDescriptor r c).Keeps P := by
  unfold doGetDescriptor
  split
  · exact h.updating fun _ => rfl
  · refine keeps_andThen (h.updating fun _ => rfl) <| keeps_andThen (h.transmit _ _ _ _) <|
      h.updating fun s => ?_
    unfold afterFirstPacket
    split <;> rfl

theorem Kept.setAddress (r : Request) (c : Context) : (doSetAddress r c).Keeps P :=
  keeps_andThen (h.updating fun _ => rfl) (h.transmit _ _ _ _)

theorem Kept.setConfiguration (c : Context) : (doSetConfiguration c).Keeps P :=
  keeps_andThen (h.updating fun _ => rfl) (h.transmit _ _ _ _)

theorem Kept.runRequest (q : RequestName) (r : Request) (c : Context) : (runRequest q r c).Keeps P := by
  cases q with
  | setAddress => exact h.setAddress r c
  | getDescriptor => exact h.getDescriptor r c
  | setConfiguration => exact h.setConfiguration c
  | unrecognised b => exact trivial
  | _ => exact h.transmit _ _ _ _

theorem Kept.runHook (r : Role) (k : Hook) (c : Context) : (runHook r k c).Keeps P := by
  cases r with
  | generic => cases k <;> exact trivial
  | control =>
    cases k with
    | onInit => exact trivial
    | onReset =>
      refine keeps_andThen (h.epRmw _ _ _) <| keeps_andThen (h.epRmw _ _ _) <|
        keeps_andThen (h.epRmw _ _ _) <| h.updating fun s => ?_
      unfold clearRole discardCursor
      dsimp only
      split <;> rfl
    | onSetupReceptionComplete =>
      refine keeps_andThen (h.updating fun s => ?_) <| keeps_bind (h.memRead _ _ _ _) fun bs =>
        keeps_andThen (h.updating fun s => ?_) <| keeps_andThen (h.runRequest _ _ _) (h.epRmw _ _ _)
      · unfold discardCursor
        split <;> rfl
      · unfold establishStage
        split <;> rfl
    | onReceptionComplete =>
      refine keeps_andThen (fun v => ?_) (h.epRmw _ _ _)
      dsimp only
      split
      · exact h.dataStageIn c
      · exact trivial
      · exact h.statusStage
    | onTransmissionComplete =>
      intro v
      dsimp only
      split
      · exact h.dataStageIn c
      · split
        · exact h.statusStage
        · exact trivial
      · exact trivial

theorem Kept.hook (n : EpNum) (k : Hook) (c : Context) : (hook n k c).Keeps P := by
  unfold Sys2Proof.Machine.hook
  split
  · exact trivial
  · exact h.runHook _ _ _

theorem Kept.epReset (ag : Agent) (c : Context) (n : EpNum) : (epReset ag c n).Keeps P :=
  keeps_andThen (h.commitBd _ _ _) (keeps_andThen (h.epRmw _ _ _) (h.hook _ _ _))

theorem Kept.epInit (ag : Agent) (c : Context) (n : EpNum) : (epInit ag c n).Keeps P :=
  keeps_andThen (h.commitBd _ _ _) (h.hook _ _ _)

/-! ## Every instruction -/

omit h in
theorem keeps_servedHook {p : EpNum → Context → Prog Unit} (hp : ∀ n c, (p n c).Keeps P) (c : Context) :
    (servedHook p c).Keeps P := by
  unfold servedHook
  split
  · exact trivial
  · exact hp _ c

theorem Kept.irqCtr (w : HalfWord) (c : Context) : (doIrqCtr w c).Keeps P := by
  refine keeps_bind (keeps_reading _) fun snap => ?_
  have hc : (clearCtr (epIdOf w) snap).Keeps P := h.writeEpr _ _
  split
  · refine keeps_andThen (keeps_updating fun s => h.snap s snap) (keeps_andThen hc (keeps_andThen ?_ ?_))
    · split
      · exact h.hook _ _ _
      · split
        · exact h.hook _ _ _
        · exact trivial
    · split
      · exact h.hook _ _ _
      · exact trivial
  · exact hc

omit h in
/-- The commands that change the endpoint table (R458, R604). -/
def bindsSlot : Instr → Bool
  | .epSetBd _ _ => true
  | .dcSetEndpoint _ _ _ => true
  | _ => false

/-- Every statement of an instruction keeps such a property, but for the two that bind a slot, whose one
update follows their checks. -/
theorem Kept.program (i : Instr) (c : Context) (hi : bindsSlot i = false) : (program i c).Keeps P := by
  cases i with
  | pmReadHw a => exact h.command _ (h.giveResult _ (h.readHalfword _ _ _))
  | pmWriteHw a v => exact h.command _ (h.writeHalfword _ _ _ _)
  | pmReadB a => exact h.command _ (h.giveResult _ (h.readByte _ _ _))
  | pmWriteB a v => exact h.command _ (h.writeByte _ _ _ _)
  | pmRead a l => exact h.command _ (h.giveResult _ (h.memRead _ _ _ _))
  | pmWrite a d => exact h.command _ (h.memWrite _ _ _ _)
  | pmClear => exact h.command _ (h.pmClear _ _ _)
  | bdtRead n f => exact h.command _ (h.giveResult _ (h.bdtRead _ _ _ _))
  | bdtWrite n f v => exact h.command _ (h.bdtWrite _ _ _ _ _)
  | epSetAddress n v => exact h.command _ (h.epRmw _ _ _)
  | epSetType n t => exact h.command _ (h.epRmw _ _ _)
  | epSetTxStatus n v => exact h.command _ (h.epRmw _ _ _)
  | epSetRxStatus n v => exact h.command _ (h.epRmw _ _ _)
  | epClearCtr n => exact h.command _ (keeps_bind (keeps_reading _) fun _ => h.writeEpr _ _)
  | epSetBd n g => cases hi
  | epInitBd n => exact h.command _ (h.commitBd _ _ _)
  | epTransmit n d => exact h.command _ (h.transmit _ _ _ _)
  | epReceive n l => exact h.command _ (h.giveResult _ (h.receive _ _ _ _))
  | epGetRxLen n => exact h.command _ (h.giveResult _ (h.bdtRead _ _ _ _))
  | epReset n => exact h.command _ (h.epReset _ _ _)
  | epInit n => exact h.command _ (h.epInit _ _ _)
  | dcInit =>
    exact keeps_andThen (h.updating fun _ => rfl) <| keeps_andThen (keeps_writing fun s => h.cntr s _) <|
      keeps_andThen (h.pmClear _ _ _) <| keeps_andThen (keeps_writing fun s => h.istr s _) <|
      keeps_andThen (keeps_writing fun s => h.btable s _) <| keeps_andThen (keeps_writing fun s => h.daddr s _) <|
      keeps_andThen (keeps_forBound (h.epInit _ _) _ _) <| keeps_andThen (keeps_writing fun s => h.cntr s _) <|
      h.updating fun _ => rfl
  | dcConnect =>
    exact h.command _ <| keeps_andThen (h.rmwCntr _) <| keeps_andThen (h.updating fun _ => rfl) <|
      keeps_andThen (h.rmwCntr _) <| keeps_andThen (h.updating fun _ => rfl) (keeps_writing fun s => h.bcdr s _)
  | dcDisconnect =>
    exact h.command _ <| keeps_andThen (keeps_writing fun s => h.bcdr s _) <|
      keeps_andThen (h.updating fun _ => rfl) <| keeps_andThen (h.rmwCntr _) <|
      keeps_andThen (h.updating fun _ => rfl) (h.rmwCntr _)
  | dcSetEndpoint n t g => cases hi
  | dcGetStatus => exact h.updating fun _ => rfl
  | dcIrq => exact keeps_refuseIf fun s _ => h.inside s _ rfl
  | getStatus r => exact h.transmit _ _ _ _
  | clearFeature r => exact h.transmit _ _ _ _
  | setFeature r => exact h.transmit _ _ _ _
  | setAddress r => exact h.setAddress r c
  | getDescriptor r => exact h.getDescriptor r c
  | setDescriptor r => exact h.transmit _ _ _ _
  | getConfiguration r => exact h.transmit _ _ _ _
  | setConfiguration r => exact h.setConfiguration c
  | unrecognisedRequest b r => exact trivial
  | busReset => exact trivial
  | busSetup a e k => exact trivial
  | busOut a e d => exact trivial
  | busIn a e k => exact trivial
  | busSuspend => exact trivial
  | busResume => exact trivial
  | genericOnInit => exact h.runHook .generic .onInit c
  | genericOnReset => exact h.runHook .generic .onReset c
  | genericOnSetupReceptionComplete => exact h.runHook .generic .onSetupReceptionComplete c
  | genericOnReceptionComplete => exact h.runHook .generic .onReceptionComplete c
  | genericOnTransmissionComplete => exact h.runHook .generic .onTransmissionComplete c
  | controlOnInit => exact h.runHook .control .onInit c
  | controlOnReset => exact h.runHook .control .onReset c
  | controlOnSetupReceptionComplete => exact h.runHook .control .onSetupReceptionComplete c
  | controlOnReceptionComplete => exact h.runHook .control .onReceptionComplete c
  | controlOnTransmissionComplete => exact h.runHook .control .onTransmissionComplete c
  | ctrSetup k => exact keeps_servedHook (fun _ _ => h.hook _ _ _) c
  | ctrReception k => exact keeps_servedHook (fun _ _ => h.hook _ _ _) c
  | ctrTransmission k => exact keeps_servedHook (fun _ _ => h.hook _ _ _) c
  | irqReset w =>
    exact keeps_andThen (keeps_writing fun s => h.daddr s _) <| keeps_andThen (keeps_forBound (h.epReset _ _) _ _) <|
      h.updating fun _ => rfl
  | irqCtr w => exact h.irqCtr w c
  | irqSusp w => exact keeps_andThen (h.rmwCntr _) (h.updating fun _ => rfl)
  | irqWkup w =>
    refine keeps_andThen (h.rmwCntr _) (h.updating fun s => ?_)
    split <;> rfl

end Sys2Proof.Machine
end

