-- ==== Sys2Proof/Laws/PerInstr.lean ====
section
/-! SUPPORT. Per-instruction laws: the length of every instruction's encoding, in the units its format
is made of (half-words for CMD, R335; bytes for SETUP and BUS, R320, R341; bits for HOOK, CTRD and
ISTRD, R350 to R352). -/

namespace Sys2Proof.Laws.EncodedLength

/-- The number of units of an encoding. -/
def units : Encoded → Nat
  | .cmd ws => ws.length
  | .setup bs => bs.length
  | .bus bs => bs.length
  | .hook _ => 4
  | .ctrd _ => 17
  | .istrd _ => 16

/-- The length the spec gives each row. -/
def expected : Instr → Nat
  | .pmReadHw _ => 2
  | .pmWriteHw _ _ => 3
  | .pmReadB _ => 2
  | .pmWriteB _ _ => 3
  | .pmRead _ _ => 3
  | .pmWrite _ d => 3 + (d.length + 1) / 2
  | .pmClear => 1
  | .bdtRead _ _ => 2
  | .bdtWrite _ _ _ => 3
  | .epSetAddress _ _ => 2
  | .epSetType _ _ => 2
  | .epSetTxStatus _ _ => 2
  | .epSetRxStatus _ _ => 2
  | .epClearCtr _ => 1
  | .epSetBd _ _ => 5
  | .epInitBd _ => 1
  | .epTransmit _ d => 2 + (d.length + 1) / 2
  | .epReceive _ _ => 2
  | .epGetRxLen _ => 1
  | .epReset _ => 1
  | .epInit _ => 1
  | .dcInit => 1
  | .dcConnect => 1
  | .dcDisconnect => 1
  | .dcSetEndpoint _ _ _ => 6
  | .dcGetStatus => 1
  | .dcIrq => 1
  | .getStatus _ => 8
  | .clearFeature _ => 8
  | .setFeature _ => 8
  | .setAddress _ => 8
  | .getDescriptor _ => 8
  | .setDescriptor _ => 8
  | .getConfiguration _ => 8
  | .setConfiguration _ => 8
  | .unrecognisedRequest _ _ => 8
  | .busReset => 1
  | .busSetup _ _ _ => 11
  | .busOut _ _ d => 5 + d.length
  | .busIn _ _ _ => 3
  | .busSuspend => 1
  | .busResume => 1
  | .genericOnInit => 4
  | .genericOnReset => 4
  | .genericOnSetupReceptionComplete => 4
  | .genericOnReceptionComplete => 4
  | .genericOnTransmissionComplete => 4
  | .controlOnInit => 4
  | .controlOnReset => 4
  | .controlOnSetupReceptionComplete => 4
  | .controlOnReceptionComplete => 4
  | .controlOnTransmissionComplete => 4
  | .ctrSetup _ => 17
  | .ctrReception _ => 17
  | .ctrTransmission _ => 17
  | .irqReset _ => 16
  | .irqCtr _ => 16
  | .irqSusp _ => 16
  | .irqWkup _ => 16

/-- An instruction's encoding has the length the spec gives. -/
def Statement (i : Instr) : Prop := units (encode i) = expected i

theorem packBytes_length (d : List Byte) : (packBytes d).length = (d.length + 1) / 2 := by
  match d with
  | [] => rfl
  | [_] => simp [packBytes]
  | _ :: _ :: bs =>
    simp only [packBytes, List.length_cons, packBytes_length bs]
    omega

theorem pmReadHw (a : HalfWord) : Statement (.pmReadHw a) := rfl
theorem pmWriteHw (a v : HalfWord) : Statement (.pmWriteHw a v) := rfl
theorem pmReadB (a : HalfWord) : Statement (.pmReadB a) := rfl
theorem pmWriteB (a : HalfWord) (v : Byte) : Statement (.pmWriteB a v) := rfl
theorem pmRead (a l : HalfWord) : Statement (.pmRead a l) := rfl
theorem pmWrite (a : HalfWord) (d : List Byte) : Statement (.pmWrite a d) := by
  simp only [Statement, encode, cmdWords, units, expected, List.length_cons, packBytes_length]
  omega
theorem pmClear : Statement (.pmClear) := rfl
theorem bdtRead (n : EpNum) (f : BdtField) : Statement (.bdtRead n f) := rfl
theorem bdtWrite (n : EpNum) (f : BdtField) (v : HalfWord) : Statement (.bdtWrite n f v) := rfl
theorem epSetAddress (n : EpNum) (v : BitVec 4) : Statement (.epSetAddress n v) := rfl
theorem epSetType (n : EpNum) (t : EpType) : Statement (.epSetType n t) := rfl
theorem epSetTxStatus (n : EpNum) (v : Stat) : Statement (.epSetTxStatus n v) := rfl
theorem epSetRxStatus (n : EpNum) (v : Stat) : Statement (.epSetRxStatus n v) := rfl
theorem epClearCtr (n : EpNum) : Statement (.epClearCtr n) := rfl
theorem epSetBd (n : EpNum) (g : Geometry) : Statement (.epSetBd n g) := rfl
theorem epInitBd (n : EpNum) : Statement (.epInitBd n) := rfl
theorem epTransmit (n : EpNum) (d : List Byte) : Statement (.epTransmit n d) := by
  simp only [Statement, encode, cmdWords, units, expected, List.length_cons, packBytes_length]
  omega
theorem epReceive (n : EpNum) (l : HalfWord) : Statement (.epReceive n l) := rfl
theorem epGetRxLen (n : EpNum) : Statement (.epGetRxLen n) := rfl
theorem epReset (n : EpNum) : Statement (.epReset n) := rfl
theorem epInit (n : EpNum) : Statement (.epInit n) := rfl
theorem dcInit : Statement (.dcInit) := rfl
theorem dcConnect : Statement (.dcConnect) := rfl
theorem dcDisconnect : Statement (.dcDisconnect) := rfl
theorem dcSetEndpoint (n : EpNum) (t : EpType) (g : Geometry) : Statement (.dcSetEndpoint n t g) := rfl
theorem dcGetStatus : Statement (.dcGetStatus) := rfl
theorem dcIrq : Statement (.dcIrq) := rfl
theorem getStatus (r : Request) : Statement (.getStatus r) := rfl
theorem clearFeature (r : Request) : Statement (.clearFeature r) := rfl
theorem setFeature (r : Request) : Statement (.setFeature r) := rfl
theorem setAddress (r : Request) : Statement (.setAddress r) := rfl
theorem getDescriptor (r : Request) : Statement (.getDescriptor r) := rfl
theorem setDescriptor (r : Request) : Statement (.setDescriptor r) := rfl
theorem getConfiguration (r : Request) : Statement (.getConfiguration r) := rfl
theorem setConfiguration (r : Request) : Statement (.setConfiguration r) := rfl
theorem unrecognisedRequest (bRequest : Byte) (r : Request) : Statement (.unrecognisedRequest bRequest r) := rfl
theorem busReset : Statement (.busReset) := rfl
theorem busSetup (addr : BitVec 7) (ep : BitVec 4) (packet : SetupPacket) : Statement (.busSetup addr ep packet) := rfl
theorem busOut (addr : BitVec 7) (ep : BitVec 4) (d : List Byte) : Statement (.busOut addr ep d) := by
  simp only [Statement, encode, units, expected, List.length_cons]
  omega
theorem busIn (addr : BitVec 7) (ep : BitVec 4) (ack : Bool) : Statement (.busIn addr ep ack) := rfl
theorem busSuspend : Statement (.busSuspend) := rfl
theorem busResume : Statement (.busResume) := rfl
theorem genericOnInit : Statement (.genericOnInit) := rfl
theorem genericOnReset : Statement (.genericOnReset) := rfl
theorem genericOnSetupReceptionComplete : Statement (.genericOnSetupReceptionComplete) := rfl
theorem genericOnReceptionComplete : Statement (.genericOnReceptionComplete) := rfl
theorem genericOnTransmissionComplete : Statement (.genericOnTransmissionComplete) := rfl
theorem controlOnInit : Statement (.controlOnInit) := rfl
theorem controlOnReset : Statement (.controlOnReset) := rfl
theorem controlOnSetupReceptionComplete : Statement (.controlOnSetupReceptionComplete) := rfl
theorem controlOnReceptionComplete : Statement (.controlOnReceptionComplete) := rfl
theorem controlOnTransmissionComplete : Statement (.controlOnTransmissionComplete) := rfl
theorem ctrSetup (k : BitVec 17) : Statement (.ctrSetup k) := rfl
theorem ctrReception (k : BitVec 17) : Statement (.ctrReception k) := rfl
theorem ctrTransmission (k : BitVec 17) : Statement (.ctrTransmission k) := rfl
theorem irqReset (w : HalfWord) : Statement (.irqReset w) := rfl
theorem irqCtr (w : HalfWord) : Statement (.irqCtr w) := rfl
theorem irqSusp (w : HalfWord) : Statement (.irqSusp w) := rfl
theorem irqWkup (w : HalfWord) : Statement (.irqWkup w) := rfl

end Sys2Proof.Laws.EncodedLength
end

