-- ==== Sys2Proof/Tests/Slice0.lean ====
section
/-! SUPPORT. Tests of one step each on small states, with expected results from the spec's examples and
vectors (spec/95_test_vectors.md), the ill-formed terms the checks refuse, words written out from the
encoding tables, and a witness for the hypotheses of every statement. -/

namespace Sys2Proof.Tests

open Sys2Proof Sys2Proof.Machine

/-! ## Small states -/

/-- The next state of an instruction, if it has one. -/
def after (i : Instr) (s : State) : Option State :=
  match exec i s with
  | .next t => some t
  | .fault _ => none
  | .refused _ => none

/-- The next state of a step, if it has one. -/
def stepped (s : State) : Option State :=
  match step s with
  | .next t => some t
  | .fault _ => none
  | .refused _ => none

/-- The next state after `k` steps, if there is one. -/
def steppedBy (k : Nat) (s : State) : Option State :=
  match steps k s with
  | .next t => some t
  | .fault _ => none
  | .refused _ => none

/-- The fault of an instruction, if it has one. -/
def stops (i : Instr) (s : State) : Option Fault :=
  match exec i s with
  | .next _ => none
  | .fault f => some f
  | .refused _ => none

/-- Slot 1 as program P4 binds it. -/
def geom1 : Geometry := ⟨0x100, 64, 0x140, 64⟩

/-- The BDT entries of slots 0 and 1, as committed. -/
def bdt : List Host.Cell :=
  [(0, 0x40), (4, 0x80), (7, 0x10), (9, 0x01), (12, 0x40), (13, 0x01), (15, 0x84)]

/-- After `DC_INIT` with slot 1 bound, not connected. -/
def inited : State :=
  { State.powerOn Params.vectors with
    initialized := true, clkOn := true, vdetOn := true, cntr := 0x0002, devStatus := .powered, mem := bdt
    slots := (State.powerOn Params.vectors).slots.set 1 (.bound .generic geom1 .bulk) }

/-- Program P4 after its step 6: attached, EPR[0] = 0x3220, EPR[1] = 0x3001. -/
def ready : State :=
  { inited with
    irqEnabled := true, pinsAf := true, cntr := 0x9C00, bcdr := 0x8000, daddr := 0x0080, devStatus := .default
    eprs := ((Vector.replicate 8 0x0000).set 0 0x3220).set 1 0x3001 }

/-- `ready` with EPR[0] given. -/
def ep0 (w : HalfWord) : State := ready.setEpr 0 w

/-- `ready` with EPR[1] given. -/
def ep1 (w : HalfWord) : State := ready.setEpr 1 w

/-- A dispatch with the given snapshot and no row left. -/
def dispatching (w : HalfWord) (s : State) : State := { s with core := .dispatching w none [] [] }

/-- A setup packet in endpoint 0's receive buffer, reception `nak`. -/
def setupAt (k : SetupPacket) : State := (ep0 0x2A20).setBytes 0x80 k.bytes

/-- GET_DESCRIPTOR(device), wLength 18, without its request code. -/
def devRequest : Request := ⟨0x80, 0x0100, 0, 18⟩

/-- Its packet. -/
def devPacket : SetupPacket := ⟨0x80, 0x06, 0x0100, 0, 18⟩

/-- The test's device descriptor. -/
def dev18 : Descriptor := ⟨1, 0, [0x12, 0x01, 0x00, 0x02, 0x00, 0x00, 0x00, 0x08, 0x83, 0x04, 0x10, 0x57,
  0x00, 0x01, 0x01, 0x02, 0x03, 0x01]⟩

/-- Stage In with the cursor at byte 8. -/
def midTransfer : State := { ready with stage := .dataIn, remaining := 18, cursor := some ⟨dev18, 18, 8⟩ }

/-- Endpoint 0 with reception `nak`, where SETUP is taken only on `valid` (R18). -/
def validOnly : State :=
  { ep0 0x2220 with params := { Params.vectors with setupAccept := .validOnly } }

/-- APP running EP_CLEAR_CTR of endpoint 1, armed, an acknowledged IN to come between its two accesses. -/
def clearRace : State :=
  { ep1 0x3031 with app := .running [0x0114] [], turns := [.app, .bus, .app], busIn := [[0x04, 0x00, 0x81]] }

/-- `s` with ATOMIC_DISPATCH. -/
def atomically (s : State) : State := { s with params := { s.params with atomicDispatch := true } }

/-! ## Well-formedness: an ill-formed term for each check -/

theorem test_wf_pmRead : Instr.wf Params.vectors (.pmRead 0 1025) = false := by decide
set_option maxRecDepth 20000 in
theorem test_wf_pmWrite : Instr.wf Params.vectors (.pmWrite 0 (List.replicate 1025 0)) = false := by decide
set_option maxRecDepth 20000 in
theorem test_wf_epTransmit : Instr.wf Params.vectors (.epTransmit 1 (List.replicate 1024 0)) = false := by decide
theorem test_wf_epReceive : Instr.wf Params.vectors (.epReceive 1 1025) = false := by decide
set_option maxRecDepth 20000 in
theorem test_wf_busOut : Instr.wf Params.vectors (.busOut 0 0 (List.replicate 1024 0)) = false := by decide
theorem test_wf_setup_filtered :
    Instr.wf { Params.vectors with reqTypeFilter := .standardOnly } (.getStatus ⟨0x40, 0, 0, 0⟩) = false := by decide
theorem test_wf_unrecognised : Instr.wf Params.vectors (.unrecognisedRequest 0x06 devRequest) = false := by decide
theorem test_wf_ctr :
    Instr.wf Params.vectors (.ctrSetup 0x10000) = false ∧ Instr.wf Params.vectors (.ctrReception 0x10800) = false
    ∧ Instr.wf Params.vectors (.ctrTransmission 0x10000) = false := by decide
theorem test_wf_irq :
    Instr.wf Params.vectors (.irqReset 0x8000) = false ∧ Instr.wf Params.vectors (.irqCtr 0x8400) = false
    ∧ Instr.wf Params.vectors (.irqSusp 0x1000) = false ∧ Instr.wf Params.vectors (.irqWkup 0x0800) = false := by
  decide

/-! ## Decoding: words written out from the encoding tables -/

/-- CMD (R331 to R333): H = OP in bits 7:0, EP in bits 10:8; packet-memory family. -/
theorem test_decode_pm :
    decodeCmd Params.vectors [0x0001, 0x0006] = .ok (.pmReadHw 6)
    ∧ decodeCmd Params.vectors [0x0002, 0x0006, 0x1234] = .ok (.pmWriteHw 6 0x1234)
    ∧ decodeCmd Params.vectors [0x0003, 0x0007] = .ok (.pmReadB 7)
    ∧ decodeCmd Params.vectors [0x0004, 0x0007, 0x0012] = .ok (.pmWriteB 7 0x12)
    ∧ decodeCmd Params.vectors [0x0005, 0x0041, 0x0003] = .ok (.pmRead 0x41 3)
    ∧ decodeCmd Params.vectors [0x0006, 0x0041, 0x0003, 0xBBAA, 0x00CC] = .ok (.pmWrite 0x41 [0xAA, 0xBB, 0xCC])
    ∧ decodeCmd Params.vectors [0x0007] = .ok .pmClear
    ∧ decodeCmd Params.vectors [0x0008, 0x0003] = .ok (.bdtRead 0 .countRx)
    ∧ decodeCmd Params.vectors [0x0109, 0x0001, 0x0005] = .ok (.bdtWrite 1 .countTx 5) := by decide

theorem test_decode_ep :
    decodeCmd Params.vectors [0x0110, 0x0002] = .ok (.epSetAddress 1 2)
    ∧ decodeCmd Params.vectors [0x0111, 0x0003] = .ok (.epSetType 1 .interrupt)
    ∧ decodeCmd Params.vectors [0x0112, 0x0001] = .ok (.epSetTxStatus 1 .stall)
    ∧ decodeCmd Params.vectors [0x0113, 0x0000] = .ok (.epSetRxStatus 1 .disabled)
    ∧ decodeCmd Params.vectors [0x0114] = .ok (.epClearCtr 1)
    ∧ decodeCmd Params.vectors [0x0115, 0x0200, 0x0010, 0x0240, 0x0020] = .ok (.epSetBd 1 ⟨0x200, 16, 0x240, 32⟩)
    ∧ decodeCmd Params.vectors [0x0116] = .ok (.epInitBd 1)
    ∧ decodeCmd Params.vectors [0x0117, 0x0003, 0xB2A1, 0x00C3] = .ok (.epTransmit 1 [0xA1, 0xB2, 0xC3])
    ∧ decodeCmd Params.vectors [0x0118, 0x0004] = .ok (.epReceive 1 4)
    ∧ decodeCmd Params.vectors [0x0119] = .ok (.epGetRxLen 1)
    ∧ decodeCmd Params.vectors [0x011A] = .ok (.epReset 1)
    ∧ decodeCmd Params.vectors [0x071B] = .ok (.epInit 7) := by decide

theorem test_decode_dc :
    decodeCmd Params.vectors [0x0020] = .ok .dcInit ∧ decodeCmd Params.vectors [0x0021] = .ok .dcConnect
    ∧ decodeCmd Params.vectors [0x0022] = .ok .dcDisconnect
    ∧ decodeCmd Params.vectors [0x0123, 0x0000, 0x0100, 0x0040, 0x0140, 0x0040] = .ok (.dcSetEndpoint 1 .bulk geom1)
    ∧ decodeCmd Params.vectors [0x0024] = .ok .dcGetStatus ∧ decodeCmd Params.vectors [0x0030] = .ok .dcIrq := by
  decide

/-- Illegal command encodings (R360): reserved header bits, an unknown OP, EP where none is taken, a wide operand, a length
over PM_SIZE, a short command, non-zero padding, DC_IRQ with an endpoint, and with a reserved bit (log 14). -/
theorem test_decode_illegal :
    decodeCmd Params.vectors [0x0801, 0x0006] = .error .badEncoding
    ∧ decodeCmd Params.vectors [0x00FF] = .error .badEncoding
    ∧ decodeCmd Params.vectors [0x0107] = .error .badEncoding
    ∧ decodeCmd Params.vectors [0x0112, 0x0004] = .error .badEncoding
    ∧ decodeCmd Params.vectors [0x0118, 0x0401] = .error .badEncoding
    ∧ decodeCmd Params.vectors [0x0002, 0x0006] = .error .badEncoding
    ∧ decodeCmd Params.vectors [0x0006, 0x0041, 0x0001, 0x01AA] = .error .badEncoding
    ∧ decodeCmd Params.vectors [] = .error .badEncoding
    ∧ decodeCmd Params.vectors [0x0130] = .error .irqByApp
    ∧ decodeCmd Params.vectors [0x0830] = .error .badEncoding := by decide

/-- SETUP (R320 to R323, R506), every request code and the filter. -/
theorem test_decode_setup :
    decodeSetup Params.vectors (.ofBytes [0x80, 0x00, 0, 0, 0, 0, 0x02, 0]) = .getStatus ⟨0x80, 0, 0, 2⟩
    ∧ decodeSetup Params.vectors (.ofBytes [0x02, 0x01, 0, 0, 0x81, 0, 0, 0]) = .clearFeature ⟨0x02, 0, 0x81, 0⟩
    ∧ decodeSetup Params.vectors (.ofBytes [0x00, 0x03, 0x01, 0, 0, 0, 0, 0]) = .setFeature ⟨0, 1, 0, 0⟩
    ∧ decodeSetup Params.vectors (.ofBytes [0x00, 0x05, 0x05, 0, 0, 0, 0, 0]) = .setAddress ⟨0, 5, 0, 0⟩
    ∧ decodeSetup Params.vectors (.ofBytes [0x80, 0x06, 0x00, 0x01, 0, 0, 0x12, 0]) = .getDescriptor devRequest
    ∧ decodeSetup Params.vectors (.ofBytes [0x00, 0x07, 0x00, 0x01, 0, 0, 0x12, 0]) = .setDescriptor ⟨0, 0x100, 0, 18⟩
    ∧ decodeSetup Params.vectors (.ofBytes [0x80, 0x08, 0, 0, 0, 0, 0x01, 0]) = .getConfiguration ⟨0x80, 0, 0, 1⟩
    ∧ decodeSetup Params.vectors (.ofBytes [0x00, 0x09, 0x01, 0, 0, 0, 0, 0]) = .setConfiguration ⟨0, 1, 0, 0⟩
    ∧ decodeSetup Params.vectors (.ofBytes [0x81, 0x0A, 0, 0, 0, 0, 0x01, 0]) = .unrecognisedRequest 0x0A ⟨0x81, 0, 0, 1⟩
    ∧ decodeSetup { Params.vectors with reqTypeFilter := .standardOnly }
        (.ofBytes [0xC0, 0x06, 0x00, 0x01, 0, 0, 0x12, 0]) = .unrecognisedRequest 0x06 ⟨0xC0, 0x100, 0, 18⟩ := by decide

/-- BUS (R340, R341, R361). -/
theorem test_decode_bus :
    decodeBus [0x01] = some .reset
    ∧ decodeBus [0x02, 0x00, 0x00, 0x80, 0x06, 0x00, 0x01, 0x00, 0x00, 0x12, 0x00] = some (.setup 0 0 devPacket)
    ∧ decodeBus [0x03, 0x05, 0x01, 0x02, 0x00, 0xAA, 0xBB] = some (.out 5 1 [0xAA, 0xBB])
    ∧ decodeBus [0x04, 0x05, 0x80] = some (.tokenIn 5 0 true)
    ∧ decodeBus [0x05] = some .suspend ∧ decodeBus [0x06] = some .resume
    ∧ decodeBus [0x07] = none ∧ decodeBus [0x04, 0x85, 0x80] = none ∧ decodeBus [0x04, 0x05, 0x90] = none
    ∧ decodeBus [0x03, 0x05, 0x01, 0x03, 0x00, 0xAA, 0xBB] = none := by decide

/-- HOOK (R350), CTRD (R351), ISTRD (R352). -/
theorem test_decode_rows :
    decodeHook 0x0 = some .genericOnInit ∧ decodeHook 0xC = some .controlOnTransmissionComplete
    ∧ decodeHook 0x5 = none ∧ decodeHook 0xF = none
    ∧ decodeCtrd 0x1AA20 = [.ctrSetup 0x1AA20] ∧ decodeCtrd 0x1A220 = [.ctrReception 0x1A220]
    ∧ decodeCtrd 0x0A2A0 = [.ctrTransmission 0x0A2A0]
    ∧ decodeIstrd 0x8C10 = [.irqReset 0x8C10]
    ∧ decodeIstrd 0x9810 = [.irqCtr 0x9810, .irqSusp 0x9810, .irqWkup 0x9810] := by decide

/-- Table words (log 19). -/
theorem test_decode_table :
    decodeTableWord 16 0x0001 = some (.pmReadHw 0) ∧ decodeTableWord 8 0x01 = some .busReset
    ∧ decodeTableWord 4 0xC = some .controlOnTransmissionComplete
    ∧ decodeTableWord 17 0x10800 = some (.ctrSetup 0x10800) := by decide

/-! ## Endpoint-register write (R102, R451): V2.1.1 to V2.1.9 -/

theorem test_toggle_safe :
    toggleSafeWrite 0x0220 { statRx := some 3 } {} = 0xB280 ∧ eprSwWrite 0x0220 0xB280 = 0x3220
    ∧ toggleSafeWrite 0x3220 { statTx := some 1 } {} = 0x82B0 ∧ eprSwWrite 0x3220 0x82B0 = 0x3210
    ∧ toggleSafeWrite 0xEA60 {} { ctrRx := true, ctrTx := true } = 0x0200 ∧ eprSwWrite 0xEA60 0x0200 = 0x6A60
    ∧ toggleSafeWrite 0x80A0 {} { ctrTx := true } = 0x8000 ∧ eprSwWrite 0x80A0 0x8000 = 0x8020
    ∧ toggleSafeWrite 0x8031 { ea := some 2 } {} = 0x8082 ∧ eprSwWrite 0x8031 0x8082 = 0x8032
    ∧ toggleSafeWrite 0x0000 { epType := some 3 } {} = 0x8680
    ∧ toggleSafeWrite 0x0200 { epKind := some true } {} = 0x8380 := by decide

/-- V2.1.10 and V2.1.11: a flag kept across a race, and a status lost to one. -/
theorem test_toggle_race : eprSwWrite 0xE220 0x8290 = 0xE230 ∧ eprSwWrite 0x02E0 0x8290 = 0x02F0 := by decide

/-! ## Packet memory: V2.2 -/

theorem test_pmReadHw :
    (after (.pmReadHw 6) (inited.setCell 3 0xBEEF)).map State.trace = some [.result (.u16 0xBEEF)]
    ∧ (after (.pmReadHw 0x3FF) inited).map State.faults = some [⟨.pmAlign 0x3FF, .app, 402⟩] := by decide
theorem test_pmReadHw_range :
    (after (.pmReadHw 0x400) inited).map State.faults = some [⟨.pmRange 0x400, .app, 402⟩]
    ∧ (after (.pmReadHw 0x3FE) inited).map State.faults = some [] := by decide
theorem test_pmWriteHw :
    (after (.pmWriteHw 6 0x1234) inited).map (fun t => (t.byte 6, t.byte 7)) = some (0x34, 0x12)
    ∧ (after (.pmWriteHw 0x0E 0) ready).map State.faults = some [⟨.pmOwnership 1 0x0E, .app, 403⟩] := by decide
theorem test_pmReadB :
    (after (.pmReadB 7) (inited.setCell 3 0xBEEF)).map State.trace = some [.result (.u8 0xBE)]
    ∧ (after (.pmReadB 6) (inited.setCell 3 0xBEEF)).map State.trace = some [.result (.u8 0xEF)] := by decide
theorem test_pmWriteB :
    (after (.pmWriteB 7 0x12) (inited.setCell 3 0xBEEF)).map (fun t => t.cell 3) = some 0x12EF
    ∧ (after (.pmWriteB 0x400 0) inited).map State.faults = some [⟨.pmRange 0x400, .app, 405⟩] := by decide
theorem test_pmRead :
    (after (.pmRead 0x41 3) ((inited.setCell 0x20 0xAA00).setCell 0x21 0xCCBB)).map State.trace
      = some [.result (.bytes [0xAA, 0xBB, 0xCC])]
    ∧ (after (.pmRead 0xFFFF 0) inited).map State.trace = some [.result (.bytes [])]
    ∧ (after (.pmRead 0x13F 2) ready).map State.faults = some [⟨.pmOwnership 1 0x140, .app, 406⟩] := by decide
theorem test_pmWrite :
    (after (.pmWrite 0x41 [1, 2, 3, 4]) (((inited.setCell 0x20 0x1111).setCell 0x21 0x2222).setCell 0x22 0x3333)).map
      (fun t => [t.cell 0x20, t.cell 0x21, t.cell 0x22]) = some [0x0111, 0x0302, 0x3304]
    ∧ (after (.pmWrite 0x13E [1, 2, 3, 4]) ready).map (fun t => (t.faults, t.mem))
      = some ([⟨.pmOwnership 1 0x140, .app, 407⟩], bdt) := by decide
set_option maxRecDepth 20000 in
theorem test_pmClear_faults :
    (after .pmClear ready).map (fun t => (t.faults, t.mem)) = some ([⟨.pmOwnership 0 4, .app, 408⟩], bdt) := by decide
theorem test_bdtRead : (after (.bdtRead 0 .countRx) ready).map State.trace = some [.result (.u16 0x1000)] := by decide
theorem test_bdtWrite :
    (after (.bdtWrite 1 .countTx 5) ready).map (fun t => t.cell 5) = some 5
    ∧ (after (.bdtWrite 1 .countRx 0) ready).map State.faults = some [⟨.pmOwnership 1 0x0E, .app, 411⟩] := by decide
/-- V2.3: codes of the receive count. -/
theorem test_rx_codes :
    [encodeRx 2, encodeRx 32, encodeRx 62, encodeRx 64, encodeRx 96, encodeRx 1024]
      = [0x0400, 0x4000, 0x7C00, 0x8400, 0x8800, 0xFC00]
    ∧ [capacity 0x0000, capacity 0x8000, capacity 0x1005, rxCount 0x8405, rxCount 0xFFFF] = [0, 32, 8, 5, 0x3FF]
    ∧ [rxEncodable 0, rxEncodable 1, rxEncodable 63, rxEncodable 65, rxEncodable 1056] = List.replicate 5 false := by
  decide

/-! ## Endpoint commands: V2.4 -/

theorem test_epSetAddress : (after (.epSetAddress 1 2) ready).map (fun t => t.epr 1) = some 0x3002 := by decide
theorem test_epSetType : (after (.epSetType 1 .interrupt) ready).map (fun t => t.epr 1) = some 0x3601 := by decide
theorem test_epSetTxStatus :
    (after (.epSetTxStatus 1 .stall) ready).map (fun t => t.epr 1) = some 0x3011
    ∧ (after (.epSetTxStatus 1 .valid) (ep1 0x0020)).map (fun t => t.epr 1) = some 0x0030
    ∧ (after (.epSetTxStatus 1 .valid) (ep1 0x0030)).map (fun t => t.epr 1) = some 0x0030 := by decide
theorem test_epSetRxStatus : (after (.epSetRxStatus 1 .disabled) ready).map (fun t => t.epr 1) = some 0x0001 := by decide
theorem test_epClearCtr : (after (.epClearCtr 1) (ep1 0xE001)).map (fun t => t.epr 1) = some 0x6001 := by decide
theorem test_epSetBd :
    (after (.epSetBd 1 ⟨0x200, 16, 0x240, 32⟩) ready).map (fun t => (t.geom 1, t.mem)) = some (⟨0x200, 16, 0x240, 32⟩, bdt)
    ∧ (after (.epSetBd 1 ⟨0x100, 64, 0x140, 65⟩) ready).map State.refusals = some [.geometry]
    ∧ (after (.epSetBd 1 ⟨0x20, 8, 0x140, 64⟩) ready).map State.refusals = some [.geometry]
    ∧ (after (.epSetBd 1 ⟨0x44, 8, 0x140, 64⟩) ready).map State.refusals = some [.geometry]
    ∧ (after (.epSetBd 1 ⟨0x101, 8, 0x140, 64⟩) ready).map State.refusals = some [.geometry] := by decide
theorem test_epInitBd :
    (after (.epInitBd 1) (ep1 0x2001)).map (fun t => [t.cell 4, t.cell 5, t.cell 6, t.cell 7])
      = some [0x0100, 0x0000, 0x0140, 0x8400]
    ∧ (after (.epInitBd 1) ready).map State.faults = some [⟨.pmOwnership 1 0x0C, .app, 459⟩] := by decide
theorem test_epTransmit :
    (after (.epTransmit 1 [0xA1, 0xB2, 0xC3]) ready).map (fun t => (t.cell 0x80, t.cell 0x81, t.cell 5, t.epr 1))
      = some (0xB2A1, 0x00C3, 3, 0x3031)
    ∧ (after (.epTransmit 1 [0xA1]) (ep1 0x3031)).map State.faults = some [⟨.pmOwnership 1 0x100, .app, 460⟩]
    ∧ (after (.epTransmit 1 []) (ep1 0x3031)).map State.faults = some [⟨.pmOwnership 1 0x0A, .app, 460⟩] := by decide
set_option maxRecDepth 20000 in
/-- Vector 1.1: truncation to txSize is silent. -/
theorem test_epTransmit_truncates :
    (after (.epTransmit 1 (List.replicate 70 7)) ready).map (fun t => (t.cell 5, t.byte 0x13F, t.byte 0x140))
      = some (64, 7, 0) := by decide
theorem test_epReceive :
    (after (.epReceive 1 3) (((ep1 0x6001).setCell 7 0x8405).setBytes 0x140 [0x11, 0x22, 0x33, 0x44, 0x55])).map
      (fun t => (t.trace, t.epr 1)) = some ([.result (.bytes [0x11, 0x22, 0x33])], 0x7001)
    ∧ (after (.epReceive 1 4) (ready.setCell 7 0x8405)).map State.faults = some [⟨.pmOwnership 1 0x140, .app, 461⟩]
    ∧ (after (.epReceive 1 4) ready).map State.trace = some [.result (.bytes [])] := by decide
theorem test_epGetRxLen : (after (.epGetRxLen 1) (ready.setCell 7 0x8405)).map State.trace = some [.result (.u16 5)] := by
  decide
theorem test_epReset :
    (after (.epReset 1) (ep1 0x0004)).map (fun t => (t.epr 1, t.cell 7)) = some (0x0001, 0x8400) := by decide
theorem test_epInit :
    (after (.epInit 1) (((ep1 0x0001).setCell 5 9))).map (fun t => (t.epr 1, t.cell 5)) = some (0x0001, 0) := by decide
/-- V2.4.21 to V2.4.25: admission. -/
theorem test_admission :
    (after (.epSetTxStatus 1 .valid) (State.powerOn Params.vectors)).map State.refusals = some [.notInit]
    ∧ (after (.epSetTxStatus 0 .valid) (State.powerOn Params.vectors)).map State.refusals = some [.notInit]
    ∧ (after (.epSetTxStatus 0 .valid) ready).map State.refusals = some [.ep0App]
    ∧ (after (.epSetTxStatus 2 .valid) ready).map State.refusals = some [.epUnbound]
    ∧ (after (.bdtWrite 0 .addrTx 0x40) ready).map State.refusals = some [.ep0App]
    ∧ (after .dcIrq { ready with app := .running [] [] }).map State.refusals = some [.irqByApp] := by decide

/-! ## Device controller -/

set_option maxRecDepth 100000 in
theorem test_dcInit :
    (after .dcInit { State.powerOn Params.vectors with istr := 0x0400, daddr := 0x85 }).map
      (fun t => (t.cntr, t.istr, t.daddr, t.cell 0, t.cell 3)) = some (0x0002, 0, 0, 0x0040, 0x1000) := by decide
set_option maxRecDepth 100000 in
theorem test_pmClear : (after .pmClear (inited.setCell 0x1FF 0xA55A)).map State.mem = some [] := by decide
theorem test_dcConnect :
    (after .dcConnect inited).map (fun t => (t.cntr, t.bcdr, t.attached)) = some (0x9C00, 0x8000, true) := by decide
theorem test_dcDisconnect :
    (after .dcDisconnect ready).map (fun t => (t.cntr, t.bcdr, t.irqEnabled, t.devStatus))
      = some (0x0002, 0, false, .default) := by decide
theorem test_dcSetEndpoint :
    (after (.dcSetEndpoint 2 .bulk ⟨0x200, 16, 0x240, 32⟩) ready).map (fun t => t.slot 2)
      = some (.bound .generic ⟨0x200, 16, 0x240, 32⟩ .bulk)
    ∧ (after (.dcSetEndpoint 0 .control geom1) ready).map State.refusals = some [.ep0Bound]
    ∧ (after (.dcSetEndpoint 2 .control geom1) ready).map State.refusals = some [.badType]
    ∧ (after (.dcSetEndpoint 2 .bulk geom1) ready).map State.refusals = some [.geometry] := by decide
theorem test_dcGetStatus : (after .dcGetStatus ready).map State.trace = some [.result (.u16 2)] := by decide
theorem test_dcIrq :
    (after .dcIrq ((ep0 0xEA60).setIstr 0)).map State.core = some (.dispatching 0x8010 none [.irqCtr 0x8010] [])
    ∧ stops .dcIrq ready = some .dispatchNotEnabled := by decide
set_option maxRecDepth 20000 in
theorem test_irqReset :
    (after (.irqReset 0x0400) { midTransfer with eprs := Vector.replicate 8 0, istr := 0 }).map
      (fun t => (t.daddr, t.epr 0, t.epr 1, t.devStatus, t.trace))
      = some (0x0080, 0x3220, 0x0001, .default, [.descDeinit, .cbReset]) := by decide
theorem test_irqCtr :
    (after (.irqCtr 0x8010) (dispatching 0x8010 (setupAt ⟨0x00, 0x05, 5, 0, 0⟩ |>.setEpr 0 0xAA20))).map
      (fun t => (t.epr 0, t.deferred, t.daddr)) = some (0x3A30, 5, 0x0080)
    ∧ (after (.irqCtr 0x8011) (dispatching 0x8011 (ep1 0xE001))).map (fun t => t.epr 1) = some 0x6001 := by decide
theorem test_irqSusp :
    (after (.irqSusp 0x0800) { ready with devStatus := .configured }).map
      (fun t => (t.cntr, t.preSuspend, t.devStatus, t.trace)) = some (0x9C08, .configured, .suspended, [.cbSuspend]) := by
  decide
theorem test_irqWkup :
    (after (.irqWkup 0x1000) { ready with devStatus := .suspended, preSuspend := .configured, cntr := 0x9C08 }).map
      (fun t => (t.cntr, t.devStatus, t.trace)) = some (0x9C00, .configured, [.cbResume])
    ∧ (after (.irqWkup 0x1000) { ready with cntr := 0x9C08 }).map (fun t => (t.cntr, t.trace)) = some (0x9C00, []) := by
  decide
theorem test_ctrRows :
    (after (.ctrSetup 0x1AA20) (dispatching 0x8010 (setupAt ⟨0x00, 0x09, 1, 0, 0⟩))).map State.devStatus
      = some .configured
    ∧ (after (.ctrReception 0x1A220) (dispatching 0x8010 { ep0 0x2220 with deferred := 5 })).map State.daddr = some 0x0085
    ∧ (after (.ctrTransmission 0x0A2A0) (dispatching 0x8000 { ep0 0x2220 with deferred := 5 })).map State.daddr
      = some 0x0085
    ∧ stops (.ctrSetup 0x1AA20) ready = some .notDispatching := by decide

/-! ## Control sequencer: V2.5 -/

theorem test_getStatus :
    (after (.getStatus ⟨0x80, 0, 0, 2⟩) (ready.setCell 0x20 0xFFFF)).map (fun t => (t.cell 0x20, t.cell 1, t.epr 0))
      = some (0x0000, 2, 0x3230) := by decide
theorem test_zero_length_requests :
    (after (.clearFeature ⟨2, 0, 0x81, 0⟩) ready).map (fun t => (t.cell 1, t.epr 0)) = some (0, 0x3230)
    ∧ (after (.setFeature ⟨0, 1, 0, 0⟩) ready).map (fun t => (t.cell 1, t.epr 0)) = some (0, 0x3230)
    ∧ (after (.setDescriptor ⟨0, 0x100, 0, 18⟩) ready).map (fun t => (t.cell 1, t.epr 0)) = some (0, 0x3230) := by decide
theorem test_setAddress :
    (after (.setAddress ⟨0, 0x85, 0, 0⟩) ready).map (fun t => (t.deferred, t.daddr, t.devStatus))
      = some (0x85, 0x0080, .default) := by decide
theorem test_getDescriptor :
    (after (.getDescriptor devRequest) ready).map (fun t => (t.cursor.map Cursor.off, t.trace, t.cell 1, t.byte 0x47))
      = some (some 8, [.descLookup 1 0 true, .descInit], 8, 0x08)
    ∧ (after (.getDescriptor ⟨0x80, 0x0300, 0, 0xFF⟩) ready).map (fun t => (t.epr 0, t.trace))
      = some (0x3220, [.descLookup 3 0 false]) := by decide
theorem test_getConfiguration :
    (after (.getConfiguration ⟨0x80, 0, 0, 1⟩) ready).map (fun t => (t.cell 1, t.epr 0)) = some (1, 0x3230) := by decide
theorem test_setConfiguration :
    (after (.setConfiguration ⟨0, 0, 0, 0⟩) ready).map State.devStatus = some .configured := by decide
theorem test_unrecognised :
    (after (.unrecognisedRequest 0x0A ⟨0x81, 0, 0, 1⟩) ready).map (fun t => decide (t = ready)) = some true := by decide
set_option maxRecDepth 20000 in
/-- Vector 1.5. -/
theorem test_controlOnReset :
    [0x0000, 0x7A70, 0x0210, 0x1210].map (fun w => (after .controlOnReset (ep0 w)).map fun t => t.epr 0)
      = [some 0x3220, some 0x7A60, some 0x3220, some 0x3220] := by decide
theorem test_controlOnSetup :
    (after .controlOnSetupReceptionComplete (setupAt devPacket)).map
      (fun t => (t.stage, t.remaining, t.cursor.map Cursor.off, t.epr 0)) = some (.dataIn, 18, some 8, 0x3A30)
    ∧ (after .controlOnSetupReceptionComplete (ep0 0x3220)).map State.faults = some [⟨.pmOwnership 0 0x80, .core, 503⟩] := by
  decide
theorem test_controlOnReception :
    (after .controlOnReceptionComplete { ep0 0x2220 with deferred := 5 }).map (fun t => (t.daddr, t.devStatus, t.epr 0))
      = some (0x0085, .addressed, 0x3220)
    ∧ (after .controlOnReceptionComplete (midTransfer.setEpr 0 0x2230)).map State.faults
      = some [⟨.pmOwnership 0 0x40, .core, 460⟩] := by decide
theorem test_controlOnTransmission :
    (after .controlOnTransmissionComplete midTransfer).map (fun t => (t.cursor.map Cursor.off, t.byte 0x40, t.epr 0))
      = some (some 16, 0x83, 0x3230)
    ∧ (after .controlOnTransmissionComplete { midTransfer with cursor := some ⟨dev18, 18, 16⟩ }).map
      (fun t => (t.cursor, t.trace, t.cell 1)) = some (none, [.descDeinit], 2) := by decide
theorem test_generic_hooks :
    [Instr.genericOnInit, .genericOnReset, .genericOnSetupReceptionComplete, .genericOnReceptionComplete,
     .genericOnTransmissionComplete, .controlOnInit].map (fun i => (after i ready).map fun t => decide (t = ready))
      = List.replicate 6 (some true) := by decide

/-! ## Bus engine -/

theorem test_busReset :
    (after .busReset ready).map (fun t => (t.epr 0, t.epr 1, t.daddr)) = some (0, 0, 0)
    ∧ (after .busReset ready).map (fun t => (t.istr, t.mem)) = some (0x0400, bdt)
    ∧ stops .busReset inited = some .busNotEnabled := by decide
theorem test_busSetup :
    (after (.busSetup 0 0 devPacket) ready).map (fun t => (t.epr 0, t.cell 3, t.byte 0x86)) = some (0xEA60, 0x1008, 0x12)
    ∧ (after (.busSetup 0 1 devPacket) ready).map (fun t => decide (t = ready)) = some true := by decide
theorem test_busOut :
    (after (.busOut 0 0 []) ready).map (fun t => (t.epr 0, t.cell 3)) = some (0xE220, 0x1000)
    ∧ (after (.busOut 0 0 (List.replicate 9 1)) ready).map (fun t => decide (t = ready)) = some true
    ∧ (after (.busOut 0 1 [1]) (ready.setEpr 2 0x3001)).map State.faults = some [⟨.eaDuplicate 1, .bus, 654⟩] := by decide
theorem test_busIn :
    (after (.busIn 0 0 true) ((ep0 0x0230).setCell 1 2)).map (fun t => (t.epr 0, t.trace)) = some (0x02E0, [.hostIn 0 [0, 0]])
    ∧ (after (.busIn 0 0 false) ((ep0 0x0230).setCell 1 2)).map (fun t => t.epr 0) = some 0x0230
    ∧ stops (.busIn 0 1 true) (ep1 0x0431) = some .busNotEnabled := by decide
theorem test_busSuspend_busResume :
    (after .busSuspend ready).map State.istr = some 0x0800 ∧ (after .busResume ready).map State.istr = some 0x1000 := by
  decide

/-! ## Witnesses: for every statement with hypotheses, a state and operands that meet them, clause by clause -/

/-- An instruction with a next state at hand answers it. -/
theorem next_of_after {i : Instr} {s t : State} (h : after i s = some t) : exec i s = .next t := by
  unfold after at h
  split at h
  · rename_i heq; rw [heq]; cases h; rfl
  · cases h
  · cases h

/-- A step with a next state at hand answers it. -/
theorem next_of_stepped {s t : State} (h : stepped s = some t) : step s = .next t := by
  unfold stepped at h
  split at h
  · rename_i heq; rw [heq]; cases h; rfl
  · cases h
  · cases h

theorem ready_memOk : ready.MemOk := by unfold State.MemOk; decide
theorem ready_slotsOk : ready.SlotsOk := by unfold State.SlotsOk; decide
theorem ready_bootOk : ready.BootOk := by unfold State.BootOk; decide
theorem ready_reservedZero : ready.ReservedZero := by unfold State.ReservedZero; decide
theorem ready_exclusive : ready.Exclusive := by unfold State.Exclusive; decide
theorem ready_neverAttached : ready.NeverAttached := by unfold State.NeverAttached; decide
theorem ready_cursorOk : ready.CursorOk := by intro c h; cases h
theorem ready_rowsOk : ready.RowsOk := by intro w e rest had h; cases h
theorem ready_atStart : ready.AtStart := ⟨(by intro w e rest had h; cases h), (by intro ws had h; cases h)⟩
theorem ready_geomOk0 : ready.geomOk 0 (ready.geom 0) = true := by decide
theorem ready_geomOk1 : ready.geomOk 1 (ready.geom 1) = true := by decide
theorem ready_bound : ∀ n : EpNum, ready.isBound n = true → n = 0 ∨ n = 1 := by decide
theorem ready_geomsOk : ready.GeomsOk := by
  intro n h
  rcases ready_bound n h with rfl | rfl
  · exact ready_geomOk0
  · exact ready_geomOk1
theorem midTransfer_cursorOk : midTransfer.CursorOk := by
  intro c h
  obtain rfl : _ = c := Option.some.inj h
  decide

theorem test_witness_BootReachesResetTable : paramsValid Params.vectors = true := by decide

theorem test_witness_BusResetRecovers :
    paramsValid ready.params = true ∧ ready.faults = [] ∧ ready.attached = true
    ∧ ready.irqEnabled = true ∧ ready.cntr.getLsbD 10 = true ∧ ready.core = .idle ∧ ready.app = .idle
    ∧ ready.turns = [] ∧ ready.SlotsOk ∧ ready.BootOk :=
  ⟨by decide, rfl, by decide, by decide, by decide, rfl, rfl, rfl, ready_slotsOk, ready_bootOk⟩

theorem test_witness_PacketMemoryReads :
    ready.initialized = true ∧ (0x3FE : HalfWord).toNat % 2 = 0
    ∧ ready.mayRead 0x3FE 2 = true ∧ ready.mayRead 0x3FF 1 = true ∧ ready.mayRead 0x3FD 3 = true
    ∧ ready.mayRead 0x100 2 = true := by decide

theorem test_witness_PacketMemoryWrites :
    inited.initialized = true ∧ Memory.wf inited.mem = true ∧ (∀ c ∈ inited.mem, c.1 < 1024)
    ∧ inited.params.pmSize % 2 = 0 ∧ inited.mayWrite 0x3FE 2 = true ∧ inited.mayWrite 0x3FF 1 = true
    ∧ inited.mayWrite 0x3FD 3 = true ∧ inited.mayWrite 0 1024 = true := by decide

/-- In range at the table's last field; not owned, owned on each side; out of range. -/
theorem test_witness_BdtReadWrite :
    ready.initialized = true
    ∧ 8 * ((ready.setBtable 0x3C0).btable.toNat / 8) + 8 * 7 + 2 * BdtField.countRx.code.toNat + 1 < 1024
    ∧ ready.attached = true ∧ ready.statTx 1 ≠ .valid ∧ ready.statRx 7 ≠ .valid ∧ ready.statRx 1 = .valid
    ∧ (ep1 0x0031).statTx 1 = .valid
    ∧ 1024 ≤ 8 * ((ready.setBtable 0x3F8).btable.toNat / 8) + 8 * 1 + 2 * BdtField.addrTx.code.toNat + 1 := by decide

set_option maxRecDepth 20000 in
theorem test_witness_PacketMemoryFaults :
    ready.initialized = true ∧ (0x41 : HalfWord).toNat % 2 = 1
    ∧ ((0x400 : HalfWord).toNat % 2 = 0 ∧ ready.params.pmSize ≤ (0x400 : HalfWord).toNat + 1)
    ∧ ready.params.pmSize ≤ (0x400 : HalfWord).toNat
    ∧ ((2 : HalfWord) ≠ 0 ∧ ready.params.pmSize < (0x3FF : HalfWord).toNat + 2)
    ∧ ready.firstOwnedR 0x140 2 = some (1, 0x140) ∧ ready.firstOwnedW 0x0E 2 = some (1, 0x0E)
    ∧ ready.firstOwnedR 0x140 1 = some (1, 0x140) ∧ ready.firstOwnedW 0x140 1 = some (1, 0x140)
    ∧ ready.firstOwnedR 0x13F 2 = some (1, 0x140) ∧ ready.firstOwnedW 0x13E 4 = some (1, 0x140)
    ∧ ready.firstOwnedW 0 1024 = some (0, 4) := by decide

theorem test_witness_BufferOwnership :
    (ready.firstOwnedW 0x17F 1).isSome = true ∧ (ready.firstOwnedW 0x180 1).isSome = false
    ∧ (ready.firstOwnedR 0x140 1).isSome = true ∧ (ready.firstOwnedR 0x13F 1).isSome = false
    ∧ ((ep1 0x0031).firstOwnedW 0x0B 1).isSome = true ∧ (inited.firstOwnedW 0 64).isSome = false := by decide

theorem test_witness_WriteReadRoundTrip :
    inited.initialized = true ∧ Memory.wf inited.mem = true
    ∧ ([0xAA, 0xBB, 0xCC] : List Byte).length = (3 : HalfWord).toNat ∧ 0x3FD + 3 ≤ inited.params.pmSize
    ∧ inited.firstOwnedW 0x3FD 3 = none ∧ inited.firstOwnedR 0x3FD 3 = none := by decide

theorem test_witness_ReceiveCountCodes :
    ((2 : HalfWord).toNat % 2 = 0 ∧ 2 ≤ (2 : HalfWord).toNat ∧ (2 : HalfWord).toNat ≤ 62)
    ∧ ((62 : HalfWord).toNat % 2 = 0 ∧ (62 : HalfWord).toNat ≤ 62)
    ∧ ((64 : HalfWord).toNat % 32 = 0 ∧ 64 ≤ (64 : HalfWord).toNat)
    ∧ ((1024 : HalfWord).toNat % 32 = 0 ∧ (1024 : HalfWord).toNat ≤ 1024) := by decide

theorem test_witness_MemoryFrame :
    Memory.wf inited.mem = true ∧ inited.SlotsOk
    ∧ (after (.pmWrite 0x41 [1, 2]) inited).isSome = true
    ∧ (∀ r ∈ inited.stores (.pmWrite 0x41 [1, 2]), 0x40 < r.1 ∨ r.1 + r.2 ≤ 0x40)
    ∧ (∀ r ∈ inited.stores (.pmWrite 0x41 [1, 2]), 0x43 < r.1 ∨ r.1 + r.2 ≤ 0x43) := by
  refine ⟨by decide, ?_, by decide, by decide, by decide⟩
  unfold State.SlotsOk; decide

set_option maxRecDepth 100000 in
theorem test_witness_PeripheralRegisterFrame :
    ready.SlotsOk ∧ (after (.epSetAddress 1 2) ready).isSome = true ∧ 0 ∉ ready.touches (.epSetAddress 1 2)
    ∧ (after .dcDisconnect ready).map (fun t => decide (t.cntr ≠ ready.cntr)) = some true
    ∧ (after .busReset ready).map (fun t => decide (t.daddr ≠ ready.daddr ∧ t.istr ≠ ready.istr)) = some true
    ∧ (after .dcDisconnect ready).map (fun t => decide (t.bcdr ≠ ready.bcdr)) = some true
    ∧ (after .dcInit (ready.setBtable 8)).map (fun t => decide (t.btable ≠ 8)) = some true :=
  ⟨ready_slotsOk, by decide, by decide, by decide, by decide, by decide, by decide⟩

theorem test_witness_ControllerStateFrame :
    (after (.epSetBd 1 ⟨0x200, 16, 0x240, 32⟩) ready).map (fun t => decide (t.slots ≠ ready.slots)) = some true
    ∧ (after .dcDisconnect ready).map (fun t => decide (t.pinsAf ≠ ready.pinsAf)) = some true
    ∧ (after (.irqSusp 0x0800) ready).map (fun t => decide (t.preSuspend ≠ ready.preSuspend)) = some true
    ∧ (after .dcIrq (ep0 0xEA60)).map (fun t => decide (t.core ≠ ready.core)) = some true
    ∧ (after .controlOnReset midTransfer).map
      (fun t => decide (t.stage ≠ midTransfer.stage ∧ t.cursor ≠ midTransfer.cursor)) = some true
    ∧ (after (.setAddress ⟨0, 5, 0, 0⟩) ready).map (fun t => decide (t.deferred ≠ ready.deferred)) = some true
    ∧ isBusRow .busSuspend = true ∧ (after .busSuspend ready).isSome = true := by decide

theorem test_witness_EndpointSetters : ready.epAdmitted 1 = true := by decide

theorem test_witness_SettersIdempotent :
    ready.epAdmitted 1 = true ∧ (after (.epSetTxStatus 1 .valid) ready).isSome = true
    ∧ (after (.epSetRxStatus 1 .valid) ready).isSome = true ∧ (after (.epSetAddress 1 2) ready).isSome = true
    ∧ (after (.epSetType 1 .control) ready).isSome = true := by decide

theorem test_witness_SetBufferDescriptor :
    ready.epAdmitted 1 = true ∧ ready.geomOk 1 ⟨0x200, 16, 0x240, 32⟩ = true
    ∧ ready.geomOk 1 ⟨0x100, 64, 0x140, 65⟩ = false ∧ ready.geomOk 1 ⟨0x20, 0, 0x140, 64⟩ = true := by decide

theorem test_witness_BufferDescriptorCommit :
    ready.epAdmitted 1 = true ∧ (ep1 0x2021).canCommit 1 = true ∧ ready.role 1 = some .generic
    ∧ ready.attached = true ∧ ready.bdtAddr 1 .addrTx + 8 ≤ ready.params.pmSize
    ∧ (ep1 0x0031).statTx 1 = .valid ∧ ready.statTx 1 ≠ .valid ∧ ready.statRx 1 = .valid
    ∧ (ready.setBtable 0x3F8).epAdmitted 1 = true
    ∧ ready.params.pmSize ≤ (ready.setBtable 0x3F8).bdtAddr 1 .addrTx + 1 := by decide

set_option maxRecDepth 20000 in
theorem test_witness_Transmit :
    ready.epAdmitted 1 = true ∧ Memory.wf ready.mem = true ∧ ready.canSend 1 [1, 2, 3] = true
    ∧ ready.canSend 1 [] = true
    ∧ ((ready.setSlot 1 (.bound .generic ⟨0x3FE, 8, 0x140, 64⟩ .bulk)).sendCount 1 [1, 2, 3] = 3
        ∧ ready.params.pmSize < 0x3FE + 3)
    ∧ ((ep1 0x3031).sendCount 1 [1] ≠ 0 ∧ (ep1 0x3031).firstOwnedW 0x100 1 = some (1, 0x100))
    ∧ ((ep1 0x3031).sendCount 1 [] = 0 ∧ (ep1 0x3031).bdtAddr 1 .countTx + 1 < ready.params.pmSize
        ∧ (ep1 0x3031).attached = true ∧ (ep1 0x3031).statTx 1 = .valid) := by decide

theorem test_witness_Receive :
    ready.epAdmitted 1 = true ∧ ready.bdtAddr 1 .countRx + 1 < ready.params.pmSize
    ∧ ready.params.pmSize ≤ (ready.setBtable 0x3F8).bdtAddr 1 .countRx + 1
    ∧ (ep1 0x6001).mayRead 0x140 5 = true ∧ min (4 : HalfWord).toNat 0 = 0
    ∧ ready.params.pmSize < ((ready.setSlot 1 (.bound .generic ⟨0x100, 64, 0x3FC, 64⟩ .bulk)).geom 1).rxAddr.toNat + 5
    ∧ 0x140 + 5 ≤ ready.params.pmSize ∧ ready.firstOwnedR 0x140 5 = some (1, 0x140)
    ∧ ready.attached = true ∧ ready.statRx 1 = .valid ∧ (ready.geom 1).rxSize ≠ 0 := by decide

theorem test_witness_DeviceInit :
    paramsValid ready.params = true ∧ ready.MemOk ∧ inited.cntr = 0x0002
    ∧ (State.powerOn Params.vectors).cntr = 0x0003 := ⟨by decide, ready_memOk, rfl, rfl⟩

theorem test_witness_ConnectDisconnect : inited.initialized = true := by decide

theorem test_witness_CommandAdmission :
    admissionRefusal (State.powerOn Params.vectors) .pmClear = some .notInit
    ∧ admissionRefusal ready (.bdtWrite 0 .addrTx 0) = some .ep0App
    ∧ admissionRefusal ready (.epInit 7) = some .epUnbound
    ∧ admissionRefusal ready (.dcSetEndpoint 0 .control geom1) = some .ep0Bound
    ∧ admissionRefusal ready (.dcSetEndpoint 7 .control geom1) = some .badType
    ∧ admissionRefusal { ready with app := .running [] [] } .dcIrq = some .irqByApp := by decide

theorem test_witness_InterruptStatusRead :
    (ep0 0xEA60).istrRead.getLsbD 15 = true ∧ (ep0 0xEA60).pending 0 = true ∧ (ep1 0x00A1).pending 1 = true := by decide

theorem test_witness_InterruptEntry :
    ({ ep0 0xEA60 with istr := 0x1800 } : State).canDispatch = true := by decide

theorem test_witness_ResetHandling :
    Memory.wf ready.mem = true ∧ ready.SlotsOk
    ∧ (∀ n : EpNum, ({ ready with eprs := Vector.replicate 8 0 } : State).isBound n = true →
        ({ ready with eprs := Vector.replicate 8 0 } : State).canCommit n = true) :=
  ⟨by decide, ready_slotsOk, by decide⟩

theorem test_witness_CtrHandling :
    ready.isBound (epIdOf 0x8012) = false ∧ ready.role (epIdOf 0x8011) = some .generic
    ∧ ready.role (epIdOf 0x8010) = some .control := by decide

theorem test_witness_CtrRows :
    (dispatching 0x8011 ready).servedEp = some 1 ∧ ready.role 1 = some .generic
    ∧ (dispatching 0x8010 ready).servedEp = some 0 ∧ ready.role 0 = some .control
    ∧ (dispatching 0x8012 ready).servedEp = some 2 ∧ ready.isBound 2 = false ∧ ready.core = .idle := by decide

theorem test_witness_SuspendWakeup :
    ({ ready with devStatus := .suspended } : State).devStatus = .suspended
    ∧ ready.devStatus ≠ .suspended := by decide

theorem test_witness_FixedResponseRequests :
    Memory.wf ready.mem = true ∧ ready.canSend 0 [] = true
    ∧ ready.canSend 0 ready.params.getStatusResponse = true
    ∧ ready.canSend 0 ready.params.getConfigurationResponse = true
    ∧ (ep0 0x3230).sendFault 0 [] = some (.pmOwnership 0 2)
    ∧ (ep0 0x3230).sendFault 0 ready.params.getStatusResponse = some (.pmOwnership 0 0x40)
    ∧ (ep0 0x3230).sendFault 0 ready.params.getConfigurationResponse = some (.pmOwnership 0 0x40)
    ∧ (ep0 0x3230).attached = true ∧ (ep0 0x3230).isBound 0 = true ∧ (ep0 0x3230).statTx 0 = .valid
    ∧ (ready.geom 0).txAddr.toNat + ready.txSize0 ≤ ready.params.pmSize
    ∧ ready.bdtAddr 0 .countTx + 1 < ready.params.pmSize := by decide

theorem test_witness_GetDescriptor :
    Memory.wf ready.mem = true ∧ lookupDescriptor ready.params 3 0 = none
    ∧ lookupDescriptor ready.params 1 0 = some dev18 ∧ ready.canSend 0 (dev18.bytes.take 8) = true
    ∧ ready.canSend 0 (dev18.bytes.take 0) = true
    ∧ (ep0 0x3230).sendFault 0 (dev18.bytes.take 8) = some (.pmOwnership 0 0x40) := by decide

theorem test_witness_SetupReception :
    (setupAt devPacket).mayRead 0x80 8 = true
    ∧ (∀ j < 8, (setupAt devPacket).byte (0x80 + j) = devPacket.bytes.getD j 0)
    ∧ ready.firstOwnedR 0x80 8 = some (0, 0x80) ∧ ready.attached = true ∧ ready.isBound 0 = true
    ∧ ready.statRx 0 = .valid ∧ (ready.geom 0).rxSize ≠ 0 ∧ (ready.geom 0).rxAddr.toNat + 8 ≤ ready.params.pmSize
    ∧ ready.params.pmSize < ((ready.setSlot 0 (.bound .control ⟨0x40, 8, 0x3FC, 8⟩ .control)).geom 0).rxAddr.toNat + 8 := by
  decide

theorem test_witness_ReceptionComplete :
    Memory.wf midTransfer.mem = true ∧ midTransfer.CursorOk ∧ ready.stage = .none
    ∧ midTransfer.stage = .dataIn ∧ midTransfer.cursor = some ⟨dev18, 18, 8⟩
    ∧ midTransfer.canSend 0 (midTransfer.chunkBytes ⟨dev18, 18, 8⟩) = true
    ∧ ({ ready with stage := .dataIn } : State).cursor = none ∧ ({ ready with stage := .dataOut } : State).CursorOk
    ∧ (midTransfer.setEpr 0 0x2230).sendFault 0 (midTransfer.chunkBytes ⟨dev18, 18, 8⟩) = some (.pmOwnership 0 0x40) :=
  ⟨by decide, midTransfer_cursorOk, rfl, rfl, rfl, by decide, rfl, (by intro c h; cases h), by decide⟩

theorem test_witness_TransmissionComplete :
    Memory.wf midTransfer.mem = true ∧ midTransfer.CursorOk
    ∧ midTransfer.canSend 0 (midTransfer.chunkBytes ⟨dev18, 18, 16⟩) = true
    ∧ ready.CursorOk ∧ ready.params.statusOnTxNone = true
    ∧ (midTransfer.setEpr 0 0x2230).sendFault 0 (midTransfer.chunkBytes ⟨dev18, 18, 16⟩) = some (.pmOwnership 0 0x40) :=
  ⟨by decide, midTransfer_cursorOk, by decide, ready_cursorOk, by decide, by decide⟩

theorem test_witness_BusResetSuspendResume : ready.attached = true ∧ inited.attached = false := by decide

theorem test_witness_EndpointMatch :
    ready.busMatch 0 0 .rx = .hit 0 ∧ ready.busMatch 1 0 .rx = .noAnswer ∧ ready.busMatch 0 2 .rx = .noAnswer
    ∧ (ready.setEpr 2 0x3001).busMatch 0 1 .rx = .duplicate := by decide

theorem test_witness_BusSetup :
    ready.attached = true ∧ ready.busMatch 1 0 .rx = .noAnswer ∧ (ready.setEpr 2 0x3001).busMatch 0 1 .rx = .duplicate
    ∧ ready.busMatch 0 0 .rx = .hit 0 ∧ (ep1 0x3401).busMatch 0 1 .rx = .hit 1 ∧ (ep1 0x3401).epType 1 = .isochronous
    ∧ ready.busMatch 0 1 .rx = .hit 1 ∧ ready.epType 1 = .bulk ∧ ready.epType 0 = .control
    ∧ (ep0 0x2220).statRx 0 ≠ .valid ∧ ready.params.setupAccept = .unlessDisabled
    ∧ validOnly.params.setupAccept = .validOnly ∧ validOnly.attached = true ∧ validOnly.busMatch 0 0 .rx = .hit 0
    ∧ validOnly.epType 0 = .control ∧ validOnly.statRx 0 ≠ .valid
    ∧ ready.bdtAddr 0 .addrTx + 8 ≤ ready.params.pmSize ∧ capacity (ready.cell 3) = 8
    ∧ capacity ((ready.setCell 3 0x0C00).cell 3) < 8 ∧ (ready.cell 2).toNat + 8 ≤ ready.params.pmSize
    ∧ ready.params.pmSize < ((ready.setCell 2 0x3F9).cell 2).toNat + 8 := by decide

theorem test_witness_BusOut :
    ready.attached = true ∧ ([] : List Byte).length ≤ 1023 ∧ ready.busMatch 0 1 .rx = .hit 1 ∧ ready.epType 1 ≠ .isochronous
    ∧ (ep1 0x2001).statRx 1 = .nak ∧ (ep1 0x1001).statRx 1 = .stall ∧ ready.statRx 1 = .valid
    ∧ (ready.cell (ready.bdtAddr 1 .addrRx / 2)).toNat = 0x140 ∧ capacity (ready.cell (ready.bdtAddr 1 .countRx / 2)) = 64
    ∧ ready.params.pmSize < ((ready.setCell 6 0x3FF).cell 6).toNat + 2 := by decide

theorem test_witness_BusIn :
    ready.attached = true ∧ (ep1 0x3031).busMatch 0 1 .tx = .hit 1 ∧ ready.busMatch 0 1 .tx = .noAnswer
    ∧ (ep1 0x3021).statTx 1 = .nak ∧ (ep1 0x3011).statTx 1 = .stall ∧ (ep1 0x3031).statTx 1 = .valid
    ∧ ready.bdtAddr 1 .addrTx + 8 ≤ ready.params.pmSize
    ∧ (ready.cell (ready.bdtAddr 1 .addrTx / 2)).toNat + (ready.cell (ready.bdtAddr 1 .countTx / 2)).toNat % 1024
        ≤ ready.params.pmSize
    ∧ ready.params.pmSize < ((ready.setCell 4 0x3FF).cell 4).toNat + 2 := by decide

theorem test_witness_StepRunsDecodedInstruction :
    paramsValid ready.params = true ∧ (ready.raise (.pmAlign 1) .app 402).faults ≠ [] ∧ ready.faults = []
    ∧ ({ ready with program := [.cmd [0x0024]] } : State).nextAgent = some (.app, [])
    ∧ ({ ready with app := .running [0x0024] [] } : State).nextAgent = some (.app, [])
    ∧ decodeCmd ready.params [0x0024] = .ok .dcGetStatus ∧ decodeCmd ready.params [0x00FF] = .error .badEncoding
    ∧ ready.params.atomicDispatch = false ∧ (atomically ready).params.atomicDispatch = true
    ∧ (ep0 0xEA60).nextAgent = some (.core, []) ∧ (ep0 0xEA60).core = .idle
    ∧ (after .dcIrq (ep0 0xEA60)).map State.core = some (.dispatching 0x8010 none [.irqCtr 0x8010] [])
    ∧ ({ ready with core := .dispatching 0x0800 none [.irqSusp 0x0800] [] } : State).nextAgent = some (.core, [])
    ∧ ({ ready with core := .dispatching 0x0800 none [] [] } : State).nextAgent = some (.core, [])
    ∧ ({ ready with busIn := [[0x05]] } : State).nextAgent = some (.bus, []) ∧ decodeBus [0x05] = some .suspend := by
  decide

theorem test_witness_UndisturbedStepsRunInstruction :
    let a : State := { ready with app := .running [0x0114] [] }
    let d : State := { ready with core := .dispatching 0x0800 none [.irqSusp 0x0800] [] }
    (paramsValid a.params = true ∧ a.params.atomicDispatch = false ∧ a.faults = [] ∧ a.turns = [] ∧ a.core = .idle
      ∧ decodeCmd a.params [0x0114] = .ok (.epClearCtr 1) ∧ (after (.epClearCtr 1) a).isSome = true)
    ∧ (paramsValid d.params = true ∧ d.params.atomicDispatch = false ∧ d.faults = [] ∧ d.turns = [] ∧ d.app = .idle
      ∧ d.RowsOk ∧ ∃ t, runRows exec [.irqSusp 0x0800] [] d = .next t) := by
  refine ⟨by decide, by decide, by decide, rfl, rfl, rfl, ?_, _, rfl⟩
  intro w e rest had h
  obtain ⟨-, -, rfl, -⟩ : _ ∧ _ ∧ [Instr.irqSusp 0x0800] = rest ∧ _ := by simpa using h
  decide

theorem test_witness_DecodeOfEncode :
    Instr.wf Params.vectors (.pmRead 0xFFFF 1024) = true ∧ Instr.wf Params.vectors (.epReceive 7 1024) = true
    ∧ Instr.wf Params.vectors (.unrecognisedRequest 0x0A devRequest) = true
    ∧ Instr.wf Params.vectors (.ctrTransmission 0x00080) = true ∧ Instr.wf Params.vectors (.irqCtr 0x8000) = true := by
  decide

theorem test_witness_EncodeOfDecode :
    decodeCmd Params.vectors [0x0006, 0x0041, 0x0001, 0x00AA] = .ok (.pmWrite 0x41 [0xAA])
    ∧ decodeBus [0x04, 0x7F, 0x8F] = some (.tokenIn 0x7F 0xF true) ∧ decodeHook 0x4 = some .genericOnTransmissionComplete
    ∧ ([0x80, 0x06, 0x00, 0x01, 0, 0, 0x12, 0] : List Byte).length = 8 := by decide

theorem test_witness_MemoryInvariant :
    ready.MemOk ∧ (stepped { ready with busIn := [[0x05]] }).isSome = true := ⟨ready_memOk, by decide⟩

theorem test_witness_RegisterAndModeInvariant :
    ready.ReservedZero ∧ ready.Exclusive ∧ ready.NeverAttached
    ∧ (stepped { ready with busIn := [[0x05]] }).isSome = true
    ∧ paramsValid ready.params = true ∧ ready.BootOk ∧ (after .dcDisconnect ready).isSome = true :=
  ⟨ready_reservedZero, ready_exclusive, ready_neverAttached, by decide, by decide, ready_bootOk, by decide⟩

theorem test_witness_BindingInvariant :
    ready.SlotsOk ∧ ready.GeomsOk
    ∧ (stepped { ready with app := .running [0x0115, 0x0200, 0x0010, 0x0240, 0x0020] [] }).isSome = true :=
  ⟨ready_slotsOk, ready_geomsOk, by decide⟩

theorem test_witness_CursorInvariant :
    midTransfer.CursorLive ∧ midTransfer.RowsOk ∧ midTransfer.CursorOk
    ∧ (stepped (midTransfer.setEpr 0 0x02E0)).isSome = true
    ∧ (after .controlOnTransmissionComplete midTransfer).isSome = true
    ∧ (atomically midTransfer).params.atomicDispatch = true ∧ (atomically midTransfer).AtStart
    ∧ (stepped (atomically (midTransfer.setEpr 0 0x02E0))).isSome = true :=
  ⟨fun c h => (midTransfer_cursorOk c h).1, (by intro w e rest had h; cases h), midTransfer_cursorOk, by decide, by decide,
    rfl, ⟨(by intro w e rest had h; cases h), (by intro ws had h; cases h)⟩, by decide⟩

theorem test_witness_DeviceStatusTransitions :
    (after (.irqSusp 0x0800) ready).map (fun t => decide (t.devStatus ≠ ready.devStatus)) = some true
    ∧ (after (.setConfiguration ⟨0, 1, 0, 0⟩) ready).map (fun t => decide (t.devStatus ≠ ready.devStatus)) = some true
    ∧ (after .controlOnSetupReceptionComplete (setupAt ⟨0x00, 0x09, 1, 0, 0⟩)).map State.devStatus = some .configured
    ∧ (setupAt ⟨0x00, 0x09, 1, 0, 0⟩).receivedRequest = .setConfiguration
    ∧ (after .controlOnReceptionComplete { ep0 0x2220 with deferred := 5 }).map State.devStatus = some .addressed
    ∧ (setupAt ⟨0x00, 0x05, 5, 0, 0⟩).receivedRequest = .setAddress
    ∧ (setupAt ⟨0x00, 0x05, 5, 0, 0⟩).receivedPacket.wValue ≠ 0 := by decide

theorem test_witness_HardwareOwnedFields :
    isBusRow (.epClearCtr 1) = false ∧ (after (.epClearCtr 1) (ep1 0xE8C1)).isSome = true := by
  decide

theorem test_witness_ObservationsOnlyGrow : (stepped { ready with app := .running [0x0024] [] }).isSome = true := by decide

theorem test_witness_LostCompletion :
    paramsValid clearRace.params = true ∧ clearRace.params.atomicDispatch = false ∧ clearRace.faults = []
    ∧ clearRace.core = .idle ∧ clearRace.app = .running [0x0114] []
    ∧ decodeCmd clearRace.params [0x0114] = .ok (.epClearCtr 1) ∧ clearRace.turns = [.app, .bus, .app]
    ∧ clearRace.epAdmitted 1 = true ∧ clearRace.attached = true ∧ clearRace.busIn = [[0x04, 0x00, 0x81]]
    ∧ decodeBus [0x04, 0x00, 0x81] = some (.tokenIn 0 1 true) ∧ clearRace.busMatch 0 1 .tx = .hit 1
    ∧ clearRace.epType 1 ≠ .isochronous ∧ clearRace.statTx 1 = .valid
    ∧ clearRace.bdtAddr 1 .addrTx + 8 ≤ clearRace.params.pmSize
    ∧ (clearRace.cell (clearRace.bdtAddr 1 .addrTx / 2)).toNat
        + (clearRace.cell (clearRace.bdtAddr 1 .countTx / 2)).toNat % 1024 ≤ clearRace.params.pmSize := by decide

/-! ## Steps of one access (R240, R137) -/

/-- V2.1.12: an OUT between the CTR handler's read of 0x70E1 and its clear is lost; reception stays `nak`. -/
theorem test_lost_completion :
    (steppedBy 5 { ep1 0x70E1 with turns := [.core, .core, .bus, .core, .core], busIn := [[0x03, 0, 1, 1, 0, 0xAA]] }).map
      (fun t => (t.epr 1, t.core, t.byte 0x140, t.busIn)) = some (0x2061, .idle, 0xAA, []) := by decide

/-- The read has been answered and the write is still to come. -/
theorem test_one_access : (steppedBy 1 clearRace).map State.app = some (.running [0x0114] [.read 0x3031]) := by decide

/-- With ATOMIC_DISPATCH the command is one step, and the bus event comes after it. -/
theorem test_atomic_command :
    (steppedBy 1 (atomically { clearRace with turns := [.app] })).map (fun t => (t.epr 1, t.app, t.busIn.length))
      = some (0x3031, .idle, 1) := by decide

/-- A dispatch between two accesses: the register snapshot and the answers so far; then, its last access made, the
rest; then the exit. -/
theorem test_dispatch_accesses :
    (steppedBy 2 (ep1 0xE001)).map State.core = some (.dispatching 0x8011 none [.irqCtr 0x8011] [.read 0xE001])
    ∧ (steppedBy 3 (ep1 0xE001)).map State.core
      = some (.dispatching 0x8011 (some 0xE001) [.irqCtr 0x8011] [.read 0xE001, .wrote])
    ∧ (steppedBy 4 (ep1 0xE001)).map (fun t => (t.core, t.epr 1)) = some (.idle, 0x6001) := by decide

/-- With ATOMIC_DISPATCH the whole dispatch is one step. -/
theorem test_atomic_dispatch :
    (steppedBy 1 (atomically (ep1 0xE001))).map (fun t => (t.core, t.epr 1)) = some (.idle, 0x6001) := by decide

/-- R701: the codes of the fault kinds. -/
theorem test_fault_codes :
    [FaultKind.pmRange 0, .pmAlign 0, .pmOwnership 0 0, .busPmRange 0, .eaDuplicate 0].map FaultKind.code
      = [1, 2, 3, 4, 5] := by decide

end Sys2Proof.Tests
end

/-! # Changes: the parts of the machine that statements, bus events and the interrupt entry change

Each single change of the state is named once, with the part of the machine it belongs to. What an
instruction may do is then a list of parts (`State.parts`), and a frame or an invariant is an argument by
cases on one change. -/

namespace Sys2Proof.Machine

/-- The parts of the machine, as one change touches them. -/
inductive Part where
  /-- Bytes of packet memory (R141). -/
  | packet
  /-- EPR[n], by a software write (R102, R452, R457). -/
  | endpoint (n : EpNum)
  /-- EPR[n], by the completion of a transaction (R658). -/
  | token (n : EpNum)
  | cntr | daddr | btable | bcdr
  /-- The latches of ISTR, cleared by software (R111). -/
  | istr
  /-- What a bus reset sets (R652). -/
  | busReset
  /-- The latches of ISTR, set by the bus (R656, R657). -/
  | latch
  /-- The interrupt entry (R714). -/
  | entry
  /-- `epr_snap` (R608). -/
  | snapshot
  | stage | cursor | deferred | status | preSuspend
  /-- Clock, voltage detector and `initialized` (R601). -/
  | power
  /-- Interrupt enable and pins (R602, R603). -/
  | connection
  /-- A slot of the endpoint table (R458, R604). -/
  | binding
  /-- Trace, faults and refusals (R150, R151). -/
  | record

/-- One change of one part: from which state to which. -/
inductive Change : Part → State → State → Prop
  | store (s : State) (k : Nat) (v : HalfWord) : Change .packet s (s.storeCell k v)
  | receive (s : State) (a : Nat) (d : List Byte) (h : a + d.length ≤ s.params.pmSize) :
      Change .packet s (s.setBytes a d)
  | endpoint (s : State) (n : EpNum) (cur : HalfWord) (chg : EprChange) (clr : EprClear) :
      Change (.endpoint n) s (s.setEpr n (eprSwWrite (s.epr n) (toggleSafeWrite cur chg clr)))
  | token (s : State) (n : EpNum) (g : EprFields → EprFields) : Change (.token n) s (s.hwEpr n g)
  | cntr (s : State) (w : HalfWord) : Change .cntr s (s.setCntr w)
  | daddr (s : State) (w : HalfWord) : Change .daddr s (s.setDaddr w)
  | btable (s : State) (w : HalfWord) : Change .btable s (s.setBtable w)
  | bcdr (s : State) (w : HalfWord) : Change .bcdr s (s.setBcdr w)
  | istr (s : State) (w : HalfWord) : Change .istr s (s.setIstr w)
  | busReset (s : State) : Change .busReset s
      { s with eprs := Vector.replicate 8 0x0000, daddr := 0x0000, istr := s.istr ||| 0x0400 }
  | busSuspend (s : State) : Change .latch s { s with istr := s.istr ||| 0x0800 }
  | busResume (s : State) : Change .latch s { s with istr := s.istr ||| 0x1000 }
  | entry (s : State) (h : s.canDispatch = true) : Change .entry s (takeInterrupt s)
  | snapshot (s : State) (w : HalfWord) : Change .snapshot s (s.setEprSnap w)
  | stage (s : State) (x : Stage) (r : HalfWord) : Change .stage s { s with stage := x, remaining := r }
  | cursor (s : State) (c : Option Cursor) : Change .cursor s { s with cursor := c }
  | deferred (s : State) (w : HalfWord) : Change .deferred s { s with deferred := w }
  | status (s : State) (d : DevStatus) (h : d = .attached → s.preSuspend = .attached) :
      Change .status s { s with devStatus := d }
  | preSuspend (s : State) : Change .preSuspend s { s with preSuspend := s.devStatus }
  | power (s : State) (c v i : Bool) : Change .power s { s with clkOn := c, vdetOn := v, initialized := i }
  | connection (s : State) (e p : Bool) : Change .connection s { s with irqEnabled := e, pinsAf := p }
  | binding (s : State) (n : EpNum) (r : Role) (ty : EpType) (g : Geometry) (hn : n ≠ 0)
      (hr : r = .control → s.role n = some .control) (hg : s.geomOk n g = true) :
      Change .binding s (s.setSlot n (.bound r g ty))
  | emit (s : State) (e : Event) : Change .record s (s.emit e)
  | raise (s : State) (k : FaultKind) (ag : Agent) (rule : Nat) : Change .record s (s.raise k ag rule)
  | refuse (s : State) (r : RefuseReason) : Change .record s (s.refuse r)

/-- A property that no change of the part breaks. -/
def Part.Keeps (l : Part) (P : State → Prop) : Prop := ∀ s t, Change l s t → P s → P t

/-! ## The parts an instruction may change -/

/-- The parts a hook of a role may change (R465, R501 to R503, R516, R517). -/
def hookParts : Role → Hook → List Part
  | .generic, _ => []
  | .control, .onInit => []
  | .control, .onReset => [.endpoint 0, .stage, .cursor, .deferred, .record]
  | .control, .onSetupReceptionComplete =>
    [.packet, .record, .endpoint 0, .stage, .cursor, .deferred, .status]
  | .control, .onReceptionComplete =>
    [.packet, .record, .endpoint 0, .stage, .cursor, .deferred, .status, .daddr]
  | .control, .onTransmissionComplete =>
    [.packet, .record, .endpoint 0, .stage, .cursor, .deferred, .status, .daddr]

/-- The parts the reset of endpoint n may change (R463): where the slot has the control role, also its own. -/
def State.resetParts (s : State) (n : EpNum) : List Part :=
  [.packet, .record, .endpoint n] ++ if s.role n = some .control then hookParts .control .onReset else []

/-- The parts a token matched on a register may change (R651, R658). -/
def tokenParts : TokenMatch → List Part
  | .noAnswer => []
  | .duplicate => [.record]
  | .hit n => [.packet, .record, .token n]

/-- The parts of the machine an instruction may change. -/
def State.parts (s : State) : Instr → List Part
  | .pmReadHw _ => [.record]
  | .pmWriteHw _ _ => [.record, .packet]
  | .pmReadB _ => [.record]
  | .pmWriteB _ _ => [.record, .packet]
  | .pmRead _ _ => [.record]
  | .pmWrite _ _ => [.record, .packet]
  | .pmClear => [.record, .packet]
  | .bdtRead _ _ => [.record]
  | .bdtWrite _ _ _ => [.record, .packet]
  | .epSetAddress n _ => [.record, .endpoint n]
  | .epSetType n _ => [.record, .endpoint n]
  | .epSetTxStatus n _ => [.record, .endpoint n]
  | .epSetRxStatus n _ => [.record, .endpoint n]
  | .epClearCtr n => [.record, .endpoint n]
  | .epSetBd _ _ => [.record, .binding]
  | .epInitBd _ => [.record, .packet]
  | .epTransmit n _ => [.record, .packet, .endpoint n]
  | .epReceive n _ => [.record, .endpoint n]
  | .epGetRxLen _ => [.record]
  | .epReset n => s.resetParts n
  | .epInit _ => [.record, .packet]
  | .dcInit => [.record, .packet, .power, .cntr, .istr, .btable, .daddr, .status]
  | .dcConnect => [.record, .cntr, .connection, .bcdr]
  | .dcDisconnect => [.record, .cntr, .connection, .bcdr]
  | .dcSetEndpoint _ _ _ => [.record, .binding]
  | .dcGetStatus => [.record]
  | .dcIrq => [.record, .entry]
  | .getStatus _ => [.packet, .record, .endpoint 0]
  | .clearFeature _ => [.packet, .record, .endpoint 0]
  | .setFeature _ => [.packet, .record, .endpoint 0]
  | .setAddress _ => [.packet, .record, .endpoint 0, .deferred]
  | .getDescriptor _ => [.packet, .record, .endpoint 0, .cursor]
  | .setDescriptor _ => [.packet, .record, .endpoint 0]
  | .getConfiguration _ => [.packet, .record, .endpoint 0]
  | .setConfiguration _ => [.packet, .record, .endpoint 0, .status]
  | .unrecognisedRequest _ _ => []
  | .busReset => [.busReset]
  | .busSetup a ep _ => tokenParts (s.busMatch a ep .rx)
  | .busOut a ep _ => tokenParts (s.busMatch a ep .rx)
  | .busIn a ep _ => tokenParts (s.busMatch a ep .tx)
  | .busSuspend => [.latch]
  | .busResume => [.latch]
  | .genericOnInit => []
  | .genericOnReset => []
  | .genericOnSetupReceptionComplete => []
  | .genericOnReceptionComplete => []
  | .genericOnTransmissionComplete => []
  | .controlOnInit => []
  | .controlOnReset => hookParts .control .onReset
  | .controlOnSetupReceptionComplete => hookParts .control .onSetupReceptionComplete
  | .controlOnReceptionComplete => hookParts .control .onReceptionComplete
  | .controlOnTransmissionComplete => hookParts .control .onTransmissionComplete
  | .ctrSetup _ => hookParts .control .onSetupReceptionComplete
  | .ctrReception _ => hookParts .control .onReceptionComplete
  | .ctrTransmission _ => hookParts .control .onTransmissionComplete
  | .irqReset _ => [.daddr, .record, .status] ++ (allEps.filter s.isBound).flatMap s.resetParts
  | .irqCtr w => [.snapshot, .endpoint (epIdOf w)] ++ hookParts .control .onReceptionComplete
  | .irqSusp _ => [.cntr, .preSuspend, .status, .record]
  | .irqWkup _ => [.cntr, .status, .record]

theorem mem_resetParts {l : Part} {s : State} {n : EpNum} : l ∈ s.resetParts n ↔
    l = .packet ∨ l = .record ∨ l = .endpoint n ∨ s.role n = some .control ∧ l ∈ hookParts .control .onReset := by
  unfold State.resetParts
  split <;> simp_all

theorem mem_tokenParts {l : Part} {m : TokenMatch} : l ∈ tokenParts m ↔
    l = .record ∧ m ≠ .noAnswer ∨ ∃ n, m = .hit n ∧ (l = .packet ∨ l = .token n) := by
  cases m <;> simp [tokenParts]
  tauto

/-! ## Which fields a change leaves as they were -/

/-- What a change of part `l` from `s` to `t` leaves unchanged, field by field. -/
structure Part.Frame (l : Part) (s t : State) : Prop where
  params : t.params = s.params
  app : t.app = s.app
  program : t.program = s.program
  turns : t.turns = s.turns
  busIn : t.busIn = s.busIn
  epr : ∀ n, l ∉ [.endpoint n, .token n, .busReset] → t.epr n = s.epr n
  cntr : l ∉ [.cntr] → t.cntr = s.cntr
  daddr : l ∉ [.daddr, .busReset] → t.daddr = s.daddr
  btable : l ∉ [.btable] → t.btable = s.btable
  bcdr : l ∉ [.bcdr] → t.bcdr = s.bcdr
  istr : l ∉ [.istr, .busReset, .latch, .entry] → t.istr = s.istr
  slots : l ∉ [.binding] → t.slots = s.slots
  stage : l ∉ [.stage] → t.stage = s.stage
  remaining : l ∉ [.stage] → t.remaining = s.remaining
  cursor : l ∉ [.cursor] → t.cursor = s.cursor
  deferred : l ∉ [.deferred] → t.deferred = s.deferred
  devStatus : l ∉ [.status] → t.devStatus = s.devStatus
  preSuspend : l ∉ [.preSuspend] → t.preSuspend = s.preSuspend
  initialized : l ∉ [.power] → t.initialized = s.initialized
  core : l ∉ [.snapshot, .entry] → t.core = s.core
  clkOn : l ∉ [.power] → t.clkOn = s.clkOn
  vdetOn : l ∉ [.power] → t.vdetOn = s.vdetOn
  irqEnabled : l ∉ [.connection] → t.irqEnabled = s.irqEnabled
  pinsAf : l ∉ [.connection] → t.pinsAf = s.pinsAf
  mem : l ∉ [.packet] → t.mem = s.mem

/-- A change leaves every field that is not its part's unchanged. -/
theorem Change.frame {l : Part} {s t : State} (h : Change l s t) : l.Frame s t := by
  cases h <;> constructor <;> simp +contextual [State.hwEpr, State.epr, Fin.ext_iff]

end Sys2Proof.Machine

/-! # What the statements of CORE and APP change -/

namespace Sys2Proof.Machine

/-- Every statement of the operation changes only the listed parts. -/
def Prog.Does {α : Type} (p : Prog α) (L : List Part) : Prop :=
  ∀ P : State → Prop, (∀ l ∈ L, l.Keeps P) → p.Keeps P

theorem Prog.Does.mono {α : Type} {p : Prog α} {L M : List Part} (h : p.Does L) (hs : L ⊆ M) : p.Does M :=
  fun P hP => h P fun l hl => hP l (hs hl)

theorem does_ret {α : Type} (a : α) (L : List Part) : (Prog.ret a).Does L := fun _ _ => trivial

theorem Prog.Does.bind {α β : Type} {p : Prog α} {q : α → Prog β} {L M : List Part} (hp : p.Does L)
    (hq : ∀ a, (q a).Does M) : (p.bind q).Does (L ++ M) := fun P hP =>
  keeps_bind (hp P fun l hl => hP l (List.mem_append_left M hl))
    fun a => hq a P fun l hl => hP l (List.mem_append_right L hl)

theorem Prog.Does.andThen {β : Type} {p : Prog Unit} {q : Prog β} {L M : List Part} (hp : p.Does L)
    (hq : q.Does M) : (p.andThen q).Does (L ++ M) := hp.bind fun _ => hq

theorem does_look {α : Type} {k : RoleView → Prog α} {L : List Part} (hk : ∀ v, (k v).Does L) :
    (Prog.look k).Does L := fun P hP v => hk v P hP

theorem does_reading (f : State → HalfWord) : (reading f).Does [] := fun _ _ => keeps_reading f

theorem does_writing {l : Part} {f : State → State} (hf : ∀ s, Change l s (f s)) : (writing f).Does [l] :=
  fun _ hP => keeps_writing fun s => hP l (by simp) s _ (hf s)

theorem does_updating {l : Part} {f : State → State} (hf : ∀ s, Change l s (f s)) : (updating f).Does [l] :=
  fun _ hP => keeps_updating fun s => hP l (by simp) s _ (hf s)

/-- An update that makes two changes, one after the other. -/
theorem does_updating_two {l m : Part} {f g : State → State} (hf : ∀ s, Change l s (f s))
    (hg : ∀ s, Change m (f s) (g s)) : (updating g).Does [l, m] :=
  fun _ hP => keeps_updating fun s hs => hP m (by simp) _ _ (hg s) (hP l (by simp) _ _ (hf s) hs)

theorem does_raiseIf (ag : Agent) (rule : Nat) (c : State → Option FaultKind) :
    (raiseIf ag rule c).Does [.record] :=
  fun _ hP => keeps_raiseIf fun s k => hP _ (by simp) s _ (.raise s k ag rule)

theorem does_refuseIf (c : State → Option RefuseReason) : (refuseIf c).Does [.record] :=
  fun _ hP => keeps_refuseIf fun s r => hP _ (by simp) s _ (.refuse s r)

theorem Prog.Does.command {p : Prog Unit} {L : List Part} (hp : p.Does L) (c : State → Option RefuseReason) :
    (command c p).Does (.record :: L) := (does_refuseIf c).andThen hp

theorem Prog.Does.giveResult {α : Type} {p : Prog α} {L : List Part} (hp : p.Does L) (v : α → ResultValue) :
    (giveResult p v).Does (L ++ [.record]) := hp.bind fun _ => does_updating fun s => .emit s _

/-! ## The shared operations -/

theorem does_writeCell (k : Nat) (v : HalfWord) : (writeCell k v).Does [.packet] :=
  does_writing fun s => .store s k v

theorem does_rmwCntr (f : HalfWord → HalfWord) : (rmwCntr f).Does [.cntr] :=
  (does_reading _).bind fun _ => does_writing fun s => .cntr s _

theorem does_epRmw (n : EpNum) (chg : EprChange) (clr : EprClear) : (epRmw n chg clr).Does [.endpoint n] :=
  (does_reading _).bind fun cur => does_writing fun s => .endpoint s n cur chg clr

theorem does_clearCtr (n : EpNum) (snap : HalfWord) : (clearCtr n snap).Does [.endpoint n] :=
  does_writing fun s => .endpoint s n snap _ _

theorem does_clearCells (count k : Nat) : (clearCells count k).Does [.packet] := by
  induction count generalizing k with
  | zero => exact does_ret _ _
  | succ c ih => exact ((does_writeCell k 0).andThen (ih _)).mono (by simp)

theorem does_writeCells (k : Nat) (d : List Byte) : (writeCells k d).Does [.packet] := by
  fun_induction writeCells k d with
  | case1 => exact does_ret _ _
  | case2 k b => exact (does_reading _).bind fun _ => does_writeCell _ _
  | case3 k b₀ b₁ bs ih => exact ((does_writeCell _ _).andThen ih).mono (by simp)

theorem does_writeBlock (a : Nat) (d : List Byte) : (writeBlock a d).Does [.packet] := by
  unfold writeBlock
  split
  · split
    · exact does_ret _ _
    · exact ((does_reading _).bind fun _ => (does_writeCell _ _).andThen (does_writeCells _ _)).mono (by simp)
  · exact does_writeCells _ _

theorem does_readCells (count k : Nat) : (readCells count k).Does [] := fun _ _ => keeps_readCells count k

theorem does_memRead (ag : Agent) (rule a l : Nat) : (memRead ag rule a l).Does [.record] := by
  unfold memRead
  split
  · exact does_ret _ _
  · exact (does_raiseIf _ _ _).andThen ((does_readCells _ _).bind fun _ => does_ret _ [])

theorem does_memWrite (ag : Agent) (rule a : Nat) (d : List Byte) :
    (memWrite ag rule a d).Does [.record, .packet] := by
  unfold memWrite
  split
  · exact does_ret _ _
  · exact (does_raiseIf _ _ _).andThen (does_writeBlock _ _)

theorem does_readHalfword (ag : Agent) (rule a : Nat) : (readHalfword ag rule a).Does [.record] :=
  (does_raiseIf _ _ _).andThen (does_reading _)

theorem does_writeHalfword (ag : Agent) (rule a : Nat) (v : HalfWord) :
    (writeHalfword ag rule a v).Does [.record, .packet] := (does_raiseIf _ _ _).andThen (does_writeCell _ _)

theorem does_readByte (ag : Agent) (rule a : Nat) : (readByte ag rule a).Does [.record] :=
  (does_raiseIf _ _ _).andThen ((does_reading _).bind fun _ => does_ret _ [])

theorem does_writeByte (ag : Agent) (rule a : Nat) (v : Byte) :
    (writeByte ag rule a v).Does [.record, .packet] :=
  (does_raiseIf _ _ _).andThen ((does_reading _).bind fun _ => does_writeCell _ _)

theorem does_pmClear (ag : Agent) (rule : Nat) (c : Context) : (pmClear ag rule c).Does [.record, .packet] :=
  (does_raiseIf _ _ _).andThen (does_clearCells _ _)

theorem does_bdtRead (ag : Agent) (rule : Nat) (n : EpNum) (f : BdtField) :
    (bdtRead ag rule n f).Does [.record] := (does_raiseIf _ _ _).andThen (does_reading _)

theorem does_bdtWrite (ag : Agent) (rule : Nat) (n : EpNum) (f : BdtField) (v : HalfWord) :
    (bdtWrite ag rule n f v).Does [.record, .packet] :=
  (does_raiseIf _ _ _).andThen (does_writing fun s => .store s _ v)

theorem does_commitBd (ag : Agent) (n : EpNum) (c : Context) : (commitBd ag n c).Does [.record, .packet] :=
  ((does_bdtWrite _ _ _ _ _).andThen <| (does_bdtWrite _ _ _ _ _).andThen <|
    (does_bdtWrite _ _ _ _ _).andThen (does_bdtWrite _ _ _ _ _)).mono (by simp)

theorem does_transmit (ag : Agent) (n : EpNum) (d : List Byte) (c : Context) :
    (transmit ag n d c).Does [.packet, .record, .endpoint n] :=
  ((does_memWrite _ _ _ _).andThen ((does_bdtWrite _ _ _ _ _).andThen (does_epRmw _ _ _))).mono (by simp)

theorem does_receive (ag : Agent) (n : EpNum) (l : Nat) (c : Context) :
    (receive ag n l c).Does [.record, .endpoint n] :=
  ((does_bdtRead _ _ _ _).bind fun _ => (does_memRead _ _ _ _).bind fun _ =>
    (does_epRmw _ _ _).andThen (does_ret _ [])).mono (by simp)

theorem does_forBound {f : EpNum → Prog Unit} {c : Context} {L : List Part} {ns : List EpNum}
    (hf : ∀ n ∈ ns, c.isBound n = true → (f n).Does L) : (forBound f c ns).Does L := by
  induction ns with
  | nil => exact does_ret _ _
  | cons n ns ih =>
    have hrest := ih fun m hm => hf m (List.mem_cons_of_mem n hm)
    unfold forBound
    split
    · rename_i hb
      exact ((hf n (by simp) hb).andThen hrest).mono (by simp)
    · exact hrest

/-! ## The control sequencer -/

theorem does_statusStage : statusStage.Does [.daddr, .status, .deferred] := by
  refine does_look fun v => ?_
  split
  · exact does_ret _ _
  · exact (does_writing fun s => .daddr s _).andThen
      (does_updating_two (fun s => .status s .addressed nofun) fun s => .deferred _ 0)

theorem does_advanceCursor : (updating advanceCursor).Does [.record, .cursor] := fun P hP => by
  refine keeps_updating fun s hs => ?_
  have cursor (u : State) (c : Option Cursor) (hu : P u) : P { u with cursor := c } :=
    hP .cursor (by simp) u _ (.cursor u c) hu
  unfold advanceCursor
  split
  · exact hs
  · dsimp only
    split
    · exact cursor _ none (hP .record (by simp) _ _ (.emit s .descDeinit) hs)
    · exact cursor s _ hs

theorem does_dataStageIn (c : Context) : (dataStageIn c).Does
    [.packet, .record, .endpoint 0, .stage, .cursor, .deferred, .status, .daddr] := by
  refine does_look fun v => ?_
  split
  · exact ((does_transmit _ _ _ _).andThen does_advanceCursor).mono (by simp)
  · exact ((does_updating fun s => .stage s .none s.remaining).andThen does_statusStage).mono (by simp)

theorem does_getDescriptor (r : Request) (c : Context) :
    (doGetDescriptor r c).Does [.packet, .record, .endpoint 0, .cursor] := by
  unfold doGetDescriptor
  split
  · exact (does_updating fun s => .emit s _).mono (by simp)
  · rename_i d _
    have first : (updating (afterFirstPacket d (min (min r.wLength.toNat (descLen d).toNat) c.txSize0) r)).Does
        [.record, .cursor] := fun P hP => by
      refine keeps_updating fun s hs => ?_
      unfold afterFirstPacket
      split
      · exact hP .cursor (by simp) _ _ (.cursor s _) hs
      · exact hP .record (by simp) _ _ (.emit s .descDeinit) hs
    exact ((does_updating_two (fun s => .emit s _) fun s => .emit _ .descInit).andThen
      ((does_transmit _ _ _ _).andThen first)).mono (by simp)

theorem does_setAddress (r : Request) (c : Context) :
    (doSetAddress r c).Does [.packet, .record, .endpoint 0, .deferred] :=
  ((does_updating fun s => .deferred s r.wValue).andThen (does_transmit _ _ _ _)).mono (by simp)

theorem does_setConfiguration (c : Context) :
    (doSetConfiguration c).Does [.packet, .record, .endpoint 0, .status] :=
  ((does_updating fun s => .status s .configured nofun).andThen (does_transmit _ _ _ _)).mono (by simp)

theorem does_runRequest (q : RequestName) (r : Request) (c : Context) :
    (runRequest q r c).Does [.packet, .record, .endpoint 0, .cursor, .deferred, .status] := by
  cases q with
  | setAddress => exact (does_setAddress r c).mono (by simp)
  | getDescriptor => exact (does_getDescriptor r c).mono (by simp)
  | setConfiguration => exact (does_setConfiguration c).mono (by simp)
  | unrecognised b => exact does_ret _ _
  | _ => exact (does_transmit _ _ _ _).mono (by simp)

/-- The role's stage and cursor given up (R502, R503). -/
theorem keeps_discardCursor {P : State → Prop} {L : List Part} (hP : ∀ l ∈ L, l.Keeps P)
    (hL : [.stage, .record, .cursor] ⊆ L) {s : State} (hs : P s) :
    P (discardCursor { s with stage := .none, remaining := 0 }) := by
  have staged : P { s with stage := .none, remaining := 0 } := hP .stage (hL (by simp)) _ _ (.stage s .none 0) hs
  unfold discardCursor
  split
  · exact staged
  · exact hP .cursor (hL (by simp)) _ _ (.cursor _ none) (hP .record (hL (by simp)) _ _ (.emit _ .descDeinit) staged)

theorem does_clearRole : (updating clearRole).Does [.stage, .record, .cursor, .deferred] := fun _ hP =>
  keeps_updating fun _ hs => hP .deferred (by simp) _ _ (.deferred _ 0) (keeps_discardCursor hP (by simp) hs)

theorem does_establishStage (r : Request) : (updating (establishStage r)).Does [.stage] := fun P hP => by
  refine keeps_updating fun s hs => ?_
  unfold establishStage
  split
  · exact hs
  · exact hP .stage (by simp) _ _ (.stage s _ _) hs

theorem does_runHook (r : Role) (k : Hook) (c : Context) : (runHook r k c).Does (hookParts r k) := by
  cases r with
  | generic => cases k <;> exact does_ret _ _
  | control =>
    cases k with
    | onInit => exact does_ret _ _
    | onReset =>
      exact ((does_epRmw _ _ _).andThen <| (does_epRmw _ _ _).andThen <|
        (does_epRmw _ _ _).andThen does_clearRole).mono (by simp [hookParts])
    | onSetupReceptionComplete =>
      have discard : (updating fun s => discardCursor { s with stage := .none, remaining := 0 }).Does
          [.stage, .record, .cursor] := fun _ hP => keeps_updating fun _ => keeps_discardCursor hP (by simp)
      exact (discard.andThen <| (does_memRead _ _ _ _).bind fun bs => (does_establishStage _).andThen <|
        (does_runRequest _ _ _).andThen (does_epRmw _ _ _)).mono (by simp [hookParts])
    | onReceptionComplete =>
      refine ((does_look (L := hookParts .control .onReceptionComplete) fun v => ?_).andThen
        (does_epRmw _ _ _)).mono (by simp [hookParts])
      split
      · exact does_dataStageIn c
      · exact does_ret _ _
      · exact does_statusStage.mono (by simp [hookParts])
    | onTransmissionComplete =>
      refine does_look fun v => ?_
      split
      · exact does_dataStageIn c
      · split
        · exact does_statusStage.mono (by simp [hookParts])
        · exact does_ret _ _
      · exact does_ret _ _

/-- A hook called on a slot, whatever its role, changes no more than the control role's (R466). -/
theorem does_hook (n : EpNum) (k : Hook) (c : Context) : (hook n k c).Does (hookParts .control k) := by
  unfold hook
  split
  · exact does_ret _ _
  · rename_i r _
    cases r with
    | generic => exact (does_runHook .generic k c).mono (by simp [hookParts])
    | control => exact does_runHook .control k c

theorem does_epReset (ag : Agent) (s : State) (n : EpNum) : (epReset ag s.context n).Does (s.resetParts n) := by
  have hhook : (hook n .onReset s.context).Does
      (if s.role n = some .control then hookParts .control .onReset else []) := by
    unfold hook
    rw [context_role]
    split
    · exact does_ret _ _
    · rename_i r hr
      cases r with
      | generic => exact does_ret _ _
      | control => simpa [hr] using does_runHook .control .onReset s.context
  exact (((does_commitBd _ _ _).andThen (does_epRmw _ _ _)).mono (by simp)).andThen hhook

theorem does_epInit (ag : Agent) (c : Context) (n : EpNum) : (epInit ag c n).Does [.record, .packet] :=
  (does_commitBd _ _ _).andThen (does_hook n .onInit c)

theorem does_servedHook (k : Hook) (c : Context) :
    (servedHook (fun n c => hook n k c) c).Does (hookParts .control k) := by
  unfold servedHook
  split
  · exact does_ret _ _
  · exact does_hook _ k c

/-! ## Every instruction -/

theorem does_irqCtr (w : HalfWord) (s : State) : (doIrqCtr w s.context).Does (s.parts (.irqCtr w)) := by
  have hooks (k : BitVec 17) : (ctrHooks (epIdOf w) k s.context).Does (hookParts .control .onReceptionComplete) := by
    refine ((?_ : Prog.Does _ (hookParts .control .onReceptionComplete)).andThen
      (?_ : Prog.Does _ (hookParts .control .onReceptionComplete))).mono (by simp)
    · split
      · exact (does_hook _ _ _).mono (by simp [hookParts])
      · split
        · exact does_hook _ _ _
        · exact does_ret _ _
    · split
      · exact does_hook _ .onTransmissionComplete _
      · exact does_ret _ _
  refine (does_reading _).bind fun snap => ?_
  split
  · exact (does_updating fun u => .snapshot u snap).andThen ((does_clearCtr _ _).andThen (hooks _))
  · exact (does_clearCtr _ _).mono (by simp)

theorem does_dcInit (c : Context) :
    (doDcInit c).Does [.record, .packet, .power, .cntr, .istr, .btable, .daddr, .status] :=
  ((does_updating fun s => .power s true true s.initialized).andThen <| (does_writing fun s => .cntr s _).andThen <|
    (does_pmClear _ _ _).andThen <| (does_writing fun s => .istr s _).andThen <|
    (does_writing fun s => .btable s _).andThen <| (does_writing fun s => .daddr s _).andThen <|
    (does_forBound fun n _ _ => does_epInit .app c n).andThen <| (does_writing fun s => .cntr s _).andThen <|
    does_updating_two (fun s => .status s .powered nofun) fun s => .power _ s.clkOn s.vdetOn true).mono (by simp)

theorem does_irqReset (s : State) (w : HalfWord) : (doIrqReset s.context).Does (s.parts (.irqReset w)) := by
  have resets : (forBound (epReset .core s.context) s.context allEps).Does
      ((allEps.filter s.isBound).flatMap s.resetParts) :=
    does_forBound fun n hn hb => (does_epReset .core s n).mono fun l hl =>
      List.mem_flatMap.mpr ⟨n, List.mem_filter.mpr ⟨hn, hb⟩, hl⟩
  refine ((does_writing fun u => .daddr u _).andThen <| resets.andThen <|
    does_updating_two (fun u => .emit u .cbReset) fun u => .status _ .default nofun).mono ?_
  intro l hl
  simp only [State.parts, List.mem_append, List.mem_cons, List.not_mem_nil, or_false] at hl ⊢
  tauto

theorem does_irqSusp : doIrqSusp.Does [.cntr, .preSuspend, .status, .record] :=
  (does_rmwCntr _).andThen fun _ hP => keeps_updating fun s hs =>
    hP .record (by simp) _ _ (.emit _ .cbSuspend) <|
      hP .status (by simp) _ _ (.status _ .suspended nofun) <|
      hP .preSuspend (by simp) _ _ (.preSuspend s) hs

theorem does_irqWkup : doIrqWkup.Does [.cntr, .status, .record] :=
  (does_rmwCntr _).andThen fun P hP => keeps_updating fun s hs => by
    split
    · exact hP .record (by simp) _ _ (.emit _ .cbResume) (hP .status (by simp) _ _ (.status s s.preSuspend id) hs)
    · exact hs

/-- The statements of an instruction change only its parts, but for the two that bind a slot, whose one
update follows its check (`binding_ends`). -/
theorem does_program (i : Instr) (s : State) (hi : bindsSlot i = false) :
    (program i s.context).Does (s.parts i) := by
  cases i with
  | pmReadHw a => exact ((does_readHalfword _ _ _).giveResult _).command _ |>.mono (by simp [State.parts])
  | pmWriteHw a v => exact (does_writeHalfword _ _ _ _).command _ |>.mono (by simp [State.parts])
  | pmReadB a => exact ((does_readByte _ _ _).giveResult _).command _ |>.mono (by simp [State.parts])
  | pmWriteB a v => exact (does_writeByte _ _ _ _).command _ |>.mono (by simp [State.parts])
  | pmRead a l => exact ((does_memRead _ _ _ _).giveResult _).command _ |>.mono (by simp [State.parts])
  | pmWrite a d => exact (does_memWrite _ _ _ _).command _ |>.mono (by simp [State.parts])
  | pmClear => exact (does_pmClear _ _ _).command _ |>.mono (by simp [State.parts])
  | bdtRead n f => exact ((does_bdtRead _ _ _ _).giveResult _).command _ |>.mono (by simp [State.parts])
  | bdtWrite n f v => exact (does_bdtWrite _ _ _ _ _).command _ |>.mono (by simp [State.parts])
  | epSetAddress n v => exact (does_epRmw _ _ _).command _
  | epSetType n t => exact (does_epRmw _ _ _).command _
  | epSetTxStatus n v => exact (does_epRmw _ _ _).command _
  | epSetRxStatus n v => exact (does_epRmw _ _ _).command _
  | epClearCtr n => exact ((does_reading _).bind fun cur => does_clearCtr n cur).command _
  | epSetBd n g => cases hi
  | epInitBd n => exact (does_commitBd _ _ _).command _ |>.mono (by simp [State.parts])
  | epTransmit n d => exact (does_transmit _ _ _ _).command _ |>.mono (by simp [State.parts])
  | epReceive n l => exact ((does_receive _ _ _ _).giveResult _).command _ |>.mono (by simp [State.parts])
  | epGetRxLen n => exact ((does_bdtRead _ _ _ _).giveResult _).command _ |>.mono (by simp [State.parts])
  | epReset n => exact (does_epReset .app s n).command _ |>.mono (by simp [State.parts, State.resetParts])
  | epInit n => exact (does_epInit _ _ _).command _ |>.mono (by simp [State.parts])
  | dcInit => exact does_dcInit _
  | dcConnect =>
    exact ((does_rmwCntr _).andThen <| (does_updating fun s => .connection s true s.pinsAf).andThen <|
      (does_rmwCntr _).andThen <| (does_updating fun s => .connection s s.irqEnabled true).andThen <|
      does_writing fun s => .bcdr s _).command _ |>.mono (by simp [State.parts])
  | dcDisconnect =>
    exact ((does_writing fun s => .bcdr s _).andThen <|
      (does_updating fun s => .connection s s.irqEnabled false).andThen <| (does_rmwCntr _).andThen <|
      (does_updating fun s => .connection s false s.pinsAf).andThen (does_rmwCntr _)).command _
      |>.mono (by simp [State.parts])
  | dcSetEndpoint n t g => cases hi
  | dcGetStatus => exact does_updating fun u => .emit u _
  | dcIrq => exact (does_refuseIf _).mono (by simp [State.parts])
  | setAddress r => exact does_setAddress r _
  | getDescriptor r => exact does_getDescriptor r _
  | setConfiguration r => exact does_setConfiguration _
  | getStatus r | clearFeature r | setFeature r | setDescriptor r | getConfiguration r =>
    exact does_transmit _ _ _ _
  | controlOnReset => exact does_runHook .control .onReset s.context
  | controlOnSetupReceptionComplete => exact does_runHook .control .onSetupReceptionComplete _
  | controlOnReceptionComplete => exact does_runHook .control .onReceptionComplete _
  | controlOnTransmissionComplete => exact does_runHook .control .onTransmissionComplete _
  | ctrSetup k => exact does_servedHook .onSetupReceptionComplete _
  | ctrReception k => exact does_servedHook .onReceptionComplete _
  | ctrTransmission k => exact does_servedHook .onTransmissionComplete _
  | irqReset w => exact does_irqReset s w
  | irqCtr w => exact does_irqCtr w s
  | irqSusp w => exact does_irqSusp
  | irqWkup w => exact does_irqWkup
  | unrecognisedRequest | busReset | busSetup | busOut | busIn | busSuspend | busResume | genericOnInit
  | genericOnReset | genericOnSetupReceptionComplete | genericOnReceptionComplete
  | genericOnTransmissionComplete | controlOnInit => exact does_ret _ _

end Sys2Proof.Machine

/-! # What one instruction and one step keep -/

namespace Sys2Proof.Machine

/-! ## Bus events -/

theorem state_bind {α β : Type} {P : State → Prop} {r : Res α} {f : α → State → Res β} (hr : P r.state)
    (hf : ∀ a s, r = .ok a s → P (f a s).state) : P (r.bind f).state := by
  cases r with
  | ok a s => exact hf a s rfl
  | stop s => exact hr

/-- A BDT field that a transaction reads lies in packet memory, and the read changes nothing. -/
theorem busField_ok {n : EpNum} {f : BdtField} {rule : Nat} {s u : State} {a : HalfWord}
    (h : busField n f rule s = .ok a u) : u = s ∧ s.bdtAddr n f + 1 < s.params.pmSize := by
  unfold busField at h
  split at h
  · cases h
  · cases h
    exact ⟨rfl, by omega⟩

section
variable {P : State → Prop} {n : EpNum} (hP : ∀ l ∈ tokenParts (.hit n), l.Keeps P)
include hP

theorem keeps_raise {s : State} (k : FaultKind) (ag : Agent) (rule : Nat) (hs : P s) : P (s.raise k ag rule) :=
  hP .record (by simp [tokenParts]) _ _ (.raise s k ag rule) hs

theorem keeps_busField {f : BdtField} {rule : Nat} {s : State} (hs : P s) : P (busField n f rule s).state := by
  unfold busField
  split
  · exact keeps_raise hP _ _ _ hs
  · exact hs

/-- An accepted reception: its bytes, COUNT_RX and the endpoint register (R653, R654, R662). -/
theorem keeps_reception {s : State} {a : Nat} {d : List Byte} {rule l : Nat} (g : State → EprFields → EprFields)
    (hc : s.bdtAddr n .countRx + 1 < s.params.pmSize) (hs : P s) :
    P ((busWrite a d rule s).andThen fun s => .ok () ((s.setRxCount n l).hwEpr n (g s))).state := by
  unfold busWrite
  split
  · exact keeps_raise hP _ _ _ hs
  · have stored : P (s.setBytes a d) := hP .packet (by simp [tokenParts]) _ _ (.receive s a d (by omega)) hs
    have counted : P ((s.setBytes a d).setRxCount n l) := by
      unfold State.setRxCount
      rw [setCell_eq_setBytes, bdtAddr_even]
      exact hP .packet (by simp [tokenParts]) _ _ (.receive _ _ _ hc) stored
    exact hP (.token n) (by simp [tokenParts]) _ _ (.token _ n (g _)) counted

theorem keeps_busSetupAt (k : SetupPacket) {s : State} (hs : P s) : P (busSetupAt n k s).state := by
  unfold busSetupAt
  split
  · exact hs
  · split
    · exact hs
    · refine state_bind (keeps_busField hP hs) fun a u hu => ?_
      obtain ⟨rfl, -⟩ := busField_ok hu
      refine state_bind (keeps_busField hP hs) fun c v hv => ?_
      obtain ⟨rfl, hc⟩ := busField_ok hv
      split
      · exact hs
      · exact keeps_reception hP (fun s => afterSetup s.params.setupNaksTx) hc hs

theorem keeps_busOutAt (d : List Byte) {s : State} (hs : P s) : P (busOutAt n d s).state := by
  unfold busOutAt
  split
  · exact hs
  · refine state_bind (keeps_busField hP hs) fun a u hu => ?_
    obtain ⟨rfl, -⟩ := busField_ok hu
    refine state_bind (keeps_busField hP hs) fun c v hv => ?_
    obtain ⟨rfl, hc⟩ := busField_ok hv
    split
    · exact hs
    · exact keeps_reception hP (fun _ => afterOut) hc hs

theorem keeps_busInAt (ack : Bool) {s : State} (hs : P s) : P (busInAt n ack s).state := by
  unfold busInAt
  split
  · exact hs
  · refine state_bind (keeps_busField hP hs) fun a u hu => ?_
    obtain ⟨rfl, -⟩ := busField_ok hu
    refine state_bind (keeps_busField hP hs) fun c v hv => ?_
    obtain ⟨rfl, -⟩ := busField_ok hv
    unfold busRead
    split
    · exact keeps_raise hP _ _ _ hs
    · have emitted := fun e => hP .record (by simp [tokenParts]) _ _ (.emit v e) hs
      simp only [bind_ok]
      split
      · exact hP (.token n) (by simp [tokenParts]) _ _ (.token _ n afterIn) (emitted _)
      · exact emitted _

end

/-- What holds of a matched register holds of a token whatever it matches (R651). -/
theorem keeps_busEffect {P : State → Prop} (e : BusEvent) {s : State}
    (hP : ∀ l ∈ s.parts e.toInstr, l.Keeps P) (hs : P s) : P (busEffect e s).state := by
  cases e with
  | reset => exact hP .busReset (by simp [BusEvent.toInstr, State.parts]) _ _ (.busReset s) hs
  | suspend => exact hP .latch (by simp [BusEvent.toInstr, State.parts]) _ _ (.busSuspend s) hs
  | resume => exact hP .latch (by simp [BusEvent.toInstr, State.parts]) _ _ (.busResume s) hs
  | setup a ep k =>
    simp only [BusEvent.toInstr, State.parts] at hP
    simp only [busEffect, busSetup]
    split <;> rename_i hm <;> rw [hm] at hP
    · exact hs
    · exact hP .record (by simp [tokenParts]) _ _ (.raise s _ _ _) hs
    · exact keeps_busSetupAt hP k hs
  | out a ep d =>
    simp only [BusEvent.toInstr, State.parts] at hP
    simp only [busEffect, busOut]
    split <;> rename_i hm <;> rw [hm] at hP
    · exact hs
    · exact hP .record (by simp [tokenParts]) _ _ (.raise s _ _ _) hs
    · exact keeps_busOutAt hP d hs
  | tokenIn a ep ack =>
    simp only [BusEvent.toInstr, State.parts] at hP
    simp only [busEffect, busIn]
    split <;> rename_i hm <;> rw [hm] at hP
    · exact hs
    · exact hP .record (by simp [tokenParts]) _ _ (.raise s _ _ _) hs
    · exact keeps_busInAt hP ack hs

/-! ## The two commands that bind a slot -/

theorem admitEp_eq_none {s : State} {n : EpNum} (h : s.admitEp n = none) :
    s.initialized = true ∧ n ≠ 0 ∧ s.isBound n = true := by
  unfold State.admitEp at h
  grind

theorem setGeom_of_slot {s : State} {n : EpNum} {r : Role} {g : Geometry} {ty : EpType}
    (h : s.slot n = .bound r g ty) (g' : Geometry) : s.setGeom n g' = s.setSlot n (.bound r g' ty) := by
  unfold State.setGeom
  rw [h]

theorem keeps_setGeom {P : State → Prop} (hP : Part.binding.Keeps P) {s : State} {n : EpNum} {g : Geometry}
    (hn : n ≠ 0) (hg : s.geomOk n g = true) (hs : P s) : P (s.setGeom n g) := by
  cases h : s.slot n with
  | unbound => simpa [State.setGeom, h] using hs
  | bound r g' ty =>
    rw [setGeom_of_slot h]
    exact hP _ _ (.binding s n r ty g hn (fun hr => by simp [State.role, h, slotRole, hr]) hg) hs

theorem keeps_refused {P : State → Prop} {c : State → Option RefuseReason} {p : Prog Unit}
    (hP : Part.record.Keeps P) {s : State} (hs : P s) (hp : c s = none → P (p.run s).state) :
    P ((command c p).run s).state := by
  cases h : c s with
  | none => rw [run_command_none h]; exact hp h
  | some r => rw [run_command_some h]; exact hP _ _ (.refuse s r) hs

/-- A binding happens after its checks (R458, R604). -/
theorem keeps_binding {P : State → Prop} {i : Instr} {s : State} (hi : bindsSlot i = true)
    (hP : ∀ l ∈ s.parts i, l.Keeps P) (hs : P s) : P ((program i s.context).run s).state := by
  cases i with
  | epSetBd n g =>
    refine keeps_refused (hP .record (by simp [State.parts])) hs fun hadmit => ?_
    refine keeps_refused (hP .record (by simp [State.parts])) hs fun hgeom => ?_
    exact keeps_setGeom (hP .binding (by simp [State.parts])) (admitEp_eq_none hadmit).2.1 (by grind) hs
  | dcSetEndpoint n ty g =>
    refine keeps_refused (hP .record (by simp [State.parts])) hs fun hadmit => ?_
    unfold State.admitBinding at hadmit
    exact hP .binding (by simp [State.parts]) _ _ (.binding s n .generic ty g (by grind) nofun (by grind)) hs
  | _ => cases hi

theorem advance_command {c : State → Option RefuseReason} {p : Prog Unit} {s : State}
    (hp : p.advance s = .ended (p.run s)) : (command c p).advance s = .ended ((command c p).run s) := by
  simp only [command, refuseIf, Prog.andThen, Prog.bind, Prog.advance, Prog.run]
  cases c s with
  | none => exact hp
  | some r => rfl

/-- A binding makes no access: it is one step, and nothing of it remains after an answer. -/
theorem advance_binding {i : Instr} (hi : bindsSlot i = true) (c : Context) (s : State) :
    (program i c).advance s = .ended ((program i c).run s) := by
  cases i with
  | epSetBd n g => exact advance_command (advance_command rfl)
  | dcSetEndpoint n ty g => exact advance_command rfl
  | _ => cases hi

theorem resume_binding {i : Instr} (hi : bindsSlot i = true) (c : Context) (a : Answer) (had : List Answer) :
    (program i c).resume (a :: had) = .ret () := by
  cases i with
  | epSetBd n g => rfl
  | dcSetEndpoint n ty g => rfl
  | _ => cases hi

/-! ## Every instruction -/

/-- `t` is where the statements of `i` left after the answers `had` take `s`, by one access or to their end. -/
def Reaches (i : Instr) (had : List Answer) (s t : State) : Prop :=
  t = (((program i s.context).resume had).run s).state ∨ t = (((program i s.context).resume had).advance s).state

theorem Reaches.keeps {P : State → Prop} {i : Instr} {had : List Answer} {s t : State} (h : Reaches i had s t)
    (hP : ∀ l ∈ s.parts i, l.Keeps P) (hs : P s) : P t := by
  cases hi : bindsSlot i with
  | false =>
    have hp := keeps_resume (does_program i s hi P hP) had
    rcases h with rfl | rfl
    · exact keeps_run hp hs
    · exact keeps_advance hp hs
  | true =>
    cases had with
    | nil =>
      simp only [Reaches, resume_nil, advance_binding hi, Moved.state, or_self] at h
      rw [h]
      exact keeps_binding hi hP hs
    | cons a had =>
      simp only [Reaches, resume_binding hi, Prog.run, Prog.advance, Moved.state, Res.state, or_self] at h
      rw [h]
      exact hs

/-- What an instruction that answers a next state is: a bus event, the interrupt entry, or a run of its
statements. -/
theorem exec_cases {i : Instr} {s t : State} (h : exec i s = .next t) :
    (∃ e : BusEvent, i = e.toInstr ∧ t = (busEffect e s).state)
    ∨ (i = .dcIrq ∧ s.canDispatch = true ∧ t = takeInterrupt s)
    ∨ (isBusRow i = false ∧ t = ((program i s.context).run s).state) := by
  have bus (e : BusEvent) (hi : i = e.toInstr) (he : exec e.toInstr s = busOutcome e s) :
      ∃ e : BusEvent, i = e.toInstr ∧ t = (busEffect e s).state := by
    rw [hi, he, busOutcome] at h
    split at h
    · cases h; exact ⟨e, hi, rfl⟩
    · cases h
  have run (hb : isBusRow i = false) (he : exec i s = perform (program i) s) :
      isBusRow i = false ∧ t = ((program i s.context).run s).state := by
    rw [he] at h
    cases h
    exact ⟨hb, rfl⟩
  have ctr (p : EpNum → Context → Prog Unit) (he : exec i s = ctrRow p s) : s.servedEp ≠ none := by
    intro hn
    rw [he, ctrRow, hn] at h
    cases h
  cases i with
  | busReset => exact .inl (bus .reset rfl rfl)
  | busSetup a ep k => exact .inl (bus (.setup a ep k) rfl rfl)
  | busOut a ep d => exact .inl (bus (.out a ep d) rfl rfl)
  | busIn a ep ack => exact .inl (bus (.tokenIn a ep ack) rfl rfl)
  | busSuspend => exact .inl (bus .suspend rfl rfl)
  | busResume => exact .inl (bus .resume rfl rfl)
  | dcIrq =>
    simp only [exec, execDcIrq] at h
    split at h
    · cases h; exact .inr (.inr ⟨rfl, rfl⟩)
    · split at h
      · cases h; exact .inr (.inl ⟨rfl, ‹_›, rfl⟩)
      · cases h
  | ctrSetup k => exact .inr (.inr (run rfl (exec_eq_perform rfl nofun (.inr (ctr doCtrSetup rfl)))))
  | ctrReception k => exact .inr (.inr (run rfl (exec_eq_perform rfl nofun (.inr (ctr doCtrReception rfl)))))
  | ctrTransmission k =>
    exact .inr (.inr (run rfl (exec_eq_perform rfl nofun (.inr (ctr doCtrTransmission rfl)))))
  | _ => exact .inr (.inr (run rfl (exec_eq_perform rfl nofun (.inl rfl))))

/-- A property that no change of an instruction's parts breaks is kept by the instruction. -/
theorem exec_keeps {P : State → Prop} {i : Instr} {s t : State} (h : exec i s = .next t)
    (hP : ∀ l ∈ s.parts i, l.Keeps P) (hs : P s) : P t := by
  rcases exec_cases h with ⟨e, rfl, rfl⟩ | ⟨rfl, hd, rfl⟩ | ⟨-, ht⟩
  · exact keeps_busEffect e hP hs
  · exact hP .entry (by simp [State.parts]) _ _ (.entry s hd) hs
  · exact Reaches.keeps (had := []) (.inl (by simpa using ht)) hP hs

/-- A field that an instruction changed is one that a change of one of its parts may change. -/
theorem exec_changed {β : Type} {f : State → β} {M : List Part}
    (hf : ∀ (l : Part) (u v : State), l.Frame u v → l ∉ M → f v = f u) {i : Instr} {s t : State}
    (h : exec i s = .next t) (hne : f t ≠ f s) : ∃ l ∈ M, l ∈ s.parts i := by
  by_contra hno
  exact hne <| exec_keeps (P := fun u => f u = f s) h
    (fun l hl u v hc hu => (hf l u v hc.frame fun hm => hno ⟨l, hm, hl⟩).trans hu) rfl

/-- A field that no change of any part changes is left as it was by every instruction. -/
theorem exec_unchanged {β : Type} {f : State → β} (hf : ∀ (l : Part) (u v : State), l.Frame u v → f v = f u)
    {i : Instr} {s t : State} (h : exec i s = .next t) : f t = f s :=
  exec_keeps (P := fun u => f u = f s) h (fun l _ u v hc hu => (hf l u v hc.frame).trans hu) rfl

/-! ## Every step -/

/-- `t` is where one step or a whole run takes the instruction `i` from `s`, with the answers `had`. -/
def Runs (i : Instr) (s t : State) : Prop := exec i s = .next t ∨ ∃ had, Reaches i had s t

theorem Runs.keeps {P : State → Prop} {i : Instr} {s t : State} (h : Runs i s t)
    (hP : ∀ l ∈ s.parts i, l.Keeps P) (hs : P s) : P t := by
  rcases h with h | ⟨had, h⟩
  · exact exec_keeps h hP hs
  · exact h.keeps hP hs

theorem finish_runs {i : Instr} {had : List Answer} {s t : State} (h : finish exec i had s = .next t) :
    Runs i s t := by
  unfold finish at h
  split at h
  · exact .inl h
  · cases h; exact .inr ⟨had, .inl rfl⟩

theorem thenNext_next {o : Host.Outcome State Fault Refusal} {f : State → Host.Outcome State Fault Refusal}
    {t : State} (h : thenNext o f = .next t) : ∃ u, o = .next u ∧ f u = .next t := by
  cases o with
  | next u => exact ⟨u, rfl, h⟩
  | fault r => cases h
  | refused r => cases h

theorem setRows_eq (s : State) (rest : List Instr) (had : List Answer) :
    s.setRows rest had = { s with core := (s.setRows rest had).core } := by
  unfold State.setRows
  split <;> rfl

section
variable {P : State → Prop} (hP : ∀ l : Part, l.Keeps P)
  (hcore : ∀ s c ls, P s → P { s with core := c, program := ls })
include hP hcore

omit hP in
theorem keeps_setRows {s : State} (rest : List Instr) (had : List Answer) (hs : P s) : P (s.setRows rest had) := by
  rw [setRows_eq]
  exact hcore s _ s.program hs

theorem keeps_runRows {rest : List Instr} {had : List Answer} {s t : State}
    (h : runRows exec rest had s = .next t) (hs : P s) : P t := by
  induction rest generalizing had s with
  | nil => cases h; exact hcore _ _ _ hs
  | cons i is ih =>
    obtain ⟨u, hu, ht⟩ := thenNext_next h
    have ran : P u := (finish_runs hu).keeps (fun l _ => hP l) hs
    split at ht
    · cases ht; exact ran
    · exact ih ht (keeps_setRows hcore _ _ ran)

theorem keeps_advanceRows {rest : List Instr} {had : List Answer} {s : State} (hs : P s) :
    P (advanceRows rest had s) := by
  induction rest generalizing had s with
  | nil => exact hcore _ _ _ hs
  | cons i is ih =>
    have ran := Reaches.keeps (P := P) (i := i) (had := had) (.inr rfl) (fun l _ => hP l) hs
    unfold advanceRows
    split <;> rename_i hm <;> rw [hm] at ran
    · exact ih (keeps_setRows hcore _ _ ran)
    · exact ran
    · exact keeps_setRows hcore _ _ ran

/-- A property that no change breaks and that does not depend on what only schedules CORE is kept by CORE's
step. -/
theorem keeps_stepCore {s t : State} (h : stepCore exec s = .next t) (hs : P s) : P t := by
  have dispatch {u : State} (hu : P u) (h : runDispatch exec u = .next t) : P t := by
    unfold runDispatch at h
    split at h
    · cases h; exact hu
    · exact keeps_runRows hP hcore h hu
  have entered {u : State} (h : exec .dcIrq s = .next u) : P u := exec_keeps h (fun l _ => hP l) hs
  unfold stepCore at h
  split at h
  · split at h
    · obtain ⟨u, hu, ht⟩ := thenNext_next h
      exact dispatch (entered hu) ht
    · exact entered h
  · split at h
    · exact keeps_runRows hP hcore h hs
    · cases h; exact keeps_advanceRows hP hcore hs

end

theorem retire_eq (s : State) : retire s = { s with app := (retire s).app } := by
  unfold retire
  split <;> rfl

/-- APP's command in progress, one access or the whole of it: refused, or an instruction's run, after which APP
stands where the command leaves it (R330, R732). -/
def Issues (s t : State) : Prop :=
  (∃ r, t = { s.refuse r with app := .idle }) ∨ ∃ i u a, Runs i s u ∧ t = { u with app := a }

theorem runCommand_issues {ws : List HalfWord} {had : List Answer} {s t : State}
    (h : runCommand exec ws had s = .next t) : Issues s t := by
  unfold runCommand at h
  split at h
  · cases h; exact .inl ⟨_, rfl⟩
  · rename_i i _
    cases hf : finish exec i had s with
    | next u => rw [hf] at h; cases h; exact .inr ⟨i, u, _, finish_runs hf, retire_eq u⟩
    | fault r => rw [hf] at h; cases h
    | refused r => rw [hf] at h; cases h

theorem advanceCommand_issues (ws : List HalfWord) (had : List Answer) (s : State) :
    Issues s (advanceCommand ws had s) := by
  unfold advanceCommand
  split
  · exact .inl ⟨_, rfl⟩
  · rename_i i _
    have ran : Runs i s (((program i s.context).resume had).advance s).state := .inr ⟨had, .inr rfl⟩
    split <;> rename_i hm <;> rw [hm] at ran
    · exact .inr ⟨i, _, _, ran, retire_eq _⟩
    · exact .inr ⟨i, _, _, ran, rfl⟩

theorem stepApp_issues {s t : State} {ws : List HalfWord} {had : List Answer} (hr : s.app = .running ws had)
    (h : stepApp exec s = .next t) : Issues s t := by
  simp only [stepApp, hr] at h
  split at h
  · exact runCommand_issues h
  · cases h; exact advanceCommand_issues ws had s

/-- APP's step takes on the command it has begun, or begins its next one (R732). -/
theorem stepApp_cases {s t : State} (h : stepApp exec s = .next t) :
    ∃ ws had ls, Issues { s with app := .running ws had, program := ls } t := by
  cases ha : s.app with
  | running ws had => exact ⟨ws, had, s.program, by simpa [← ha] using stepApp_issues ha h⟩
  | idle =>
    cases hp : s.program with
    | nil => simp [stepApp, ha, startCommand, hp] at h
    | cons l ls =>
      cases l with
      | irq => simp [stepApp, ha, startCommand, hp] at h
      | cmd ws =>
        have begun : stepApp exec s = stepApp exec { s with app := .running ws [], program := ls } := by
          simp [stepApp, ha, startCommand, hp]
        exact ⟨ws, [], ls, stepApp_issues rfl (begun ▸ h)⟩

theorem Issues.keeps {P : State → Prop} (hP : ∀ l : Part, l.Keeps P) (happ : ∀ s a, P s → P { s with app := a })
    {s t : State} (h : Issues s t) (hs : P s) : P t := by
  rcases h with ⟨r, rfl⟩ | ⟨i, u, a, hu, rfl⟩
  · exact happ _ _ (hP .record _ _ (.refuse s r) hs)
  · exact happ _ _ (hu.keeps (fun l _ => hP l) hs)

/-- BUS's step is the next event of its schedule (R664). -/
theorem stepBus_cases {s t : State} (h : stepBus exec s = .next t) :
    ∃ (e : BusEvent) (bs : List (List Byte)), exec e.toInstr { s with busIn := bs } = .next t := by
  unfold stepBus at h
  split at h
  · cases h
  · rename_i e u hu
    obtain ⟨-, -, -, -, hs⟩ := nextBus_eq hu
    exact ⟨e, u.busIn, by rw [← hs]; exact h⟩

/-- A property that no change breaks and that does not depend on what only schedules the agents is kept by
every step. -/
theorem step_keeps {P : State → Prop} (hP : ∀ l : Part, l.Keeps P)
    (hsched : ∀ s c a ls ts bs, P s →
      P { s with core := c, app := a, program := ls, turns := ts, busIn := bs })
    {s t : State} (h : step s = .next t) (hs : P s) : P t := by
  obtain ⟨-, -, a, ts, -, hstep⟩ := step_cases h
  have turned : P { s with turns := ts } := hsched s s.core s.app s.program ts s.busIn hs
  cases a with
  | core => exact keeps_stepCore hP (fun u c ls => hsched u c u.app ls u.turns u.busIn) hstep turned
  | app =>
    obtain ⟨ws, had, ls, hi⟩ := stepApp_cases hstep
    exact hi.keeps hP (fun u a => hsched u u.core a u.program u.turns u.busIn)
      (hsched s s.core _ ls ts s.busIn hs)
  | bus =>
    obtain ⟨e, bs, he⟩ := stepBus_cases hstep
    exact exec_keeps he (fun l _ => hP l) (hsched s s.core s.app s.program ts bs hs)
  | desc => cases hstep

/-- The agent that takes the next step has one (R240). -/
theorem nextAgent_enabled {s : State} {a : Agent} {ts : List Agent} (h : s.nextAgent = some (a, ts)) :
    s.agentEnabled a = true := by
  have default_enabled {us : List Agent} (hd : s.defaultAgent.map (fun b => (b, us)) = some (a, ts)) :
      s.agentEnabled a = true := by
    obtain ⟨b, hb, he⟩ := Option.map_eq_some_iff.mp hd
    cases he
    exact List.find?_some hb
  unfold State.nextAgent at h
  split at h
  · exact default_enabled h
  · split at h
    · cases h; assumption
    · exact default_enabled h

end Sys2Proof.Machine

/-! # Which rows write which part -/

namespace Sys2Proof.Machine

theorem mem_allEps (n : EpNum) : n ∈ allEps := by revert n; decide

/-- A register that a token's completion changes is the one it matches (R651). -/
theorem touches_of_token {i : Instr} {s : State} {n : EpNum} (h : .token n ∈ s.parts i) : n ∈ s.touches i := by
  have matched {m : TokenMatch} (h : .token n ∈ tokenParts m) : m = .hit n := by
    simpa [mem_tokenParts, eq_comm] using h
  cases i with
  | busSetup a ep k | busOut a ep d | busIn a ep ack =>
    dsimp only [State.touches]
    rw [matched h]
    exact List.mem_singleton_self n
  | _ => simp [State.parts, mem_resetParts, hookParts] at h

/-- A register that software writes is one the row touches: a control role's own writes are endpoint 0's, the one
slot with that role (R130, R452, R502). -/
theorem touches_of_endpoint {i : Instr} {s : State} {n : EpNum} (hs : s.SlotsOk)
    (h : .endpoint n ∈ s.parts i) : n ∈ s.touches i := by
  have zero {m : EpNum} (hm : s.role m = some .control) : m = 0 := by
    by_contra h0
    exact hs.2 m h0 hm
  cases i with
  | epSetAddress | epSetType | epSetTxStatus | epSetRxStatus | epClearCtr | epTransmit | epReceive
  | getStatus | clearFeature | setFeature | setAddress | getDescriptor | setDescriptor | getConfiguration
  | setConfiguration | controlOnReset | controlOnSetupReceptionComplete | controlOnReceptionComplete
  | controlOnTransmissionComplete | ctrSetup | ctrReception | ctrTransmission =>
    refine List.mem_singleton.mpr ?_
    simpa [State.parts, hookParts] using h
  | irqCtr w =>
    refine List.mem_pair.mpr ?_
    simpa [State.parts, hookParts] using h
  | busReset => exact mem_allEps n
  | epReset m =>
    have hm : n = m ∨ s.role m = some .control ∧ n = 0 := by
      simpa [State.parts, mem_resetParts, hookParts] using h
    refine List.mem_singleton.mpr ?_
    rcases hm with rfl | ⟨hrole, rfl⟩
    · rfl
    · exact (zero hrole).symm
  | irqReset w =>
    obtain ⟨m, hb, hm⟩ : ∃ m, s.isBound m = true ∧ (n = m ∨ s.role m = some .control ∧ n = 0) := by
      simpa [State.parts, mem_resetParts, hookParts, mem_allEps] using h
    refine List.mem_filter.mpr ⟨mem_allEps n, ?_⟩
    rcases hm with rfl | ⟨hrole, rfl⟩
    · exact hb
    · exact zero hrole ▸ hb
  | _ => simp [State.parts, mem_tokenParts] at h

/-- The rows whose rules write a part of the machine; of the parts that most rows write nothing is said. -/
def Part.rows (i : Instr) : Part → Prop
  | .cntr => i = .dcInit ∨ i = .dcConnect ∨ i = .dcDisconnect ∨ (∃ w, i = .irqSusp w) ∨ ∃ w, i = .irqWkup w
  | .daddr => i = .dcInit ∨ (∃ w, i = .irqReset w) ∨ runsStatus i = true
  | .btable => i = .dcInit
  | .bcdr => i = .dcConnect ∨ i = .dcDisconnect
  | .istr => i = .dcInit
  | .busReset => i = .busReset
  | .latch => i = .busSuspend ∨ i = .busResume
  | .entry => i = .dcIrq
  | .snapshot => ∃ w, i = .irqCtr w
  | .stage => i = .controlOnReset ∨ runsSequencer i = true ∨ (∃ w, i = .irqReset w) ∨ ∃ n, i = .epReset n
  | .cursor =>
    (∃ r, i = .getDescriptor r) ∨ i = .controlOnReset ∨ runsSequencer i = true ∨ (∃ w, i = .irqReset w)
      ∨ ∃ n, i = .epReset n
  | .deferred =>
    (∃ r, i = .setAddress r) ∨ i = .controlOnReset ∨ runsSequencer i = true ∨ (∃ w, i = .irqReset w)
      ∨ ∃ n, i = .epReset n
  | .preSuspend => ∃ w, i = .irqSusp w
  | .power => i = .dcInit
  | .connection => i = .dcConnect ∨ i = .dcDisconnect
  | .binding => (∃ n g, i = .epSetBd n g) ∨ ∃ n ty g, i = .dcSetEndpoint n ty g
  | .token _ => isBusRow i = true
  | .packet | .endpoint _ | .status | .record => True

/-- The rows that have a part in their list are those whose rules write it. -/
theorem rows_of_mem {l : Part} {i : Instr} {s : State} (h : l ∈ s.parts i) : l.rows i := by
  cases l with
  | packet | endpoint n | status | record => trivial
  | _ =>
    revert h
    cases i <;> simp [Part.rows, State.parts, mem_resetParts, mem_tokenParts, hookParts, runsStatus, runsSequencer,
      isBusRow]

/-! ## The frames (O13, O14) -/

/-- Settles O13: a field that a row changed is one of a part in its list, and the lists name the rows. -/
theorem peripheralRegisterFrame : Obligations.PeripheralRegisterFrame := by
  intro i s t h
  refine ⟨fun hs n hn => ?_, fun hne => ?_, fun hne => ?_, fun hne => ?_, fun hne => ?_, fun hne => ?_⟩
  · by_contra hne
    have hm : .endpoint n ∈ s.parts i ∨ .token n ∈ s.parts i ∨ .busReset ∈ s.parts i := by
      simpa using exec_changed (f := fun u => u.epr n) (fun _ _ _ hf => hf.epr n) h hne
    rcases hm with hm | hm | hm
    · exact hn (touches_of_endpoint hs hm)
    · exact hn (touches_of_token hm)
    · obtain rfl := rows_of_mem hm
      exact hn (mem_allEps n)
  · exact rows_of_mem (by simpa using exec_changed (fun _ _ _ hf => hf.cntr) h hne)
  · have hm : .daddr ∈ s.parts i ∨ .busReset ∈ s.parts i := by
      simpa using exec_changed (fun _ _ _ hf => hf.daddr) h hne
    exact hm.elim (fun hm => (rows_of_mem hm).imp_right .inr) fun hm => .inr (.inl (rows_of_mem hm))
  · exact rows_of_mem (by simpa using exec_changed (fun _ _ _ hf => hf.btable) h hne)
  · exact rows_of_mem (by simpa using exec_changed (fun _ _ _ hf => hf.bcdr) h hne)
  · have hm : .istr ∈ s.parts i ∨ .busReset ∈ s.parts i ∨ .latch ∈ s.parts i ∨ .entry ∈ s.parts i := by
      simpa using exec_changed (fun _ _ _ hf => hf.istr) h hne
    rcases hm with hm | hm | hm | hm
    · exact .inl (rows_of_mem hm)
    · exact .inr (.inr (.inl (rows_of_mem hm)))
    · exact .inr (.inr (.inr (rows_of_mem hm)))
    · exact .inr (.inl (rows_of_mem hm))

theorem exec_busChange {i : Instr} {s t : State} (hb : isBusRow i = true) (h : exec i s = .next t) :
    BusChange s t := by
  rcases exec_cases h with ⟨e, -, rfl⟩ | ⟨rfl, -⟩ | ⟨hi, -⟩
  · exact busChange_busEffect e s
  · cases hb
  · rw [hi] at hb; cases hb

/-- Settles O14, by the same lists; of a BUS row by what a bus event may change. -/
theorem controllerStateFrame : Obligations.ControllerStateFrame := by
  intro i s t h
  refine ⟨exec_unchanged (fun _ _ _ hf => hf.params) h, exec_unchanged (fun _ _ _ hf => hf.app) h,
    exec_unchanged (fun _ _ _ hf => hf.program) h, exec_unchanged (fun _ _ _ hf => hf.turns) h,
    exec_unchanged (fun _ _ _ hf => hf.busIn) h, fun hne => ?_, fun hne => ?_, fun hne => ?_, fun hne => ?_,
    fun hne => ?_, fun hne => ?_, fun hne => ?_, fun hne => ?_, fun hb => exec_busChange hb h⟩
  · exact rows_of_mem (by simpa using exec_changed (fun _ _ _ hf => hf.slots) h hne)
  · refine rows_of_mem (s := s) (l := .power) ?_
    rcases hne with hne | hne | hne
    · simpa using exec_changed (fun _ _ _ hf => hf.clkOn) h hne
    · simpa using exec_changed (fun _ _ _ hf => hf.vdetOn) h hne
    · simpa using exec_changed (fun _ _ _ hf => hf.initialized) h hne
  · refine rows_of_mem (s := s) (l := .connection) ?_
    rcases hne with hne | hne
    · simpa using exec_changed (fun _ _ _ hf => hf.irqEnabled) h hne
    · simpa using exec_changed (fun _ _ _ hf => hf.pinsAf) h hne
  · exact rows_of_mem (by simpa using exec_changed (fun _ _ _ hf => hf.preSuspend) h hne)
  · have hm : .snapshot ∈ s.parts i ∨ .entry ∈ s.parts i := by
      simpa using exec_changed (fun _ _ _ hf => hf.core) h hne
    exact hm.elim (fun hm => .inr (rows_of_mem hm)) fun hm => .inl (rows_of_mem hm)
  · refine rows_of_mem (s := s) (l := .stage) ?_
    rcases hne with hne | hne
    · simpa using exec_changed (fun _ _ _ hf => hf.stage) h hne
    · simpa using exec_changed (fun _ _ _ hf => hf.remaining) h hne
  · exact rows_of_mem (by simpa using exec_changed (fun _ _ _ hf => hf.cursor) h hne)
  · exact rows_of_mem (by simpa using exec_changed (fun _ _ _ hf => hf.deferred) h hne)

/-! ## What hardware owns (O58) -/

/-- The fields that hardware owns: `g` has them as `f` but for cleared CTR flags (R103). -/
def HardwareOwned (f g : EprFields) : Prop :=
  g.setup = f.setup ∧ g.dtogRx = f.dtogRx ∧ g.dtogTx = f.dtogTx ∧ (g.ctrRx = true → f.ctrRx = true)
    ∧ (g.ctrTx = true → f.ctrTx = true)

theorem HardwareOwned.refl (f : EprFields) : HardwareOwned f f := ⟨rfl, rfl, rfl, id, id⟩

theorem HardwareOwned.trans {f g k : EprFields} (h : HardwareOwned f g) (h' : HardwareOwned g k) :
    HardwareOwned f k := by
  unfold HardwareOwned at *
  grind

/-- A write of a toggle-safe word leaves hardware's fields to hardware (R102, R451). -/
theorem toggleSafe_hardwareOwned (old cur : HalfWord) (chg : EprChange) (clr : EprClear) :
    HardwareOwned (eprFields old) (eprFields (eprSwWrite old (toggleSafeWrite cur chg clr))) := by
  simp +contextual [HardwareOwned, eprSwWrite, toggleSafeWrite]

theorem Change.hardwareOwned {l : Part} {s t : State} (h : Change l s t) (hl : l ≠ .busReset)
    (n : EpNum) (hn : l ≠ .token n) : HardwareOwned (s.eprF n) (t.eprF n) := by
  by_cases hs : l = .endpoint n
  · subst hs
    cases h with
    | endpoint s n cur chg clr =>
      rw [State.eprF, State.eprF, epr_setEpr, if_pos rfl]
      exact toggleSafe_hardwareOwned _ _ _ _
  · rw [State.eprF, State.eprF, h.frame.epr n (by simp [hs, hn, hl])]
    exact HardwareOwned.refl _

/-- Settles O58: the words CORE and APP write are toggle-safe, and only BUS rows change a register otherwise. -/
theorem hardwareOwnedFields : Obligations.HardwareOwnedFields := by
  intro i s t hi h n
  refine exec_keeps (P := fun u => HardwareOwned (s.eprF n) (u.eprF n)) h (fun l hl u v hc hu => hu.trans ?_)
    (HardwareOwned.refl _)
  refine hc.hardwareOwned ?_ n ?_
  · rintro rfl
    obtain rfl := rows_of_mem hl
    cases hi
  · rintro rfl
    rw [rows_of_mem hl] at hi
    cases hi

end Sys2Proof.Machine

/-! # The invariants of every step -/

namespace Sys2Proof.Machine

/-! ## Packet memory (O53) -/

/-- What R10 and R12 say of PM_SIZE and BDT_BASE. -/
theorem pmSize_bdtBase_of_valid {p : Params} (h : paramsValid p = true) :
    p.pmSize % 2 = 0 ∧ p.bdtBase.toNat % 8 = 0 ∧ p.bdtBase.toNat + 64 ≤ p.pmSize := by
  simp only [paramsValid, Bool.and_eq_true, decide_eq_true_eq] at h
  obtain ⟨⟨⟨⟨heven, -⟩, h8⟩, h64⟩, -⟩ := h
  exact ⟨heven, h8, h64⟩

/-- Packet memory is in order and PM_SIZE even, so that a cell below PM_SIZE lies below it whole (R10, R202). -/
def State.MemEven (s : State) : Prop := s.MemOk ∧ s.params.pmSize % 2 = 0

theorem memOk_setBytes {s : State} {a : Nat} {d : List Byte} (h : s.MemOk) (hd : a + d.length ≤ s.params.pmSize) :
    (s.setBytes a d).MemOk :=
  ⟨memSetBytes_wf h.1 a d, memSetBytes_bound h.2 hd⟩

theorem memOk_storeCell {s : State} (h : s.MemOk) (he : s.params.pmSize % 2 = 0) (k : Nat) (v : HalfWord) :
    (s.storeCell k v).MemOk := by
  unfold State.storeCell
  split
  · rw [setCell_eq_setBytes]
    exact memOk_setBytes h (by simp; omega)
  · exact h

theorem memOk_congr {s t : State} (hm : t.mem = s.mem) (hp : t.params = s.params) (h : s.MemOk) : t.MemOk := by
  unfold State.MemOk
  rw [hm, hp]
  exact h

theorem memEven_kept (l : Part) : l.Keeps State.MemEven := fun s t hc ⟨hm, he⟩ => by
  refine ⟨?_, by rw [hc.frame.params]; exact he⟩
  cases hc with
  | store s k v => exact memOk_storeCell hm he k v
  | receive s a d hd => exact memOk_setBytes hm hd
  | snapshot s w => exact memOk_congr (by simp) (by simp) hm
  | _ => exact hm

/-- Settles O53: a store keeps packet memory in order because the bytes it writes lie below PM_SIZE, and no other
change writes packet memory. -/
theorem memoryInvariant : Obligations.MemoryInvariant := by
  intro s t hm h
  obtain ⟨-, hp, -⟩ := step_cases h
  exact (step_keeps memEven_kept (fun _ _ _ _ _ _ hs => hs) h ⟨hm, (pmSize_bdtBase_of_valid hp).1⟩).1

/-! ## The bindings (O55) -/

theorem overlaps_comm (a l b k : Nat) : overlaps a l b k = overlaps b k a l := by
  simp [overlaps, max_comm, min_comm]

/-- Two geometries share no byte (R231). -/
def geomsApart (g o : Geometry) : Bool :=
  geomAvoids g o.txAddr.toNat o.txSize.toNat && geomAvoids g o.rxAddr.toNat o.rxSize.toNat

theorem geomsApart_comm (g o : Geometry) : geomsApart g o = geomsApart o g := by
  simp only [geomsApart, geomAvoids, overlaps_comm o.txAddr.toNat, overlaps_comm o.rxAddr.toNat]
  grind

/-- Validity is what R231 asks of the geometry itself, and that it stands apart from the others. -/
theorem geometryValid_iff {p : Params} {n : EpNum} {others : List Geometry} {g : Geometry} :
    geometryValid p n others g = true ↔ geometryValid p n [] g = true ∧ ∀ o ∈ others, geomsApart g o = true := by
  simp only [geometryValid, geomsApart, Bool.and_eq_true, List.all_eq_true, List.all_nil]
  tauto

theorem geomOk_iff {s : State} {n : EpNum} {g : Geometry} :
    s.geomOk n g = true ↔ geometryValid s.params n [] g = true
      ∧ ∀ m, m ≠ n → s.isBound m = true → geomsApart g (s.geom m) = true := by
  unfold State.geomOk State.otherGeoms
  rw [geometryValid_iff]
  simp only [List.forall_mem_map, List.mem_filter, mem_allEps, true_and, Bool.and_eq_true, decide_eq_true_eq,
    and_imp]

theorem geom_setSlot (s : State) (n m : EpNum) (r : Role) (g : Geometry) (ty : EpType) :
    (s.setSlot n (.bound r g ty)).geom m = if n = m then g else s.geom m := by
  simp only [State.geom, slot_setSlot]
  split <;> rfl

theorem isBound_setSlot (s : State) (n m : EpNum) (r : Role) (g : Geometry) (ty : EpType) :
    (s.setSlot n (.bound r g ty)).isBound m = (n = m || s.isBound m) := by
  simp only [State.isBound, slot_setSlot]
  split <;> simp_all [slotBound]

/-- A slot bound to a geometry that is valid against the others leaves every bound geometry valid (R231). -/
theorem geomsOk_setSlot {s : State} {n : EpNum} {g : Geometry} (h : s.GeomsOk) (hg : s.geomOk n g = true)
    (r : Role) (ty : EpType) : (s.setSlot n (.bound r g ty)).GeomsOk := by
  intro m hm
  rw [geomOk_iff] at hg ⊢
  obtain ⟨hown, hapart⟩ := hg
  rw [setSlot_params, geom_setSlot]
  by_cases hnm : n = m
  · subst hnm
    simp only [if_true]
    refine ⟨hown, fun k hk hb => ?_⟩
    simp only [geom_setSlot, isBound_setSlot, Ne.symm hk, if_false, decide_false, Bool.false_or] at hb ⊢
    exact hapart k hk hb
  · have hold : s.isBound m = true := by simpa [isBound_setSlot, hnm] using hm
    obtain ⟨hmown, hmapart⟩ := geomOk_iff.mp (h m hold)
    rw [if_neg hnm]
    refine ⟨hmown, fun k hk hb => ?_⟩
    rw [geom_setSlot]
    split
    · rw [geomsApart_comm]; exact hapart m (Ne.symm hnm) hold
    · rename_i hnk
      exact hmapart k hk (by simpa [isBound_setSlot, hnk] using hb)

theorem slotsOk_setSlot {s : State} {n : EpNum} {r : Role} (h : s.SlotsOk) (hn : n ≠ 0)
    (hr : r = .control → s.role n = some .control) (g : Geometry) (ty : EpType) :
    (s.setSlot n (.bound r g ty)).SlotsOk := by
  refine ⟨by simpa [hn] using h.1, fun m hm => ?_⟩
  simp only [State.role, slot_setSlot]
  split
  · simp only [slotRole, ne_eq, Option.some.injEq]
    exact fun hc => h.2 n hn (hr hc)
  · exact h.2 m hm

theorem bindings_congr {s t : State} (hs : t.slots = s.slots) (hp : t.params = s.params)
    (h : s.SlotsOk ∧ s.GeomsOk) : t.SlotsOk ∧ t.GeomsOk := by
  have hslot : t.slot = s.slot := by funext n; rw [State.slot, State.slot, hs]
  have hgeom : t.geom = s.geom := by funext n; rw [State.geom, State.geom, hslot]
  simp only [State.SlotsOk, State.GeomsOk, State.geomOk, State.otherGeoms, State.isBound, State.role, hslot, hgeom,
    hp] at h ⊢
  exact h

theorem bindings_kept (l : Part) : l.Keeps fun s => s.SlotsOk ∧ s.GeomsOk := fun s t hc h => by
  by_cases hl : l = .binding
  · subst hl
    cases hc with
    | binding s n r ty g hn hr hg => exact ⟨slotsOk_setSlot h.1 hn hr g ty, geomsOk_setSlot h.2 hg r ty⟩
  · exact bindings_congr (hc.frame.slots (by simpa using hl)) hc.frame.params h

/-- Settles O55: a slot is bound only to a geometry valid against the others, and being apart is symmetric. -/
theorem bindingInvariant : Obligations.BindingInvariant := fun _ _ hslots hgeoms h =>
  step_keeps bindings_kept (fun _ _ _ _ _ _ hs => hs) h ⟨hslots, hgeoms⟩

/-! ## Trace, faults and refusals (O59) -/

/-- What `s` has recorded is the beginning of what `t` has, under the same parameters. -/
def Extends (s t : State) : Prop :=
  s.trace <+: t.trace ∧ s.faults <+: t.faults ∧ s.refusals <+: t.refusals ∧ t.params = s.params

theorem Extends.refl (s : State) : Extends s s := ⟨List.prefix_rfl, List.prefix_rfl, List.prefix_rfl, rfl⟩

theorem Extends.trans {s t u : State} (h : Extends s t) (h' : Extends t u) : Extends s u := by
  obtain ⟨htrace, hfaults, hrefusals, hparams⟩ := h
  obtain ⟨htrace', hfaults', hrefusals', hparams'⟩ := h'
  exact ⟨htrace.trans htrace', hfaults.trans hfaults', hrefusals.trans hrefusals', hparams'.trans hparams⟩

theorem Change.extends {l : Part} {s t : State} (h : Change l s t) : Extends s t := by
  cases h with
  | store | snapshot | emit | raise | refuse => simp [Extends]
  | _ => exact Extends.refl s

/-- Settles O59: no change drops what is recorded. -/
theorem observationsOnlyGrow : Obligations.ObservationsOnlyGrow := fun s _ h =>
  step_keeps (P := Extends s) (fun _ _ _ hc hs => hs.trans hc.extends) (fun _ _ _ _ _ _ hs => hs) h (Extends.refl s)

/-! ## Registers, status and the agents (O54) -/

theorem or_and_of_disjoint {a b m : HalfWord} (hb : b &&& m = 0) : (a ||| b) &&& m = a &&& m := by
  rw [BitVec.and_comm, BitVec.and_or_distrib_left, BitVec.and_comm m b, hb, BitVec.and_comm m a]
  exact BitVec.or_zero

theorem istrWrite_and (old w m : HalfWord) (h : old &&& m = 0) : istrWrite old w &&& m = 0 := by
  rw [istrWrite, BitVec.and_assoc, BitVec.and_comm _ m, ← BitVec.and_assoc, h]
  exact BitVec.zero_and

theorem latched_and (old b m : HalfWord) (h : old &&& m = 0) (hb : b &&& m = 0) : (old ||| b) &&& m = 0 := by
  rw [or_and_of_disjoint hb, h]

theorem reservedZero_kept (l : Part) : l.Keeps State.ReservedZero := fun s t hc h => by
  obtain ⟨hcntr, hdaddr, hbtable, hbcdr, histr⟩ := h
  cases hc with
  | cntr s w => exact ⟨by simp [State.setCntr, BitVec.and_assoc], hdaddr, hbtable, hbcdr, histr⟩
  | daddr s w => exact ⟨hcntr, by simp [State.setDaddr, BitVec.and_assoc], hbtable, hbcdr, histr⟩
  | btable s w => exact ⟨hcntr, hdaddr, by simp [State.setBtable, BitVec.and_assoc], hbcdr, histr⟩
  | bcdr s w => exact ⟨hcntr, hdaddr, hbtable, by simp [State.setBcdr, BitVec.and_assoc], histr⟩
  | istr s w => exact ⟨hcntr, hdaddr, hbtable, hbcdr, istrWrite_and _ _ _ histr⟩
  | entry s hd => exact ⟨hcntr, hdaddr, hbtable, hbcdr, istrWrite_and _ _ _ histr⟩
  | busReset s => exact ⟨hcntr, BitVec.zero_and, hbtable, hbcdr, latched_and _ _ _ histr rfl⟩
  | busSuspend s | busResume s => exact ⟨hcntr, hdaddr, hbtable, hbcdr, latched_and _ _ _ histr rfl⟩
  | store s k v | snapshot s w => simpa [State.ReservedZero] using ⟨hcntr, hdaddr, hbtable, hbcdr, histr⟩
  | _ => exact ⟨hcntr, hdaddr, hbtable, hbcdr, histr⟩

theorem neverAttached_kept (l : Part) : l.Keeps State.NeverAttached := fun s t hc h => by
  obtain ⟨hdev, hpre⟩ := h
  cases hc with
  | status s d hd => exact ⟨fun he => hpre (hd he), hpre⟩
  | preSuspend s => exact ⟨hdev, hdev⟩
  | store s k v | snapshot s w => simpa [State.NeverAttached] using ⟨hdev, hpre⟩
  | _ => exact ⟨hdev, hpre⟩

/-- The agent that moves finds the other one of CORE and APP idle (R711, R732). -/
theorem exclusive_of_enabled {s : State} (h : s.Exclusive) :
    (s.agentEnabled .core = true → s.app = .idle) ∧ (s.agentEnabled .app = true → s.core = .idle) := by
  unfold State.Exclusive at h
  constructor
  · intro he
    cases hc : s.core with
    | idle => simp_all [State.agentEnabled, State.canDispatch]
    | dispatching => simpa [hc] using h
  · intro he
    cases ha : s.app with
    | idle => simp_all [State.agentEnabled]
    | running => simpa [ha] using h

/-- No change starts a dispatch while APP runs a command (R711). -/
theorem core_idle_kept (ws : List HalfWord) (had : List Answer) (l : Part) :
    l.Keeps fun s => s.core = .idle ∧ s.app = .running ws had := fun s t hc ⟨hcore, happ⟩ => by
  refine ⟨?_, hc.frame.app.trans happ⟩
  cases hc with
  | snapshot s w => simp [State.setEprSnap, hcore]
  | entry s hd => simp [State.canDispatch, happ] at hd
  | store s k v => simpa using hcore
  | _ => exact hcore

theorem Issues.core_idle {s t : State} {ws : List HalfWord} {had : List Answer} (h : Issues s t)
    (hc : s.core = .idle) (ha : s.app = .running ws had) : t.core = .idle := by
  rcases h with ⟨r, rfl⟩ | ⟨i, u, a, hu, rfl⟩
  · exact hc
  · exact (hu.keeps (fun l _ => core_idle_kept ws had l) ⟨hc, ha⟩).1

/-- CORE and APP are never both at work (R732). -/
theorem step_exclusive {s t : State} (hx : s.Exclusive) (h : step s = .next t) : t.Exclusive := by
  obtain ⟨-, -, a, ts, ha, hstep⟩ := step_cases h
  have henabled := nextAgent_enabled ha
  obtain ⟨hcore, happ⟩ := exclusive_of_enabled hx
  cases a with
  | core =>
    exact .inr <| keeps_stepCore (P := fun u => u.app = .idle) (fun _ _ _ hc hu => hc.frame.app.trans hu)
      (fun _ _ _ hu => hu) hstep (hcore henabled)
  | app =>
    obtain ⟨ws, had, ls, hi⟩ := stepApp_cases hstep
    exact .inl (hi.core_idle (happ henabled) rfl)
  | bus =>
    obtain ⟨e, bs, he⟩ := stepBus_cases hstep
    rcases exec_cases he with ⟨e', -, rfl⟩ | ⟨hi, -, -⟩ | ⟨hb, -⟩
    · rw [busChange_busEffect e' _]; exact hx
    · cases e <;> cases hi
    · cases e <;> cases hb
  | desc => cases hstep

/-! ## The boot order (O54, R810) -/

/-- Run undisturbed from a state with `P`, the operation comes to its end without a fault or a refusal, in a state
with `Q`. -/
def Prog.Ends {α : Type} (P : State → Prop) (p : Prog α) (Q : State → Prop) : Prop :=
  ∀ s, P s → ∃ a t, p.run s = .ok a t ∧ Q t

theorem Prog.Ends.andThen {β : Type} {P Q R : State → Prop} {p : Prog Unit} {q : Prog β} (hp : p.Ends P Q)
    (hq : q.Ends Q R) : (p.andThen q).Ends P R := fun s hs => by
  obtain ⟨a, t, ht, hQ⟩ := hp s hs
  rw [run_andThen, ht, andThen_ok]
  exact hq t hQ

theorem ends_ret {P : State → Prop} : (Prog.ret ()).Ends P P := fun s hs => ⟨(), s, rfl, hs⟩

theorem ends_writing {P Q : State → Prop} {f : State → State} (hf : ∀ s, P s → Q (f s)) :
    (writing f).Ends P Q := fun s hs => ⟨(), f s, rfl, hf s hs⟩

theorem ends_updating {P Q : State → Prop} {f : State → State} (hf : ∀ s, P s → Q (f s)) :
    (updating f).Ends P Q := fun s hs => ⟨(), f s, rfl, hf s hs⟩

theorem ends_raiseIf {P : State → Prop} {ag : Agent} {rule : Nat} {c : State → Option FaultKind}
    (hc : ∀ s, P s → c s = none) : (raiseIf ag rule c).Ends P P :=
  fun s hs => ⟨(), s, run_raiseIf_none (hc s hs), hs⟩

/-- The transceiver is off, so that the controller is not attached (R120, R650), under the parameters `p`. -/
def PoweredDown (p : Params) (s : State) : Prop := s.params = p ∧ s.cntr.getLsbD 1 = true

/-- `PoweredDown`, and BTABLE points at the BDT (R601). -/
def TablePlaced (p : Params) (s : State) : Prop := PoweredDown p s ∧ s.btable = p.bdtBase

theorem PoweredDown.detached {p : Params} {s : State} (h : PoweredDown p s) : s.attached = false := by
  simp [State.attached, h.2]

theorem ends_pmClear (p : Params) (ag : Agent) (rule : Nat) (c : Context) :
    (pmClear ag rule c).Ends (PoweredDown p) (PoweredDown p) := by
  have cells (count k : Nat) : (clearCells count k).Ends (PoweredDown p) (PoweredDown p) := by
    induction count generalizing k with
    | zero => exact ends_ret
    | succ n ih =>
      exact (ends_writing fun s hs => by simpa [PoweredDown] using hs).andThen (ih (k + 1))
  exact (ends_raiseIf fun s hs => by simp [State.ownFaultW, State.firstOwnedW, hs.detached]).andThen (cells _ _)

/-- With BTABLE at BDT_BASE every BDT field lies in packet memory (R12, R409). -/
theorem bdtAddr_lt {s : State} (hp : paramsValid s.params = true) (hb : s.btable = s.params.bdtBase)
    (n : EpNum) (f : BdtField) : s.bdtAddr n f + 1 < s.params.pmSize := by
  obtain ⟨-, h8, h64⟩ := pmSize_bdtBase_of_valid hp
  have hcode : f.code.toNat ≤ 3 := by cases f <;> decide
  simp only [State.bdtAddr, hb, BitVec.extractLsb'_toNat]
  omega

theorem ends_bdtWrite {p : Params} (hp : paramsValid p = true) (ag : Agent) (rule : Nat) (n : EpNum) (f : BdtField)
    (v : HalfWord) : (bdtWrite ag rule n f v).Ends (TablePlaced p) (TablePlaced p) := by
  refine (ends_raiseIf fun s hs => ?_).andThen (ends_writing fun s hs => ?_)
  · obtain ⟨hdown, hb⟩ := hs
    have hlt := bdtAddr_lt (s := s) (hdown.1 ▸ hp) (hb.trans (by rw [hdown.1])) n f
    have hown : s.bdtOwned n f = false := by simp [State.bdtOwned, hdown.detached]
    simp [hown]; omega
  · simpa [TablePlaced, PoweredDown] using hs

theorem ends_epInit {p : Params} (hp : paramsValid p = true) (ag : Agent) (c : Context) (n : EpNum) :
    (epInit ag c n).Ends (TablePlaced p) (TablePlaced p) := by
  have hhook : hook n .onInit c = .ret () := by
    unfold hook
    split
    · rfl
    · rename_i r _; cases r <;> rfl
  have hwrite := ends_bdtWrite hp ag 459 n
  exact ((hwrite _ _).andThen <| (hwrite _ _).andThen <| (hwrite _ _).andThen (hwrite _ _)).andThen
    (hhook ▸ ends_ret)

theorem ends_forBound {P : State → Prop} {f : EpNum → Prog Unit} (hf : ∀ n, (f n).Ends P P) (c : Context)
    (ns : List EpNum) : (forBound f c ns).Ends P P := by
  induction ns with
  | nil => exact ends_ret
  | cons n ns ih =>
    unfold forBound
    split
    · exact (hf n).andThen ih
    · exact ih

theorem bdtBase_masked {p : Params} (hp : paramsValid p = true) : p.bdtBase &&& 0xFFF8 = p.bdtBase := by
  obtain ⟨-, h8, -⟩ := pmSize_bdtBase_of_valid hp
  have low (i : Nat) (hi : i < 3) : p.bdtBase.getLsbD i = false := by
    rw [BitVec.getLsbD, Nat.testBit_eq_decide_div_mod_eq]
    interval_cases i <;> simp <;> omega
  refine BitVec.eq_of_getLsbD_eq fun i hi => ?_
  rw [BitVec.getLsbD_and]
  by_cases h3 : i < 3
  · rw [low i h3, Bool.false_and]
  · have mask : (0xFFF8 : HalfWord).getLsbD i = true := by
      have h3 : 3 ≤ i := by omega
      interval_cases i <;> rfl
    rw [mask, Bool.and_true]

/-- DC_INIT comes to its end, initialised and with BTABLE at BDT_BASE (R601). -/
theorem ends_dcInit (p : Params) (hp : paramsValid p = true) (c : Context) (hc : c.params = p) :
    (doDcInit c).Ends (fun s => s.params = p) fun s => s.initialized = true ∧ s.btable = p.bdtBase := by
  have clocks : (updating fun s => { s with clkOn := true, vdetOn := true }).Ends (fun s => s.params = p)
      (fun s => s.params = p) := ends_updating fun s hs => hs
  have powerOff : (writeCntr 0x0003).Ends (fun s => s.params = p) (PoweredDown p) :=
    ends_writing fun s hs => ⟨hs, by rw [setCntr_cntr]; decide⟩
  have latches : (writeIstr 0x0000).Ends (PoweredDown p) (PoweredDown p) := ends_writing fun s hs => hs
  have table : (writeBtable c.params.bdtBase).Ends (PoweredDown p) (TablePlaced p) :=
    ends_writing fun s hs => ⟨hs, by rw [setBtable_btable, hc, bdtBase_masked hp]⟩
  have address : (writeDaddr 0x0000).Ends (TablePlaced p) (TablePlaced p) := ends_writing fun s hs => hs
  have stillOff : (writeCntr 0x0002).Ends (TablePlaced p) (TablePlaced p) :=
    ends_writing fun s hs => ⟨⟨hs.1.1, by rw [setCntr_cntr]; decide⟩, hs.2⟩
  have marks : (updating fun s => { s with devStatus := .powered, initialized := true }).Ends (TablePlaced p)
      (fun s => s.initialized = true ∧ s.btable = p.bdtBase) := ends_updating fun s hs => ⟨rfl, hs.2⟩
  exact clocks.andThen <| powerOff.andThen <| (ends_pmClear p .app 601 c).andThen <|
    latches.andThen <| table.andThen <| address.andThen <|
    (ends_forBound (ends_epInit hp .app c) c allEps).andThen <| stillOff.andThen marks

theorem bootOk_congr {s t : State} (hp : t.params = s.params) (hc : t.clkOn = s.clkOn)
    (hi : t.initialized = s.initialized) (hb : t.btable = s.btable) (h : s.BootOk) : t.BootOk := by
  unfold State.BootOk
  rw [hp, hc, hi, hb]
  exact h

theorem exec_bootOk {i : Instr} {s t : State} (hp : paramsValid s.params = true) (hb : s.BootOk)
    (h : exec i s = .next t) : t.BootOk := by
  have hparams : t.params = s.params := exec_unchanged (fun _ _ _ hf => hf.params) h
  by_cases hi : i = .dcInit
  · subst hi
    obtain ⟨_, u, hu, hinit, hbtable⟩ := ends_dcInit s.params hp s.context rfl s rfl
    have ht : ((doDcInit s.context).run s).toOutcome = .next t := h
    rw [hu] at ht
    cases ht
    exact ⟨fun _ => hinit, fun _ => hbtable.trans (by rw [hparams])⟩
  · have same {β : Type} (f : State → β)
        (hf : ∀ (l : Part) (u v : State), l.Frame u v → l ∉ [.power, .btable] → f v = f u) : f t = f s := by
      by_contra hne
      have hm : .power ∈ s.parts i ∨ .btable ∈ s.parts i := by simpa using exec_changed hf h hne
      exact hi (hm.elim rows_of_mem rows_of_mem)
    exact bootOk_congr hparams (same _ fun _ _ _ hf hl => hf.clkOn (by simp_all))
      (same _ fun _ _ _ hf hl => hf.initialized (by simp_all)) (same _ fun _ _ _ hf hl => hf.btable (by simp_all)) hb

/-- Settles O54: the masks of R121 to R127 clear the reserved bits, the agent that moves finds the other idle, and
of the boot order only DC_INIT changes anything, which it completes. -/
theorem registerAndModeInvariant : Obligations.RegisterAndModeInvariant := by
  refine ⟨fun s t hz hx ha h => ⟨?_, step_exclusive hx h, ?_⟩, fun i s t hp hb h => exec_bootOk hp hb h⟩
  · exact step_keeps reservedZero_kept (fun _ _ _ _ _ _ hs => hs) h hz
  · exact step_keeps neverAttached_kept (fun _ _ _ _ _ _ hs => hs) h ha

end Sys2Proof.Machine

/-! # Registers as they read -/

namespace Sys2Proof.Machine

/-! ## The interrupt-status register (O29) -/

/-- The word of a read of ISTR with a pending completion of endpoint n, without its latches (R110, R112). -/
def pendingWord (n : EpNum) (dir : Bool) : HalfWord :=
  0x8000 ||| (if dir then 0x0010 else 0x0000) ||| BitVec.ofNat 16 n.val

/-- Its fields: no latch and no reserved bit, CTR, EP_ID and DIR. -/
theorem pendingWord_fields (n : EpNum) (dir : Bool) :
    pendingWord n dir &&& 0x7FE0 = 0 ∧ (pendingWord n dir).getLsbD 15 = true
      ∧ (pendingWord n dir).extractLsb' 0 4 = BitVec.ofNat 4 n.val ∧ (pendingWord n dir).getLsbD 4 = dir := by
  revert n dir
  decide

theorem mem_pendingEps {s : State} {n : EpNum} : n ∈ s.pendingEps ↔ s.pending n = true := by
  simp [State.pendingEps, mem_allEps]

/-- The endpoint an interrupt-status read names is a pending one, the first under `lowest_first` (R112). -/
theorem chooseEp_some {pri : EpPriority} {draw : Nat} {ns : List EpNum} {n : EpNum}
    (h : chooseEp pri draw ns = some n) : n ∈ ns ∧ (pri = .lowestFirst → ns.head? = some n) := by
  match ns, h with
  | [m], h => cases h; simp
  | m :: k :: ms, h =>
    cases pri with
    | lowestFirst => cases h; simp
    | any =>
      cases h
      refine ⟨?_, nofun⟩
      rw [List.getD_eq_getElem _ _ (Nat.mod_lt _ (by simp))]
      exact List.getElem_mem _

theorem chooseEp_none {pri : EpPriority} {draw : Nat} {ns : List EpNum} (h : chooseEp pri draw ns = none) :
    ns = [] := by
  match ns, h with
  | [], _ => rfl
  | m :: k :: ms, h => cases pri <;> cases h

/-- The endpoints with a pending completion are listed in ascending order. -/
theorem pendingEps_head_le {s : State} {n m : EpNum} (hn : s.pendingEps.head? = some n) (hm : m ∈ s.pendingEps) :
    n ≤ m := by
  have sorted : s.pendingEps.Pairwise (· ≤ ·) := List.Pairwise.filter _ (by decide : allEps.Pairwise (· ≤ ·))
  obtain ⟨ns, hns⟩ := List.head?_eq_some_iff.mp hn
  rw [hns] at sorted hm
  rcases List.mem_cons.mp hm with rfl | hm
  · exact le_refl _
  · exact List.rel_of_pairwise_cons sorted hm

/-- One read of ISTR is its latches and, with them, the fields of a pending endpoint, or the free values of
DIR and EP_ID where none is pending (R112). -/
theorem istrRead_cases (s : State) :
    (∃ n, s.pending n = true ∧ (s.params.epPriority = .lowestFirst → ∀ m : EpNum, s.pending m = true → n ≤ m)
      ∧ s.istrRead = (s.istr &&& istrLatches) ||| pendingWord n (s.eprF n).ctrRx)
    ∨ (∀ n, s.pending n = false) ∧ ∃ x : BitVec 5, s.istrRead = (s.istr &&& istrLatches) ||| x.setWidth 16 := by
  cases h : chooseEp s.params.epPriority s.draws s.pendingEps with
  | some n =>
    obtain ⟨hmem, hlow⟩ := chooseEp_some h
    exact .inl ⟨n, mem_pendingEps.mp hmem, fun hp m hm => pendingEps_head_le (hlow hp) (mem_pendingEps.mpr hm),
      by rw [State.istrRead, h]; rfl⟩
  | none =>
    have none_pending := chooseEp_none h
    refine .inr ⟨fun n => ?_, _, by rw [State.istrRead, h]⟩
    rw [← Bool.not_eq_true, ← mem_pendingEps, none_pending]
    exact List.not_mem_nil

/-- What a read of ISTR holds above its latches does not show in them nor in the reserved bits (R110). -/
theorem latches_or {a x : HalfWord} (hx : x &&& 0x7FE0 = 0) :
    ((a &&& istrLatches) ||| x) &&& 0x7F80 = a &&& 0x7F80 ∧ ((a &&& istrLatches) ||| x) &&& 0x0060 = 0 := by
  have clear (m : HalfWord) (hm : 0x7FE0 &&& m = m) : x &&& m = 0 := by
    rw [← hm, ← BitVec.and_assoc, hx]
    exact BitVec.zero_and
  rw [or_and_of_disjoint (clear _ rfl), or_and_of_disjoint (clear _ rfl), BitVec.and_assoc, BitVec.and_assoc]
  exact ⟨rfl, BitVec.and_zero⟩

/-- Settles O29: the latches and the derived fields have no bit in common. -/
theorem interruptStatusRead : Obligations.InterruptStatusRead := by
  intro s
  have low (x : BitVec 5) : x.setWidth 16 &&& (0x7FE0 : HalfWord) = 0 ∧ (x.setWidth 16).getLsbD 15 = false := by
    revert x; decide
  have high (k : Nat) (x : HalfWord) (hk : istrLatches.getLsbD k = false) :
      ((s.istr &&& istrLatches) ||| x).getLsbD k = x.getLsbD k := by simp [hk]
  rcases istrRead_cases s with ⟨n, hn, hlow, hw⟩ | ⟨hnone, x, hw⟩
  · obtain ⟨hx, hctr, hid, hdir⟩ := pendingWord_fields n (s.eprF n).ctrRx
    obtain ⟨hlatch, hres⟩ := latches_or (a := s.istr) hx
    simp only [hw]
    refine ⟨hlatch, hres, ⟨fun _ => ⟨n, hn⟩, fun _ => ?_⟩, fun _ => ⟨n, ?_, hn, ?_, hlow⟩⟩
    · rw [high 15 _ rfl, hctr]
    · rw [← hid]
      refine BitVec.eq_of_getLsbD_eq fun k hk => ?_
      simp only [BitVec.getLsbD_extractLsb', Nat.zero_add]
      rw [high k _ (by interval_cases k <;> rfl)]
    · rw [high 4 _ rfl, hdir]
  · obtain ⟨hx, hctr⟩ := low x
    obtain ⟨hlatch, hres⟩ := latches_or (a := s.istr) hx
    simp only [hw, high 15 _ rfl, hctr, hnone]
    exact ⟨hlatch, hres, by simp, nofun⟩

/-! ## Power-on and the endpoint-register write (O1, O15) -/

/-- Settles O1: the fields are as State.powerOn gives them; no register of value 0 has a pending completion. -/
theorem powerOnValues : Obligations.PowerOnValues := by
  intro p
  have register (n : EpNum) : (State.powerOn p).epr n = 0x0000 := by
    simp [State.epr, State.powerOn]
  have others (n : EpNum) (hn : n ≠ 0) : (State.powerOn p).slot n = .unbound := by
    have hv : 0 ≠ n.val := fun h => hn (Fin.ext h.symm)
    simp [State.slot, State.powerOn, hv]
  have ctr : (State.powerOn p).ctr = false := by
    simp [State.ctr, State.pending, State.eprF, register, eprFields]
  exact ⟨register, rfl, ctr, rfl, rfl, rfl, rfl, rfl, others, rfl, rfl, rfl, rfl, rfl, rfl, rfl, rfl, rfl, rfl, rfl,
    rfl, rfl, rfl, rfl, rfl⟩

/-- Settles O15, bit by bit through the layout of R101. -/
theorem endpointRegisterWrite : Obligations.EndpointRegisterWrite := by
  intro old w k hk
  rw [eprSwWrite, getLsbD_eprWord]
  interval_cases k <;> simp [eprFields]

end Sys2Proof.Machine

/-! # Packet memory: ownership and the faults of its commands -/

namespace Sys2Proof.Machine

/-! ## Buffer ownership (O9) -/

theorem inRange_iff {b l x : Nat} : inRange b l x = true ↔ b ≤ x ∧ x < b + l := by
  simp [inRange]

theorem txOwns_iff {s : State} {n : EpNum} {x : Nat} : s.txOwns n x = true ↔
    s.statTx n = .valid ∧
      ((s.geom n).txAddr.toNat ≤ x ∧ x < (s.geom n).txAddr.toNat + (s.geom n).txSize.toNat
       ∨ s.bdtAddr n .addrTx ≤ x ∧ x < s.bdtAddr n .addrTx + 4) := by
  simp [State.txOwns, inRange_iff]

theorem rxBufOwns_iff {s : State} {n : EpNum} {x : Nat} : s.rxBufOwns n x = true ↔
    s.statRx n = .valid ∧
      (s.geom n).rxAddr.toNat ≤ x ∧ x < (s.geom n).rxAddr.toNat + (s.geom n).rxSize.toNat := by
  simp [State.rxBufOwns, inRange_iff]

theorem rxOwns_iff {s : State} {n : EpNum} {x : Nat} : s.rxOwns n x = true ↔
    s.statRx n = .valid ∧
      ((s.geom n).rxAddr.toNat ≤ x ∧ x < (s.geom n).rxAddr.toNat + (s.geom n).rxSize.toNat
       ∨ s.bdtAddr n .addrRx ≤ x ∧ x < s.bdtAddr n .addrRx + 4) := by
  simp [State.rxOwns, rxBufOwns_iff, inRange_iff, and_or_left]

/-- An endpoint number answers a search over all of them exactly when one has the property. -/
theorem find_allEps_isSome {p : EpNum → Bool} : (allEps.find? p).isSome = true ↔ ∃ n, p n = true := by
  simp [mem_allEps]

/-- The search for an owned byte of a range answers exactly when a byte of the range has an owner. -/
theorem findOwned_isSome {own : Nat → Option EpNum} {a l : Nat} :
    ((List.range l).findSome? fun i => (own (a + i)).map fun n => (n, a + i)).isSome = true ↔
      ∃ x, a ≤ x ∧ x < a + l ∧ (own x).isSome = true := by
  rw [List.findSome?_isSome_iff]
  constructor
  · rintro ⟨i, hi, ho⟩
    exact ⟨a + i, Nat.le_add_right a i, Nat.add_lt_add_left (List.mem_range.mp hi) a, by simpa using ho⟩
  · rintro ⟨x, hax, hxl, ho⟩
    obtain ⟨i, rfl⟩ := Nat.exists_eq_add_of_le hax
    exact ⟨i, List.mem_range.mpr (Nat.lt_of_add_lt_add_left hxl), by simpa using ho⟩

theorem firstOwnedW_isSome {s : State} {a l : Nat} : (s.firstOwnedW a l).isSome = true ↔
    s.attached = true ∧ ∃ x, a ≤ x ∧ x < a + l ∧ (s.ownerW x).isSome = true := by
  unfold State.firstOwnedW
  split <;> rename_i h
  · rw [findOwned_isSome, and_iff_right h]
  · simp [h]

theorem firstOwnedR_isSome {s : State} {a l : Nat} : (s.firstOwnedR a l).isSome = true ↔
    s.attached = true ∧ ∃ x, a ≤ x ∧ x < a + l ∧ (s.ownerR x).isSome = true := by
  unfold State.firstOwnedR
  split <;> rename_i h
  · rw [findOwned_isSome, and_iff_right h]
  · simp [h]

/-- Settles O9: the search over the bytes of the range and the endpoints, and what each side owns. -/
theorem bufferOwnership : Obligations.BufferOwnership := by
  intro s a l
  refine ⟨?_, ?_⟩
  · simp only [firstOwnedW_isSome, State.ownerW, find_allEps_isSome, Bool.and_eq_true, Bool.or_eq_true,
      txOwns_iff, rxOwns_iff, exists_and_left]
  · simp only [firstOwnedR_isSome, State.ownerR, find_allEps_isSome, Bool.and_eq_true, rxBufOwns_iff,
      exists_and_left]

/-! ## The faults of the packet-memory commands (O8) -/

/-- What a half-word access at `a` raises: alignment before range, and then what ownership says (R402, R403). -/
def State.halfwordFault (s : State) (a : Nat) (owned : Option FaultKind) : Option FaultKind :=
  if a % 2 = 1 then some (.pmAlign a) else if a + 1 ≥ s.params.pmSize then some (.pmRange a) else owned

/-- What a byte access at `a` raises: range before ownership (R404, R405). -/
def State.byteFault (s : State) (a : Nat) (owned : Option FaultKind) : Option FaultKind :=
  if a ≥ s.params.pmSize then some (.pmRange a) else owned

/-- What an access to the `l` bytes from `a` on raises: range before ownership (R406, R407). -/
def State.blockFault (s : State) (a l : Nat) (owned : Option FaultKind) : Option FaultKind :=
  if a + l > s.params.pmSize then some (.pmRange (a + l - 1)) else owned

section
variable {s : State} {a l : Nat} {owned : Option FaultKind}

theorem halfwordFault_odd (h : a % 2 = 1) : s.halfwordFault a owned = some (.pmAlign a) := if_pos h

theorem halfwordFault_range (h : a % 2 = 0) (hp : s.params.pmSize ≤ a + 1) :
    s.halfwordFault a owned = some (.pmRange a) := by
  simp [State.halfwordFault, h, hp]

theorem halfwordFault_owned (h : a % 2 = 0) (hp : a + 2 ≤ s.params.pmSize) : s.halfwordFault a owned = owned := by
  rw [State.halfwordFault, if_neg (by omega), if_neg (by omega)]

theorem byteFault_range (h : s.params.pmSize ≤ a) : s.byteFault a owned = some (.pmRange a) := if_pos h

theorem byteFault_owned (h : a < s.params.pmSize) : s.byteFault a owned = owned := if_neg (by omega)

theorem blockFault_range (h : s.params.pmSize < a + l) : s.blockFault a l owned = some (.pmRange (a + l - 1)) :=
  if_pos h

theorem blockFault_owned (h : a + l ≤ s.params.pmSize) : s.blockFault a l owned = owned := if_neg (by omega)

/-! An access that raises nothing is aligned and in range. -/

theorem even_of_halfwordFault (h : s.halfwordFault a owned = none) : a % 2 = 0 := by
  by_contra hodd
  rw [halfwordFault_odd (by omega)] at h
  cases h

theorem lt_of_byteFault (h : s.byteFault a owned = none) : a < s.params.pmSize := by
  by_contra hge
  rw [byteFault_range (by omega)] at h
  cases h

theorem le_of_blockFault (h : s.blockFault a l owned = none) : a + l ≤ s.params.pmSize := by
  by_contra hgt
  rw [blockFault_range (by omega)] at h
  cases h

end

/-- A command whose first statement is a check records what the check finds, and does nothing else (R700, R733). -/
theorem exec_raises {i : Instr} {s : State} {rule : Nat} {c : State → Option FaultKind} {p : Prog Unit}
    {k : FaultKind}
    (he : exec i s = perform (fun _ => command State.admitInit ((raiseIf .app rule c).andThen p)) s)
    (hi : s.initialized = true) (hc : c s = some k) : exec i s = .next (s.raise k .app rule) := by
  rw [he, perform, run_command_none (admitInit_none hi), run_andThen, run_raiseIf_some hc]
  rfl

section
variable {s : State} (hi : s.initialized = true) {k : FaultKind}
include hi

theorem pmReadHw_raises {a : HalfWord} (h : s.halfwordFault a.toNat (s.ownFaultR a.toNat 2) = some k) :
    exec (.pmReadHw a) s = .next (s.raise k .app 402) :=
  exec_raises (c := fun u => u.halfwordFault a.toNat (u.ownFaultR a.toNat 2)) rfl hi h

theorem pmWriteHw_raises {a : HalfWord} (h : s.halfwordFault a.toNat (s.ownFaultW a.toNat 2) = some k)
    (v : HalfWord) : exec (.pmWriteHw a v) s = .next (s.raise k .app 403) :=
  exec_raises (c := fun u => u.halfwordFault a.toNat (u.ownFaultW a.toNat 2)) rfl hi h

theorem pmReadB_raises {a : HalfWord} (h : s.byteFault a.toNat (s.ownFaultR a.toNat 1) = some k) :
    exec (.pmReadB a) s = .next (s.raise k .app 404) :=
  exec_raises (c := fun u => u.byteFault a.toNat (u.ownFaultR a.toNat 1)) rfl hi h

theorem pmWriteB_raises {a : HalfWord} (h : s.byteFault a.toNat (s.ownFaultW a.toNat 1) = some k) (v : Byte) :
    exec (.pmWriteB a v) s = .next (s.raise k .app 405) :=
  exec_raises (c := fun u => u.byteFault a.toNat (u.ownFaultW a.toNat 1)) rfl hi h

theorem pmRead_raises {a l : HalfWord} (hl : l ≠ 0)
    (h : s.blockFault a.toNat l.toNat (s.ownFaultR a.toNat l.toNat) = some k) :
    exec (.pmRead a l) s = .next (s.raise k .app 406) := by
  have hl0 : l.toNat ≠ 0 := fun h0 => hl (BitVec.eq_of_toNat_eq h0)
  have he : exec (.pmRead a l) s = perform (fun _ => doPmRead a l) s := rfl
  rw [doPmRead, memRead, if_neg hl0] at he
  exact exec_raises (c := fun u => u.blockFault a.toNat l.toNat (u.ownFaultR a.toNat l.toNat)) he hi h

theorem pmWrite_raises {a : HalfWord} {d : List Byte} (hd : d ≠ [])
    (h : s.blockFault a.toNat d.length (s.ownFaultW a.toNat d.length) = some k) :
    exec (.pmWrite a d) s = .next (s.raise k .app 407) := by
  have he : exec (.pmWrite a d) s = perform (fun _ => doPmWrite a d) s := rfl
  rw [doPmWrite, memWrite, if_neg hd] at he
  exact exec_raises (c := fun u => u.blockFault a.toNat d.length (u.ownFaultW a.toNat d.length)) he hi h

theorem pmClear_raises (h : s.ownFaultW 0 s.params.pmSize = some k) :
    exec .pmClear s = .next (s.raise k .app 408) :=
  exec_raises (c := fun u => u.ownFaultW 0 u.params.pmSize) rfl hi h

end

theorem ownFaultR_some {s : State} {a l : Nat} {n : EpNum} {x : Nat} (h : s.firstOwnedR a l = some (n, x)) :
    s.ownFaultR a l = some (.pmOwnership n x) := by
  simp [State.ownFaultR, h]

theorem ownFaultW_some {s : State} {a l : Nat} {n : EpNum} {x : Nat} (h : s.firstOwnedW a l = some (n, x)) :
    s.ownFaultW a l = some (.pmOwnership n x) := by
  simp [State.ownFaultW, h]

/-- Settles O8: each command raises what its check finds, and the check asks in the rule order. -/
theorem packetMemoryFaults : Obligations.PacketMemoryFaults := by
  intro s a hi
  refine ⟨fun hodd => ⟨pmReadHw_raises hi (halfwordFault_odd hodd), pmWriteHw_raises hi (halfwordFault_odd hodd)⟩,
    fun heven hp => ⟨pmReadHw_raises hi (halfwordFault_range heven hp),
      pmWriteHw_raises hi (halfwordFault_range heven hp)⟩,
    fun hp => ⟨pmReadB_raises hi (byteFault_range hp), pmWriteB_raises hi (byteFault_range hp)⟩,
    fun l hl hp => pmRead_raises hi hl (blockFault_range hp),
    fun d hd hp => pmWrite_raises hi hd (blockFault_range hp),
    fun n x heven hp => ⟨fun ho => pmReadHw_raises hi ((halfwordFault_owned heven hp).trans (ownFaultR_some ho)),
      fun ho => pmWriteHw_raises hi ((halfwordFault_owned heven hp).trans (ownFaultW_some ho))⟩,
    fun n x hp => ⟨fun ho => pmReadB_raises hi ((byteFault_owned hp).trans (ownFaultR_some ho)),
      fun ho => pmWriteB_raises hi ((byteFault_owned hp).trans (ownFaultW_some ho))⟩,
    fun l n x hl hp ho => pmRead_raises hi hl ((blockFault_owned hp).trans (ownFaultR_some ho)),
    fun d n x hd hp ho => pmWrite_raises hi hd ((blockFault_owned hp).trans (ownFaultW_some ho)),
    fun n x ho => pmClear_raises hi (ownFaultW_some ho),
    fun x n ep => ⟨rfl, rfl, rfl, rfl, rfl⟩⟩

end Sys2Proof.Machine

/-! # The memory frame

Byte `x` is followed through the undisturbed run of each operation that stores to packet memory; the operations
that store nothing are known from their lists of parts. -/

namespace Sys2Proof.Machine

/-- The byte lies in none of the ranges (start, length). -/
def Outside (x : Nat) (rs : List (Nat × Nat)) : Prop := ∀ r ∈ rs, x < r.1 ∨ r.1 + r.2 ≤ x

theorem outside_cons {x a l : Nat} {rs : List (Nat × Nat)} :
    Outside x ((a, l) :: rs) ↔ (x < a ∨ a + l ≤ x) ∧ Outside x rs := by
  simp [Outside]

theorem outside_nil {x : Nat} : Outside x [] := nofun

/-- `u` has come from `s` by stores that left byte `x` alone. The BDT's place is that of `s`, but for a byte above
packet memory, which no BDT field can be (DC_INIT moves BTABLE, R601). -/
def State.Spared (s : State) (x : Nat) (u : State) : Prop :=
  Memory.wf u.mem = true ∧ u.byte x = s.byte x ∧ u.params = s.params
    ∧ (x < s.params.pmSize → u.btable = s.btable)

/-- Run undisturbed, the operation leaves byte `x` alone. -/
def Prog.Spares {α : Type} (s : State) (x : Nat) (p : Prog α) : Prop :=
  ∀ u, s.Spared x u → s.Spared x (p.run u).state

theorem spared_setBytes {s u : State} {x : Nat} (h : s.Spared x u) {a : Nat} {d : List Byte}
    (hx : x < a ∨ a + d.length ≤ x) : s.Spared x (u.setBytes a d) := by
  obtain ⟨hw, hbyte, hparams, hbtable⟩ := h
  refine ⟨memSetBytes_wf hw a d, ?_, hparams, hbtable⟩
  rw [byte_setBytes hw, if_neg (by omega), hbyte]

theorem spared_storeCell {s u : State} {x k : Nat} (h : s.Spared x u) (hx : x < 2 * k ∨ 2 * k + 2 ≤ x)
    (v : HalfWord) : s.Spared x (u.storeCell k v) := by
  unfold State.storeCell
  split
  · rw [setCell_eq_setBytes]
    exact spared_setBytes h hx
  · exact h

/-- A change of another part than packet memory and BTABLE stores nothing. -/
theorem spared_kept (s : State) (x : Nat) {l : Part} (hm : l ≠ .packet) (hb : l ≠ .btable) :
    l.Keeps (s.Spared x) := fun u v hc ⟨hw, hbyte, hparams, hbtable⟩ => by
  have hmem : v.mem = u.mem := hc.frame.mem (by simpa using hm)
  refine ⟨hmem ▸ hw, ?_, hc.frame.params.trans hparams, fun hx => ?_⟩
  · rw [← hbyte, State.byte, State.byte, hmem]
  · exact (hc.frame.btable (by simpa using hb)).trans (hbtable hx)

theorem bdtAddr_congr {s u : State} (h : u.btable = s.btable) (n : EpNum) (f : BdtField) :
    u.bdtAddr n f = s.bdtAddr n f := by
  simp only [State.bdtAddr, h]

theorem bdtAddr_eq (s : State) (n : EpNum) (f : BdtField) :
    s.bdtAddr n f = s.bdtAddr n .addrTx + 2 * f.code.toNat := by
  simp [State.bdtAddr, BdtField.code]

/-! ## Sequences -/

section
variable {s : State} {x : Nat}

theorem spares_bind {α β : Type} {p : Prog α} {q : α → Prog β} (hp : p.Spares s x) (hq : ∀ a, (q a).Spares s x) :
    (p.bind q).Spares s x := fun u hu => by
  rw [run_bind]
  refine state_bind (hp u hu) fun a v hv => hq a v ?_
  have := hp u hu
  rwa [hv] at this

theorem spares_andThen {β : Type} {p : Prog Unit} {q : Prog β} (hp : p.Spares s x) (hq : q.Spares s x) :
    (p.andThen q).Spares s x := spares_bind hp fun _ => hq

theorem spares_ret {α : Type} (a : α) : (Prog.ret a).Spares s x := fun _ hu => hu

theorem spares_look {α : Type} {k : RoleView → Prog α} (hk : ∀ v, (k v).Spares s x) : (Prog.look k).Spares s x :=
  fun u hu => hk u.roleView u hu

/-- An operation whose parts are not packet memory stores nothing. -/
theorem spares_of_does {α : Type} {p : Prog α} {L : List Part} (hp : p.Does L)
    (hm : .packet ∉ L := by simp [hookParts]) (hb : .btable ∉ L := by simp [hookParts]) : p.Spares s x := fun _ hu =>
  keeps_run (hp _ fun _ hl => spared_kept s x (fun h => hm (h ▸ hl)) fun h => hb (h ▸ hl)) hu

/-- An operation after a check: where the check finds nothing. -/
theorem spares_raiseIf {α : Type} {ag : Agent} {rule : Nat} {c : State → Option FaultKind} {q : Prog α}
    (hq : ∀ u, s.Spared x u → c u = none → s.Spared x (q.run u).state) :
    ((raiseIf ag rule c).andThen q).Spares s x := fun u hu => by
  rw [run_andThen]
  cases hc : c u with
  | none => rw [run_raiseIf_none hc]; exact hq u hu hc
  | some k =>
    rw [run_raiseIf_some hc]
    exact spared_kept s x (l := .record) nofun nofun _ _ (.raise u k ag rule) hu

theorem spares_command {p : Prog Unit} (hp : p.Spares s x) (c : State → Option RefuseReason) :
    (command c p).Spares s x :=
  spares_andThen (spares_of_does (does_refuseIf c)) hp

theorem spares_forBound {f : EpNum → Prog Unit} {c : Context} {ns : List EpNum}
    (hf : ∀ n ∈ ns, c.isBound n = true → (f n).Spares s x) : (forBound f c ns).Spares s x := by
  induction ns with
  | nil => exact spares_ret ()
  | cons n ns ih =>
    have hrest := ih fun m hm => hf m (List.mem_cons_of_mem n hm)
    unfold forBound
    split
    · exact spares_andThen (hf n (by simp) ‹_›) hrest
    · exact hrest

/-! ## The stores of the shared operations -/

theorem spares_writeHalfword {a : Nat} (hx : x < a ∨ a + 2 ≤ x) (ag : Agent) (rule : Nat) (v : HalfWord) :
    (writeHalfword ag rule a v).Spares s x := by
  refine spares_raiseIf fun u hu hc => ?_
  have heven : a % 2 = 0 := even_of_halfwordFault (s := u) hc
  exact spared_storeCell hu (by omega) v

/-- A byte's read-modify-write is the block write of one byte (R405, R407). -/
theorem run_setByte (a : Nat) (v : Byte) (u : State) :
    ((readCell (a / 2)).bind fun c => writeCell (a / 2) (setByte c a v)).run u = (writeBlock a [v]).run u := by
  unfold writeBlock setByte
  rcases Nat.mod_two_eq_zero_or_one a with h | h <;> simp [h, writeCells, writeCell]

theorem spares_writeByte {a : Nat} (hx : x < a ∨ a + 1 ≤ x) (ag : Agent) (rule : Nat) (v : Byte) :
    (writeByte ag rule a v).Spares s x := by
  refine spares_raiseIf fun u hu hc => ?_
  have hlt : a < u.params.pmSize := lt_of_byteFault (s := u) hc
  rw [run_setByte, run_writeBlock hu.1 a [v] hlt]
  exact spared_setBytes hu hx

theorem spares_memWrite {a : Nat} {d : List Byte} (hx : x < a ∨ a + d.length ≤ x) (ag : Agent) (rule : Nat) :
    (memWrite ag rule a d).Spares s x := by
  unfold memWrite
  split
  · exact spares_ret ()
  · refine spares_raiseIf fun u hu hc => ?_
    have hle : a + d.length ≤ u.params.pmSize := le_of_blockFault (s := u) hc
    rw [run_writeBlock hu.1 a d hle]
    exact spared_setBytes hu hx

theorem spares_clearCells {count k : Nat} (hx : 2 * (k + count) ≤ x) : (clearCells count k).Spares s x := by
  induction count generalizing k with
  | zero => exact spares_ret ()
  | succ c ih => exact spares_andThen (fun u hu => spared_storeCell hu (by omega) 0) (ih (by omega))

theorem spares_pmClear (hx : s.params.pmSize ≤ x) (ag : Agent) (rule : Nat) :
    (pmClear ag rule s.context).Spares s x :=
  spares_raiseIf fun u hu _ => spares_clearCells (by simp only [context_params]; omega) u hu

/-- A BDT write stores where the field stands, and never above packet memory (R411). -/
theorem spares_bdtWrite {n : EpNum} {f : BdtField}
    (hx : x < s.params.pmSize → x < s.bdtAddr n f ∨ s.bdtAddr n f + 2 ≤ x) (ag : Agent) (rule : Nat) (v : HalfWord) :
    (bdtWrite ag rule n f v).Spares s x := by
  refine spares_raiseIf fun u hu hc => ?_
  obtain ⟨-, -, hparams, hbtable⟩ := id hu
  have hin : u.bdtAddr n f + 1 < s.params.pmSize := by
    by_contra hge
    rw [← hparams] at hge
    simp [show u.bdtAddr n f + 1 ≥ u.params.pmSize by omega] at hc
  have hfree : x < u.bdtAddr n f ∨ u.bdtAddr n f + 2 ≤ x := by
    by_cases hlt : x < s.params.pmSize
    · rw [bdtAddr_congr (hbtable hlt)]
      exact hx hlt
    · omega
  exact spared_storeCell hu (by rw [bdtAddr_even]; exact hfree) v

theorem spares_commitBd {n : EpNum}
    (hx : x < s.params.pmSize → x < s.bdtAddr n .addrTx ∨ s.bdtAddr n .addrTx + 8 ≤ x) (ag : Agent) (c : Context) :
    (commitBd ag n c).Spares s x := by
  have field (f : BdtField) (v : HalfWord) : (bdtWrite ag 459 n f v).Spares s x := by
    refine spares_bdtWrite (fun hlt => ?_) ag 459 v
    have hcode : f.code.toNat ≤ 3 := by cases f <;> decide
    have := bdtAddr_eq s n f
    have := hx hlt
    omega
  exact spares_andThen (field _ _) <| spares_andThen (field _ _) <| spares_andThen (field _ _) (field _ _)

theorem spares_epInit {n : EpNum}
    (hx : x < s.params.pmSize → x < s.bdtAddr n .addrTx ∨ s.bdtAddr n .addrTx + 8 ≤ x) (ag : Agent) (c : Context) :
    (epInit ag c n).Spares s x :=
  spares_andThen (spares_commitBd hx ag c) (spares_of_does (does_hook n .onInit c))

theorem spares_epReset {n : EpNum} (hx : Outside x [(s.bdtAddr n .addrTx, 8)]) (ag : Agent) (c : Context) :
    (epReset ag c n).Spares s x :=
  spares_andThen (spares_commitBd (fun _ => (outside_cons.mp hx).1) ag c) <|
    spares_andThen (spares_of_does (does_epRmw _ _ _)) <|
    spares_of_does (does_hook n .onReset c)

theorem spares_transmit {n : EpNum} {d : List Byte} (hx : Outside x (s.sendStores n d)) (ag : Agent) :
    (transmit ag n d s.context).Spares s x := by
  obtain ⟨hdata, hcount⟩ := outside_cons.mp hx
  obtain ⟨hcount, -⟩ := outside_cons.mp hcount
  refine spares_andThen (spares_memWrite ?_ ag 460) <| spares_andThen (spares_bdtWrite (fun _ => hcount) ag 460 _) <|
    spares_of_does (does_epRmw _ _ _)
  rw [List.length_take, min_eq_left (Nat.min_le_left _ _)]
  exact hdata

/-! ## The control sequencer -/

/-- Whatever endpoint 0 sends lies in its transmit buffer (R460). -/
theorem outside_sendStores (hx : Outside x s.controlStores) (d : List Byte) : Outside x (s.sendStores 0 d) := by
  obtain ⟨hdata, hcount⟩ := outside_cons.mp hx
  have hle : s.sendCount 0 d ≤ s.txSize0 := Nat.min_le_right _ _
  exact outside_cons.mpr ⟨by omega, hcount⟩

theorem spares_setAddress (hx : Outside x (s.sendStores 0 [])) (r : Request) :
    (doSetAddress r s.context).Spares s x :=
  spares_andThen (spares_of_does (does_updating fun u => .deferred u r.wValue))
    (spares_transmit hx .core)

theorem spares_setConfiguration (hx : Outside x (s.sendStores 0 [])) : (doSetConfiguration s.context).Spares s x :=
  spares_andThen (spares_of_does (does_updating fun u => .status u .configured nofun))
    (spares_transmit hx .core)

/-- An update between accesses stores nothing. -/
theorem spares_inside {f : State → State} (hf : ∀ u, InternalChange u (f u)) : (updating f).Spares s x :=
  fun u hu => by
    change s.Spared x (f u)
    rw [hf u]
    exact hu

variable (hx : Outside x s.controlStores)
include hx

theorem spares_transmit0 (d : List Byte) : (transmit0 d s.context).Spares s x :=
  spares_transmit (outside_sendStores hx d) .core

theorem spares_getDescriptor (r : Request) : (doGetDescriptor r s.context).Spares s x := by
  unfold doGetDescriptor
  split
  · exact spares_inside fun _ => rfl
  · refine spares_andThen (spares_inside fun _ => rfl) <| spares_andThen (spares_transmit0 hx _) <|
      spares_inside fun u => ?_
    unfold afterFirstPacket
    split <;> rfl

theorem spares_runRequest (q : RequestName) (r : Request) : (runRequest q r s.context).Spares s x := by
  cases q with
  | setAddress => exact spares_setAddress (outside_sendStores hx []) r
  | getDescriptor => exact spares_getDescriptor hx r
  | setConfiguration => exact spares_setConfiguration (outside_sendStores hx [])
  | unrecognised b => exact spares_ret ()
  | _ => exact spares_transmit0 hx _

theorem spares_dataStageIn : (dataStageIn s.context).Spares s x := by
  refine spares_look fun v => ?_
  split
  · exact spares_andThen (spares_transmit0 hx _) (spares_of_does does_advanceCursor)
  · exact spares_andThen (spares_inside fun _ => rfl) (spares_of_does does_statusStage)

theorem spares_runHook (r : Role) (k : Hook) : (runHook r k s.context).Spares s x := by
  have status : statusStage.Spares s x := spares_of_does does_statusStage
  have rearm : rearmRx.Spares s x := spares_of_does (does_epRmw _ _ _)
  cases r with
  | generic => exact spares_of_does (does_runHook .generic k _)
  | control =>
    cases k with
    | onInit => exact spares_ret ()
    | onReset =>
      exact spares_of_does (does_runHook .control .onReset _)
    | onSetupReceptionComplete =>
      refine spares_andThen (spares_inside fun u => ?_) <|
        spares_bind (spares_of_does (does_memRead _ _ _ _)) fun bs =>
        spares_andThen (spares_of_does (does_establishStage _)) <|
        spares_andThen (spares_runRequest hx _ _) rearm
      unfold discardCursor
      split <;> rfl
    | onReceptionComplete =>
      refine spares_andThen (spares_look fun v => ?_) rearm
      split
      · exact spares_dataStageIn hx
      · exact spares_ret ()
      · exact status
    | onTransmissionComplete =>
      refine spares_look fun v => ?_
      split
      · exact spares_dataStageIn hx
      · split
        · exact status
        · exact spares_ret ()
      · exact spares_ret ()

theorem spares_hook (n : EpNum) (k : Hook) : (hook n k s.context).Spares s x := by
  unfold hook
  split
  · exact spares_ret ()
  · exact spares_runHook hx _ k

theorem spares_servedHook (k : Hook) : (servedHook (fun n c => hook n k c) s.context).Spares s x := by
  unfold servedHook
  split
  · exact spares_ret ()
  · exact spares_hook hx _ k

theorem spares_irqCtr (w : HalfWord) : (doIrqCtr w s.context).Spares s x := by
  refine spares_bind (spares_of_does (does_reading _)) fun snap => ?_
  have clear : (clearCtr (epIdOf w) snap).Spares s x := spares_of_does (does_clearCtr _ _)
  split
  · refine spares_andThen (spares_of_does (does_updating fun u => .snapshot u snap)) <|
      spares_andThen clear (spares_andThen ?_ ?_)
    · split
      · exact spares_hook hx _ _
      · split
        · exact spares_hook hx _ _
        · exact spares_ret ()
    · split
      · exact spares_hook hx _ _
      · exact spares_ret ()
  · exact clear

end

/-! ## Every row of CORE and APP -/

theorem spares_irqReset {s : State} {x : Nat} {w : HalfWord} (hx : Outside x (s.stores (.irqReset w))) :
    (doIrqReset s.context).Spares s x := by
  refine spares_andThen (spares_of_does (does_writing fun u => .daddr u _)) <|
    spares_andThen (spares_forBound fun n hn hb => spares_epReset (outside_cons.mpr ⟨?_, outside_nil⟩) .core _) <|
    spares_inside fun _ => rfl
  exact hx _ (List.mem_map.mpr ⟨n, List.mem_filter.mpr ⟨hn, hb⟩, rfl⟩)

/-- Every store of DC_INIT lies in packet memory, the BDT's entries where BTABLE then points too (R601). -/
theorem spares_dcInit {s : State} {x : Nat} (hx : s.params.pmSize ≤ x) : (doDcInit s.context).Spares s x := by
  have table : (writeBtable s.context.params.bdtBase).Spares s x := fun u ⟨hw, hbyte, hparams, _⟩ =>
    ⟨hw, hbyte, hparams, fun hlt => absurd hlt (by omega)⟩
  exact spares_andThen (spares_inside fun _ => rfl) <|
    spares_andThen (spares_of_does (does_writing fun u => .cntr u _)) <|
    spares_andThen (spares_pmClear hx .app 601) <|
    spares_andThen (spares_of_does (does_writing fun u => .istr u _)) <|
    spares_andThen table <|
    spares_andThen (spares_of_does (does_writing fun u => .daddr u _)) <|
    spares_andThen (spares_forBound fun n _ _ => spares_epInit (fun hlt => absurd hlt (by omega)) .app _) <|
    spares_andThen (spares_of_does (does_writing fun u => .cntr u _)) <|
    spares_inside fun _ => rfl

/-- The rows of CORE and APP that store, each with the ranges its rule stores to. -/
theorem spares_program {i : Instr} {s : State} {x : Nat} (hb : isBusRow i = false) (hm : .packet ∈ s.parts i)
    (hx : Outside x (s.stores i)) : (program i s.context).Spares s x := by
  have head {a l : Nat} {rs : List (Nat × Nat)} (h : Outside x ((a, l) :: rs)) : x < a ∨ a + l ≤ x :=
    (outside_cons.mp h).1
  have above (h : Outside x [(0, s.params.pmSize)]) : s.params.pmSize ≤ x := by have := head h; omega
  cases i with
  | pmWriteHw a v => exact spares_command (spares_writeHalfword (head hx) _ _ _) _
  | pmWriteB a v => exact spares_command (spares_writeByte (head hx) _ _ _) _
  | pmWrite a d => exact spares_command (spares_memWrite (head hx) _ _) _
  | pmClear => exact spares_command (spares_pmClear (above hx) _ _) _
  | bdtWrite n f v => exact spares_command (spares_bdtWrite (fun _ => head hx) _ _ _) _
  | epInitBd n => exact spares_command (spares_commitBd (fun _ => head hx) _ _) _
  | epTransmit n d => exact spares_command (spares_transmit hx _) _
  | epReset n => exact spares_command (spares_epReset hx _ _) _
  | epInit n => exact spares_command (spares_epInit (fun _ => head hx) _ _) _
  | dcInit => exact spares_dcInit (above hx)
  | getStatus r | clearFeature r | setFeature r | setDescriptor r | getConfiguration r => exact spares_transmit hx _
  | setAddress r => exact spares_setAddress hx r
  | getDescriptor r => exact spares_getDescriptor hx r
  | setConfiguration r => exact spares_setConfiguration hx
  | controlOnSetupReceptionComplete => exact spares_runHook hx .control .onSetupReceptionComplete
  | controlOnReceptionComplete => exact spares_runHook hx .control .onReceptionComplete
  | controlOnTransmissionComplete => exact spares_runHook hx .control .onTransmissionComplete
  | ctrSetup k => exact spares_servedHook hx .onSetupReceptionComplete
  | ctrReception k => exact spares_servedHook hx .onReceptionComplete
  | ctrTransmission k => exact spares_servedHook hx .onTransmissionComplete
  | irqReset w => exact spares_irqReset hx
  | irqCtr w => exact spares_irqCtr hx w
  | busSetup | busOut | busIn => cases hb
  | _ => simp [State.parts, hookParts] at hm

/-! ## Bus events -/

theorem busField_answer {n : EpNum} {f : BdtField} {rule : Nat} {s u : State} {a : HalfWord}
    (h : busField n f rule s = .ok a u) : a = s.cell (s.bdtAddr n f / 2) := by
  unfold busField at h
  split at h <;> cases h
  rfl

theorem byte_busField (n : EpNum) (f : BdtField) (rule : Nat) (s : State) (x : Nat) :
    (busField n f rule s).state.byte x = s.byte x := by
  unfold busField
  split <;> rfl

/-- An accepted reception stores its packet and COUNT_RX (R653, R654, R662). -/
theorem byte_reception {s : State} (hw : Memory.wf s.mem = true) {n : EpNum} {x a : Nat} {d : List Byte}
    (hx : Outside x [(a, d.length), (s.bdtAddr n .countRx, 2)]) (rule l : Nat)
    (g : State → EprFields → EprFields) :
    ((busWrite a d rule s).andThen fun s => .ok () ((s.setRxCount n l).hwEpr n (g s))).state.byte x = s.byte x := by
  obtain ⟨hdata, hcount⟩ := outside_cons.mp hx
  obtain ⟨hcount, -⟩ := outside_cons.mp hcount
  have stored : s.Spared x (s.setBytes a d) := spared_setBytes ⟨hw, rfl, rfl, fun _ => rfl⟩ hdata
  have counted : s.Spared x ((s.setBytes a d).setRxCount n l) := by
    unfold State.setRxCount
    rw [setCell_eq_setBytes, bdtAddr_even]
    exact spared_setBytes stored hcount
  unfold busWrite
  split
  · rfl
  · exact counted.2.1

/-- A reception on a matched register, accepted or not: `full` says when COUNT_RX leaves no room for it. -/
theorem byte_receives {s : State} (hw : Memory.wf s.mem = true) {n : EpNum} {x : Nat} {d : List Byte}
    (hx : Outside x (s.receptionStores n d.length)) (rule l : Nat) (full : HalfWord → Prop) [DecidablePred full]
    (g : State → EprFields → EprFields) :
    ((busField n .addrRx rule s).bind fun a s => (busField n .countRx rule s).bind fun c s =>
      if full c then .ok () s
      else (busWrite a.toNat d rule s).andThen fun s =>
        .ok () ((s.setRxCount n l).hwEpr n (g s))).state.byte x = s.byte x := by
  refine state_bind (P := fun v => v.byte x = s.byte x) (byte_busField n .addrRx rule s x) fun a u hu => ?_
  obtain ⟨rfl, -⟩ := busField_ok hu
  refine state_bind (P := fun v => v.byte x = u.byte x) (byte_busField n .countRx rule u x) fun c v hv => ?_
  obtain ⟨rfl, -⟩ := busField_ok hv
  rw [busField_answer hu]
  split
  · rfl
  · exact byte_reception hw hx rule l g

theorem byte_busInAt (n : EpNum) (ack : Bool) (s : State) (x : Nat) :
    (busInAt n ack s).state.byte x = s.byte x := by
  unfold busInAt
  split
  · rfl
  · refine state_bind (P := fun v => v.byte x = s.byte x) (byte_busField n .addrTx 655 s x) fun a u hu => ?_
    obtain ⟨rfl, -⟩ := busField_ok hu
    refine state_bind (P := fun v => v.byte x = u.byte x) (byte_busField n .countTx 655 u x) fun c v hv => ?_
    obtain ⟨rfl, -⟩ := busField_ok hv
    unfold busRead
    split
    · rfl
    · cases ack <;> rfl

theorem byte_busSetupAt {s : State} (hw : Memory.wf s.mem = true) {n : EpNum} {x : Nat} {k : SetupPacket}
    (hx : Outside x (s.receptionStores n 8)) : (busSetupAt n k s).state.byte x = s.byte x := by
  unfold busSetupAt
  split
  · rfl
  · split
    · rfl
    · exact byte_receives hw (d := k.bytes) hx 653 8 (fun c => capacity c < 8)
        fun s => afterSetup s.params.setupNaksTx

theorem byte_busOutAt {s : State} (hw : Memory.wf s.mem = true) {n : EpNum} {x : Nat} {d : List Byte}
    (hx : Outside x (s.receptionStores n d.length)) : (busOutAt n d s).state.byte x = s.byte x := by
  unfold busOutAt
  split
  · rfl
  · exact byte_receives hw hx 654 d.length (fun c => d.length > capacity c) fun _ => afterOut

theorem stores_busSetup {s : State} {a : BitVec 7} {ep : BitVec 4} {n : EpNum} (hm : s.busMatch a ep .rx = .hit n)
    (k : SetupPacket) : s.stores (.busSetup a ep k) = s.receptionStores n 8 := by
  change (match s.busMatch a ep .rx with | .hit n => s.receptionStores n 8 | _ => []) = _
  rw [hm]

theorem stores_busOut {s : State} {a : BitVec 7} {ep : BitVec 4} {n : EpNum} (hm : s.busMatch a ep .rx = .hit n)
    (d : List Byte) : s.stores (.busOut a ep d) = s.receptionStores n d.length := by
  change (match s.busMatch a ep .rx with | .hit n => s.receptionStores n d.length | _ => []) = _
  rw [hm]

theorem byte_busEffect {s : State} (hw : Memory.wf s.mem = true) {e : BusEvent} {x : Nat}
    (hx : Outside x (s.stores e.toInstr)) : (busEffect e s).state.byte x = s.byte x := by
  cases e with
  | reset | suspend | resume => rfl
  | setup a ep k =>
    simp only [busEffect, busSetup]
    split
    · rfl
    · rfl
    · exact byte_busSetupAt hw (stores_busSetup ‹_› k ▸ hx)
  | out a ep d =>
    simp only [busEffect, busOut]
    split
    · rfl
    · rfl
    · exact byte_busOutAt hw (stores_busOut ‹_› d ▸ hx)
  | tokenIn a ep ack =>
    simp only [busEffect, busIn]
    split
    · rfl
    · rfl
    · exact byte_busInAt _ ack s x

/-! ## The frame (O12) -/

/-- Settles O12: a row that has packet memory among its parts stores in its ranges; any other leaves it whole. -/
theorem memoryFrame : Obligations.MemoryFrame := by
  intro i s t hw _ h x hx
  by_cases hm : .packet ∈ s.parts i
  · rcases exec_cases h with ⟨e, rfl, rfl⟩ | ⟨rfl, -⟩ | ⟨hb, rfl⟩
    · exact byte_busEffect hw hx
    · simp [State.parts] at hm
    · obtain ⟨-, hbyte, -⟩ := spares_program hb hm hx s ⟨hw, rfl, rfl, fun _ => rfl⟩
      exact hbyte
  · have hmem : t.mem = s.mem := by
      by_contra hne
      exact hm (by simpa using exec_changed (fun _ _ _ hf => hf.mem) h hne)
    rw [State.byte, State.byte, hmem]

end Sys2Proof.Machine

/-! # The step, agent by agent -/

namespace Sys2Proof.Machine

/-- A step in a state without a fault is that of the agent whose turn it is (R240, R700). -/
theorem step_of_nextAgent {s : State} (hp : paramsValid s.params = true) (hf : s.faults = []) {a : Agent}
    {ts : List Agent} (ha : s.nextAgent = some (a, ts)) : step s = stepAgent exec a { s with turns := ts } := by
  simp [step, takeStep, State.faulted, hf, hp, ha]

/-- An agent named by the head of `turns` takes the next step where it has one (log 1). -/
theorem nextAgent_of_turn {s : State} {a : Agent} {ts : List Agent} (ht : s.turns = a :: ts)
    (he : s.agentEnabled a = true) : s.nextAgent = some (a, ts) := by
  simp [State.nextAgent, ht, he]

/-! ## APP's command -/

theorem stepApp_atomic {s : State} {ws : List HalfWord} {had : List Answer} (hr : s.app = .running ws had)
    (ha : s.params.atomicDispatch = true) : stepApp exec s = runCommand exec ws had s := by
  simp [stepApp, hr, ha]

/-- A whole command in one step (R240, R732). -/
theorem stepApp_whole {s : State} {ws : List HalfWord} {i : Instr} (hr : s.app = .running ws [])
    (ha : s.params.atomicDispatch = true) (hd : decodeCmd s.params ws = .ok i) :
    stepApp exec s = mapNext retire (exec i s) := by
  rw [stepApp_atomic hr ha, runCommand, hd]
  rfl

section
variable {s : State} {ws : List HalfWord} {had : List Answer} {i : Instr} (hd : decodeCmd s.params ws = .ok i)
include hd

theorem advanceCommand_ended {r : Res Unit} (h : ((program i s.context).resume had).advance s = .ended r) :
    advanceCommand ws had s = retire r.state := by
  simp only [advanceCommand, hd, h]

theorem advanceCommand_moved {new : List Answer} {t : State}
    (h : ((program i s.context).resume had).advance s = .moved new t) :
    advanceCommand ws had s = { t with app := .running ws (had ++ new) } := by
  simp only [advanceCommand, hd, h]

end

/-- An illegal encoding is refused, whole command or single access (R360, R730). -/
theorem stepApp_refused {s : State} {ws : List HalfWord} {had : List Answer} {r : RefuseReason}
    (hr : s.app = .running ws had) (hd : decodeCmd s.params ws = .error r) :
    stepApp exec s = .next { s.refuse r with app := .idle } := by
  cases ha : s.params.atomicDispatch with
  | true => rw [stepApp_atomic hr ha, runCommand, hd]
  | false => rw [stepApp_running hr ha, advanceCommand, hd]

/-- APP takes up its next command in the step of its first access (R732; log 2). -/
theorem stepApp_begins {s : State} {ws : List HalfWord} {ls : List Line} (ha : s.app = .idle)
    (hp : s.program = .cmd ws :: ls) :
    stepApp exec s = stepApp exec { s with app := .running ws [], program := ls } := by
  simp [stepApp, ha, startCommand, hp]

/-! ## CORE's dispatch -/

section
variable {s : State} {had : List Answer} {i : Instr} {rows : List Instr}

theorem advanceRows_ok {a : Unit} {t : State} (h : ((program i s.context).resume had).advance s = .ended (.ok a t)) :
    advanceRows (i :: rows) had s = advanceRows rows [] (t.setRows rows []) := by
  rw [advanceRows, h]

theorem advanceRows_stop {t : State} (h : ((program i s.context).resume had).advance s = .ended (.stop t)) :
    advanceRows (i :: rows) had s = t := by
  rw [advanceRows, h]

theorem advanceRows_moved {new : List Answer} {t : State}
    (h : ((program i s.context).resume had).advance s = .moved new t) :
    advanceRows (i :: rows) had s = t.setRows (i :: rows) (had ++ new) := by
  rw [advanceRows, h]

end

theorem stepCore_entry {s : State} (hc : s.core = .idle) (ha : s.params.atomicDispatch = false) :
    stepCore exec s = exec .dcIrq s := by
  simp [stepCore, hc, ha]

theorem stepCore_dispatch {s t : State} {w : HalfWord} {e : Option HalfWord} {rows : List Instr}
    {had : List Answer} (hc : s.core = .idle) (ha : s.params.atomicDispatch = true)
    (he : exec .dcIrq s = .next t) (ht : t.core = .dispatching w e rows had) :
    stepCore exec s = runRows exec rows had t := by
  simp [stepCore, hc, ha, he, thenNext, runDispatch, ht]

theorem stepCore_atomic {s : State} {w : HalfWord} {e : Option HalfWord} {rows : List Instr} {had : List Answer}
    (hc : s.core = .dispatching w e rows had) (ha : s.params.atomicDispatch = true) :
    stepCore exec s = runRows exec rows had s := by
  simp [stepCore, hc, ha]

/-- With no row left the dispatch exits, in either granularity (R611). -/
theorem stepCore_exit {s : State} {w : HalfWord} {e : Option HalfWord} {had : List Answer}
    (hc : s.core = .dispatching w e [] had) : stepCore exec s = .next (dispatchExit s) := by
  cases ha : s.params.atomicDispatch with
  | true => rw [stepCore_atomic hc ha, runRows]
  | false => rw [stepCore_dispatching hc ha, advanceRows]

/-! ## BUS's event -/

theorem stepBus_of_nextBus {s u : State} {e : BusEvent} (h : s.nextBus = some (e, u)) :
    stepBus exec s = exec e.toInstr u := by
  simp [stepBus, h]

theorem nextBus_of_enabled {s : State} {b : List Byte} {bs : List (List Byte)} {e : BusEvent}
    (hb : s.busIn = b :: bs) (hd : decodeBus b = some e) (he : s.busEnabled e = true) :
    s.nextBus = some (e, { s with busIn := bs }) := by
  simp [State.nextBus, hb, hd, he]

/-- Where BUS has a step, the head of its schedule is enabled (R650, R664). -/
theorem busEnabled_of_nextBus {s : State} {b : List Byte} {bs : List (List Byte)} {e : BusEvent}
    (h : s.nextBus.isSome = true) (hb : s.busIn = b :: bs) (hd : decodeBus b = some e) :
    s.busEnabled e = true := by
  obtain ⟨⟨e', u⟩, hu⟩ := Option.isSome_iff_exists.mp h
  obtain ⟨b', hb', hd', he, -⟩ := nextBus_eq hu
  obtain ⟨rfl, -⟩ := List.cons.inj (hb.symm.trans hb')
  obtain rfl := Option.some.inj (hd.symm.trans hd')
  exact he

/-! ## What a step runs (O48) -/

/-- Settles O48: the step of each agent, in each granularity, as its definition has it. -/
theorem stepRunsDecodedInstruction : Obligations.StepRunsDecodedInstruction := by
  intro s hp
  refine ⟨fun hf => by simp [step, takeStep, State.faulted, hf], fun hf => ?_⟩
  have turn {a : Agent} {ts : List Agent} (ha : s.nextAgent = some (a, ts)) :
      step s = stepAgent exec a { s with turns := ts } := step_of_nextAgent hp hf ha
  refine ⟨fun ts ws ls ha happ hprog => ?_, fun ts ws had ha happ => ⟨fun r hd => ?_, fun i hd => ⟨?_, ?_⟩⟩,
    fun ts ha hc => ⟨fun hna => ?_, fun hat t w rows he ht => ?_⟩, fun ts w e rows ha hc hat => ?_,
    fun t => rfl, fun i rows t => rfl, fun ts w e i rows had ha hc hna => ?_, fun ts w e had ha hc => ?_,
    fun ts b bs ev ha hb hd => ?_⟩
  · have begun := step_of_nextAgent (s := { s with app := .running ws [], program := ls, turns := .app :: ts }) hp hf
      (nextAgent_of_turn rfl rfl)
    exact ((turn ha).trans (stepApp_begins happ hprog)).trans begun.symm
  · exact (turn ha).trans (stepApp_refused happ hd)
  · rintro hat rfl
    exact (turn ha).trans (stepApp_whole happ hat hd)
  · intro hna
    refine ((turn ha).trans (stepApp_running happ hna)).trans (congrArg Host.Outcome.next ?_)
    split <;> rename_i hm
    · exact advanceCommand_ended (s := { s with turns := ts }) hd hm
    · exact advanceCommand_moved (s := { s with turns := ts }) hd hm
  · exact (turn ha).trans (stepCore_entry hc hna)
  · exact (turn ha).trans (stepCore_dispatch hc hat he ht)
  · exact (turn ha).trans (stepCore_atomic hc hat)
  · refine ((turn ha).trans (stepCore_dispatching hc hna)).trans (congrArg Host.Outcome.next ?_)
    split <;> rename_i hm
    · exact advanceRows_ok hm
    · exact advanceRows_stop hm
    · exact advanceRows_moved hm
  · exact (turn ha).trans (stepCore_exit hc)
  · have he : s.busEnabled ev = true := busEnabled_of_nextBus (nextAgent_enabled ha) hb hd
    exact (turn ha).trans (stepBus_of_nextBus (nextBus_of_enabled hb hd he))

end Sys2Proof.Machine

/-! # Steps of one access add up to the undisturbed run -/

namespace Sys2Proof.Machine

/-! ## What remains of an operation after answers -/

/-- A property of operations that passes on to what follows each statement holds of what remains after any
answers. -/
theorem resume_inherits {α : Type} {M : Prog α → Prop} (stopIf : ∀ {c k}, M (.stopIf c k) → M k)
    (read : ∀ {f k}, M (.read f k) → ∀ w, M (k w)) (write : ∀ {f k}, M (.write f k) → M k)
    (look : ∀ {k}, M (.look k) → ∀ v, M (k v)) (update : ∀ {f k}, M (.update f k) → M k)
    {p : Prog α} (had : List Answer) (hp : M p) : M (p.resume had) := by
  fun_induction Prog.resume p had with
  | case3 c k a as ih => exact ih (stopIf hp)
  | case4 f k w as ih => exact ih (read hp w)
  | case6 f k as ih => exact ih (write hp)
  | case8 k v as ih => exact ih (look hp v)
  | case10 f k a as ih => exact ih (update hp)
  | _ => exact hp

theorem blind_resume {α : Type} {F : State → State} {p : Prog α} (hp : p.Blind F) (had : List Answer) :
    (p.resume had).Blind F :=
  resume_inherits (M := Prog.Blind F) (fun h => h.2) (fun h => h.2) (fun h => h.2) (fun h => h.2) (fun h => h.2) had hp

/-! ## Where a fault can be recorded -/

/-- Only the checks of the operation record faults: its writes and updates record none, and a check that ends it
does so in a state with `E`. -/
def Prog.Quiet {α : Type} (E : State → Prop) : Prog α → Prop
  | .ret _ => True
  | .stopIf c k => (∀ s t, c s = some t → E t) ∧ k.Quiet E
  | .read _ k => ∀ w, (k w).Quiet E
  | .write f k => (∀ s, (f s).faults = s.faults) ∧ k.Quiet E
  | .look k => ∀ v, (k v).Quiet E
  | .update f k => (∀ s, (f s).faults = s.faults) ∧ k.Quiet E

section
variable {E : State → Prop}

theorem quiet_bind {α β : Type} {p : Prog α} {q : α → Prog β} (hp : p.Quiet E) (hq : ∀ a, (q a).Quiet E) :
    (p.bind q).Quiet E := by
  induction p with
  | ret a => exact hq a
  | stopIf c k ih => exact ⟨hp.1, ih hp.2⟩
  | read f k ih => exact fun w => ih w (hp w)
  | write f k ih => exact ⟨hp.1, ih hp.2⟩
  | look k ih => exact fun v => ih v (hp v)
  | update f k ih => exact ⟨hp.1, ih hp.2⟩

theorem quiet_andThen {β : Type} {p : Prog Unit} {q : Prog β} (hp : p.Quiet E) (hq : q.Quiet E) :
    (p.andThen q).Quiet E := quiet_bind hp fun _ => hq

theorem quiet_ret {α : Type} (a : α) : (Prog.ret a).Quiet E := trivial

theorem quiet_reading (f : State → HalfWord) : (reading f).Quiet E := fun _ => trivial

theorem quiet_writing {f : State → State} (h : ∀ s, (f s).faults = s.faults) : (writing f).Quiet E := ⟨h, trivial⟩

theorem quiet_updating {f : State → State} (h : ∀ s, (f s).faults = s.faults) : (updating f).Quiet E := ⟨h, trivial⟩

theorem quiet_refuseIf (hr : ∀ s r, E (State.refuse s r)) (c : State → Option RefuseReason) :
    (refuseIf c).Quiet E := by
  refine ⟨fun s t ht => ?_, trivial⟩
  obtain ⟨r, -, rfl⟩ := Option.map_eq_some_iff.mp ht
  exact hr s r

theorem quiet_resume {α : Type} {p : Prog α} (hp : p.Quiet E) (had : List Answer) : (p.resume had).Quiet E :=
  resume_inherits (M := Prog.Quiet E) (fun h => h.2) (fun h => h) (fun h => h.2) (fun h => h) (fun h => h.2) had hp

/-- An access that does not end the operation has recorded no fault. -/
theorem quiet_moved {α : Type} {p : Prog α} (hp : p.Quiet E) {s t : State} {new : List Answer}
    (h : p.advance s = .moved new t) : t.faults = s.faults := by
  induction p generalizing s new with
  | ret a => cases h
  | stopIf c k ih =>
    simp only [Prog.advance] at h
    split at h
    · cases h
    · exact ih hp.2 h
  | read f k _ => cases h; rfl
  | write f k _ => cases h; exact hp.1 s
  | look k ih =>
    simp only [Prog.advance] at h
    cases hk : (k s.roleView).advance s with
    | ended r => rw [hk] at h; cases h
    | moved n u => rw [hk] at h; cases h; exact ih _ (hp _) hk
  | update f k ih => exact (ih hp.2 h).trans (hp.1 s)

/-- An undisturbed run comes to its end without a new fault, or a check ends it. -/
theorem quiet_run {α : Type} {p : Prog α} (hp : p.Quiet E) (s : State) :
    (∃ a t, p.run s = .ok a t ∧ t.faults = s.faults) ∨ ∃ t, p.run s = .stop t ∧ E t := by
  induction p generalizing s with
  | ret a => exact .inl ⟨a, s, rfl, rfl⟩
  | stopIf c k ih =>
    simp only [Prog.run]
    split
    · exact .inr ⟨_, rfl, hp.1 s _ ‹_›⟩
    · exact ih hp.2 s
  | read f k ih => exact ih _ (hp _) s
  | write f k ih => simpa only [Prog.run, hp.1 s] using ih hp.2 (f s)
  | look k ih => exact ih _ (hp _) s
  | update f k ih => simpa only [Prog.run, hp.1 s] using ih hp.2 (f s)

/-! ## The operations of CORE and APP -/

theorem quiet_writeCell (k : Nat) (v : HalfWord) : (writeCell k v).Quiet E := quiet_writing fun _ => by simp

theorem quiet_rmwCntr (f : HalfWord → HalfWord) : (rmwCntr f).Quiet E :=
  quiet_bind (quiet_reading _) fun _ => quiet_writing fun _ => rfl

theorem quiet_epRmw (n : EpNum) (chg : EprChange) (clr : EprClear) : (epRmw n chg clr).Quiet E :=
  quiet_bind (quiet_reading _) fun _ => quiet_writing fun _ => rfl

theorem quiet_readCells (count k : Nat) : (readCells count k).Quiet E := by
  induction count generalizing k with
  | zero => exact trivial
  | succ n ih => exact quiet_bind (quiet_reading _) fun _ => quiet_bind (ih _) fun _ => trivial

theorem quiet_clearCells (count k : Nat) : (clearCells count k).Quiet E := by
  induction count generalizing k with
  | zero => exact trivial
  | succ n ih => exact quiet_andThen (quiet_writeCell k 0) (ih _)

theorem quiet_writeCells (k : Nat) (d : List Byte) : (writeCells k d).Quiet E := by
  fun_induction writeCells k d with
  | case1 => exact trivial
  | case2 k b => exact quiet_bind (quiet_reading _) fun _ => quiet_writeCell _ _
  | case3 k b₀ b₁ bs ih => exact quiet_andThen (quiet_writeCell _ _) ih

theorem quiet_writeBlock (a : Nat) (d : List Byte) : (writeBlock a d).Quiet E := by
  unfold writeBlock
  split
  · split
    · exact trivial
    · exact quiet_bind (quiet_reading _) fun _ => quiet_andThen (quiet_writeCell _ _) (quiet_writeCells _ _)
  · exact quiet_writeCells _ _

theorem quiet_forBound {f : EpNum → Prog Unit} (hf : ∀ n, (f n).Quiet E) (c : Context) (ns : List EpNum) :
    (forBound f c ns).Quiet E := by
  induction ns with
  | nil => exact trivial
  | cons n ns ih =>
    unfold forBound
    split
    · exact quiet_andThen (hf n) ih
    · exact ih

theorem quiet_statusStage : statusStage.Quiet E := by
  intro v
  dsimp only
  split
  · exact trivial
  · exact quiet_andThen (quiet_writing fun _ => rfl) (quiet_updating fun _ => rfl)

theorem faults_discardCursor (s : State) : (discardCursor s).faults = s.faults := by
  unfold discardCursor
  split <;> rfl

theorem faults_advanceCursor (s : State) : (advanceCursor s).faults = s.faults := by
  unfold advanceCursor
  split
  · rfl
  · dsimp only
    split <;> rfl

theorem faults_afterFirstPacket (d : Descriptor) (ts : Nat) (r : Request) (s : State) :
    (afterFirstPacket d ts r s).faults = s.faults := by
  unfold afterFirstPacket
  split <;> rfl

theorem faults_establishStage (r : Request) (s : State) : (establishStage r s).faults = s.faults := by
  unfold establishStage
  split <;> rfl

theorem faults_setGeom (n : EpNum) (g : Geometry) (s : State) : (s.setGeom n g).faults = s.faults := by
  unfold State.setGeom
  split <;> rfl

variable (hE : ∀ s, State.faulted s = true → E s)
include hE

theorem quiet_raiseIf (ag : Agent) (rule : Nat) (c : State → Option FaultKind) : (raiseIf ag rule c).Quiet E := by
  refine ⟨fun s t ht => ?_, trivial⟩
  obtain ⟨k, -, rfl⟩ := Option.map_eq_some_iff.mp ht
  exact hE _ (by simp [State.faulted, State.raise])

theorem quiet_memRead (ag : Agent) (rule a l : Nat) : (memRead ag rule a l).Quiet E := by
  unfold memRead
  split
  · exact trivial
  · exact quiet_andThen (quiet_raiseIf hE _ _ _) (quiet_bind (quiet_readCells _ _) fun _ => trivial)

theorem quiet_memWrite (ag : Agent) (rule a : Nat) (d : List Byte) : (memWrite ag rule a d).Quiet E := by
  unfold memWrite
  split
  · exact trivial
  · exact quiet_andThen (quiet_raiseIf hE _ _ _) (quiet_writeBlock _ _)

theorem quiet_pmClear (ag : Agent) (rule : Nat) (c : Context) : (pmClear ag rule c).Quiet E :=
  quiet_andThen (quiet_raiseIf hE _ _ _) (quiet_clearCells _ _)

theorem quiet_bdtRead (ag : Agent) (rule : Nat) (n : EpNum) (f : BdtField) : (bdtRead ag rule n f).Quiet E :=
  quiet_andThen (quiet_raiseIf hE _ _ _) (quiet_reading _)

theorem quiet_bdtWrite (ag : Agent) (rule : Nat) (n : EpNum) (f : BdtField) (v : HalfWord) :
    (bdtWrite ag rule n f v).Quiet E :=
  quiet_andThen (quiet_raiseIf hE _ _ _) (quiet_writing fun _ => by simp)

theorem quiet_commitBd (ag : Agent) (n : EpNum) (c : Context) : (commitBd ag n c).Quiet E :=
  quiet_andThen (quiet_bdtWrite hE _ _ _ _ _) <| quiet_andThen (quiet_bdtWrite hE _ _ _ _ _) <|
    quiet_andThen (quiet_bdtWrite hE _ _ _ _ _) (quiet_bdtWrite hE _ _ _ _ _)

theorem quiet_transmit (ag : Agent) (n : EpNum) (d : List Byte) (c : Context) : (transmit ag n d c).Quiet E :=
  quiet_andThen (quiet_memWrite hE _ _ _ _) (quiet_andThen (quiet_bdtWrite hE _ _ _ _ _) (quiet_epRmw _ _ _))

theorem quiet_transmit0 (d : List Byte) (c : Context) : (transmit0 d c).Quiet E := quiet_transmit hE .core 0 d c

theorem quiet_receive (ag : Agent) (n : EpNum) (l : Nat) (c : Context) : (receive ag n l c).Quiet E :=
  quiet_bind (quiet_bdtRead hE _ _ _ _) fun _ => quiet_bind (quiet_memRead hE _ _ _ _) fun _ =>
    quiet_andThen (quiet_epRmw _ _ _) trivial

theorem quiet_dataStageIn (c : Context) : (dataStageIn c).Quiet E := by
  intro v
  dsimp only
  split
  · exact quiet_andThen (quiet_transmit0 hE _ _) (quiet_updating faults_advanceCursor)
  · exact quiet_andThen (quiet_updating fun _ => rfl) quiet_statusStage

theorem quiet_setAddress (r : Request) (c : Context) : (doSetAddress r c).Quiet E :=
  quiet_andThen (quiet_updating fun _ => rfl) (quiet_transmit0 hE _ _)

theorem quiet_setConfiguration (c : Context) : (doSetConfiguration c).Quiet E :=
  quiet_andThen (quiet_updating fun _ => rfl) (quiet_transmit0 hE _ _)

theorem quiet_getDescriptor (r : Request) (c : Context) : (doGetDescriptor r c).Quiet E := by
  unfold doGetDescriptor
  split
  · exact quiet_updating fun _ => rfl
  · exact quiet_andThen (quiet_updating fun _ => rfl) <| quiet_andThen (quiet_transmit0 hE _ _) <|
      quiet_updating (faults_afterFirstPacket _ _ _)

theorem quiet_runRequest (q : RequestName) (r : Request) (c : Context) : (runRequest q r c).Quiet E := by
  cases q with
  | setAddress => exact quiet_setAddress hE r c
  | setConfiguration => exact quiet_setConfiguration hE c
  | getDescriptor => exact quiet_getDescriptor hE r c
  | unrecognised b => exact trivial
  | _ => exact quiet_transmit0 hE _ _

theorem quiet_runHook (r : Role) (k : Hook) (c : Context) : (runHook r k c).Quiet E := by
  cases r with
  | generic => cases k <;> exact trivial
  | control =>
    cases k with
    | onInit => exact trivial
    | onReset =>
      exact quiet_andThen (quiet_epRmw _ _ _) <| quiet_andThen (quiet_epRmw _ _ _) <|
        quiet_andThen (quiet_epRmw _ _ _) <| quiet_updating fun _ => faults_discardCursor _
    | onSetupReceptionComplete =>
      exact quiet_andThen (quiet_updating fun _ => faults_discardCursor _) <|
        quiet_bind (quiet_memRead hE _ _ _ _) fun _ => quiet_andThen (quiet_updating (faults_establishStage _)) <|
        quiet_andThen (quiet_runRequest hE _ _ _) (quiet_epRmw _ _ _)
    | onReceptionComplete =>
      refine quiet_andThen (fun v => ?_) (quiet_epRmw _ _ _)
      dsimp only
      split
      · exact quiet_dataStageIn hE c
      · exact trivial
      · exact quiet_statusStage
    | onTransmissionComplete =>
      intro v
      dsimp only
      split
      · exact quiet_dataStageIn hE c
      · split
        · exact quiet_statusStage
        · exact trivial
      · exact trivial

theorem quiet_hook (n : EpNum) (k : Hook) (c : Context) : (hook n k c).Quiet E := by
  unfold hook
  split
  · exact trivial
  · exact quiet_runHook hE _ _ _

theorem quiet_epReset (ag : Agent) (c : Context) (n : EpNum) : (epReset ag c n).Quiet E :=
  quiet_andThen (quiet_commitBd hE _ _ _) (quiet_andThen (quiet_epRmw _ _ _) (quiet_hook hE _ _ _))

theorem quiet_epInit (ag : Agent) (c : Context) (n : EpNum) : (epInit ag c n).Quiet E :=
  quiet_andThen (quiet_commitBd hE _ _ _) (quiet_hook hE _ _ _)

theorem quiet_irqCtr (w : HalfWord) (c : Context) : (doIrqCtr w c).Quiet E := by
  refine quiet_bind (quiet_reading _) fun snap => ?_
  have clear : (clearCtr (epIdOf w) snap).Quiet E := quiet_writing fun _ => rfl
  split
  · refine quiet_andThen (quiet_updating fun _ => by simp) (quiet_andThen clear (quiet_andThen ?_ ?_))
    · split
      · exact quiet_hook hE _ _ _
      · split
        · exact quiet_hook hE _ _ _
        · exact trivial
    · split
      · exact quiet_hook hE _ _ _
      · exact trivial
  · exact clear

/-- A handler's checks raise faults, so that a handler that stops has recorded one (R606, R700). -/
theorem quiet_handler {i : Instr} (hi : isHandler i = true) (c : Context) : (program i c).Quiet E := by
  cases i with
  | irqReset w =>
    exact quiet_andThen (quiet_writing fun _ => rfl) <| quiet_andThen (quiet_forBound (quiet_epReset hE _ _) _ _) <|
      quiet_updating fun _ => rfl
  | irqCtr w => exact quiet_irqCtr hE w c
  | irqSusp w => exact quiet_andThen (quiet_rmwCntr _) (quiet_updating fun _ => rfl)
  | irqWkup w =>
    refine quiet_andThen (quiet_rmwCntr _) (quiet_updating fun s => ?_)
    split <;> rfl
  | _ => cases hi

end

/-! ## The commands -/

/-- The CMD rows. -/
def isCommand (i : Instr) : Bool :=
  match encode i with
  | .cmd _ => true
  | _ => false

/-- What the decoder reads from a command's half-words is a CMD row (R332). -/
theorem decodeOperands_isCommand (p : Params) (op : Nat) (n : EpNum) (ws : List HalfWord) :
    (decodeOperands p op n ws).all isCommand = true := by
  unfold decodeOperands withNarrow
  repeat' split
  all_goals simp [Option.all_eq_true, isCommand, encode, cmdWords]

theorem decodeCmd_isCommand {p : Params} {ws : List HalfWord} {i : Instr} (h : decodeCmd p ws = .ok i) :
    isCommand i = true := by
  unfold decodeCmd at h
  split at h
  · cases h
  · rename_i w ws
    have hall := decodeOperands_isCommand p (headerOp w) (headerEp w) ws
    grind

/-- While APP runs a command, a CMD row's meaning is the undisturbed run of its statements (R734 of DC_IRQ). -/
theorem exec_command {i : Instr} {s : State} (hi : isCommand i = true) (ha : s.app ≠ .idle) :
    exec i s = perform (program i) s := by
  cases i with
  | dcIrq => simp [exec, execDcIrq, ha, perform, program]
  | busReset | busSetup | busOut | busIn | busSuspend | busResume | ctrSetup | ctrReception | ctrTransmission =>
    cases hi
  | _ => exact exec_eq_perform rfl nofun (.inl rfl)

/-- No write or update of a command records a fault. -/
theorem quiet_command {i : Instr} (hi : isCommand i = true) (c : Context) : (program i c).Quiet fun _ => True := by
  have hE : ∀ s, State.faulted s = true → True := fun _ _ => trivial
  have check (f : State → Option RefuseReason) {p : Prog Unit} (hp : p.Quiet fun _ => True) :
      (command f p).Quiet fun _ => True := quiet_andThen (quiet_refuseIf (fun _ _ => trivial) f) hp
  have answer {α : Type} {p : Prog α} (hp : p.Quiet fun _ => True) (v : α → ResultValue) :
      (giveResult p v).Quiet fun _ => True := quiet_bind hp fun _ => quiet_updating fun _ => rfl
  cases i with
  | pmReadHw a => exact check _ (answer (quiet_andThen (quiet_raiseIf hE _ _ _) (quiet_reading _)) _)
  | pmWriteHw a v => exact check _ (quiet_andThen (quiet_raiseIf hE _ _ _) (quiet_writeCell _ _))
  | pmReadB a =>
    exact check _ <| answer (quiet_andThen (quiet_raiseIf hE _ _ _) <|
      quiet_bind (quiet_reading _) fun _ => quiet_ret _) _
  | pmWriteB a v =>
    exact check _ (quiet_andThen (quiet_raiseIf hE _ _ _) (quiet_bind (quiet_reading _) fun _ => quiet_writeCell _ _))
  | pmRead a l => exact check _ (answer (quiet_memRead hE _ _ _ _) _)
  | pmWrite a d => exact check _ (quiet_memWrite hE _ _ _ _)
  | pmClear => exact check _ (quiet_pmClear hE _ _ _)
  | bdtRead n f => exact check _ (answer (quiet_bdtRead hE _ _ _ _) _)
  | bdtWrite n f v => exact check _ (quiet_bdtWrite hE _ _ _ _ _)
  | epSetAddress | epSetType | epSetTxStatus | epSetRxStatus => exact check _ (quiet_epRmw _ _ _)
  | epClearCtr n => exact check _ (quiet_bind (quiet_reading _) fun _ => quiet_writing fun _ => rfl)
  | epSetBd n g => exact check _ (check _ (quiet_updating (faults_setGeom n g)))
  | epInitBd n => exact check _ (quiet_commitBd hE _ _ _)
  | epTransmit n d => exact check _ (quiet_transmit hE _ _ _ _)
  | epReceive n l => exact check _ (answer (quiet_receive hE _ _ _ _) _)
  | epGetRxLen n => exact check _ (answer (quiet_bdtRead hE _ _ _ _) _)
  | epReset n => exact check _ (quiet_epReset hE _ _ _)
  | epInit n => exact check _ (quiet_epInit hE _ _ _)
  | dcInit =>
    exact quiet_andThen (quiet_updating fun _ => rfl) <| quiet_andThen (quiet_writing fun _ => rfl) <|
      quiet_andThen (quiet_pmClear hE _ _ _) <| quiet_andThen (quiet_writing fun _ => rfl) <|
      quiet_andThen (quiet_writing fun _ => rfl) <| quiet_andThen (quiet_writing fun _ => rfl) <|
      quiet_andThen (quiet_forBound (quiet_epInit hE _ _) _ _) <| quiet_andThen (quiet_writing fun _ => rfl) <|
      quiet_updating fun _ => rfl
  | dcConnect =>
    exact check _ <| quiet_andThen (quiet_rmwCntr _) <| quiet_andThen (quiet_updating fun _ => rfl) <|
      quiet_andThen (quiet_rmwCntr _) <| quiet_andThen (quiet_updating fun _ => rfl) (quiet_writing fun _ => rfl)
  | dcDisconnect =>
    exact check _ <| quiet_andThen (quiet_writing fun _ => rfl) <| quiet_andThen (quiet_updating fun _ => rfl) <|
      quiet_andThen (quiet_rmwCntr _) <| quiet_andThen (quiet_updating fun _ => rfl) (quiet_rmwCntr _)
  | dcSetEndpoint n t g => exact check _ (quiet_updating fun _ => rfl)
  | dcGetStatus => exact quiet_updating fun _ => rfl
  | dcIrq => exact quiet_refuseIf (fun _ _ => trivial) _
  | _ => cases hi

end Sys2Proof.Machine

/-! ## Undisturbed steps

An agent at work keeps the answers its operation has had; the state is otherwise as the undisturbed run has it, up
to those answers (`State.forget`), which no statement reads. -/

namespace Sys2Proof.Machine

theorem state_mapState {α : Type} (F : State → State) (r : Res α) : (r.mapState F).state = F r.state := by
  cases r <;> rfl

theorem mapState_ok {α : Type} {F : State → State} {r : Res α} {a : α} {s : State}
    (h : r.mapState F = (Res.ok a s).mapState F) : ∃ t, r = .ok a t ∧ F t = F s := by
  cases r with
  | ok b t =>
    obtain ⟨rfl, ht⟩ := Res.ok.inj h
    exact ⟨t, rfl, ht⟩
  | stop t => exact absurd h nofun

theorem mapState_stop {α : Type} {F : State → State} {r : Res α} {s : State}
    (h : r.mapState F = (Res.stop s).mapState F) : ∃ t, r = .stop t ∧ F t = F s := by
  cases r with
  | ok b t => exact absurd h nofun
  | stop t => exact ⟨t, rfl, Res.stop.inj h⟩

theorem steps_succ {s t : State} (h : step s = .next t) (k : Nat) : steps (k + 1) s = steps k t := by
  rw [steps, h]
  rfl

theorem faults_of_forget {s t : State} (h : s.forget = t.forget) : s.faults = t.faults :=
  show s.forget.faults = t.forget.faults from congrArg State.faults h

/-- States that agree but for their answers give the same outcome but for the answers. -/
theorem run_congr {α : Type} {p : Prog α} (hp : p.Blind State.forget) {s t : State} (h : s.forget = t.forget) :
    (p.run s).mapState State.forget = (p.run t).mapState State.forget := by
  rw [← blind_run hp, ← blind_run hp, h]

/-! ### Any agent -/

section
variable {p : Prog Unit} {E : State → Prop} {Held : List Answer → State → Prop}
  {place : List Answer → State → State} {finish : Res Unit → State}

/-- An agent at work on `p` takes `p` to its end, step by step: `Held h` says that the agent has had the answers `h`,
`place h` gives it them, and `finish` is what it makes of the end. -/
theorem steps_to_end (hquiet : p.Quiet E) (hblind : p.Blind State.forget) (hkeeps : ∀ h, p.Keeps (Held h))
    (hplace : ∀ h h' t, Held h t → Held h' (place h' t) ∧ (place h' t).forget = t.forget)
    (hended : ∀ h u r, Held h u → u.faults = [] → (p.resume h).advance u = .ended r → step u = .next (finish r))
    (hmoved : ∀ h u new t, Held h u → u.faults = [] → (p.resume h).advance u = .moved new t →
      step u = .next (place (h ++ new) t))
    (h : List Answer) (u : State) (hfits : p.fits h = true) (hu : Held h u) (hf : u.faults = []) :
    ∃ k h' r, (∀ j, steps (k + 1 + j) u = steps j (finish r)) ∧ Held h' r.state
      ∧ r.mapState State.forget = ((p.resume h).run u).mapState State.forget := by
  have hacc := acc_after (p.resume h)
  generalize hq : p.resume h = q at hacc
  induction hacc generalizing h u with
  | intro q _ ih =>
    subst hq
    have advanced := keeps_advance (keeps_resume (hkeeps h) h) hu
    cases hadv : (p.resume h).advance u with
    | ended r =>
      rw [hadv] at advanced
      refine ⟨0, h, r, fun j => ?_, advanced, ?_⟩
      · rw [show 0 + 1 + j = j + 1 by omega, steps_succ (hended h u r hu hf hadv)]
      · rw [(run_of_advance _ u).1 r hadv]
    | moved new t =>
      rw [hadv] at advanced
      obtain ⟨hnew, hrun⟩ := (run_of_advance _ u).2 new t hadv
      obtain ⟨held, hforget⟩ := hplace h (h ++ new) t advanced
      have noFault : (place (h ++ new) t).faults = [] :=
        (faults_of_forget hforget).trans ((quiet_moved (quiet_resume hquiet h) hadv).trans hf)
      obtain ⟨k, h', r, hsteps, hr, hres⟩ := ih (p.resume (h ++ new)) ⟨u, new, t, hadv, resume_append hfits⟩
        (h ++ new) _ (fits_append hfits hnew) held noFault rfl
      refine ⟨k + 1, h', r, fun j => ?_, hr, ?_⟩
      · rw [show k + 1 + 1 + j = k + 1 + j + 1 by omega, steps_succ (hmoved h u new t hu hf hadv), hsteps]
      · rw [hres, run_congr (blind_resume hblind _) hforget, hrun, resume_append hfits]

end

/-- Where `turns` names nobody, the default agent moves (log 1). -/
theorem step_of_defaultAgent {s : State} (hp : paramsValid s.params = true) (hf : s.faults = [])
    (ht : s.turns = []) {a : Agent} (ha : s.defaultAgent = some a) : step s = stepAgent exec a s := by
  have turned : { s with turns := [] } = s := by rw [← ht]
  have hnext : s.nextAgent = some (a, []) := by simp [State.nextAgent, ht, ha]
  rw [step_of_nextAgent hp hf hnext, turned]

/-! ### APP's command -/

/-- APP has had the answers `had` to the command `ws`, CORE is idle and `turns` names nobody. -/
def Running (c : Context) (ws : List HalfWord) (had : List Answer) (u : State) : Prop :=
  u.context = c ∧ u.turns = [] ∧ u.core = .idle ∧ u.app = .running ws had

theorem kept_running (c : Context) (ws : List HalfWord) (had : List Answer) : Kept (Running c ws had) where
  store s k v h := by simpa [Running, State.context, State.servedEp] using h
  epr _ _ _ h := h
  cntr _ _ h := h
  daddr _ _ h := h
  btable _ _ h := h
  bcdr _ _ h := h
  istr _ _ h := h
  snap s w h := by
    obtain ⟨hcontext, hturns, hcore, happ⟩ := h
    rw [State.setEprSnap, hcore]
    exact ⟨hcontext, hturns, hcore, happ⟩
  inside s t hc h := by rw [hc]; exact h

/-- While APP runs a command no dispatch starts, and APP's next access is the step (R711, R732). -/
theorem Running.step_eq {c : Context} {ws : List HalfWord} {had : List Answer} {u : State}
    (hu : Running c ws had u) (hp : paramsValid c.params = true) (ha : c.params.atomicDispatch = false)
    (hf : u.faults = []) : step u = .next (advanceCommand ws had u) := by
  obtain ⟨rfl, hturns, hcore, happ⟩ := hu
  have hagent : u.defaultAgent = some .app := by
    simp [State.defaultAgent, State.agentEnabled, hcore, happ, State.canDispatch]
  rw [step_of_defaultAgent hp hf hturns hagent]
  exact stepApp_running happ ha

theorem withApp_forget {s : State} (hs : s.core = .idle) (x : AppState) :
    { s with app := x } = { s.forget with app := x } := by
  rw [State.forget, hs]
  rfl

theorem withApp_congr {s t : State} (h : s.forget = t.forget) (hs : s.core = .idle) (ht : t.core = .idle)
    (x : AppState) : { s with app := x } = { t with app := x } := by
  rw [withApp_forget hs, withApp_forget ht, h]

theorem retire_app (s : State) (x : AppState) : { retire s with app := x } = { s with app := x } := by
  rw [retire_eq]

theorem retire_idle {s : State} (h : s.faults = []) : (retire s).app = .idle := by
  simp [retire, State.faulted, h]

/-- A command's steps end in the state of its undisturbed run, with APP as the command's end leaves it. -/
theorem steps_command {s : State} {ws : List HalfWord} {i : Instr} (hp : paramsValid s.params = true)
    (ha : s.params.atomicDispatch = false) (hf : s.faults = []) (hs : Running s.context ws [] s)
    (hd : decodeCmd s.params ws = .ok i) :
    ∃ k v, steps k s = .next (retire v)
      ∧ { v with app := .idle } = { ((program i s.context).run s).state with app := .idle }
      ∧ v.faults = ((program i s.context).run s).state.faults := by
  cases hb : bindsSlot i with
  | true =>
    have hadv := advance_binding hb s.context s
    refine ⟨1, _, ?_, rfl, rfl⟩
    rw [steps_succ (hs.step_eq hp ha hf), advanceCommand_ended hd (by rwa [resume_nil])]
    rfl
  | false =>
    have keeps (h : List Answer) := (kept_running s.context ws h).program i s.context hb
    have decoded {h : List Answer} {u : State} (hu : Running s.context ws h u) :
        decodeCmd u.params ws = .ok i ∧ u.context = s.context := by
      obtain ⟨hcontext, -⟩ := hu
      have hparams : u.params = s.params := congrArg Context.params hcontext
      exact ⟨hparams ▸ hd, hcontext⟩
    obtain ⟨k, h', r, hsteps, hr, hres⟩ := steps_to_end (place := fun h t => { t with app := .running ws h })
      (finish := fun r => retire r.state) (quiet_command (decodeCmd_isCommand hd) s.context)
      (blind_program i s.context) keeps
      (fun h h' t ht => by
        obtain ⟨hcontext, hturns, hcore, happ⟩ := ht
        exact ⟨⟨hcontext, hturns, hcore, rfl⟩, by simp [State.forget, AppState.forget, happ]⟩)
      (fun h u r hu hfu hadv => by
        obtain ⟨hd, hc⟩ := decoded hu
        rw [hu.step_eq hp ha hfu, advanceCommand_ended hd (hc ▸ hadv)])
      (fun h u new t hu hfu hadv => by
        obtain ⟨hd, hc⟩ := decoded hu
        rw [hu.step_eq hp ha hfu, advanceCommand_moved hd (hc ▸ hadv)])
      [] s (fits_nil _) hs hf
    rw [resume_nil] at hres
    have hforget : r.state.forget = ((program i s.context).run s).state.forget := by
      simpa only [state_mapState] using congrArg Res.state hres
    obtain ⟨-, -, hcore, -⟩ := hr
    obtain ⟨-, -, hcore', -⟩ := keeps_run (keeps []) hs
    exact ⟨k + 1, r.state, hsteps 0, withApp_congr hforget hcore hcore' .idle, faults_of_forget hforget⟩

/-! ### CORE's dispatch -/

/-- CORE has had the answers `had` to the first of the rows `rest`, APP is idle and `turns` names nobody. -/
def Serving (c : Context) (w : HalfWord) (rest : List Instr) (had : List Answer) (u : State) : Prop :=
  u.context = c ∧ u.turns = [] ∧ u.app = .idle ∧ ∃ e, u.core = .dispatching w e rest had

theorem kept_serving (c : Context) (w : HalfWord) (rest : List Instr) (had : List Answer) :
    Kept (Serving c w rest had) where
  store s k v h := by simpa [Serving, State.context, State.servedEp] using h
  epr _ _ _ h := h
  cntr _ _ h := h
  daddr _ _ h := h
  btable _ _ h := h
  bcdr _ _ h := h
  istr _ _ h := h
  snap s v h := by
    obtain ⟨rfl, hturns, happ, e, hcore⟩ := h
    rw [State.setEprSnap, hcore]
    exact ⟨by simp [State.context, State.servedEp, hcore], hturns, happ, some v, rfl⟩
  inside s t hc h := by rw [hc]; exact h

/-- While a dispatch runs, CORE's next access is the step (R240). -/
theorem Serving.step_eq {c : Context} {w : HalfWord} {rest : List Instr} {had : List Answer} {u : State}
    (hu : Serving c w rest had u) (hp : paramsValid c.params = true) (ha : c.params.atomicDispatch = false)
    (hf : u.faults = []) : step u = .next (advanceRows rest had u) := by
  obtain ⟨rfl, hturns, happ, e, hcore⟩ := hu
  have hagent : u.defaultAgent = some .core := by simp [State.defaultAgent, State.agentEnabled, hcore]
  rw [step_of_defaultAgent hp hf hturns hagent]
  exact stepCore_dispatching hcore ha

theorem Serving.setRows {c : Context} {w : HalfWord} {rest : List Instr} {had : List Answer} {u : State}
    (hu : Serving c w rest had u) (rest' : List Instr) (had' : List Answer) :
    Serving c w rest' had' (u.setRows rest' had') := by
  obtain ⟨rfl, hturns, happ, e, hcore⟩ := hu
  rw [State.setRows, hcore]
  exact ⟨by simp [State.context, State.servedEp, hcore], hturns, happ, e, rfl⟩

theorem Serving.setRows_forget {c : Context} {w : HalfWord} {rest : List Instr} {had : List Answer} {u : State}
    (hu : Serving c w rest had u) (had' : List Answer) : (u.setRows rest had').forget = u.forget := by
  obtain ⟨-, -, -, e, hcore⟩ := hu
  simp [State.setRows, hcore, State.forget, CoreState.forget]

theorem withCore_forget {s : State} (hs : s.app = .idle) (x : CoreState) :
    { s with core := x } = { s.forget with core := x } := by
  rw [State.forget, hs]
  rfl

theorem withCore_congr {s t : State} (h : s.forget = t.forget) (hs : s.app = .idle) (ht : t.app = .idle)
    (x : CoreState) : { s with core := x } = { t with core := x } := by
  rw [withCore_forget hs, withCore_forget ht, h]

/-- The next rows start alike where only the answers to the last one differ. -/
theorem Serving.setRows_congr {c : Context} {w : HalfWord} {rest : List Instr} {had had' : List Answer}
    {s t : State} (hs : Serving c w rest had s) (ht : Serving c w rest had' t) (h : s.forget = t.forget)
    (is : List Instr) : s.setRows is [] = t.setRows is [] := by
  obtain ⟨-, -, happ, e, hcore⟩ := hs
  obtain ⟨-, -, happ', e', hcore'⟩ := ht
  have hsnap : e = e' := by
    have := congrArg State.core h
    simpa [State.forget, hcore, hcore', CoreState.forget] using this
  rw [State.setRows, State.setRows, hcore, hcore', hsnap]
  exact withCore_congr h happ happ' _

/-- What CORE makes of a row's end: the next rows, or a stop (R611, R700). -/
def rowEnd (is : List Instr) : Res Unit → State
  | .ok _ t => advanceRows is [] (t.setRows is [])
  | .stop t => t

theorem handler_bindsSlot {i : Instr} (hi : isHandler i = true) : bindsSlot i = false := by
  cases i with
  | irqReset | irqCtr | irqSusp | irqWkup => rfl
  | _ => cases hi

/-- The steps of one row, up to what CORE makes of its end. -/
theorem steps_row {c : Context} {w : HalfWord} {i : Instr} {is : List Instr} {u : State}
    (hp : paramsValid c.params = true) (ha : c.params.atomicDispatch = false) (hi : isHandler i = true)
    (hu : Serving c w (i :: is) [] u) (hf : u.faults = []) :
    ∃ k h' r, (∀ j, steps (k + 1 + j) u = steps j (rowEnd is r)) ∧ Serving c w (i :: is) h' r.state
      ∧ r.mapState State.forget = ((program i c).run u).mapState State.forget := by
  have hb := handler_bindsSlot hi
  have ends := steps_to_end (p := program i c) (Held := Serving c w (i :: is))
    (place := fun h t => t.setRows (i :: is) h) (finish := rowEnd is)
    (quiet_handler (E := fun s => s.faulted = true) (fun _ h => h) hi c) (blind_program i c)
    (fun h => (kept_serving c w (i :: is) h).program i c hb)
    (fun h h' t ht => ⟨ht.setRows _ h', ht.setRows_forget h'⟩)
    (fun h u r hu hfu hadv => by
      rw [hu.step_eq hp ha hfu]
      obtain ⟨rfl, -⟩ := hu
      cases r with
      | ok a t => rw [advanceRows_ok hadv, rowEnd]
      | stop t => rw [advanceRows_stop hadv, rowEnd])
    (fun h u new t hu hfu hadv => by
      rw [hu.step_eq hp ha hfu]
      obtain ⟨rfl, -⟩ := hu
      rw [advanceRows_moved hadv])
    [] u (fits_nil _) hu hf
  simpa only [resume_nil] using ends

/-- A handler's meaning is the undisturbed run of its statements. -/
theorem exec_handler {i : Instr} (hi : isHandler i = true) (s : State) : exec i s = perform (program i) s := by
  cases i with
  | irqReset | irqCtr | irqSusp | irqWkup => rfl
  | _ => cases hi

/-- A dispatch's steps end in the state of its rows run one after another; after a fault but for the answers that
CORE's execution state holds. -/
theorem steps_rows {c : Context} {w : HalfWord} (hp : paramsValid c.params = true)
    (ha : c.params.atomicDispatch = false) {rows : List Instr} (hrows : ∀ i ∈ rows, isHandler i = true) {u t : State}
    (hu : Serving c w rows [] u) (hf : u.faults = []) (h : runRows exec rows [] u = .next t) :
    ∃ k v, steps (k + 1) u = .next v ∧ { v with core := .idle } = { t with core := .idle }
      ∧ (t.faults = [] → v = t) := by
  induction rows generalizing u with
  | nil =>
    refine ⟨0, t, ?_, rfl, fun _ => rfl⟩
    rw [steps_succ (hu.step_eq hp ha hf)]
    exact h
  | cons i is ih =>
    have hi := hrows i (by simp)
    obtain ⟨k, h', r, hsteps, hr, hres⟩ := steps_row hp ha hi hu hf
    have ran := keeps_run ((kept_serving c w (i :: is) []).program i c (handler_bindsSlot hi)) hu
    have hnext : thenNext (exec i u) (fun v => if v.faulted then .next v else runRows exec is [] (v.setRows is []))
        = .next t := h
    rw [exec_handler hi, perform, hu.1] at hnext
    rcases quiet_run (quiet_handler (E := fun v => v.faulted = true) (fun _ h => h) hi c) u with
      ⟨a, v, hv, hfv⟩ | ⟨v, hv, hfv⟩
    · rw [hv] at hres ran hnext
      obtain ⟨r, rfl, hforget⟩ := mapState_ok hres
      have started : r.setRows is [] = v.setRows is [] := hr.setRows_congr ran hforget is
      have noFault : v.faults = [] := hfv.trans hf
      have begun : Serving c w is [] (v.setRows is []) := Serving.setRows ran is []
      have rest : runRows exec is [] (v.setRows is []) = .next t := by
        simpa [thenNext, Res.toOutcome, State.faulted, noFault] using hnext
      obtain ⟨k', v', hk', hend⟩ := ih (fun j hj => hrows j (List.mem_cons_of_mem i hj)) begun (by simpa) rest
      refine ⟨k + k', v', ?_, hend⟩
      calc steps (k + k' + 1) u = steps (k + 1 + k') u := by rw [Nat.add_right_comm]
        _ = steps k' (advanceRows is [] (v.setRows is [])) := by rw [hsteps, rowEnd, started]
        _ = steps (k' + 1) (v.setRows is []) := (steps_succ (begun.step_eq hp ha (by simpa)) k').symm
        _ = .next v' := hk'
    · rw [hv] at hres ran hnext
      obtain ⟨r, rfl, hforget⟩ := mapState_stop hres
      obtain rfl : v = t := by simpa [thenNext, Res.toOutcome, hfv] using hnext
      obtain ⟨-, -, happ, -⟩ := hr
      obtain ⟨-, -, happ', -⟩ := ran
      refine ⟨k, r, hsteps 0, withCore_congr hforget happ happ' .idle, fun h0 => ?_⟩
      simp [State.faulted, h0] at hfv

/-- Settles O49: each step takes the operation on by one access and leaves the rest of its run. -/
theorem undisturbedStepsRunInstruction : Obligations.UndisturbedStepsRunInstruction := by
  intro s t hp ha hf hturns
  refine ⟨fun ws i happ hcore hd h => ?_, fun w e rows hcore happ hok h => ?_⟩
  · obtain ⟨k, v, hk, hv, hfaults⟩ := steps_command hp ha hf ⟨rfl, hturns, hcore, happ⟩ hd
    have hexec := exec_command (s := s) (decodeCmd_isCommand hd) (by simp [happ])
    obtain rfl : ((program i s.context).run s).state = t := by
      rw [hexec] at h
      simpa [perform, Res.toOutcome] using h
    exact ⟨k, retire v, hk, (retire_app v .idle).trans hv, fun h0 => retire_idle (hfaults.trans h0)⟩
  · obtain ⟨k, v, hk, hv, heq⟩ := steps_rows (c := s.context) (w := w) hp ha (hok w e rows [] hcore)
      ⟨rfl, hturns, happ, e, hcore⟩ hf h
    exact ⟨k + 1, v, hk, hv, fun h0 => heq h0⟩

end Sys2Proof.Machine

/-! # The encodings

One statement covers the six formats: the rows that an encoding selects are the well-formed instructions whose
bits it is (`mem_decodeRows`). It is proved format by format, and O50 and O51 read it in one direction each. -/

namespace Sys2Proof.Machine

/-- The instruction is well-formed and its bits are `e`. -/
def Encodes (p : Params) (e : Encoded) (i : Instr) : Prop := encode i = e ∧ i.wf p = true

/-! ## Narrow operands and the bytes of a bus event -/

/-- A value widened with zeros is a word below the value's range whose low bits are the value. -/
theorem setWidth_eq_iff {k m : Nat} (hk : k ≤ m) {v : BitVec k} {w : BitVec m} :
    v.setWidth m = w ↔ w.toNat < 2 ^ k ∧ w.setWidth k = v := by
  have hv := v.isLt
  have hvm : v.toNat % 2 ^ m = v.toNat := Nat.mod_eq_of_lt (hv.trans_le (Nat.pow_le_pow_right (by decide) hk))
  constructor
  · rintro rfl
    simp [hvm, hk, hv]
  · rintro ⟨hw, rfl⟩
    exact BitVec.eq_of_toNat_eq (by simp [Nat.mod_eq_of_lt hw])

/-- A legal narrow operand is its value with zeros above (R324, R360). -/
theorem withNarrow_eq_some {k : Nat} (hk : k ≤ 16) {w : HalfWord} {f : BitVec k → Instr} {i : Instr} :
    withNarrow k w f = some i ↔ ∃ v : BitVec k, v.setWidth 16 = w ∧ f v = i := by
  simp [withNarrow, narrow, setWidth_eq_iff hk]

/-- A narrow value with zeros above is a legal operand. -/
theorem withNarrow_setWidth {k : Nat} (hk : k ≤ 16) (v : BitVec k) (f : BitVec k → Instr) :
    withNarrow k (v.setWidth 16) f = some (f v) := (withNarrow_eq_some hk).mpr ⟨v, rfl, rfl⟩

/-- A device address has bit 7 zero (R340). -/
theorem busAddr_eq_some {b : Byte} {a : BitVec 7} : busAddr b = some a ↔ a.setWidth 8 = b := by
  have hb : b.getLsbD 7 = true ↔ ¬ b.toNat < 2 ^ 7 := by revert b; decide
  simp only [busAddr, hb, ite_not, Option.ite_none_right_eq_some, Option.some.injEq,
    setWidth_eq_iff (show 7 ≤ 8 by decide)]

/-- An endpoint number has bits 7:4 zero (R340). -/
theorem busEp_eq_some {b : Byte} {e : BitVec 4} : busEp b = some e ↔ e.setWidth 8 = b := by
  have hb : b.extractLsb' 4 4 = 0 ↔ b.toNat < 2 ^ 4 := by revert b; decide
  simp only [busEp, hb, Option.ite_none_right_eq_some, Option.some.injEq, setWidth_eq_iff (show 4 ≤ 8 by decide)]

/-- EPA is ACK, three zeros and the endpoint (R341). -/
theorem busEpa_eq_some {b : Byte} {e : BitVec 4} {ack : Bool} :
    busEpa b = some (e, ack) ↔ BitVec.ofBool ack ++ 0#3 ++ e = b := by
  constructor
  · intro h
    unfold busEpa at h
    split at h
    · cases h
      revert b; decide
    · cases h
  · rintro rfl
    revert e ack; decide

/-! ## Data bytes -/

/-- The bytes packed into half-words are read back (R333). -/
theorem unpackBytes_packBytes (d : List Byte) : unpackBytes d.length (packBytes d) = some d := by
  fun_induction packBytes d with
  | case1 => rfl
  | case2 b => simp [unpackBytes]
  | case3 b₀ b₁ bs ih => simp [unpackBytes, ih]

/-- Half-words of the right number and padding hold exactly the bytes read from them (R333, R335). -/
theorem packBytes_of_unpackBytes {l : Nat} {ws : List HalfWord} {d : List Byte} (h : unpackBytes l ws = some d) :
    d.length = l ∧ packBytes d = ws := by
  fun_induction unpackBytes l ws generalizing d with
  | case1 => cases h; exact ⟨rfl, rfl⟩
  | case2 w hw =>
    cases h
    exact ⟨rfl, by rw [packBytes, ← hw, ofBytes_lo_hi]⟩
  | case3 => cases h
  | case4 l w ws ih =>
    obtain ⟨bs, hbs, rfl⟩ := Option.map_eq_some_iff.mp h
    obtain ⟨hl, hp⟩ := ih hbs
    exact ⟨by simp [hl], by simp [packBytes, hp]⟩
  | case5 => cases h

/-- A length half-word holds the length of at most 65535 bytes. -/
theorem lengthWord_eq_iff {d : List Byte} {l : HalfWord} :
    (d.length < 65536 ∧ lengthWord d = l) ↔ d.length = l.toNat := by
  have hl := l.isLt
  constructor
  · rintro ⟨hd, rfl⟩
    simp [lengthWord, Nat.mod_eq_of_lt hd]
  · intro h
    exact ⟨by omega, by rw [lengthWord, h, BitVec.ofNat_toNat, BitVec.setWidth_eq]⟩

/-- The length half-word `l` and the half-words after it stand for at most `m` bytes `d` (R333, R335). -/
def HoldsBytes (m : Nat) (l : HalfWord) (ws : List HalfWord) (d : List Byte) : Prop :=
  (d.length ≤ m ∧ d.length < 65536) ∧ lengthWord d = l ∧ packBytes d = ws

/-- A legal data operand is the bytes its half-words hold. -/
theorem dataOperand_eq_some {m : Nat} {l : HalfWord} {ws : List HalfWord} {f : List Byte → Instr} {i : Instr} :
    (if l.toNat ≤ m then (unpackBytes l.toNat ws).map f else none) = some i ↔
      ∃ d, HoldsBytes m l ws d ∧ f d = i := by
  simp only [Option.ite_none_right_eq_some, Option.map_eq_some_iff]
  constructor
  · rintro ⟨hm, d, hd, hi⟩
    obtain ⟨hl, hp⟩ := packBytes_of_unpackBytes hd
    obtain ⟨hd, hw⟩ := lengthWord_eq_iff.mpr hl
    exact ⟨d, ⟨⟨hl ▸ hm, hd⟩, hw, hp⟩, hi⟩
  · rintro ⟨d, ⟨⟨hm, hd⟩, hw, rfl⟩, hi⟩
    have hl := lengthWord_eq_iff.mp ⟨hd, hw⟩
    exact ⟨hl ▸ hm, d, hl ▸ unpackBytes_packBytes d, hi⟩

/-- The bytes of a length that fits its half-word are a legal data operand. -/
theorem dataOperand_packBytes {m : Nat} {d : List Byte} (hm : d.length ≤ m) (hd : d.length < 65536)
    (f : List Byte → Instr) :
    (if (lengthWord d).toNat ≤ m then (unpackBytes (lengthWord d).toNat (packBytes d)).map f else none)
      = some (f d) := dataOperand_eq_some.mpr ⟨d, ⟨⟨hm, hd⟩, rfl, rfl⟩, rfl⟩

/-- The operands of BUS_OUT are two length bytes and the data (R341, R361). -/
theorem busData_eq_some {bs d : List Byte} :
    busData bs = some d ↔ loByte (lengthWord d) :: hiByte (lengthWord d) :: d = bs ∧ d.length ≤ 1023 := by
  constructor
  · intro h
    unfold busData at h
    split at h
    · rename_i l₀ l₁ d'
      obtain ⟨⟨hm, hl⟩, hd⟩ := Option.ite_none_right_eq_some.mp h
      cases hd
      obtain ⟨-, hw⟩ := lengthWord_eq_iff.mpr hl
      simp only [hw, loByte_ofBytes, hiByte_ofBytes, true_and]
      omega
    · cases h
  · rintro ⟨rfl, hd⟩
    have hl : d.length = (lengthWord d).toNat := lengthWord_eq_iff.mp ⟨by omega, rfl⟩
    simp [busData, ← hl, hd]

/-! ## Commands -/

@[simp] theorem opcode_header (op : Byte) (n : EpNum) : (header op n).extractLsb' 0 8 = op :=
  BitVec.extractLsb'_append_eq_right

@[simp] theorem headerOp_header (op : Byte) (n : EpNum) : headerOp (header op n) = op.toNat := by
  rw [headerOp, opcode_header]

@[simp] theorem headerEp_header (op : Byte) (n : EpNum) : headerEp (header op n) = n := by
  unfold headerEp header
  rw [BitVec.extractLsb'_append_eq_of_le (by decide), BitVec.extractLsb'_append_eq_right]

@[simp] theorem reserved_header (op : Byte) (n : EpNum) : (header op n).extractLsb' 11 5 = 0 := by
  unfold header
  rw [BitVec.extractLsb'_append_eq_of_le (by decide), BitVec.extractLsb'_append_eq_left]

/-- A header whose reserved bits are 0 is made of its opcode and its endpoint (R331). -/
theorem header_fields {h : HalfWord} (h0 : h.extractLsb' 11 5 = 0) :
    header (h.extractLsb' 0 8) (headerEp h) = h := by
  unfold header headerEp
  rw [← h0]
  calc (h.extractLsb' 11 5 ++ h.extractLsb' 8 3) ++ h.extractLsb' 0 8
      = h.extractLsb' 8 8 ++ h.extractLsb' 0 8 :=
        congrArg (fun b : Byte => b ++ h.extractLsb' 0 8)
          (BitVec.extractLsb'_append_extractLsb'_eq_extractLsb' (x := h) (start₁ := 8) (len₁ := 3) rfl)
    _ = h := BitVec.extractLsb'_append_extractLsb' (w := 8) (len := 8)

@[simp] theorem header_inj {op op' : Byte} {n n' : EpNum} :
    header op n = header op' n' ↔ op = op' ∧ n = n' := by
  refine ⟨fun h => ⟨?_, ?_⟩, ?_⟩
  · simpa using congrArg (·.extractLsb' 0 8) h
  · simpa using congrArg headerEp h
  · rintro ⟨rfl, rfl⟩
    rfl

/-- The endpoint of a legal header: 0 where the opcode takes none (R360). -/
def endpointField (op : Nat) (n : EpNum) : EpNum := if takesNoEndpoint op || op = 0x30 then 0 else n

/-- What an opcode's operands decode to has that opcode and those operands as its bits (R332). The instruction is
quantified last: `simp` then puts the row of each opcode in its place. -/
theorem encodes_of_decodeOperands (p : Params) (op : Nat) (n : EpNum) (ws : List HalfWord) :
    ∀ i, decodeOperands p op n ws = some i →
      Encodes p (cmdWords (BitVec.ofNat 8 op) (endpointField op n) ws) i := by
  unfold decodeOperands
  split
  case h_28 => simp
  all_goals
    split
    · simp only [withNarrow_eq_some, ↓dataOperand_eq_some, Option.ite_none_right_eq_some, Option.some.injEq,
        forall_eq', forall_exists_index, and_imp, forall_apply_eq_imp_iff, forall_apply_eq_imp_iff₂,
        Nat.reduceLeDiff]
      simp +contextual [HoldsBytes, Encodes, encode, Instr.wf, endpointField, takesNoEndpoint]
    · simp

/-- The operands of a well-formed command decode to it. -/
theorem decodeOperands_of_encodes {p : Params} {op : Byte} {n : EpNum} {ws : List HalfWord} {i : Instr}
    (h : Encodes p (cmdWords op n ws) i) :
    endpointField op.toNat n = n ∧ decodeOperands p op.toNat n ws = some i := by
  obtain ⟨he, hwf⟩ := h
  cases i <;>
    simp only [encode, cmdWords, setupBytes, Encoded.cmd.injEq, List.cons.injEq, header_inj, reduceCtorEq] at he
  all_goals
    obtain ⟨⟨rfl, rfl⟩, rfl⟩ := he
    refine ⟨rfl, ?_⟩
  case pmWrite a d =>
    obtain ⟨hm, hd⟩ : d.length ≤ p.pmSize ∧ d.length < 65536 := by simpa [Instr.wf] using hwf
    exact dataOperand_packBytes hm hd (.pmWrite a)
  case epTransmit n d =>
    have hm : d.length ≤ 1023 := of_decide_eq_true hwf
    exact dataOperand_packBytes hm (by omega) (.epTransmit n)
  case pmRead | epReceive => exact if_pos (of_decide_eq_true hwf)
  all_goals simp [decodeOperands, withNarrow_setWidth]

/-- The endpoint is the one the opcode admits when neither of R360's two refusals of an endpoint applies. -/
theorem endpointField_eq_self {op : Nat} {n : EpNum} :
    endpointField op n = n ↔ ¬ (op = 0x30 ∧ n ≠ 0) ∧ ¬ (takesNoEndpoint op = true ∧ n ≠ 0) := by
  rw [endpointField, ite_eq_right_iff, eq_comm (a := (0 : EpNum)), Bool.or_eq_true, decide_eq_true_eq]
  tauto

/-- A command without a reserved bit decodes as its operands do, if its endpoint is one the opcode takes (R360). -/
theorem decodeCmd_header {p : Params} {op : Byte} {n : EpNum} {ws : List HalfWord} {i : Instr} :
    decodeCmd p (header op n :: ws) = .ok i ↔
      endpointField op.toNat n = n ∧ decodeOperands p op.toNat n ws = some i := by
  rw [endpointField_eq_self, decodeCmd, headerOp_header, headerEp_header, reserved_header, if_neg (by simp)]
  split_ifs with hirq hnone
  · exact ⟨nofun, fun h => absurd hirq h.1.1⟩
  · exact ⟨nofun, fun h => absurd hnone h.1.2⟩
  · cases decodeOperands p op.toNat n ws <;> simp [hirq, hnone]

/-- The half-words of a command begin with a header. -/
theorem cmd_of_encode {i : Instr} {ws : List HalfWord} (h : encode i = .cmd ws) :
    ∃ op n ops, header op n :: ops = ws := by
  cases i <;> simp only [encode, cmdWords, setupBytes, Encoded.cmd.injEq, reduceCtorEq] at h
  all_goals exact ⟨_, _, _, h⟩

/-- What a command decodes to is the instruction whose bits it is. -/
theorem decodeCmd_eq_ok {p : Params} {ws : List HalfWord} {i : Instr} :
    decodeCmd p ws = .ok i ↔ Encodes p (.cmd ws) i := by
  constructor
  · intro h
    cases ws with
    | nil => cases h
    | cons w ws =>
      by_cases h0 : w.extractLsb' 11 5 = 0
      · rw [← header_fields h0] at h ⊢
        obtain ⟨hn, hd⟩ := decodeCmd_header.mp h
        have he := encodes_of_decodeOperands p _ _ ws i hd
        rwa [hn, BitVec.ofNat_toNat, BitVec.setWidth_eq] at he
      · cases (if_pos h0).symm.trans h
  · intro h
    obtain ⟨op, n, ops, rfl⟩ := cmd_of_encode h.1
    exact decodeCmd_header.mpr (decodeOperands_of_encodes h)

/-! ## Setup packets -/

/-- The packet of a request code and the fields beside it. -/
def packetOf (b : Byte) (r : Request) : SetupPacket := ⟨r.bmRequestType, b, r.wValue, r.wIndex, r.wLength⟩

@[simp] theorem packetOf_bRequest (b : Byte) (r : Request) : (packetOf b r).bRequest = b := rfl

@[simp] theorem packetOf_request (b : Byte) (r : Request) : (packetOf b r).request = r := rfl

theorem setupBytes_eq (b : Byte) (r : Request) : setupBytes b r = .setup (packetOf b r).bytes := rfl

theorem setupBytes_request (k : SetupPacket) : setupBytes k.bRequest k.request = .setup k.bytes := rfl

@[simp] theorem ofBytes_bytes (k : SetupPacket) : SetupPacket.ofBytes k.bytes = k := by
  simp [SetupPacket.ofBytes, SetupPacket.bytes]

theorem bytes_ofBytes {bs : List Byte} (h : bs.length = 8) : (SetupPacket.ofBytes bs).bytes = bs := by
  match bs, h with
  | [_, _, _, _, _, _, _, _], _ => simp [SetupPacket.ofBytes, SetupPacket.bytes]

/-- The filter holds back the requests that are not standard ones, where it is set (R506). -/
theorem admitted_iff {p : Params} {r : Request} :
    r.admitted p = true ↔ ¬ (p.reqTypeFilter = .standardOnly ∧ r.bmRequestType.extractLsb' 5 2 ≠ 0) := by
  simp only [Request.admitted, Bool.not_eq_true', decide_eq_false_iff_not]

/-- A request the filter lets through is selected by its code (R506). -/
theorem decodeSetup_admitted {p : Params} {k : SetupPacket} (h : k.request.admitted p = true) :
    decodeSetup p k = (selectRequest .ignore k).toInstr k.request := by
  have hf : ¬ (p.reqTypeFilter = .standardOnly ∧ k.bmRequestType.extractLsb' 5 2 ≠ 0) := admitted_iff.mp h
  simp only [decodeSetup, selectRequest, if_neg hf, reduceCtorEq, false_and, if_false]

/-- A request the filter holds back is an unrecognised one (R506). -/
theorem decodeSetup_filtered {p : Params} {k : SetupPacket} (h : ¬ k.request.admitted p = true) :
    decodeSetup p k = .unrecognisedRequest k.bRequest k.request := by
  have hf : p.reqTypeFilter = .standardOnly ∧ k.bmRequestType.extractLsb' 5 2 ≠ 0 :=
    not_not.mp (mt (admitted_iff (r := k.request)).mpr h)
  simp only [decodeSetup, selectRequest, if_pos hf, RequestName.toInstr]

/-- A packet holds the bits of the row it selects. -/
theorem encodes_decodeSetup (p : Params) (k : SetupPacket) : Encodes p (.setup k.bytes) (decodeSetup p k) := by
  by_cases h : k.request.admitted p = true
  · rw [decodeSetup_admitted h, ← setupBytes_request]
    simp only [selectRequest, reduceCtorEq, false_and, if_false]
    split_ifs
    case neg => exact ⟨rfl, by simp_all [RequestName.toInstr, Instr.wf, recognisedCodes]⟩
    all_goals exact ⟨congrArg (setupBytes · k.request) (Eq.symm ‹_›), h⟩
  · rw [decodeSetup_filtered h]
    exact ⟨setupBytes_request k, by simp [Instr.wf, h]⟩

/-- The bits of a well-formed request are a packet that selects it. -/
theorem decodeSetup_of_encodes {p : Params} {bs : List Byte} {i : Instr} (h : Encodes p (.setup bs) i) :
    bs.length = 8 ∧ decodeSetup p (.ofBytes bs) = i := by
  obtain ⟨he, hwf⟩ := h
  cases i <;> simp only [encode, cmdWords, setupBytes_eq, Encoded.setup.injEq, reduceCtorEq] at he
  all_goals
    subst he
    rw [ofBytes_bytes]
    refine ⟨rfl, ?_⟩
    simp only [Instr.wf] at hwf
  case unrecognisedRequest b r =>
    by_cases ha : r.admitted p = true
    · simp_all [decodeSetup_admitted, recognisedCodes, selectRequest, RequestName.toInstr]
    · exact decodeSetup_filtered ha
  all_goals simp [decodeSetup_admitted, hwf, selectRequest, RequestName.toInstr]

theorem decodeSetup_eq {p : Params} {bs : List Byte} {i : Instr} :
    (bs.length = 8 ∧ decodeSetup p (.ofBytes bs) = i) ↔ Encodes p (.setup bs) i := by
  refine ⟨?_, decodeSetup_of_encodes⟩
  rintro ⟨hl, rfl⟩
  simpa only [bytes_ofBytes hl] using encodes_decodeSetup p (.ofBytes bs)

/-! ## Bus events -/

/-- What a byte sequence decodes to has those bytes as its bits, event by event. -/
theorem encodes_of_decodeBus {p : Params} {bs : List Byte} {e : BusEvent} (h : decodeBus bs = some e) :
    Encodes p (.bus bs) e.toInstr := by
  unfold decodeBus at h
  split at h
  case h_2 => cases h
  case h_1 c bs =>
    repeat' split at h
    all_goals cases h
    · next hc hbs => exact hc ▸ hbs ▸ ⟨rfl, rfl⟩
    · next hc _ _ _ _ _ _ _ _ ha hn hl =>
      rw [hc, ← busAddr_eq_some.mp ha, ← busEp_eq_some.mp hn]
      exact ⟨by rw [BusEvent.toInstr, encode, bytes_ofBytes hl], rfl⟩
    · next hc _ _ _ _ _ _ _ _ _ _ ha hn hd =>
      obtain ⟨hd, hl⟩ := busData_eq_some.mp hd
      rw [hc, ← busAddr_eq_some.mp ha, ← busEp_eq_some.mp hn, ← hd]
      exact ⟨rfl, decide_eq_true hl⟩
    · next hc _ _ _ _ _ _ _ _ ha hn =>
      rw [hc, ← busAddr_eq_some.mp ha, ← busEpa_eq_some.mp hn]
      exact ⟨rfl, rfl⟩
    · next hc hbs => exact hc ▸ hbs ▸ ⟨rfl, rfl⟩
    · next hc hbs => exact hc ▸ hbs ▸ ⟨rfl, rfl⟩

/-- The bytes of a well-formed event decode to it. -/
theorem decodeBus_of_encodes {p : Params} {bs : List Byte} {e : BusEvent} (h : Encodes p (.bus bs) e.toInstr) :
    decodeBus bs = some e := by
  obtain ⟨he, hwf⟩ := h
  cases e <;> obtain rfl := Encoded.bus.inj he
  case out a ep d =>
    have hd := busData_eq_some.mpr ⟨rfl, of_decide_eq_true hwf⟩
    simp [decodeBus, busAddr_eq_some.mpr rfl, busEp_eq_some.mpr rfl, hd]
  all_goals simp [decodeBus, busAddr_eq_some.mpr rfl, busEp_eq_some.mpr rfl, busEpa_eq_some.mpr rfl]
  rfl

/-- Only the rows of bus events have the format BUS. -/
theorem bus_of_encode {i : Instr} {bs : List Byte} (h : encode i = .bus bs) : ∃ e : BusEvent, e.toInstr = i := by
  cases i <;> simp only [encode, cmdWords, setupBytes, reduceCtorEq] at h
  case busReset => exact ⟨.reset, rfl⟩
  case busSetup a ep k => exact ⟨.setup a ep k, rfl⟩
  case busOut a ep d => exact ⟨.out a ep d, rfl⟩
  case busIn a ep ack => exact ⟨.tokenIn a ep ack, rfl⟩
  case busSuspend => exact ⟨.suspend, rfl⟩
  case busResume => exact ⟨.resume, rfl⟩

/-! ## Hook codes -/

/-- H determines the hook, and the hook H (R350). -/
theorem hook_ofCode_eq_some {b : BitVec 3} {h : Hook} : Hook.ofCode b = some h ↔ h.code = b := by
  revert b
  cases h <;> decide

/-- The code of a HOOK row is its role and its hook (R350). -/
theorem encodes_hookInstr (p : Params) (r : Role) (h : Hook) :
    Encodes p (.hook (BitVec.ofBool (r = .control) ++ h.code)) (hookInstr r h) := by
  cases r <;> cases h <;> exact ⟨rfl, rfl⟩

theorem hook_code_fields (b : BitVec 4) :
    BitVec.ofBool ((if b.getLsbD 3 then Role.control else .generic) = .control) ++ b.setWidth 3 = b := by
  revert b; decide

theorem decodeHook_eq_some {p : Params} {b : BitVec 4} {i : Instr} :
    decodeHook b = some i ↔ Encodes p (.hook b) i := by
  constructor
  · intro h
    obtain ⟨k, hk, rfl⟩ := Option.map_eq_some_iff.mp h
    have he := encodes_hookInstr p (if b.getLsbD 3 then .control else .generic) k
    rwa [hook_ofCode_eq_some.mp hk, hook_code_fields] at he
  · rintro ⟨he, -⟩
    cases i <;> simp only [encode, cmdWords, setupBytes, Encoded.hook.injEq, reduceCtorEq] at he
    all_goals
      subst he
      rfl

/-- The rows a key selects (R351). -/
theorem mem_decodeCtrd {p : Params} {k : BitVec 17} {i : Instr} : i ∈ decodeCtrd k ↔ Encodes p (.ctrd k) i := by
  constructor
  · intro h
    obtain h | h := List.mem_append.mp h
    · split_ifs at h with h11 h16
      · obtain rfl := List.mem_singleton.mp h
        exact ⟨rfl, h11⟩
      · obtain rfl := List.mem_singleton.mp h
        exact ⟨rfl, by simpa [h16, Instr.wf] using h11⟩
      · cases h
    · obtain ⟨h7, h⟩ := List.mem_ite_nil_right.mp h
      obtain rfl := List.mem_singleton.mp h
      exact ⟨rfl, h7⟩
  · rintro ⟨he, hwf⟩
    cases i <;> simp only [encode, cmdWords, setupBytes, Encoded.ctrd.injEq, reduceCtorEq] at he
    all_goals
      subst he
      simp_all [Instr.wf, decodeCtrd]

/-- The rows an interrupt-status snapshot selects: reset alone, else each of the other causes (R352). -/
theorem mem_decodeIstrd {p : Params} {w : HalfWord} {i : Instr} : i ∈ decodeIstrd w ↔ Encodes p (.istrd w) i := by
  constructor
  · intro h
    by_cases h10 : w.getLsbD 10 = true
    · rw [decodeIstrd, if_pos h10, List.mem_singleton] at h
      exact h ▸ ⟨rfl, h10⟩
    · simp only [decodeIstrd, if_neg h10, List.mem_append, List.mem_ite_nil_right, List.mem_singleton] at h
      obtain (⟨hb, rfl⟩ | ⟨hb, rfl⟩) | ⟨hb, rfl⟩ := h
      all_goals exact ⟨rfl, by simp_all [Instr.wf]⟩
  · rintro ⟨he, hwf⟩
    cases i <;> simp only [encode, cmdWords, setupBytes, Encoded.istrd.injEq, reduceCtorEq] at he
    all_goals
      subst he
      simp_all [Instr.wf, decodeIstrd]

/-! ## Every format -/

/-- The rows of an encoding are the instructions it encodes, in all six formats. -/
theorem mem_decodeRows {p : Params} {e : Encoded} {i : Instr} : i ∈ decodeRows p e ↔ Encodes p e i := by
  cases e with
  | cmd ws =>
    rw [← decodeCmd_eq_ok, decodeRows]
    cases decodeCmd p ws <;> simp [eq_comm]
  | setup bs =>
    rw [← decodeSetup_eq, decodeRows, List.mem_ite_nil_right, List.mem_singleton, eq_comm (a := i)]
  | bus bs =>
    rw [decodeRows, Option.mem_toList, Option.map_eq_some_iff]
    constructor
    · rintro ⟨e, he, rfl⟩
      exact encodes_of_decodeBus he
    · intro h
      obtain ⟨e, rfl⟩ := bus_of_encode h.1
      exact ⟨e, decodeBus_of_encodes h, rfl⟩
  | hook b => rw [← decodeHook_eq_some, decodeRows, Option.mem_toList]
  | ctrd k => exact mem_decodeCtrd
  | istrd w => exact mem_decodeIstrd

/-- Outside CTRD and ISTRD an encoding selects at most one row. -/
theorem decodeRows_length {p : Params} {e : Encoded} (hc : ∀ k, e ≠ .ctrd k) (hi : ∀ w, e ≠ .istrd w) :
    (decodeRows p e).length ≤ 1 := by
  cases e with
  | cmd ws => rw [decodeRows]; split <;> simp
  | setup bs => rw [decodeRows]; split <;> simp
  | bus bs => exact Option.length_toList_le
  | hook b => exact Option.length_toList_le
  | ctrd k => exact absurd rfl (hc k)
  | istrd w => exact absurd rfl (hi w)

/-- Settles O50: the instruction is among the rows its bits select, and outside CTRD and ISTRD there is one row. -/
theorem decodeOfEncode : Obligations.DecodeOfEncode := by
  intro p i hwf
  have hmem : i ∈ decodeRows p (encode i) := mem_decodeRows.mpr ⟨rfl, hwf⟩
  refine ⟨hmem, fun hc hi => ?_⟩
  obtain ⟨j, hj⟩ := List.length_eq_one_iff.mp (le_antisymm (decodeRows_length hc hi) (List.length_pos_of_mem hmem))
  have hij : i = j := by rwa [hj, List.mem_singleton] at hmem
  rw [hj, ← hij]

/-- Settles O51: every row that an encoding selects has that encoding as its bits. -/
theorem encodeOfDecode : Obligations.EncodeOfDecode := by
  refine ⟨fun p ws i h => ?_, fun p bs e h => ?_, fun b i h => ?_, fun p bs h => ?_⟩
  · exact decodeCmd_eq_ok.mp h
  · exact encodes_of_decodeBus h
  · exact (decodeHook_eq_some (p := .vectors).mp h).1
  · exact decodeSetup_eq.mp ⟨h, rfl⟩

/-- Settles O52, by running the decoder on the words. -/
theorem sampleWords : Obligations.SampleWords := by
  unfold Obligations.SampleWords
  decide

end Sys2Proof.Machine

/-! # The packet-memory commands (40_packet_memory.md) -/

namespace Sys2Proof.Machine

/-! ## Commands that run to their end -/

/-- An admitted command is the undisturbed run of its operation (R733). -/
theorem exec_admitted {i : Instr} {s : State} {refusal : State → Option RefuseReason} {p : Prog Unit}
    (he : exec i s = perform (fun _ => command refusal p) s) (ha : refusal s = none) :
    exec i s = (p.run s).toOutcome := by
  rw [he, perform, run_command_none ha]

/-- A command whose operation reads a value answers it in a Result event and changes nothing else (R334). -/
theorem exec_answers {α : Type} {i : Instr} {s : State} {p : Prog α} {v : α → ResultValue} {a : α}
    (he : exec i s = perform (fun _ => command State.admitInit (giveResult p v)) s)
    (hi : s.initialized = true) (hp : p.run s = .ok a s) : exec i s = .next (s.emit (.result (v a))) := by
  rw [exec_admitted he (admitInit_none hi), giveResult, run_bind, hp]
  rfl

theorem mayRead_iff {s : State} {a l : Nat} :
    s.mayRead a l = true ↔ a + l ≤ s.params.pmSize ∧ s.ownFaultR a l = none := by
  simp [State.mayRead, State.ownFaultR]

theorem mayWrite_iff {s : State} {a l : Nat} :
    s.mayWrite a l = true ↔ a + l ≤ s.params.pmSize ∧ s.ownFaultW a l = none := by
  simp [State.mayWrite, State.ownFaultW]

/-! ## Reads (O5) -/

theorem memGetBytes_eq_map (m : List Host.Cell) (a l : Nat) :
    memGetBytes m a l = (List.range l).map fun i => memGet m (a + i) := by
  induction l generalizing a with
  | zero => rfl
  | succ l ih =>
    rw [memGetBytes, ih, List.range_succ_eq_map]
    simp [Nat.add_right_comm, Nat.add_assoc]

/-- A cell at an even address is the half-word of the two bytes there (R201). -/
theorem cell_half {s : State} {a : Nat} (h : a % 2 = 0) :
    s.cell (a / 2) = ofBytes (s.byte a) (s.byte (a + 1)) := by
  rw [State.cell, show 2 * (a / 2) = a by omega]

/-- The byte of an address is the low or the high byte of its cell, by parity (R400). -/
theorem getByte_cell (s : State) (a : Nat) : getByte (s.cell (a / 2)) a = s.byte a := by
  obtain ⟨hlo, hhi⟩ := cell_bytes s (a / 2)
  unfold getByte
  split
  · rw [hlo]; congr 1; omega
  · rw [hhi]; congr 1; omega

theorem run_readHalfword {s : State} (ag : Agent) (rule : Nat) {a : Nat} (heven : a % 2 = 0)
    (hr : s.mayRead a 2 = true) :
    (readHalfword ag rule a).run s = .ok (ofBytes (s.byte a) (s.byte (a + 1))) s := by
  obtain ⟨hp, ho⟩ := mayRead_iff.mp hr
  have hc : s.halfwordFault a (s.ownFaultR a 2) = none := (halfwordFault_owned heven hp).trans ho
  rw [readHalfword, run_andThen, run_raiseIf_none hc, andThen_ok, run_readCell, cell_half heven]

theorem run_readByte {s : State} (ag : Agent) (rule : Nat) {a : Nat} (hr : s.mayRead a 1 = true) :
    (readByte ag rule a).run s = .ok (s.byte a) s := by
  obtain ⟨hp, ho⟩ := mayRead_iff.mp hr
  have hc : s.byteFault a (s.ownFaultR a 1) = none := (byteFault_owned hp).trans ho
  rw [readByte, run_andThen, run_raiseIf_none hc, andThen_ok, run_bind, run_readCell, bind_ok, run_ret,
    getByte_cell]

theorem exec_pmRead {s : State} (hi : s.initialized = true) {a l : HalfWord}
    (hr : l.toNat = 0 ∨ s.mayRead a.toNat l.toNat = true) :
    exec (.pmRead a l) s = .next (s.emit (.result (.bytes (memGetBytes s.mem a.toNat l.toNat)))) :=
  exec_answers rfl hi (run_memRead .app 406 a.toNat l.toNat hr)

/-- Settles O5: the check of each read passes, and what it answers is put together from whole cells. -/
theorem packetMemoryReads : Obligations.PacketMemoryReads := by
  intro s hi
  refine ⟨fun a heven hr => exec_answers rfl hi (run_readHalfword .app 402 heven hr),
    fun a hr => exec_answers rfl hi (run_readByte .app 404 hr), fun a l hr => ?_⟩
  have hr : l.toNat = 0 ∨ s.mayRead a.toNat l.toNat = true := hr.imp_left (congrArg BitVec.toNat)
  rw [exec_pmRead hi hr, memGetBytes_eq_map]
  rfl

/-! ## Writes (O6) -/

theorem run_writeHalfword {s : State} (ag : Agent) (rule : Nat) {a : Nat} (v : HalfWord) (heven : a % 2 = 0)
    (hm : s.mayWrite a 2 = true) :
    (writeHalfword ag rule a v).run s = .ok () (s.setBytes a [loByte v, hiByte v]) := by
  obtain ⟨hp, ho⟩ := mayWrite_iff.mp hm
  have hc : s.halfwordFault a (s.ownFaultW a 2) = none := (halfwordFault_owned heven hp).trans ho
  rw [writeHalfword, run_andThen, run_raiseIf_none hc, andThen_ok, run_writeCell (by omega), setCell_eq_setBytes,
    show 2 * (a / 2) = a by omega]

theorem run_writeByte {s : State} (hw : Memory.wf s.mem = true) (ag : Agent) (rule : Nat) {a : Nat} (v : Byte)
    (hm : s.mayWrite a 1 = true) : (writeByte ag rule a v).run s = .ok () (s.setBytes a [v]) := by
  obtain ⟨hp, ho⟩ := mayWrite_iff.mp hm
  have hc : s.byteFault a (s.ownFaultW a 1) = none := (byteFault_owned hp).trans ho
  rw [writeByte, run_andThen, run_raiseIf_none hc, andThen_ok, run_setByte, run_writeBlock hw a [v] hp]

theorem exec_pmWrite {s : State} (hi : s.initialized = true) (hw : Memory.wf s.mem = true) {a : HalfWord}
    {d : List Byte} (hm : d.length = 0 ∨ s.mayWrite a.toNat d.length = true) :
    exec (.pmWrite a d) s = .next (s.setBytes a.toNat d) := by
  rw [exec_admitted rfl (admitInit_none hi), run_memWrite hw .app 407 a.toNat d hm]
  rfl

/-- Clearing cells is the block write of zeros (R407, R408). -/
theorem clearCells_eq_writeCells (count k : Nat) :
    clearCells count k = writeCells k (List.replicate (2 * count) 0) := by
  induction count generalizing k with
  | zero => rfl
  | succ c ih =>
    rw [clearCells, ih (k + 1)]
    rfl

theorem run_pmClear {s : State} (hw : Memory.wf s.mem = true) (heven : s.params.pmSize % 2 = 0) (ag : Agent)
    (rule : Nat) (ho : s.ownFaultW 0 s.params.pmSize = none) :
    (pmClear ag rule s.context).run s = .ok () (s.setBytes 0 (List.replicate s.params.pmSize 0)) := by
  have hsize : 2 * (s.params.pmSize / 2) = s.params.pmSize := by omega
  rw [pmClear, run_andThen, run_raiseIf_none ho, andThen_ok, clearCells_eq_writeCells, context_params, hsize,
    run_writeCells hw 0 _ (by simp)]

/-- An address that no pair lists reads as the unlisted byte (log 6). -/
theorem memGet_unlisted {m : List Host.Cell} {x : Nat} (h : ∀ c ∈ m, c.1 ≠ x) : memGet m x = unlistedByte := by
  induction m with
  | nil => rfl
  | cons c m ih =>
    obtain ⟨hne, htail⟩ := List.forall_mem_cons.mp h
    rw [memGet, if_neg (Ne.symm hne), ih htail]

/-- Zeros stored over the whole of packet memory leave no byte but 0 (R408). -/
theorem byte_cleared {s : State} (h : s.MemOk) (x : Nat) :
    (s.setBytes 0 (List.replicate s.params.pmSize 0)).byte x = 0 := by
  obtain ⟨hw, hlisted⟩ := h
  rw [byte_setBytes hw]
  split
  · rename_i hx
    exact List.getD_replicate 0 (by simpa using hx)
  · rename_i hx
    have hx : s.params.pmSize ≤ x := by simpa using hx
    exact memGet_unlisted fun c hc => Nat.ne_of_lt (Nat.lt_of_lt_of_le (hlisted c hc) hx)

/-- Settles O6: each write is a block write, PM_CLEAR one of zeros over the whole memory. -/
theorem packetMemoryWrites : Obligations.PacketMemoryWrites := by
  intro s hi hok heven
  have admitted := admitInit_none hi
  refine ⟨fun a v ha hm => ?_, fun a v hm => ?_, fun a d hm => ?_, fun hm => ?_⟩
  · rw [exec_admitted rfl admitted, run_writeHalfword .app 403 v ha hm]
    rfl
  · rw [exec_admitted rfl admitted, run_writeByte hok.1 .app 405 v hm]
    rfl
  · exact exec_pmWrite hi hok.1 (hm.imp_left (congrArg List.length))
  · refine ⟨s.setBytes 0 (List.replicate s.params.pmSize 0), ?_, rfl, byte_cleared hok⟩
    have he : exec .pmClear s = perform (fun _ => command State.admitInit (pmClear .app 408 s.context)) s := rfl
    rw [exec_admitted he admitted, run_pmClear hok.1 heven .app 408 (mayWrite_iff.mp hm).2]
    rfl

/-! ## Buffer-descriptor table (O7) -/

/-- Where a BDT field stands, the low three bits of BTABLE dropped (R409). -/
theorem bdtAddr_eq_div (s : State) (n : EpNum) (f : BdtField) :
    s.bdtAddr n f = 8 * (s.btable.toNat / 8) + 8 * n.val + 2 * f.code.toNat := by
  have := s.btable.isLt
  rw [State.bdtAddr, BitVec.extractLsb'_toNat, Nat.shiftRight_eq_div_pow]
  omega

/-- The hardware owns a field of a side that is armed while attached (R242, R411). -/
theorem bdtOwned_iff {s : State} {n : EpNum} {f : BdtField} : s.bdtOwned n f = true ↔
    s.attached = true ∧
      ((f = .addrTx ∨ f = .countTx) ∧ s.statTx n = .valid
        ∨ (f = .addrRx ∨ f = .countRx) ∧ s.statRx n = .valid) := by
  cases f <;> simp [State.bdtOwned]

theorem run_bdtRead_range {s : State} (ag : Agent) (rule : Nat) (n : EpNum) (f : BdtField)
    (hp : s.params.pmSize ≤ s.bdtAddr n f + 1) :
    (bdtRead ag rule n f).run s = .stop (s.raise (.pmRange (s.bdtAddr n f)) ag rule) := by
  rw [bdtRead, run_andThen, run_raiseIf_some (if_pos hp), andThen_stop]

theorem run_bdtWrite_range {s : State} (ag : Agent) (rule : Nat) (n : EpNum) (f : BdtField) (v : HalfWord)
    (hp : s.params.pmSize ≤ s.bdtAddr n f + 1) :
    (bdtWrite ag rule n f v).run s = .stop (s.raise (.pmRange (s.bdtAddr n f)) ag rule) := by
  rw [bdtWrite, run_andThen, run_raiseIf_some (if_pos hp), andThen_stop]

theorem exec_bdtWrite {s : State} (hi : s.initialized = true) {n : EpNum} (hn : n ≠ 0) (f : BdtField) (v : HalfWord) :
    exec (.bdtWrite n f v) s = ((bdtWrite .app 411 n f v).run s).toOutcome :=
  exec_admitted rfl (by simp [State.admitBdtWrite, hi, hn])

/-- Settles O7: a check of range, for a write then of ownership, and one access to the field's cell. -/
theorem bdtReadWrite : Obligations.BdtReadWrite := by
  intro s n f hi
  dsimp only
  rw [← bdtAddr_eq_div, ← bdtOwned_iff]
  refine ⟨fun hp => ⟨?_, fun v hn => ⟨fun ho => ?_, fun ho => ?_⟩⟩, fun hp => ⟨?_, fun v hn => ?_⟩⟩
  · rw [← cell_half (by have := bdtAddr_even s n f; omega)]
    exact exec_answers rfl hi (run_bdtRead .app 410 n f hp)
  · rw [exec_bdtWrite hi hn, run_bdtWrite .app 411 n f v hp (Bool.eq_false_of_not_eq_true ho)]
    rfl
  · rw [exec_bdtWrite hi hn, run_bdtWrite_owned .app 411 n f v hp ho]
    rfl
  · rw [exec_admitted rfl (admitInit_none hi), giveResult, run_bind, run_bdtRead_range .app 410 n f hp]
    rfl
  · rw [exec_bdtWrite hi hn, run_bdtWrite_range .app 411 n f v hp]
    rfl

/-! ## The round trip (O10) -/

/-- A store arms no endpoint and moves no buffer (R242). -/
theorem mayRead_setBytes (s : State) (a : Nat) (d : List Byte) (b l : Nat) :
    (s.setBytes a d).mayRead b l = s.mayRead b l := rfl

/-- Settles O10: the bytes stored are the bytes read back, and a store changes no ownership. -/
theorem writeReadRoundTrip : Obligations.WriteReadRoundTrip := by
  intro s a l d hi hw hlen hp howned hread
  have hwrite : s.mayWrite a.toNat d.length = true := by simp [State.mayWrite, hlen, hp, howned]
  have hreadable : (s.setBytes a.toNat d).mayRead a.toNat l.toNat = true := by
    rw [mayRead_setBytes]
    simp [State.mayRead, hp, hread]
  refine ⟨s.setBytes a.toNat d, exec_pmWrite hi hw (.inr hwrite), ?_, fun x hx => ?_⟩
  · rw [exec_pmRead (s := s.setBytes a.toNat d) hi (.inr hreadable), ← hlen, setBytes_mem,
      memGetBytes_memSetBytes hw]
  · rw [byte_setBytes hw, if_neg (by omega)]

/-! ## The receive-count codes (O11) -/

/-- Bits 14:10 of a count field (R413). -/
theorem blocks_toNat (c : HalfWord) : (c.extractLsb' 10 5).toNat = c.toNat / 2 ^ 10 % 32 := by
  rw [BitVec.extractLsb'_toNat, Nat.shiftRight_eq_div_pow]

theorem capacity_eq (c : HalfWord) : capacity c =
    if c.toNat / 2 ^ 15 = 0 then 2 * (c.toNat / 2 ^ 10 % 32) else 32 * (c.toNat / 2 ^ 10 % 32 + 1) := by
  have hlarge : c.getLsbD 15 = true ↔ c.toNat / 2 ^ 15 ≠ 0 := by
    have := c.isLt
    rw [BitVec.getLsbD, Nat.testBit_eq_decide_div_mod_eq, decide_eq_true_eq]
    omega
  simp only [capacity, blocks_toNat, hlarge, ite_not]

theorem rxCount_eq (c : HalfWord) : rxCount c = c.toNat % 2 ^ 10 := by
  rw [rxCount, BitVec.extractLsb'_toNat, Nat.shiftRight_zero]

theorem withCount_toNat (c : HalfWord) {l : Nat} (hl : l < 2 ^ 10) :
    (withCount c l).toNat = c.toNat / 2 ^ 10 * 2 ^ 10 + l := by
  have := c.isLt
  rw [withCount, BitVec.toNat_append, BitVec.toNat_ofNat, Nat.mod_eq_of_lt hl,
    ← Nat.shiftLeft_add_eq_or_of_lt hl, BitVec.extractLsb'_toNat, Nat.shiftRight_eq_div_pow, Nat.shiftLeft_eq]
  omega

/-- In blocks of two bytes (R412). -/
theorem encodeRx_small_toNat {z : HalfWord} (hz : z.toNat % 2 = 0 ∧ 2 ≤ z.toNat ∧ z.toNat ≤ 62) :
    (encodeRx z).toNat = z.toNat / 2 * 2 ^ 10 := by
  rw [encodeRx, if_pos hz, BitVec.toNat_ofNat]
  omega

/-- In blocks of 32 bytes (R412). -/
theorem encodeRx_large_toNat {z : HalfWord} (hz : z.toNat % 32 = 0 ∧ 64 ≤ z.toNat ∧ z.toNat ≤ 1024) :
    (encodeRx z).toNat = 2 ^ 15 + (z.toNat / 32 - 1) * 2 ^ 10 := by
  rw [encodeRx, if_neg (by omega), if_pos hz, BitVec.toNat_ofNat]
  omega

/-- Settles O11: the codes, the capacity and the count as numbers, and arithmetic. -/
theorem receiveCountCodes : Obligations.ReceiveCountCodes := by
  refine ⟨fun z hz => ⟨encodeRx_small_toNat hz, ?_⟩, fun z hz => ⟨encodeRx_large_toNat hz, ?_⟩, capacity_eq,
    rxCount_eq, fun c l hl => ?_⟩
  · rw [capacity_eq, encodeRx_small_toNat hz]
    split <;> omega
  · rw [capacity_eq, encodeRx_large_toNat hz]
    split <;> omega
  · rw [capacity_eq, capacity_eq, rxCount_eq, withCount_toNat c hl]
    refine ⟨?_, by omega⟩
    rw [show (c.toNat / 2 ^ 10 * 2 ^ 10 + l) / 2 ^ 10 = c.toNat / 2 ^ 10 by omega,
      show (c.toNat / 2 ^ 10 * 2 ^ 10 + l) / 2 ^ 15 = c.toNat / 2 ^ 15 by omega]

end Sys2Proof.Machine

/-! # The endpoint commands (41_endpoint.md) -/

namespace Sys2Proof.Machine

/-! ## The toggle-safe write word (O16, O17) -/

/-- The fields a register comes to hold when a toggle-safe write computed from the fields `read` meets the
fields `live` (R102, R451, R468). -/
def EprFields.updated (live read : EprFields) (chg : EprChange) (clr : EprClear) : EprFields :=
  { live with
    ctrRx := live.ctrRx && !clr.ctrRx
    statRx := chg.statRx.elim live.statRx fun v => live.statRx ^^^ (read.statRx ^^^ v)
    epType := chg.epType.getD read.epType
    epKind := chg.epKind.getD read.epKind
    ctrTx := live.ctrTx && !clr.ctrTx
    statTx := chg.statTx.elim live.statTx fun v => live.statTx ^^^ (read.statTx ^^^ v)
    ea := chg.ea.getD read.ea }

theorem eprFields_toggleSafe (live read : HalfWord) (chg : EprChange) (clr : EprClear) :
    eprFields (eprSwWrite live (toggleSafeWrite read chg clr)) =
      (eprFields live).updated (eprFields read) chg clr := by
  simp only [eprSwWrite, toggleSafeWrite, eprFields_eprWord, EprFields.updated, Bool.xor_false]
  congr 1
  · cases chg.statRx <;> simp
  · cases chg.statTx <;> simp

/-- The fields a toggle-safe write is to reach, where nothing comes between its read and its write (R451). -/
def EprFields.target (f : EprFields) (chg : EprChange) (clr : EprClear) : EprFields :=
  { f with
    ctrRx := if clr.ctrRx then false else f.ctrRx
    statRx := chg.statRx.getD f.statRx
    epType := chg.epType.getD f.epType
    epKind := chg.epKind.getD f.epKind
    ctrTx := if clr.ctrTx then false else f.ctrTx
    statTx := chg.statTx.getD f.statTx
    ea := chg.ea.getD f.ea }

/-- A status toggled by its difference from the target is the target. -/
theorem xor_difference (read : BitVec 2) (target : Option (BitVec 2)) :
    (target.elim read fun v => read ^^^ (read ^^^ v)) = target.getD read := by
  cases target with
  | none => rfl
  | some v => simp

theorem and_not_eq_ite (f c : Bool) : (f && !c) = if c then false else f := by
  cases c <;> simp

theorem updated_self (f : EprFields) (chg : EprChange) (clr : EprClear) :
    f.updated f chg clr = f.target chg clr := by
  simp only [EprFields.updated, EprFields.target, xor_difference, and_not_eq_ite]

/-- Settles O16: the raced write whose live fields are those read. -/
theorem toggleSafeWriteReachesTarget : Obligations.ToggleSafeWriteReachesTarget := fun cur chg clr =>
  (eprFields_toggleSafe cur cur chg clr).trans (updated_self _ chg clr)

/-- Settles O17: the word written toggles no DTOG bit, writes 1 to every CTR flag it is to leave, and toggles a
status by what was read, so the live value stays in each field. -/
theorem toggleSafeWriteUnderRace : Obligations.ToggleSafeWriteUnderRace := by
  intro cur live chg clr
  dsimp only
  rw [eprFields_toggleSafe]
  refine ⟨rfl, rfl, rfl, fun hrx => ?_, fun htx => ?_, fun hrx => ?_, fun htx => ?_, ?_, ?_, fun w => ?_⟩
  · simp [EprFields.updated, hrx]
  · simp [EprFields.updated, htx]
  · simp [EprFields.updated, hrx]
  · simp [EprFields.updated, htx]
  · simp only [EprFields.updated]
    cases chg.statRx <;> rfl
  · simp only [EprFields.updated]
    cases chg.statTx <;> rfl
  · simp [eprSwWrite]

/-! ## Commands that are admitted -/

/-- An admitted endpoint command is the undisturbed run of its operation (R450, R733). -/
theorem exec_endpoint {i : Instr} {s : State} {n : EpNum} {p : Prog Unit} {r : Res Unit}
    (he : exec i s = ((command (State.admitEp n) p).run s).toOutcome) (ha : s.epAdmitted n = true)
    (hp : p.run s = r) : exec i s = r.toOutcome := by
  rw [he, run_command_none (admitEp_none ha), hp]

/-- An admitted endpoint command whose operation answers a value gives it in a Result event (R334). -/
theorem exec_endpoint_answers {α : Type} {i : Instr} {s t : State} {n : EpNum} {p : Prog α} {v : α → ResultValue}
    {a : α} (he : exec i s = ((command (State.admitEp n) (giveResult p v)).run s).toOutcome)
    (ha : s.epAdmitted n = true) (hp : p.run s = .ok a t) : exec i s = .next (t.emit (.result (v a))) := by
  rw [exec_endpoint he ha rfl, giveResult, run_bind, hp]
  rfl

/-- An admitted endpoint command whose operation ends in a fault gives no Result event (R700). -/
theorem exec_endpoint_stops {α : Type} {i : Instr} {s t : State} {n : EpNum} {p : Prog α} {v : α → ResultValue}
    (he : exec i s = ((command (State.admitEp n) (giveResult p v)).run s).toOutcome)
    (ha : s.epAdmitted n = true) (hp : p.run s = .stop t) : exec i s = .next t := by
  rw [exec_endpoint he ha rfl, giveResult, run_bind, hp]
  rfl

/-! ## Setters (O18, O19) -/

/-- An undisturbed toggle-safe update leaves the fields it is to reach (R452). -/
theorem run_epRmw_target (n : EpNum) (chg : EprChange) (clr : EprClear) (s : State) :
    (epRmw n chg clr).run s = .ok () (s.withEpr n fun f => f.target chg clr) := by
  rw [run_epRmw, ← eprWord_eprFields (eprSwWrite _ _), eprFields_toggleSafe, updated_self]
  rfl

theorem exec_epSetAddress {s : State} {n : EpNum} (ha : s.epAdmitted n = true) (v : BitVec 4) :
    exec (.epSetAddress n v) s = .next (s.withEpr n fun f => { f with ea := v }) :=
  exec_endpoint rfl ha (run_epRmw_target n { ea := some v } {} s)

theorem exec_epSetType {s : State} {n : EpNum} (ha : s.epAdmitted n = true) (ty : EpType) :
    exec (.epSetType n ty) s = .next (s.withEpr n fun f => { f with epType := ty.code }) :=
  exec_endpoint rfl ha (run_epRmw_target n { epType := some ty.code } {} s)

theorem exec_epSetTxStatus {s : State} {n : EpNum} (ha : s.epAdmitted n = true) (v : Stat) :
    exec (.epSetTxStatus n v) s = .next (s.withEpr n fun f => { f with statTx := v.code }) :=
  exec_endpoint rfl ha (run_epRmw_target n { statTx := some v.code } {} s)

theorem exec_epSetRxStatus {s : State} {n : EpNum} (ha : s.epAdmitted n = true) (v : Stat) :
    exec (.epSetRxStatus n v) s = .next (s.withEpr n fun f => { f with statRx := v.code }) :=
  exec_endpoint rfl ha (run_epRmw_target n { statRx := some v.code } {} s)

/-- The flag clear reads the register and so is the toggle-safe update that clears both flags (R457). -/
theorem exec_epClearCtr {s : State} {n : EpNum} (ha : s.epAdmitted n = true) :
    exec (.epClearCtr n) s = .next (s.withEpr n fun f => { f with ctrRx := false, ctrTx := false }) :=
  exec_endpoint rfl ha (run_epRmw_target n {} { ctrRx := true, ctrTx := true } s)

/-- Settles O18: each is one toggle-safe update. -/
theorem endpointSetters : Obligations.EndpointSetters := fun _ _ ha =>
  ⟨exec_epSetAddress ha, exec_epSetType ha, exec_epSetTxStatus ha, exec_epSetRxStatus ha, exec_epClearCtr ha⟩

theorem withEpr_eq_self {s : State} {n : EpNum} {g : EprFields → EprFields} (h : g (s.eprF n) = s.eprF n) :
    s.withEpr n g = s := by
  rw [State.withEpr, h, State.eprF, eprWord_eprFields, setEpr_self]

/-- A command that makes one register's fields what `g` says, and `g` of `g` the same, does nothing when it is
given again (R467). -/
theorem exec_twice {i : Instr} {n : EpNum} {g : EprFields → EprFields}
    (he : ∀ u : State, u.epAdmitted n = true → exec i u = .next (u.withEpr n g)) (hg : ∀ f, g (g f) = g f)
    {s t : State} (ha : s.epAdmitted n = true) (h : exec i s = .next t) :
    exec i t = .next t ∧ t.eprF n = g (s.eprF n) := by
  rw [he s ha, Host.Outcome.next.injEq] at h
  subst h
  have hf : (s.withEpr n g).eprF n = g (s.eprF n) := by rw [eprF_withEpr, if_pos rfl]
  refine ⟨?_, hf⟩
  rw [he (s.withEpr n g) ha, withEpr_eq_self]
  rw [hf, hg]

theorem eprSwWrite_toggleSafe (cur : HalfWord) (chg : EprChange) (clr : EprClear) :
    eprSwWrite cur (toggleSafeWrite cur chg clr) = eprWord ((eprFields cur).target chg clr) := by
  rw [← updated_self, ← eprFields_toggleSafe, eprWord_eprFields]

theorem statTx_toggleSafeWrite (cur : HalfWord) (v : BitVec 2) :
    (eprFields (toggleSafeWrite cur { statTx := some v } {})).statTx = (eprFields cur).statTx ^^^ v := by
  rw [toggleSafeWrite, eprFields_eprWord]

theorem statRx_toggleSafeWrite (cur : HalfWord) (v : BitVec 2) :
    (eprFields (toggleSafeWrite cur { statRx := some v } {})).statRx = (eprFields cur).statRx ^^^ v := by
  rw [toggleSafeWrite, eprFields_eprWord]

/-- Settles O19: a setter gives its field one value, and the delta of a status from itself is 0. -/
theorem settersIdempotent : Obligations.SettersIdempotent := by
  refine ⟨fun s t n ha => ⟨fun v h => ?_, fun v h => ?_, fun v h => ?_, fun v h => ?_⟩,
    fun cur b => ?_, fun cur v => ?_, fun cur v => ?_⟩
  · obtain ⟨hagain, hf⟩ := exec_twice (fun _ hu => exec_epSetTxStatus hu v) (fun _ => rfl) ha h
    exact ⟨hagain, by rw [State.statTx, hf, stat_ofCode_code]⟩
  · obtain ⟨hagain, hf⟩ := exec_twice (fun _ hu => exec_epSetRxStatus hu v) (fun _ => rfl) ha h
    exact ⟨hagain, by rw [State.statRx, hf, stat_ofCode_code]⟩
  · obtain ⟨hagain, hf⟩ := exec_twice (fun _ hu => exec_epSetAddress hu v) (fun _ => rfl) ha h
    exact ⟨hagain, by rw [hf]⟩
  · obtain ⟨hagain, hf⟩ := exec_twice (fun _ hu => exec_epSetType hu v) (fun _ => rfl) ha h
    exact ⟨hagain, by rw [State.epType, hf, epType_ofCode_code]⟩
  · simp only [eprSwWrite_toggleSafe, eprFields_eprWord]
    exact ⟨rfl, rfl⟩
  · dsimp only
    rw [statTx_toggleSafeWrite, eprSwWrite_toggleSafe, eprFields_eprWord]
    exact BitVec.xor_self
  · dsimp only
    rw [statRx_toggleSafeWrite, eprSwWrite_toggleSafe, eprFields_eprWord]
    exact BitVec.xor_self

/-! ## Geometries (O20) -/

theorem overlaps_eq_false {a l b k : Nat} : overlaps a l b k = false ↔
    ∀ x, a ≤ x ∧ x < a + l → ¬ (b ≤ x ∧ x < b + k) := by
  rw [overlaps, decide_eq_false_iff_not]
  refine ⟨fun h x => by omega, fun h hlt => h (max a b) ?_ ?_⟩ <;> omega

theorem geomAvoids_iff {g : Geometry} {a l : Nat} : geomAvoids g a l = true ↔
    ∀ x, inTxBuffer g x ∨ inRxBuffer g x → ¬ (a ≤ x ∧ x < a + l) := by
  simp only [geomAvoids, Bool.and_eq_true, Bool.not_eq_true', overlaps_eq_false, or_imp, forall_and]
  rfl

theorem geomsApart_iff {g o : Geometry} : geomsApart g o = true ↔
    ∀ x, inTxBuffer g x ∨ inRxBuffer g x → ¬ inTxBuffer o x ∧ ¬ inRxBuffer o x := by
  simp only [geomsApart, Bool.and_eq_true, geomAvoids_iff, imp_and, forall_and]
  rfl

theorem rxEncodable_iff {z : Nat} : rxEncodable z = true ↔
    z % 2 = 0 ∧ 2 ≤ z ∧ z ≤ 62 ∨ z % 32 = 0 ∧ 64 ≤ z ∧ z ≤ 1024 := by
  simp [rxEncodable, and_assoc]

/-- What R231 asks of a geometry that has no others beside it. -/
theorem geometryValid_alone {p : Params} {n : EpNum} {g : Geometry} : geometryValid p n [] g = true ↔
    g.txAddr.toNat % 2 = 0 ∧ g.txAddr.toNat + g.txSize.toNat ≤ p.pmSize ∧ g.txSize.toNat ≤ 1023
    ∧ g.rxAddr.toNat % 2 = 0 ∧ g.rxAddr.toNat + g.rxSize.toNat ≤ p.pmSize
    ∧ (g.rxSize.toNat % 2 = 0 ∧ 2 ≤ g.rxSize.toNat ∧ g.rxSize.toNat ≤ 62
        ∨ g.rxSize.toNat % 32 = 0 ∧ 64 ≤ g.rxSize.toNat ∧ g.rxSize.toNat ≤ 1024)
    ∧ (n = 0 → 8 ≤ g.rxSize.toNat)
    ∧ (∀ x, ¬ (inTxBuffer g x ∧ inRxBuffer g x))
    ∧ ∀ x, inTxBuffer g x ∨ inRxBuffer g x → ¬ (p.bdtBase.toNat ≤ x ∧ x < p.bdtBase.toNat + 64) := by
  have hown : overlaps g.txAddr.toNat g.txSize.toNat g.rxAddr.toNat g.rxSize.toNat = false ↔
      ∀ x, ¬ (inTxBuffer g x ∧ inRxBuffer g x) := by
    simp only [overlaps_eq_false, not_and, inTxBuffer, inRxBuffer]
  simp only [geometryValid, Bool.and_eq_true, Bool.or_eq_true, Bool.not_eq_true', decide_eq_true_eq,
    rxEncodable_iff, geomAvoids_iff, hown, List.all_nil, and_true, ne_eq, ← imp_iff_not_or]
  tauto

theorem geomOk_iff_disjoint {s : State} {n : EpNum} {g : Geometry} : s.geomOk n g = true ↔
    geometryValid s.params n [] g = true
    ∧ ∀ x, inTxBuffer g x ∨ inRxBuffer g x → ∀ m, m ≠ n → s.isBound m = true →
        ¬ inTxBuffer (s.geom m) x ∧ ¬ inRxBuffer (s.geom m) x := by
  simp only [geomOk_iff, geomsApart_iff]
  exact and_congr_right fun _ => ⟨fun h x hx m hm hb => h m hm hb x hx, fun h m hm hb x hx => h x hx m hm hb⟩

theorem isBound_of_epAdmitted {s : State} {n : EpNum} (ha : s.epAdmitted n = true) : s.isBound n = true :=
  (Bool.and_eq_true_iff.mp ha).2

theorem slot_of_isBound {s : State} {n : EpNum} (hb : s.isBound n = true) : ∃ r g ty, s.slot n = .bound r g ty := by
  rw [State.isBound] at hb
  cases h : s.slot n with
  | unbound => rw [h] at hb; cases hb
  | bound r g ty => exact ⟨r, g, ty, rfl⟩

/-- Admitted, the command has its geometry checked, and only then stored (R458, R731). -/
theorem exec_epSetBd {s : State} {n : EpNum} (ha : s.epAdmitted n = true) (g : Geometry) : exec (.epSetBd n g) s =
    ((command (fun u => if u.geomOk n g then none else some .geometry) (updating fun u => u.setGeom n g)).run
      s).toOutcome :=
  exec_endpoint rfl ha rfl

/-- Settles O20: the geometry check is the command's own; sharing no byte is what `overlaps` decides. -/
theorem setBufferDescriptor : Obligations.SetBufferDescriptor := by
  refine fun s n g => ⟨fun ha => ⟨fun hg => ?_, fun hg => ?_⟩, ?_⟩
  · obtain ⟨r, g', ty, hslot⟩ := slot_of_isBound (isBound_of_epAdmitted ha)
    refine ⟨?_, ?_, ?_⟩
    · rw [exec_epSetBd ha, run_command_none (if_pos hg)]
      rfl
    · rw [setGeom_of_slot hslot, geom_setSlot, if_pos rfl]
    · rw [setGeom_of_slot hslot, State.role, State.role, slot_setSlot, if_pos rfl, hslot]
      rfl
  · rw [exec_epSetBd ha, run_command_some (if_neg (Bool.eq_false_iff.mp hg))]
    rfl
  · rw [geomOk_iff_disjoint, geometryValid_alone]
    simp only [imp_and, forall_and]
    tauto

/-! ## Buffer-descriptor commit (O21) -/

theorem run_hook_onInit (n : EpNum) (c : Context) (s : State) : (hook n .onInit c).run s = .ok () s := by
  unfold hook
  split
  · rfl
  · rename_i r _
    cases r <;> rfl

theorem run_hook_generic {n : EpNum} {c : Context} (hr : c.role n = some .generic) (k : Hook) (s : State) :
    (hook n k c).run s = .ok () s := by
  unfold hook
  rw [hr]
  cases k <;> rfl

/-- A commit whose first write faults has written nothing (R459). -/
theorem run_commitBd_stop {s t : State} {ag : Agent} {n : EpNum} {x : Context} (hx : x.geom n = s.geom n)
    (h : (bdtWrite ag 459 n .addrTx (s.geom n).txAddr).run s = .stop t) :
    (commitBd ag n x).run s = .stop t := by
  rw [commitBd, hx, run_andThen, h, andThen_stop]

/-- With only the receive side armed the transmit fields are written before the fault (R459, R702). -/
theorem run_commitBd_rxOwned {s : State} (ag : Agent) {n : EpNum} {x : Context} (hx : x.geom n = s.geom n)
    (hp : s.bdtAddr n .addrTx + 8 ≤ s.params.pmSize) (htx : s.bdtOwned n .addrTx = false)
    (hrx : s.bdtOwned n .addrRx = true) :
    (commitBd ag n x).run s = .stop
      ((s.setBytes (s.bdtAddr n .addrTx) [loByte (s.geom n).txAddr, hiByte (s.geom n).txAddr, 0, 0]).raise
        (.pmOwnership n (s.bdtAddr n .addrRx)) ag 459) := by
  have hcount : s.bdtAddr n .countTx = s.bdtAddr n .addrTx + 2 := rfl
  have hrxAddr : s.bdtAddr n .addrRx = s.bdtAddr n .addrTx + 4 := rfl
  have hcountIn : s.bdtAddr n .countTx + 1 < s.params.pmSize := by omega
  have hrxIn : s.bdtAddr n .addrRx + 1 < s.params.pmSize := by omega
  rw [commitBd, hx, run_andThen, run_bdtWrite ag 459 n .addrTx _ (by omega) htx, andThen_ok, run_andThen,
    run_bdtWrite (s := s.setBytes _ _) ag 459 n .countTx _ hcountIn htx, andThen_ok, run_andThen,
    run_bdtWrite_owned (s := (s.setBytes _ _).setBytes _ _) ag 459 n .addrRx _ hrxIn hrx, andThen_stop]
  simp only [bdtAddr_setBytes, hcount]
  exact congrArg (fun u : State => Res.stop (u.raise (.pmOwnership n (s.bdtAddr n .addrRx)) ag 459))
    (setBytes_setBytes s (s.bdtAddr n .addrTx) [loByte (s.geom n).txAddr, hiByte (s.geom n).txAddr] [0, 0])

/-- The commands that begin with a commit end where it faults (R459, R463, R464). -/
theorem exec_commit_stop {i : Instr} {s t : State} {n : EpNum}
    (hi : i = .epInitBd n ∨ i = .epInit n ∨ i = .epReset n) (ha : s.epAdmitted n = true)
    (h : (commitBd .app n s.context).run s = .stop t) : exec i s = .next t := by
  obtain rfl | rfl | rfl := hi
  · exact exec_endpoint rfl ha h
  · refine exec_endpoint (r := .stop t) rfl ha ?_
    rw [epInit, run_andThen, h, andThen_stop]
  · refine exec_endpoint (r := .stop t) rfl ha ?_
    rw [epReset, run_andThen, h, andThen_stop]

/-- Settles O21: the four writes of a commit, then hooks that change nothing; a fault of one of them ends the rest. -/
theorem bufferDescriptorCommit : Obligations.BufferDescriptorCommit := by
  intro s n ha
  refine ⟨fun hc => ?_, fun i hi => ⟨fun hp => ?_, fun hatt hp => ⟨fun htx => ?_, fun htx hrx => ?_⟩⟩⟩
  · have hcommit := run_commitBd .app n (context_geom s n) hc
    refine ⟨exec_endpoint rfl ha hcommit, ?_, fun hr => ?_⟩
    · refine exec_endpoint (r := .ok () (s.committed n)) rfl ha ?_
      rw [epInit, run_andThen, hcommit, andThen_ok, run_hook_onInit]
    · refine exec_endpoint (r := .ok () _) rfl ha ?_
      rw [epReset, run_andThen, hcommit, andThen_ok, run_andThen, run_epRmw_target, andThen_ok,
        run_hook_generic (c := s.context) hr]
      rfl
  · exact exec_commit_stop hi ha (run_commitBd_stop rfl (run_bdtWrite_range .app 459 n .addrTx _ hp))
  · have howned : s.bdtOwned n .addrTx = true := bdtOwned_iff.mpr ⟨hatt, .inl ⟨.inl rfl, htx⟩⟩
    exact exec_commit_stop hi ha
      (run_commitBd_stop rfl (run_bdtWrite_owned .app 459 n .addrTx _ (by omega) howned))
  · have hspared : s.bdtOwned n .addrTx = false := by simp [State.bdtOwned, htx]
    have howned : s.bdtOwned n .addrRx = true := bdtOwned_iff.mpr ⟨hatt, .inr ⟨.inl rfl, hrx⟩⟩
    exact exec_commit_stop hi ha (run_commitBd_rxOwned .app rfl hp hspared howned)

/-! ## Transmit (O22) -/

theorem length_take_sendCount (s : State) (n : EpNum) (d : List Byte) :
    (d.take (s.sendCount n d)).length = s.sendCount n d := by
  simp only [List.length_take, State.sendCount]
  omega

/-- A transmit that raises nothing: payload, COUNT_TX, STAT_TX (R460). -/
theorem run_transmit {s : State} (hw : Memory.wf s.mem = true) (ag : Agent) (n : EpNum) (d : List Byte) {x : Context}
    (hx : x.geom n = s.geom n) (hc : s.canSend n d = true) :
    (transmit ag n d x).run s = .ok () (s.sent n d) := by
  simp only [State.canSend, Bool.and_eq_true, Bool.or_eq_true, decide_eq_true_eq, Bool.not_eq_true'] at hc
  obtain ⟨⟨hpayload, hp⟩, hfree⟩ := hc
  have hcnt : min d.length (s.geom n).txSize.toNat = s.sendCount n d := rfl
  rw [transmit, hx, hcnt, run_andThen,
    run_memWrite hw ag 460 _ _ (by rwa [length_take_sendCount]), andThen_ok, run_andThen,
    run_bdtWrite (s := s.setBytes _ _) ag 460 n .countTx _ hp hfree, andThen_ok, setTxStatus, run_epRmw_target]
  rfl

/-- An admitted transmit records the fault that precedes its first write, and does nothing else (R460). -/
theorem exec_epTransmit_fault {s : State} {n : EpNum} {d : List Byte} {k : FaultKind} (ha : s.epAdmitted n = true)
    (h : s.sendFault n d = some k) : exec (.epTransmit n d) s = .next (s.raise k .app 460) :=
  exec_endpoint rfl ha (run_transmit_fault .app n d rfl h)

/-- Settles O22: `sendFault` is the check of the payload, or of COUNT_TX where there is none. (`transmit` is the
operation; the theorem has its command's name.) -/
theorem epTransmit : Obligations.Transmit := by
  intro s n d ha
  refine ⟨fun hw hc => exec_endpoint rfl ha (run_transmit hw .app n d rfl hc), fun h0 hp => ?_,
    fun m x h0 hp ho => ?_, fun h0 hp hatt htx => ?_⟩ <;> refine exec_epTransmit_fault ha ?_
  · rw [State.sendFault, if_neg h0, if_pos hp]
  · rw [State.sendFault, if_neg h0, if_neg (by omega), ownFaultW_some ho]
  · have howned : s.bdtOwned n .countTx = true := bdtOwned_iff.mpr ⟨hatt, .inl ⟨.inr rfl, htx⟩⟩
    rw [State.sendFault, if_pos h0, if_neg (by omega), if_pos howned]

/-! ## Receive (O23) -/

theorem run_memRead_fault {s : State} (ag : Agent) (rule : Nat) {a l : Nat} {k : FaultKind} (hl : l ≠ 0)
    (h : s.blockFault a l (s.ownFaultR a l) = some k) :
    (memRead ag rule a l).run s = .stop (s.raise k ag rule) := by
  rw [memRead, if_neg hl, run_andThen, run_raiseIf_some h, andThen_stop]

/-- COUNT_RX[9:0], from the two bytes of the field (R303, R462). -/
theorem rxCount_cell (s : State) (n : EpNum) (f : BdtField) : rxCount (s.cell (s.bdtAddr n f / 2)) =
    (ofBytes (s.byte (s.bdtAddr n f)) (s.byte (s.bdtAddr n f + 1))).toNat % 1024 := by
  have heven := bdtAddr_even s n f
  rw [rxCount_eq, cell_half (by omega)]
  rfl

/-- What `receive` makes of its payload read: the bytes answered and reception rearmed, or the read's fault (R461). -/
theorem run_receive {s : State} (ag : Agent) {n : EpNum} (l : Nat) {x : Context} (hx : x.geom n = s.geom n)
    (hp : s.bdtAddr n .countRx + 1 < s.params.pmSize) : (receive ag n l x).run s =
    ((memRead ag 461 (s.geom n).rxAddr.toNat (min l (rxCount (s.cell (s.bdtAddr n .countRx / 2))))).run s).bind
      fun out t => .ok out (t.rearmed n) := by
  rw [receive, hx, run_bind, run_bdtRead ag 461 n .countRx hp, bind_ok, run_bind]
  simp only [run_andThen, setRxStatus, run_epRmw_target, andThen_ok, run_ret]
  rfl

/-- The first byte of a range is the first owned one where an endpoint owns it (R401). -/
theorem firstOwnedR_start {s : State} {n : EpNum} {a k : Nat} (hatt : s.attached = true) (hk : k ≠ 0)
    (hb : s.isBound n = true) (ho : s.rxBufOwns n a = true) : ∃ m, s.firstOwnedR a k = some (m, a) := by
  have hsome : (s.ownerR a).isSome = true := find_allEps_isSome.mpr ⟨n, by simp [hb, ho]⟩
  obtain ⟨m, hm⟩ := Option.isSome_iff_exists.mp hsome
  obtain ⟨k, rfl⟩ := Nat.exists_eq_succ_of_ne_zero hk
  exact ⟨m, by simp [State.firstOwnedR, hatt, List.range_succ_eq_map, hm]⟩

/-- An admitted EP_RECEIVE ends where one of its reads faults (R461). -/
theorem exec_epReceive_stop {s t : State} {n : EpNum} {l : HalfWord} (ha : s.epAdmitted n = true)
    (h : (receive .app n l.toNat s.context).run s = .stop t) : exec (.epReceive n l) s = .next t :=
  exec_endpoint_stops rfl ha h

/-- Settles O23: COUNT_RX is read, then the payload, and reception is rearmed unless one of the reads faults.
(`receive` is the operation; the theorem has its command's name.) -/
theorem epReceive : Obligations.Receive := by
  intro s n ha
  dsimp only
  rw [← rxCount_cell]
  refine ⟨fun hp => ⟨?_, fun l => ?_⟩, fun hp => ⟨?_, fun l => ⟨fun hr => ?_, fun hk hrange => ?_,
    fun hk hin => ⟨fun m x ho => ?_, fun hatt hrx hsize => ?_⟩⟩⟩⟩
  · exact exec_endpoint_stops rfl ha (run_bdtRead_range .app 462 n .countRx hp)
  · refine exec_epReceive_stop ha ?_
    rw [receive, run_bind, run_bdtRead_range .app 461 n .countRx hp, bind_stop]
  · exact exec_endpoint_answers (v := fun v => .u16 (BitVec.ofNat 16 (rxCount v))) rfl ha
      (run_bdtRead .app 462 n .countRx hp)
  · refine exec_endpoint_answers (p := receive .app n l.toNat s.context) rfl ha ?_
    rw [run_receive .app l.toNat (context_geom s n) hp, run_memRead .app 461 _ _ hr, bind_ok, memGetBytes_eq_map]
    rfl
  · refine exec_epReceive_stop ha ?_
    rw [run_receive .app l.toNat (context_geom s n) hp, run_memRead_fault .app 461 hk (blockFault_range hrange),
      bind_stop]
  · refine exec_epReceive_stop ha ?_
    rw [run_receive .app l.toNat (context_geom s n) hp,
      run_memRead_fault .app 461 hk ((blockFault_owned hin).trans (ownFaultR_some ho)), bind_stop]
  · have hpos : (s.geom n).rxSize.toNat ≠ 0 := fun h0 => hsize (BitVec.eq_of_toNat_eq h0)
    exact firstOwnedR_start hatt hk (isBound_of_epAdmitted ha) (rxBufOwns_iff.mpr ⟨hrx, le_rfl, by omega⟩)

/-! ## Rows that do nothing (O38) -/

/-- Settles O38: the rows of R465, R501 and R515 have no statements. -/
theorem noEffectRows : Obligations.NoEffectRows := fun _ =>
  ⟨rfl, rfl, rfl, rfl, rfl, rfl, fun _ _ => rfl⟩

end Sys2Proof.Machine

/-! # The control role's cursor (R524) -/

namespace Sys2Proof.Machine

/-! ## Changes that leave the role's stage and cursor alone -/

theorem cursorLive_kept {l : Part} (hl : l ≠ .cursor) : l.Keeps State.CursorLive := fun s t hc hs => by
  unfold State.CursorLive
  rwa [hc.frame.cursor (by simpa using hl)]

theorem cursorOk_kept {l : Part} (hstage : l ≠ .stage) (hcursor : l ≠ .cursor) : l.Keeps State.CursorOk :=
  fun s t hc hs => by
    unfold State.CursorOk
    rwa [hc.frame.cursor (by simpa using hcursor), hc.frame.stage (by simpa using hstage)]

/-- A cursor is only set in a stage other than None where the request asks for data (R505, R511). -/
def State.CursorStaged (r : Request) (s : State) : Prop := s.CursorOk ∧ (r.wLength ≠ 0 → s.stage ≠ .none)

theorem cursorStaged_kept {r : Request} {l : Part} (hstage : l ≠ .stage) (hcursor : l ≠ .cursor) :
    l.Keeps (State.CursorStaged r) := fun s t hc ⟨hok, hstaged⟩ =>
  ⟨cursorOk_kept hstage hcursor s t hc hok, by rwa [hc.frame.stage (by simpa using hstage)]⟩

theorem noCursor_kept {l : Part} (hl : l ≠ .cursor) : l.Keeps fun s => s.cursor = none := fun _ _ hc hs =>
  (hc.frame.cursor (by simpa using hl)).trans hs

theorem cursorLive_of_none {s : State} (h : s.cursor = none) : s.CursorLive := fun c hc => by simp [h] at hc

theorem cursorOk_of_none {s : State} (h : s.cursor = none) : s.CursorOk := fun c hc => by simp [h] at hc

section
variable {P : State → Prop} (hP : ∀ l : Part, l ≠ .stage → l ≠ .cursor → l.Keeps P)
include hP

theorem Prog.Does.keeps {α : Type} {p : Prog α} {L : List Part} (h : p.Does L)
    (hstage : .stage ∉ L := by simp) (hcursor : .cursor ∉ L := by simp) : p.Keeps P :=
  h P fun l hl => hP l (fun e => hstage (e ▸ hl)) fun e => hcursor (e ▸ hl)

/-! ## Statements that move the cursor -/

theorem keeps_controlOnReset (hclear : ∀ s, P (clearRole s)) : doControlOnReset.Keeps P :=
  keeps_andThen ((does_epRmw _ _ _).keeps hP) <| keeps_andThen ((does_epRmw _ _ _).keeps hP) <|
    keeps_andThen ((does_epRmw _ _ _).keeps hP) (keeps_updating fun s _ => hclear s)

/-- A chunk is sent, and then the cursor moves on (R518). -/
theorem keeps_chunk (hadvance : ∀ s, P s → P (advanceCursor s)) (d : List Byte) (c : Context) :
    ((transmit0 d c).andThen (updating advanceCursor)).Keeps P :=
  keeps_andThen ((does_transmit _ _ _ _).keeps hP) (keeps_updating hadvance)

/-- Only a first packet that ends neither the descriptor nor the request leaves a cursor (R511). -/
theorem keeps_getDescriptor {r : Request} (c : Context)
    (hfirst : ∀ s k, k.off.toNat < k.len.toNat → r.wLength ≠ 0 → P s → P { s with cursor := some k }) :
    (doGetDescriptor r c).Keeps P := by
  have emit (s : State) (e : Event) (hs : P s) : P (s.emit e) := hP .record nofun nofun _ _ (.emit s e) hs
  unfold doGetDescriptor
  split
  · exact keeps_updating fun s hs => emit s _ hs
  · rename_i d _
    refine keeps_andThen (keeps_updating fun s hs => emit _ _ (emit s _ hs)) <|
      keeps_andThen ((does_transmit _ _ _ _).keeps hP) <| keeps_updating fun s hs => ?_
    unfold afterFirstPacket
    split
    · rename_i h
      obtain ⟨hlen, hreq⟩ := h
      have hoff : (min (min r.wLength.toNat (descLen d).toNat) c.txSize0) < 2 ^ 16 := hlen.trans (descLen d).isLt
      refine hfirst s _ ?_ ?_ hs
      · rwa [BitVec.toNat_ofNat, Nat.mod_eq_of_lt hoff]
      · intro h0
        simp [h0] at hreq
    · exact emit s _ hs

theorem keeps_runRequest {q : RequestName} {r : Request} (c : Context)
    (hfirst : ∀ s k, k.off.toNat < k.len.toNat → r.wLength ≠ 0 → P s → P { s with cursor := some k }) :
    (runRequest q r c).Keeps P := by
  cases q with
  | getDescriptor => exact keeps_getDescriptor hP c hfirst
  | setAddress => exact (does_setAddress r c).keeps hP
  | setConfiguration => exact (does_setConfiguration c).keeps hP
  | unrecognised b => exact trivial
  | getStatus | clearFeature | setFeature | setDescriptor | getConfiguration =>
    exact (does_transmit _ _ _ _).keeps hP

end

theorem discardCursor_cursor (s : State) : (discardCursor s).cursor = none := by
  unfold discardCursor
  split
  · assumption
  · rfl

theorem establishStage_cursor (r : Request) (s : State) : (establishStage r s).cursor = s.cursor := by
  unfold establishStage
  split <;> rfl

theorem establishStage_ne_none {r : Request} (h : r.wLength ≠ 0) (s : State) : (establishStage r s).stage ≠ .none := by
  rw [establishStage, if_neg h]
  dsimp only
  split <;> nofun

theorem advanceCursor_stage (s : State) : (advanceCursor s).stage = s.stage := by
  unfold advanceCursor
  split
  · rfl
  · dsimp only
    split <;> rfl

/-- A cursor that a chunk leaves was there before it and has bytes left to send (R518). -/
theorem advanceCursor_cursor {s : State} {c : Cursor} (h : (advanceCursor s).cursor = some c) :
    s.cursor ≠ none ∧ c.off.toNat < c.len.toNat := by
  unfold advanceCursor at h
  split at h
  · rename_i hnone
    simp [hnone] at h
  · rename_i c' hsome
    dsimp only at h
    split at h
    · cases h
    · cases h
      exact ⟨by simp [hsome], Nat.lt_of_not_le ‹_›⟩

theorem cursorLive_advanceCursor (s : State) : (advanceCursor s).CursorLive := fun _ hc =>
  (advanceCursor_cursor hc).2

theorem cursorOk_advanceCursor {s : State} (h : s.CursorOk) : (advanceCursor s).CursorOk := fun c hc => by
  obtain ⟨hsome, hlt⟩ := advanceCursor_cursor hc
  obtain ⟨c', hc'⟩ := Option.ne_none_iff_exists'.mp hsome
  rw [advanceCursor_stage]
  exact ⟨hlt, (h c' hc').2⟩

/-! ## The control hooks, statement by statement -/

theorem keeps_cursorLive_getDescriptor (r : Request) (c : Context) : (doGetDescriptor r c).Keeps State.CursorLive :=
  keeps_getDescriptor (fun _ _ => cursorLive_kept) c fun _ k hk _ _ c hc => by cases hc; exact hk

theorem keeps_cursorLive_dataStageIn (c : Context) : (dataStageIn c).Keeps State.CursorLive := by
  intro v
  dsimp only
  split
  · exact keeps_chunk (fun _ _ => cursorLive_kept) (fun s _ => cursorLive_advanceCursor s) _ _
  · exact keeps_andThen (keeps_updating fun _ hs => hs) (does_statusStage.keeps fun _ _ => cursorLive_kept)

theorem keeps_cursorLive_hook (k : Hook) (c : Context) : (runHook .control k c).Keeps State.CursorLive := by
  have other {α : Type} {p : Prog α} {L : List Part} (h : p.Does L) (hstage : .stage ∉ L := by simp)
      (hcursor : .cursor ∉ L := by simp) : p.Keeps State.CursorLive :=
    h.keeps (fun _ _ => cursorLive_kept) hstage hcursor
  have rearm : rearmRx.Keeps State.CursorLive := other (does_epRmw _ _ _)
  cases k with
  | onInit => exact trivial
  | onReset =>
    exact keeps_controlOnReset (fun _ _ => cursorLive_kept) fun s => cursorLive_of_none (discardCursor_cursor _)
  | onSetupReceptionComplete =>
    refine keeps_andThen (keeps_updating fun s _ => cursorLive_of_none (discardCursor_cursor _)) <|
      keeps_bind (other (does_memRead _ _ _ _)) fun bs =>
      keeps_andThen (keeps_updating fun s hs c hc => hs c (establishStage_cursor _ s ▸ hc)) <|
      keeps_andThen (keeps_runRequest (fun _ _ => cursorLive_kept) c ?_) rearm
    intro _ k hk _ _ c hc
    cases hc
    exact hk
  | onReceptionComplete =>
    refine keeps_andThen (fun v => ?_) rearm
    dsimp only
    split
    · exact keeps_cursorLive_dataStageIn c
    · exact trivial
    · exact other does_statusStage
  | onTransmissionComplete =>
    intro v
    dsimp only
    split
    · exact keeps_cursorLive_dataStageIn c
    · split
      · exact other does_statusStage
      · exact trivial
    · exact trivial

/-! ## The control hooks, run undisturbed -/

/-- Run undisturbed, the operation keeps `P`. -/
def Prog.RunKeeps {α : Type} (P : State → Prop) (p : Prog α) : Prop := ∀ s, P s → P (p.run s).state

theorem Prog.Keeps.runKeeps {α : Type} {P : State → Prop} {p : Prog α} (h : p.Keeps P) : p.RunKeeps P :=
  fun _ hs => keeps_run h hs

theorem runKeeps_andThen {P : State → Prop} {p q : Prog Unit} (hp : p.RunKeeps P) (hq : q.RunKeeps P) :
    (p.andThen q).RunKeeps P := fun s hs => by
  have ran := hp s hs
  rw [Prog.andThen, run_bind]
  exact state_bind ran fun a t ht => hq t (by rwa [ht] at ran)

theorem runKeeps_look {P : State → Prop} {k : RoleView → Prog Unit} (hk : ∀ v, (k v).RunKeeps P) :
    (Prog.look k).RunKeeps P := fun s hs => hk s.roleView s hs

/-- Without a pending descriptor the data stage collapses, and then no cursor stands in stage None (R518, R523). -/
theorem runKeeps_cursorOk_dataStageIn (c : Context) : (dataStageIn c).RunKeeps State.CursorOk := by
  intro s hs
  rw [dataStageIn, run_look]
  dsimp only [State.roleView]
  cases hc : s.cursor with
  | some k => exact keeps_run (keeps_chunk (fun _ => cursorOk_kept) (fun _ => cursorOk_advanceCursor) _ _) hs
  | none =>
    dsimp only
    rw [run_andThen, run_updating, andThen_ok]
    exact keeps_run (does_statusStage.keeps fun _ => cursorOk_kept) (cursorOk_of_none hc)

/-- The stage is established before the request sets a cursor (R503, R505). -/
theorem runKeeps_cursorOk_setup (c : Context) : (doControlOnSetup c).RunKeeps State.CursorOk := by
  intro s _
  have hread : ((memRead .core 503 (c.geom 0).rxAddr.toNat 8).run
      (discardCursor { s with stage := .none, remaining := 0 })).state.cursor = none :=
    keeps_run ((does_memRead _ _ _ _).keeps fun _ _ => noCursor_kept) (discardCursor_cursor _)
  rw [doControlOnSetup, run_andThen, run_updating, andThen_ok, run_bind]
  refine state_bind (cursorOk_of_none hread) fun bs u hu => ?_
  rw [hu] at hread
  rw [run_andThen, run_updating, andThen_ok]
  have staged : (establishStage (SetupPacket.ofBytes bs).request u).CursorStaged (SetupPacket.ofBytes bs).request :=
    ⟨cursorOk_of_none ((establishStage_cursor _ u).trans hread), fun h => establishStage_ne_none h u⟩
  refine (keeps_run (keeps_andThen (keeps_runRequest (fun _ => cursorStaged_kept) c ?_)
    ((does_epRmw _ _ _).keeps fun _ => cursorStaged_kept)) staged).1
  intro v k hk hlen hv
  exact ⟨fun c hc => by cases hc; exact ⟨hk, hv.2 hlen⟩, hv.2⟩

theorem runKeeps_cursorOk_hook (k : Hook) (c : Context) : (runHook .control k c).RunKeeps State.CursorOk := by
  have status : statusStage.RunKeeps State.CursorOk := (does_statusStage.keeps fun _ => cursorOk_kept).runKeeps
  have nothing : (Prog.ret ()).RunKeeps State.CursorOk := fun _ hs => hs
  cases k with
  | onInit => exact nothing
  | onReset =>
    exact (keeps_controlOnReset (fun _ => cursorOk_kept) fun s => cursorOk_of_none (discardCursor_cursor _)).runKeeps
  | onSetupReceptionComplete => exact runKeeps_cursorOk_setup c
  | onReceptionComplete =>
    refine runKeeps_andThen (runKeeps_look fun v => ?_) ((does_epRmw _ _ _).keeps fun _ => cursorOk_kept).runKeeps
    split
    · exact runKeeps_cursorOk_dataStageIn c
    · exact nothing
    · exact status
  | onTransmissionComplete =>
    refine runKeeps_look fun v => ?_
    split
    · exact runKeeps_cursorOk_dataStageIn c
    · split
      · exact status
      · exact nothing
    · exact nothing

/-! ## Every row but GET_DESCRIPTOR -/

/-- A property of operations that the control hooks have, and every operation that leaves the role's stage and cursor
alone, and what is put together from operations that have it. -/
structure HookClosed (K : Prog Unit → Prop) : Prop where
  other : ∀ {p : Prog Unit} {L : List Part}, p.Does L → .stage ∉ L → .cursor ∉ L → K p
  hook : ∀ k c, K (runHook .control k c)
  andThen : ∀ {p q : Prog Unit}, K p → K q → K (p.andThen q)
  reading : ∀ {f : State → HalfWord} {q : HalfWord → Prog Unit}, (∀ w, K (q w)) → K ((reading f).bind q)

section
variable {K : Prog Unit → Prop} (h : HookClosed K)
include h

theorem HookClosed.ret : K (.ret ()) := h.other (does_ret () []) nofun nofun

/-- A hook called on any slot (R466). -/
theorem HookClosed.called (n : EpNum) (k : Hook) (c : Context) : K (Machine.hook n k c) := by
  unfold Machine.hook
  split
  · exact h.ret
  · rename_i r _
    cases r with
    | generic => exact h.other (does_runHook .generic k c) nofun nofun
    | control => exact h.hook k c

theorem HookClosed.servedHook (k : Hook) (c : Context) : K (Machine.servedHook (fun n c => Machine.hook n k c) c) := by
  unfold Machine.servedHook
  split
  · exact h.ret
  · exact h.called _ k c

theorem HookClosed.epReset (ag : Agent) (c : Context) (n : EpNum) : K (Machine.epReset ag c n) :=
  h.andThen (h.other (does_commitBd _ _ _) (by simp) (by simp)) <|
    h.andThen (h.other (does_epRmw _ _ _) (by simp) (by simp)) (h.called _ _ _)

theorem HookClosed.forBound {f : EpNum → Prog Unit} (hf : ∀ n, K (f n)) (c : Context) (ns : List EpNum) :
    K (Machine.forBound f c ns) := by
  induction ns with
  | nil => exact h.ret
  | cons n ns ih =>
    unfold Machine.forBound
    split
    · exact h.andThen (hf n) ih
    · exact ih

theorem HookClosed.irqReset (c : Context) : K (doIrqReset c) :=
  h.andThen (h.other (does_writing fun u => .daddr u _) (by simp) (by simp)) <|
    h.andThen (h.forBound (h.epReset .core c) c allEps) <|
    h.other (does_updating_two (fun u => .emit u .cbReset) fun u => .status _ .default nofun) (by simp) (by simp)

theorem HookClosed.irqCtr (w : HalfWord) (c : Context) : K (doIrqCtr w c) := by
  refine h.reading fun snap => ?_
  have clear : K (clearCtr (epIdOf w) snap) := h.other (does_clearCtr _ _) (by simp) (by simp)
  split
  · refine h.andThen (h.other (does_updating fun u => .snapshot u snap) (by simp) (by simp)) <|
      h.andThen clear <| h.andThen ?_ ?_
    · split
      · exact h.called _ _ _
      · split
        · exact h.called _ _ _
        · exact h.ret
    · split
      · exact h.called _ _ _
      · exact h.ret
  · exact clear

theorem HookClosed.program {i : Instr} (s : State) (hb : bindsSlot i = false) (hi : ∀ r, i ≠ .getDescriptor r) :
    K (Machine.program i s.context) := by
  cases i with
  | getDescriptor r => exact absurd rfl (hi r)
  | epSetBd | dcSetEndpoint => cases hb
  | epReset n => exact h.andThen (h.other (does_refuseIf _) (by simp) (by simp)) (h.epReset _ _ _)
  | controlOnReset => exact h.hook .onReset s.context
  | controlOnSetupReceptionComplete => exact h.hook .onSetupReceptionComplete _
  | controlOnReceptionComplete => exact h.hook .onReceptionComplete _
  | controlOnTransmissionComplete => exact h.hook .onTransmissionComplete _
  | ctrSetup => exact h.servedHook .onSetupReceptionComplete _
  | ctrReception => exact h.servedHook .onReceptionComplete _
  | ctrTransmission => exact h.servedHook .onTransmissionComplete _
  | irqReset => exact h.irqReset _
  | irqCtr w => exact h.irqCtr w _
  | _ =>
    exact h.other (does_program _ s hb) (by simp [State.parts, mem_tokenParts]) (by simp [State.parts, mem_tokenParts])

end

theorem hookClosed_keeps_cursorLive : HookClosed (Prog.Keeps State.CursorLive) where
  other h hstage hcursor := h.keeps (fun _ _ => cursorLive_kept) hstage hcursor
  hook := keeps_cursorLive_hook
  andThen := keeps_andThen
  reading h := keeps_bind (keeps_reading _) h

theorem hookClosed_runKeeps_cursorOk : HookClosed (Prog.RunKeeps State.CursorOk) where
  other h hstage hcursor := (h.keeps (fun _ => cursorOk_kept) hstage hcursor).runKeeps
  hook := runKeeps_cursorOk_hook
  andThen := runKeeps_andThen
  reading h s hs := h _ s hs

/-! ## One instruction -/

theorem role_notMem_parts {i : Instr} (s : State) (h : isBusRow i = true ∨ bindsSlot i = true) :
    .stage ∉ s.parts i ∧ .cursor ∉ s.parts i := by
  cases i with
  | busReset | busSetup | busOut | busIn | busSuspend | busResume | epSetBd | dcSetEndpoint =>
    simp [State.parts, mem_tokenParts]
  | _ => simp [isBusRow, bindsSlot] at h

theorem isBusRow_toInstr (e : BusEvent) : isBusRow e.toInstr = true := by cases e <;> rfl

section
variable {P : State → Prop} (hP : ∀ l : Part, l ≠ .stage → l ≠ .cursor → l.Keeps P)
include hP

/-- The bus and the two commands that bind a slot leave the control role alone. -/
theorem keeps_outside_role {i : Instr} {s : State} (h : isBusRow i = true ∨ bindsSlot i = true) :
    ∀ l ∈ s.parts i, l.Keeps P := fun l hl =>
  hP l (fun e => (role_notMem_parts s h).1 (e ▸ hl)) fun e => (role_notMem_parts s h).2 (e ▸ hl)

/-- What an instruction keeps is what its statements keep, those of the bus and of a binding apart. -/
theorem exec_keeps_of_run {i : Instr} {s t : State}
    (hrun : bindsSlot i = false → P ((program i s.context).run s).state) (h : exec i s = .next t) (hs : P s) : P t := by
  obtain ⟨e, rfl, rfl⟩ | ⟨rfl, hd, rfl⟩ | ⟨-, rfl⟩ := exec_cases h
  · exact keeps_busEffect e (keeps_outside_role hP (.inl (isBusRow_toInstr e))) hs
  · exact hP .entry nofun nofun _ _ (.entry s hd) hs
  · cases hb : bindsSlot i with
    | false => exact hrun hb
    | true => exact keeps_binding hb (keeps_outside_role hP (.inr hb)) hs

end

/-- Whole or by accesses, every instruction leaves a cursor with bytes left to send. -/
theorem Runs.cursorLive {i : Instr} {s t : State} (h : Runs i s t) (hs : s.CursorLive) : t.CursorLive := by
  have statements (hb : bindsSlot i = false) : (program i s.context).Keeps State.CursorLive := by
    by_cases hi : ∀ r, i ≠ .getDescriptor r
    · exact hookClosed_keeps_cursorLive.program s hb hi
    · obtain ⟨r, rfl⟩ : ∃ r, i = .getDescriptor r := by simpa using hi
      exact keeps_cursorLive_getDescriptor r _
  obtain h | ⟨had, h⟩ := h
  · exact exec_keeps_of_run (fun _ _ => cursorLive_kept) (fun hb => keeps_run (statements hb) hs) h hs
  · cases hb : bindsSlot i with
    | true => exact h.keeps (keeps_outside_role (fun _ _ => cursorLive_kept) (.inr hb)) hs
    | false =>
      have resumed := keeps_resume (statements hb) had
      obtain rfl | rfl := h
      · exact keeps_run resumed hs
      · exact keeps_advance resumed hs

theorem exec_cursorOk {i : Instr} {s t : State} (hi : ∀ r, i ≠ .getDescriptor r) (h : exec i s = .next t)
    (hs : s.CursorOk) : t.CursorOk :=
  exec_keeps_of_run (fun _ => cursorOk_kept) (fun hb => hookClosed_runKeeps_cursorOk.program s hb hi s hs) h hs

end Sys2Proof.Machine

/-! # The steps that keep the cursor (O56) -/

namespace Sys2Proof.Machine

/-! ## What a dispatch still has to run -/

/-- `R` holds of the rows a dispatch still has to run and the answers the first of them has had. -/
def State.Dispatches (R : List Instr → List Answer → Prop) (s : State) : Prop :=
  ∀ w e rest had, s.core = .dispatching w e rest had → R rest had

/-- The rows still to run are handlers (R606). -/
def OnlyHandlers (rest : List Instr) (_ : List Answer) : Prop := ∀ i ∈ rest, isHandler i = true

/-- The first row still to run has had no answer. -/
def Unanswered (_ : List Instr) (had : List Answer) : Prop := had = []

section
variable {R : List Instr → List Answer → Prop}

theorem dispatches_kept (hentry : ∀ w, R (decodeIstrd w) []) (l : Part) : l.Keeps (State.Dispatches R) := by
  intro s t hc hs w e rest had ht
  cases hc with
  | entry s hd =>
    cases ht
    exact hentry _
  | snapshot s v =>
    unfold State.setEprSnap at ht
    split at ht
    · exact hs _ _ _ _ ht
    · rename_i hcore
      cases ht
      exact hs _ _ _ _ hcore
  | store s k v => exact hs w e rest had (by simpa using ht)
  | _ => exact hs w e rest had ht

theorem dispatches_setRows {rest : List Instr} {had : List Answer} (h : R rest had) (s : State) :
    (s.setRows rest had).Dispatches R := by
  intro w e rest' had' ht
  unfold State.setRows at ht
  split at ht
  · rename_i hcore
    simp [hcore] at ht
  · cases ht
    exact h

theorem dispatches_exit (s : State) : (dispatchExit s).Dispatches R := fun _ _ _ _ h => by cases h

end

/-- The rows the interrupt entry selects are handlers (R352, R606). -/
theorem decodeIstrd_isHandler (w : HalfWord) : ∀ i ∈ decodeIstrd w, isHandler i = true := by
  unfold decodeIstrd
  split
  · simp [isHandler]
  · intro i hi
    simp only [List.mem_append, List.mem_ite_nil_right, List.mem_singleton] at hi
    obtain (⟨-, rfl⟩ | ⟨-, rfl⟩) | ⟨-, rfl⟩ := hi <;> rfl

theorem rowsOk_kept (l : Part) : l.Keeps State.RowsOk :=
  dispatches_kept (R := OnlyHandlers) decodeIstrd_isHandler l

theorem atStart_kept (l : Part) : l.Keeps State.AtStart := fun s t hc ⟨hcore, happ⟩ =>
  ⟨dispatches_kept (R := Unanswered) (fun _ => rfl) l s t hc hcore, by rwa [hc.frame.app]⟩

/-! ## CORE's step -/

/-- A whole dispatch keeps what each of its handlers keeps, and what does not depend on the rows still to run. `H`
holds of the answers that the first handler has had. -/
theorem runRows_keeps {P : State → Prop} {H : List Answer → Prop} (hnil : H [])
    (hrow : ∀ i had u v, H had → isHandler i = true → finish exec i had u = .next v → P u → P v)
    (hnext : ∀ u rest, (∀ i ∈ rest, isHandler i = true) → P u → P (u.setRows rest []))
    (hexit : ∀ u, P u → P (dispatchExit u)) {rest : List Instr} {had : List Answer} {s t : State} (hhad : H had)
    (hrest : ∀ i ∈ rest, isHandler i = true) (h : runRows exec rest had s = .next t) (hs : P s) : P t := by
  induction rest generalizing had s with
  | nil =>
    cases h
    exact hexit s hs
  | cons i is ih =>
    obtain ⟨hi, his⟩ := List.forall_mem_cons.mp hrest
    obtain ⟨u, hu, ht⟩ := thenNext_next h
    have ran : P u := hrow i had s u hhad hi hu hs
    split at ht
    · cases ht
      exact ran
    · exact ih hnil his ht (hnext u is his ran)

/-- CORE's step is the interrupt entry, then or later the whole dispatch, or one access of it (R240, R711). -/
theorem stepCore_keeps {P : State → Prop} {s t : State} (hentry : ∀ u, exec .dcIrq s = .next u → P u)
    (hwhole : ∀ u v, P u → runDispatch exec u = .next v → P v)
    (haccess : s.params.atomicDispatch = false → ∀ w e rest had, s.core = .dispatching w e rest had →
      P (advanceRows rest had s))
    (h : stepCore exec s = .next t) (hs : P s) : P t := by
  unfold stepCore at h
  split at h
  · split at h
    · obtain ⟨u, hu, ht⟩ := thenNext_next h
      exact hwhole u t (hentry u hu) ht
    · exact hentry t h
  · rename_i hcore
    split at h
    · exact hwhole s t hs (by rw [runDispatch, hcore]; exact h)
    · rename_i hat
      cases h
      exact haccess (by simpa using hat) _ _ _ _ hcore

/-! ## Every step -/

/-- The part of R524 that holds between two accesses too. -/
def State.CursorInv (s : State) : Prop := s.CursorLive ∧ s.RowsOk

theorem Runs.cursorInv {i : Instr} {s t : State} (h : Runs i s t) (hs : s.CursorInv) : t.CursorInv :=
  ⟨h.cursorLive hs.1, h.keeps (fun l _ => rowsOk_kept l) hs.2⟩

theorem cursorInv_setRows {s : State} {rest : List Instr} (had : List Answer) (hrest : ∀ i ∈ rest, isHandler i = true)
    (hs : s.CursorInv) : (s.setRows rest had).CursorInv := by
  refine ⟨?_, dispatches_setRows (R := OnlyHandlers) hrest s⟩
  rw [setRows_eq]
  exact hs.1

theorem cursorInv_exit (s : State) (hs : s.CursorInv) : (dispatchExit s).CursorInv := ⟨hs.1, dispatches_exit s⟩

theorem cursorInv_runDispatch {s t : State} (h : runDispatch exec s = .next t) (hs : s.CursorInv) : t.CursorInv := by
  unfold runDispatch at h
  split at h
  · cases h
    exact hs
  · rename_i hcore
    exact runRows_keeps (H := fun _ => True) trivial (fun _ _ _ _ _ _ hu => (finish_runs hu).cursorInv)
      (fun _ _ hrest => cursorInv_setRows [] hrest) cursorInv_exit trivial (hs.2 _ _ _ _ hcore) h hs

theorem cursorInv_advanceRows {rest : List Instr} {had : List Answer} {s : State}
    (hrest : ∀ i ∈ rest, isHandler i = true) (hs : s.CursorInv) : (advanceRows rest had s).CursorInv := by
  induction rest generalizing had s with
  | nil => exact cursorInv_exit s hs
  | cons i is ih =>
    have ran := Runs.cursorInv (i := i) (.inr ⟨had, .inr rfl⟩) hs
    unfold advanceRows
    split <;> rename_i hm <;> rw [hm] at ran
    · have his := (List.forall_mem_cons.mp hrest).2
      exact ih his (cursorInv_setRows [] his ran)
    · exact ran
    · exact cursorInv_setRows _ hrest ran

theorem cursorInv_stepApp {s t : State} (h : stepApp exec s = .next t) (hs : s.CursorInv) : t.CursorInv := by
  obtain ⟨ws, had, ls, ⟨r, rfl⟩ | ⟨i, u, a, hu, rfl⟩⟩ := stepApp_cases h
  · exact hs
  · exact hu.cursorInv hs

theorem step_cursorInv {s t : State} (hs : s.CursorInv) (h : step s = .next t) : t.CursorInv := by
  obtain ⟨-, -, a, ts, -, hstep⟩ := step_cases h
  have turned : { s with turns := ts }.CursorInv := hs
  cases a with
  | core =>
    exact stepCore_keeps (fun _ hu => Runs.cursorInv (.inl hu) turned) (fun _ _ hu hv => cursorInv_runDispatch hv hu)
      (fun _ _ _ _ _ hcore => cursorInv_advanceRows (turned.2 _ _ _ _ hcore) turned) hstep turned
  | app => exact cursorInv_stepApp hstep turned
  | bus =>
    obtain ⟨e, bs, he⟩ := stepBus_cases hstep
    exact Runs.cursorInv (.inl he) hs
  | desc => cases hstep

/-! ## Every step that is a whole dispatch or command -/

/-- R524 as it stands between two whole operations. -/
def State.WholeInv (s : State) : Prop := s.AtStart ∧ s.CursorOk ∧ s.RowsOk

theorem exec_wholeInv {i : Instr} {s t : State} (hi : ∀ r, i ≠ .getDescriptor r) (h : exec i s = .next t)
    (hs : s.WholeInv) : t.WholeInv := by
  obtain ⟨hstart, hok, hrows⟩ := hs
  exact ⟨exec_keeps h (fun l _ => atStart_kept l) hstart, exec_cursorOk hi h hok,
    exec_keeps h (fun l _ => rowsOk_kept l) hrows⟩

theorem wholeInv_runDispatch {s t : State} (h : runDispatch exec s = .next t) (hs : s.WholeInv) : t.WholeInv := by
  unfold runDispatch at h
  split at h
  · cases h
    exact hs
  · rename_i hcore
    refine runRows_keeps (P := State.WholeInv) (H := fun had => had = []) rfl ?_ ?_ ?_ (hs.1.1 _ _ _ _ hcore)
      (hs.2.2 _ _ _ _ hcore) h hs
    · rintro i had u v rfl hi hv
      exact exec_wholeInv (by rintro r rfl; cases hi) hv
    · rintro u rest hrest ⟨hstart, hok, -⟩
      refine ⟨⟨dispatches_setRows (R := Unanswered) rfl u, ?_⟩, ?_,
        dispatches_setRows (R := OnlyHandlers) hrest u⟩
      · rw [setRows_eq]
        exact hstart.2
      · rw [setRows_eq]
        exact hok
    · rintro u ⟨hstart, hok, -⟩
      exact ⟨⟨dispatches_exit (R := Unanswered) u, hstart.2⟩, hok, dispatches_exit u⟩

theorem isCommand_ne_getDescriptor {i : Instr} (h : isCommand i = true) (r : Request) : i ≠ .getDescriptor r := by
  rintro rfl
  cases h

theorem wholeInv_idle {s : State} (hs : s.WholeInv) : { s with app := .idle }.WholeInv := by
  obtain ⟨⟨hcore, -⟩, hok, hrows⟩ := hs
  exact ⟨⟨hcore, nofun⟩, hok, hrows⟩

theorem wholeInv_runCommand {ws : List HalfWord} {s t : State} (h : runCommand exec ws [] s = .next t)
    (hs : s.WholeInv) : t.WholeInv := by
  unfold runCommand at h
  split at h
  · cases h
    exact wholeInv_idle hs
  · rename_i i hd
    rw [finish, if_pos rfl] at h
    cases hu : exec i s with
    | next u =>
      rw [hu] at h
      cases h
      have ran := exec_wholeInv (isCommand_ne_getDescriptor (decodeCmd_isCommand hd)) hu hs
      unfold retire
      split
      · exact ran
      · exact wholeInv_idle ran
    | fault r => rw [hu] at h; cases h
    | refused r => rw [hu] at h; cases h

theorem wholeInv_stepApp {s t : State} (hat : s.params.atomicDispatch = true) (h : stepApp exec s = .next t)
    (hs : s.WholeInv) : t.WholeInv := by
  cases ha : s.app with
  | running ws had =>
    obtain rfl := hs.1.2 ws had ha
    rw [stepApp_atomic ha hat] at h
    exact wholeInv_runCommand h hs
  | idle =>
    cases hp : s.program with
    | nil => simp [stepApp, ha, startCommand, hp] at h
    | cons l ls =>
      cases l with
      | irq => simp [stepApp, ha, startCommand, hp] at h
      | cmd ws =>
        rw [stepApp_begins ha hp, stepApp_atomic (s := { s with app := .running ws [], program := ls }) rfl hat] at h
        obtain ⟨⟨hcore, -⟩, hok, hrows⟩ := hs
        exact wholeInv_runCommand h ⟨⟨hcore, fun _ _ hr => by cases hr; rfl⟩, hok, hrows⟩

theorem step_wholeInv {s t : State} (hat : s.params.atomicDispatch = true) (hs : s.WholeInv) (h : step s = .next t) :
    t.WholeInv := by
  obtain ⟨-, -, a, ts, -, hstep⟩ := step_cases h
  have turned : { s with turns := ts }.WholeInv := hs
  cases a with
  | core =>
    refine stepCore_keeps (fun _ hu => exec_wholeInv (i := .dcIrq) (fun _ => nofun) hu turned)
      (fun _ _ hu hv => wholeInv_runDispatch hv hu) (fun hna => ?_) hstep turned
    rw [hat] at hna
    cases hna
  | app => exact wholeInv_stepApp (s := { s with turns := ts }) hat hstep turned
  | bus =>
    obtain ⟨e, bs, he⟩ := stepBus_cases hstep
    exact exec_wholeInv (by rintro r hr; cases e <;> cases hr) he hs
  | desc => cases hstep

/-- Settles O56: every statement leaves a cursor bytes to send, and a setup reception has established the stage before
its GET_DESCRIPTOR sets one. -/
theorem cursorInvariant : Obligations.CursorInvariant :=
  ⟨fun _ _ hlive hrows h => step_cursorInv ⟨hlive, hrows⟩ h, fun _ _ _ hi hok h => exec_cursorOk hi h hok,
    fun _ _ hat hstart hok hrows h => step_wholeInv hat ⟨hstart, hok, hrows⟩ h⟩

end Sys2Proof.Machine

/-! # The control sequencer (42_control_sequencer.md) -/

namespace Sys2Proof.Machine

/-! ## Transmit on endpoint 0 -/

section
variable {s : State} {c : Context} {d : List Byte} (hx : c.geom 0 = s.geom 0)
include hx

theorem run_transmit0 (hw : Memory.wf s.mem = true) (h : s.canSend 0 d = true) :
    (transmit0 d c).run s = .ok () (s.sent 0 d) := run_transmit hw .core 0 d hx h

theorem run_transmit0_fault {k : FaultKind} (h : s.sendFault 0 d = some k) :
    (transmit0 d c).run s = .stop (s.raise k .core 460) := run_transmit_fault .core 0 d hx h

/-- A row that ends with a transmit on endpoint 0, started in `s`, where the transmit raises nothing. -/
theorem exec_sends {i : Instr} {u : State} (he : exec i u = ((transmit0 d c).run s).toOutcome)
    (hw : Memory.wf s.mem = true) (h : s.canSend 0 d = true) : exec i u = .next (s.sent 0 d) := by
  rw [he, run_transmit0 hx hw h, toOutcome_ok]

/-- A row that ends with a transmit on endpoint 0, started in `s`, where the transmit faults. -/
theorem exec_faults {i : Instr} {u : State} (he : exec i u = ((transmit0 d c).run s).toOutcome) {k : FaultKind}
    (h : s.sendFault 0 d = some k) : exec i u = .next (s.raise k .core 460) := by
  rw [he, run_transmit0_fault hx h, toOutcome_stop]

end

/-! ## The requests with a fixed response (O36) -/

/-- The first byte of a range that an endpoint owns has an owner (R401). -/
theorem ownFaultW_start {s : State} {n : EpNum} {a l : Nat} (hatt : s.attached = true) (hl : l ≠ 0)
    (hb : s.isBound n = true) (ho : s.txOwns n a = true) : ∃ m x, s.ownFaultW a l = some (.pmOwnership m x) := by
  have howner : (s.ownerW a).isSome = true := find_allEps_isSome.mpr ⟨n, by simp [hb, ho]⟩
  obtain ⟨⟨m, x⟩, hfirst⟩ := Option.isSome_iff_exists.mp
    (firstOwnedW_isSome.mpr ⟨hatt, a, le_rfl, Nat.lt_add_of_pos_right (Nat.pos_of_ne_zero hl), howner⟩)
  exact ⟨m, x, ownFaultW_some hfirst⟩

/-- On an armed endpoint every transmit faults: at its payload, or at COUNT_TX where there is none (R827, R829). -/
theorem sendFault_armed {s : State} {n : EpNum} (d : List Byte) (hatt : s.attached = true) (hb : s.isBound n = true)
    (htx : s.statTx n = .valid) (hbuf : (s.geom n).txAddr.toNat + (s.geom n).txSize.toNat ≤ s.params.pmSize)
    (hcount : s.bdtAddr n .countTx + 1 < s.params.pmSize) : ∃ m x, s.sendFault n d = some (.pmOwnership m x) := by
  unfold State.sendFault
  have hle : s.sendCount n d ≤ (s.geom n).txSize.toNat := Nat.min_le_right _ _
  split
  · have howned : s.bdtOwned n .countTx = true := bdtOwned_iff.mpr ⟨hatt, .inl ⟨.inr rfl, htx⟩⟩
    rw [if_neg (by omega), if_pos howned]
    exact ⟨_, _, rfl⟩
  · rw [if_neg (by omega)]
    exact ownFaultW_start hatt ‹_› hb (txOwns_iff.mpr ⟨htx, .inl ⟨le_rfl, by omega⟩⟩)

/-- Settles O36: each row is a transmit, after one update of SET_ADDRESS and of SET_CONFIGURATION. -/
theorem fixedResponseRequests : Obligations.FixedResponseRequests := by
  intro s r hw
  have sends {i : Instr} {d : List Byte} (he : exec i s = ((transmit0 d s.context).run s).toOutcome)
      (h : s.canSend 0 d = true) : exec i s = .next (s.sent 0 d) := exec_sends (context_geom s 0) he hw h
  have faults {i : Instr} {d : List Byte} {k : FaultKind} (he : exec i s = ((transmit0 d s.context).run s).toOutcome)
      (h : s.sendFault 0 d = some k) : exec i s = .next (s.raise k .core 460) := exec_faults (context_geom s 0) he h
  refine ⟨fun h => ⟨sends rfl h, sends rfl h, sends rfl h, ?_, ?_⟩, sends rfl, sends rfl,
    fun k h => ⟨faults rfl h, faults rfl h, faults rfl h, ?_, ?_⟩, fun _ => faults rfl, fun _ => faults rfl,
    sendFault_armed⟩
  · exact exec_sends (s := { s with deferred := r.wValue }) (context_geom s 0) rfl hw h
  · exact exec_sends (s := { s with devStatus := .configured }) (context_geom s 0) rfl hw h
  · exact exec_faults (s := { s with deferred := r.wValue }) (context_geom s 0) rfl h
  · exact exec_faults (s := { s with devStatus := .configured }) (context_geom s 0) rfl h

/-! ## GET_DESCRIPTOR (O37) -/

/-- The state after the lookup that found a descriptor (R511, R722). -/
def State.lookedUp (s : State) (r : Request) : State :=
  { s with trace := s.trace ++ [.descLookup (hiByte r.wValue) (loByte r.wValue) true, .descInit] }

theorem emit_lookup (s : State) (r : Request) :
    (s.emit (.descLookup (hiByte r.wValue) (loByte r.wValue) true)).emit .descInit = s.lookedUp r := by
  simp [State.lookedUp, State.emit]

/-- The handle of a descriptor that fits one packet is released at once (R511). -/
theorem emit_release (s : State) (r : Request) (d : List Byte) : ((s.lookedUp r).sent 0 d).emit .descDeinit =
    { s.sent 0 d with
      trace := s.trace ++ [.descLookup (hiByte r.wValue) (loByte r.wValue) true, .descInit, .descDeinit] } := by
  have htrace : ((s.lookedUp r).sent 0 d).trace ++ [.descDeinit] =
      s.trace ++ [.descLookup (hiByte r.wValue) (loByte r.wValue) true, .descInit, .descDeinit] :=
    List.append_assoc _ _ _
  rw [State.emit, htrace]
  rfl

/-- A descriptor that is found has its first packet sent from the state after the lookup (R511). -/
theorem exec_getDescriptor {s : State} {r : Request} {d : Descriptor}
    (hd : lookupDescriptor s.params (hiByte r.wValue) (loByte r.wValue) = some d) :
    let ts := min (min r.wLength.toNat (descLen d).toNat) s.txSize0
    exec (.getDescriptor r) s = (((transmit0 (d.bytes.take ts) s.context).run (s.lookedUp r)).andThen fun t =>
      .ok () (afterFirstPacket d ts r t)).toOutcome := by
  have he : exec (.getDescriptor r) s = ((doGetDescriptor r s.context).run s).toOutcome := rfl
  rw [he, doGetDescriptor, context_params, hd]
  dsimp only
  rw [run_andThen, run_updating, andThen_ok, emit_lookup, run_andThen]
  rfl

/-- Settles O37: the lookup, and then the transmit's two outcomes. -/
theorem getDescriptor : Obligations.GetDescriptor := by
  intro s r hw
  refine ⟨fun hnone => ?_, fun d hd => ⟨fun hsend => ?_, fun k hfault => ?_⟩⟩
  · have he : exec (.getDescriptor r) s = ((doGetDescriptor r s.context).run s).toOutcome := rfl
    rw [he, doGetDescriptor, context_params, hnone]
    rfl
  · rw [exec_getDescriptor hd, run_transmit0 (s := s.lookedUp r) (context_geom s 0) hw hsend, andThen_ok, toOutcome_ok,
      afterFirstPacket]
    split
    · rfl
    · rw [emit_release]
  · rw [exec_getDescriptor hd, run_transmit0_fault (s := s.lookedUp r) (context_geom s 0) hfault]
    rfl

/-! ## The control `onReset` (O39) -/

/-- A pending cursor is released, and its handle with it (R521). -/
theorem discardCursor_eq (s : State) : discardCursor s =
    { s with cursor := none, trace := s.trace ++ if s.cursor.isSome then [.descDeinit] else [] } := by
  cases hc : s.cursor <;> simp [discardCursor, hc, State.emit]
  rw [← hc]

theorem withEpr_withEpr (s : State) (n : EpNum) (g h : EprFields → EprFields) :
    (s.withEpr n g).withEpr n h = s.withEpr n fun f => h (g f) := by
  rw [State.withEpr, eprF_withEpr, if_pos rfl]
  simp [State.withEpr, State.setEpr]

/-- Settles O39: three toggle-safe updates of one register, and then the role state. -/
theorem controlReset : Obligations.ControlReset := by
  intro s
  have he : exec .controlOnReset s = (doControlOnReset.run s).toOutcome := rfl
  rw [he, doControlOnReset, setTxStatus, setRxStatus]
  simp only [run_andThen, run_epRmw_target, andThen_ok, run_updating, toOutcome_ok, withEpr_withEpr, clearRole,
    discardCursor_eq]
  rfl

/-! ## Setup reception (O40) -/

/-- Run undisturbed, the operation comes to its end with the faults as they were, or a check ends it with one more. -/
def Prog.Reports {α : Type} (p : Prog α) : Prop := ∀ s,
  (∃ a t, p.run s = .ok a t ∧ t.faults = s.faults) ∨ ∃ t, p.run s = .stop t ∧ t.faults ≠ s.faults

theorem Prog.Quiet.reports {α : Type} {p : Prog α} (h : p.Quiet fun _ => False) : p.Reports := fun s =>
  (quiet_run h s).imp_right fun ⟨_, _, hfalse⟩ => hfalse.elim

/-- Reception is rearmed after an operation unless it raised a fault (R503). -/
theorem Prog.Reports.then_rearmed {p : Prog Unit} (h : p.Reports) (s : State) :
    ((p.run s).andThen fun t => .ok () (t.rearmed 0)).toOutcome =
      .next (if (p.run s).state.faults = s.faults then (p.run s).state.rearmed 0 else (p.run s).state) := by
  obtain ⟨a, t, ht, hsame⟩ | ⟨t, ht, hmore⟩ := h s <;> rw [ht]
  · rw [state_ok, if_pos hsame]
    rfl
  · rw [state_stop, if_neg hmore]
    rfl

theorem reports_updating {f : State → State} (h : ∀ s, (f s).faults = s.faults) : (updating f).Reports :=
  (quiet_updating h).reports

theorem reports_andThen {p q : Prog Unit} (hp : p.Reports) (hq : q.Reports) : (p.andThen q).Reports := fun s => by
  rw [run_andThen]
  obtain ⟨a, t, ht, hsame⟩ | ⟨t, ht, hmore⟩ := hp s <;> rw [ht]
  · rw [andThen_ok, ← hsame]
    exact hq t
  · exact .inr ⟨t, rfl, hmore⟩

theorem reports_raiseIf (ag : Agent) (rule : Nat) (c : State → Option FaultKind) : (raiseIf ag rule c).Reports :=
  fun s => by
  cases h : c s with
  | none => exact .inl ⟨(), s, run_raiseIf_none h, rfl⟩
  | some k => exact .inr ⟨_, run_raiseIf_some h, by simp [State.raise]⟩

theorem reports_memWrite (ag : Agent) (rule a : Nat) (d : List Byte) : (memWrite ag rule a d).Reports := by
  unfold memWrite
  split
  · exact (quiet_ret ()).reports
  · exact reports_andThen (reports_raiseIf _ _ _) (quiet_writeBlock a d).reports

theorem reports_transmit (ag : Agent) (n : EpNum) (d : List Byte) (c : Context) : (transmit ag n d c).Reports :=
  reports_andThen (reports_memWrite _ _ _ _) <| reports_andThen
    (reports_andThen (reports_raiseIf _ _ _) (quiet_writing fun _ => storeCell_faults _ _ _).reports)
    (quiet_epRmw _ _ _).reports

theorem reports_getDescriptor (r : Request) (c : Context) : (doGetDescriptor r c).Reports := by
  unfold doGetDescriptor
  split
  · exact reports_updating fun _ => rfl
  · exact reports_andThen (reports_updating fun _ => rfl) <| reports_andThen (reports_transmit _ _ _ _)
      (reports_updating (faults_afterFirstPacket _ _ _))

theorem reports_runRequest (q : RequestName) (r : Request) (c : Context) : (runRequest q r c).Reports := by
  cases q with
  | getDescriptor => exact reports_getDescriptor r c
  | setAddress | setConfiguration =>
    exact reports_andThen (reports_updating fun _ => rfl) (reports_transmit _ _ _ _)
  | unrecognised b => exact (quiet_ret ()).reports
  | getStatus | clearFeature | setFeature | setDescriptor | getConfiguration => exact reports_transmit _ _ _ _

/-- A request's row is the run of its rule (R506). -/
theorem exec_request (q : RequestName) (r : Request) (s : State) :
    exec (q.toInstr r) s = ((runRequest q r s.context).run s).toOutcome := by
  cases q <;> rfl

theorem run_rearmRx (s : State) : rearmRx.run s = .ok () (s.rearmed 0) := run_epRmw_target 0 _ {} s

/-- The state in which a setup reception reads its packet: the old transfer dropped (R503). -/
def State.setupBegun (s : State) : State :=
  { s with
    stage := .none, remaining := 0, cursor := none
    trace := s.trace ++ (if s.cursor.isSome then [.descDeinit] else []) }

theorem setupBegun_eq (s : State) : discardCursor { s with stage := .none, remaining := 0 } = s.setupBegun :=
  discardCursor_eq _

/-- The stage that a packet's length and direction establish after the old transfer was dropped (R505). -/
theorem establishStage_setupBegun (k : SetupPacket) (s : State) : establishStage k.request s.setupBegun =
    { s.setupBegun with
      stage := if k.wLength = 0 then .none else if k.bmRequestType.getLsbD 7 then .dataIn else .dataOut
      remaining := k.wLength } := by
  have hlen : k.request.wLength = k.wLength := rfl
  rw [establishStage, hlen]
  split
  · rename_i h0
    rw [h0]
    rfl
  · rfl

/-- The packet's bytes in the receive buffer are what the block read answers (R406). -/
theorem memGetBytes_packet {s : State} {a : Nat} {k : SetupPacket} (h : ∀ j < 8, s.byte (a + j) = k.bytes.getD j 0) :
    memGetBytes s.mem a 8 = k.bytes := by
  rw [memGetBytes_eq_map]
  refine List.ext_getElem rfl fun j hj hk => ?_
  have hbyte := h j hk
  rw [← List.getElem_eq_getD (h := hk) 0] at hbyte
  simpa [State.byte] using hbyte

/-- A setup reception that cannot read its packet has only dropped the old transfer (R503). -/
theorem exec_setup_fault {s : State} {k : FaultKind}
    (h : s.blockFault (s.geom 0).rxAddr.toNat 8 (s.ownFaultR (s.geom 0).rxAddr.toNat 8) = some k) :
    exec .controlOnSetupReceptionComplete s = .next (s.setupBegun.raise k .core 503) := by
  have he : exec .controlOnSetupReceptionComplete s = ((doControlOnSetup s.context).run s).toOutcome := rfl
  rw [he, doControlOnSetup, run_andThen, run_updating, andThen_ok, setupBegun_eq, run_bind, context_geom,
    run_memRead_fault (s := s.setupBegun) .core 503 (by decide) h, bind_stop, toOutcome_stop]

/-- A setup reception that reads the packet `k` runs its request in the stage it establishes, and rearms reception
(R503 to R506). -/
theorem exec_setup_packet {s : State} {k : SetupPacket} (hread : s.mayRead (s.geom 0).rxAddr.toNat 8 = true)
    (hbytes : ∀ j < 8, s.byte ((s.geom 0).rxAddr.toNat + j) = k.bytes.getD j 0) :
    exec .controlOnSetupReceptionComplete s =
      (((runRequest (selectRequest s.params.reqTypeFilter k) k.request s.context).run
        (establishStage k.request s.setupBegun)).andThen fun t => .ok () (t.rearmed 0)).toOutcome := by
  have he : exec .controlOnSetupReceptionComplete s = ((doControlOnSetup s.context).run s).toOutcome := rfl
  have hpacket : (memRead .core 503 (s.geom 0).rxAddr.toNat 8).run s.setupBegun = .ok k.bytes s.setupBegun := by
    rw [run_memRead (s := s.setupBegun) .core 503 _ 8 (.inr hread), memGetBytes_packet (s := s.setupBegun) hbytes]
  rw [he, doControlOnSetup, run_andThen, run_updating, andThen_ok, setupBegun_eq, run_bind, context_geom, hpacket,
    bind_ok]
  simp only [ofBytes_bytes, run_andThen, run_updating, andThen_ok, run_rearmRx, context_params]

/-- Settles O40: the packet is read, its stage established and its request run; a fault of one of them ends the rest. -/
theorem setupReception : Obligations.SetupReception := by
  intro s
  refine ⟨fun k hread hbytes => ?_, fun hp => exec_setup_fault (blockFault_range hp), fun hp => ⟨fun m x ho => ?_, ?_⟩⟩
  · refine ⟨_, exec_request _ _ _, ?_⟩
    rw [exec_setup_packet hread hbytes, (reports_runRequest _ _ _).then_rearmed, establishStage_setupBegun]
    rfl
  · exact exec_setup_fault ((blockFault_owned hp).trans (ownFaultR_some ho))
  · intro hatt hb hrx hsize
    have hpos : (s.geom 0).rxSize.toNat ≠ 0 := fun h0 => hsize (BitVec.eq_of_toNat_eq h0)
    exact firstOwnedR_start hatt (by decide) hb (rxBufOwns_iff.mpr ⟨hrx, le_rfl, by omega⟩)

/-! ## Status stage and data stage -/

/-- The low byte of the word that enables the device at an address is the whole word (R123, R520). -/
theorem daddr_enabled (a : HalfWord) : (0x0080 ||| (a &&& 0x007F)) &&& 0x00FF = 0x0080 ||| (a &&& 0x007F) := by
  rw [BitVec.and_comm, BitVec.and_or_distrib_left, BitVec.and_comm a, ← BitVec.and_assoc]
  rfl

theorem run_statusStage (s : State) : statusStage.run s = .ok () s.statusDone := by
  rw [statusStage, run_look, State.statusDone]
  by_cases h : s.deferred = 0
  · have hview : s.roleView.deferred = 0 := h
    rw [if_pos hview, if_pos h, run_ret]
  · have hview : ¬ s.roleView.deferred = 0 := h
    rw [if_neg hview, if_neg h, run_andThen, run_writeDaddr, andThen_ok, run_updating, State.setDaddr, daddr_enabled]
    rfl

/-- With no descriptor pending the data stage collapses to the status stage (R518, R523). -/
theorem run_dataStageIn_none {s : State} (hc : s.cursor = none) (x : Context) :
    (dataStageIn x).run s = .ok () ({ s with stage := .none }).statusDone := by
  rw [dataStageIn, run_look]
  simp only [State.roleView, hc, run_andThen, run_updating, andThen_ok, run_statusStage]

theorem sent_cursor (s : State) (n : EpNum) (d : List Byte) : (s.sent n d).cursor = s.cursor := rfl

theorem sent_txSize0 (s : State) (n : EpNum) (d : List Byte) : (s.sent n d).txSize0 = s.txSize0 := rfl

section
variable {s : State} {c : Cursor} (hc : s.cursor = some c)
include hc

/-- With a descriptor pending its next chunk is sent, and then the cursor moves on (R518). -/
theorem run_dataStageIn_some : (dataStageIn s.context).run s =
    ((transmit0 (s.chunkBytes c) s.context).run s).andThen fun t => .ok () (advanceCursor t) := by
  rw [dataStageIn, run_look]
  simp only [State.roleView, hc, run_andThen, run_updating]
  rfl

/-- The offset after a chunk does not wrap round (R518). -/
theorem advanceCursor_sent (hoff : c.off.toNat < c.len.toNat) :
    advanceCursor (s.sent 0 (s.chunkBytes c)) = s.chunkSent c := by
  have hle : c.off.toNat + s.chunk c ≤ c.len.toNat := by
    have : s.chunk c ≤ c.len.toNat - c.off.toNat := Nat.min_le_right _ _
    omega
  have hadd : c.off + BitVec.ofNat 16 (s.chunk c) = BitVec.ofNat 16 (c.off.toNat + s.chunk c) := by
    rw [BitVec.ofNat_add, BitVec.ofNat_toNat, BitVec.setWidth_eq]
  have hnat : (BitVec.ofNat 16 (c.off.toNat + s.chunk c)).toNat = c.off.toNat + s.chunk c := by
    rw [BitVec.toNat_ofNat, Nat.mod_eq_of_lt (hle.trans_lt c.len.isLt)]
  have hchunk : chunkSize s.txSize0 c = s.chunk c := rfl
  simp only [advanceCursor, sent_cursor, hc, sent_txSize0, hchunk, hadd, hnat, State.chunkSent, State.emit]

theorem run_dataStageIn_sent (hw : Memory.wf s.mem = true) (hoff : c.off.toNat < c.len.toNat)
    (h : s.canSend 0 (s.chunkBytes c) = true) : (dataStageIn s.context).run s = .ok () (s.chunkSent c) := by
  rw [run_dataStageIn_some hc, run_transmit0 (context_geom s 0) hw h, andThen_ok, advanceCursor_sent hc hoff]

theorem run_dataStageIn_fault {k : FaultKind} (h : s.sendFault 0 (s.chunkBytes c) = some k) :
    (dataStageIn s.context).run s = .stop (s.raise k .core 460) := by
  rw [run_dataStageIn_some hc, run_transmit0_fault (context_geom s 0) h, andThen_stop]

end

/-! ## Reception complete (O41) -/

/-- What a completed reception on endpoint 0 does in a stage (R516). -/
def receptionStage (c : Context) : Stage → Prog Unit
  | .dataIn => dataStageIn c
  | .dataOut => dataStageOut
  | .none => statusStage

/-- A completed reception acts by the stage it finds and rearms reception (R516). -/
theorem exec_reception (s : State) : exec .controlOnReceptionComplete s =
    (((receptionStage s.context s.stage).run s).andThen fun t => .ok () (t.rearmed 0)).toOutcome := by
  have he : exec .controlOnReceptionComplete s = ((doControlOnReception s.context).run s).toOutcome := rfl
  rw [he, doControlOnReception, run_andThen, run_look]
  simp only [run_rearmRx]
  dsimp only [State.roleView]
  cases s.stage <;> rfl

/-- Settles O41: stage by stage. -/
theorem receptionComplete : Obligations.ReceptionComplete := by
  intro s hw hok
  rw [exec_reception]
  refine ⟨fun hst => ?_, fun hst => ?_, fun hst hc => ?_, fun c hst hc hsend => ?_, fun c k hst hc hfault => ?_⟩ <;>
    rw [hst, receptionStage]
  · rw [run_statusStage, andThen_ok, toOutcome_ok]
  · rfl
  · rw [run_dataStageIn_none hc, andThen_ok, toOutcome_ok]
  · rw [run_dataStageIn_sent hc hw (hok c hc).1 hsend, andThen_ok, toOutcome_ok]
  · rw [run_dataStageIn_fault hc hfault, andThen_stop, toOutcome_stop]

/-! ## Transmission complete (O42) -/

/-- What a completed transmission on endpoint 0 does in a stage (R517). -/
def transmissionStage (c : Context) : Stage → Prog Unit
  | .dataIn => dataStageIn c
  | .none => if c.params.statusOnTxNone then statusStage else .ret ()
  | .dataOut => .ret ()

/-- A completed transmission acts by the stage it finds (R517). -/
theorem exec_transmission (s : State) : exec .controlOnTransmissionComplete s =
    ((transmissionStage s.context s.stage).run s).toOutcome := by
  have he : exec .controlOnTransmissionComplete s = ((doControlOnTransmission s.context).run s).toOutcome := rfl
  rw [he, doControlOnTransmission, run_look]
  dsimp only [State.roleView]
  cases s.stage <;> rfl

/-- Settles O42: stage by stage. -/
theorem transmissionComplete : Obligations.TransmissionComplete := by
  intro s hw hok
  rw [exec_transmission]
  refine ⟨fun hst => ?_, fun hst => ?_, fun hst hc => ?_, fun c hst hc hsend => ?_, fun c k hst hc hfault => ?_⟩ <;>
    rw [hst, transmissionStage]
  · rw [context_params]
    split
    · rw [run_statusStage, toOutcome_ok]
    · rfl
  · rfl
  · rw [run_dataStageIn_none hc, toOutcome_ok]
  · rw [run_dataStageIn_sent hc hw (hok c hc).1 hsend, toOutcome_ok]
  · rw [run_dataStageIn_fault hc hfault, toOutcome_stop]

end Sys2Proof.Machine

/-! # The device controller's commands (43_device_controller.md) -/

namespace Sys2Proof.Machine

/-! ## The masks of CNTR (R121) -/

/-- Bits that the mask of a write spares may be set after it. -/
theorem or_masked (v m b : HalfWord) (hb : b &&& m = b) : (v ||| b) &&& m = (v &&& m) ||| b := by
  rw [BitVec.and_comm, BitVec.and_or_distrib_left, BitVec.and_comm m, BitVec.and_comm m, hb]

/-! ## Connect and disconnect (O25) -/

theorem connect_cntr (v : HalfWord) :
    setBits cntrMasks (clearBits cntrPdwn v &&& 0xFFBF) &&& 0xFFBF = (v &&& 0xFFBD) ||| 0x9C00 := by
  rw [setBits, clearBits, BitVec.and_assoc]
  exact or_masked _ _ _ rfl |>.trans (by rw [BitVec.and_assoc]; rfl)

theorem disconnect_cntr (v : HalfWord) :
    setBits cntrPdwn (clearBits cntrMasks v &&& 0xFFBF) &&& 0xFFBF = (v &&& 0x63BF) ||| 0x0002 := by
  rw [setBits, clearBits, BitVec.and_assoc]
  exact or_masked _ _ _ rfl |>.trans (by rw [BitVec.and_assoc]; rfl)

/-- Settles O25: two updates of CNTR each, between them the updates of the collaborators and of BCDR. -/
theorem connectDisconnect : Obligations.ConnectDisconnect := by
  intro s hi
  have admitted := admitInit_none hi
  constructor
  · rw [exec_admitted rfl admitted]
    simp only [run_andThen, run_rmwCntr, run_updating, run_writeBcdr, andThen_ok, toOutcome_ok, State.setBcdr,
      State.setCntr, connect_cntr]
    rfl
  · rw [exec_admitted rfl admitted]
    simp only [run_andThen, run_rmwCntr, run_updating, run_writeBcdr, andThen_ok, toOutcome_ok, State.setBcdr,
      State.setCntr, disconnect_cntr]
    rfl

/-! ## Binding and status read (O26, O27) -/

/-- A command that is one update is refused or makes it (R730). -/
theorem toOutcome_command_updating (c : State → Option RefuseReason) (f : State → State) (s : State) :
    ((command c (updating f)).run s).toOutcome = .next ((c s).elim (f s) s.refuse) := by
  cases h : c s with
  | none => rw [run_command_none h]; rfl
  | some r => rw [run_command_some h]; rfl

/-- Settles O26: the checks in the order of the rule, and then the slot is bound. -/
theorem setEndpoint : Obligations.SetEndpoint := by
  intro s n ty g
  have he : exec (.dcSetEndpoint n ty g) s = ((doDcSetEndpoint n ty g).run s).toOutcome := rfl
  rw [he, doDcSetEndpoint, toOutcome_command_updating, State.admitBinding]
  split
  · rfl
  · split
    · rfl
    · cases s.geomOk n g <;> rfl

/-- Settles O27: the codes of R312, status by status. -/
theorem getDeviceStatus : Obligations.GetDeviceStatus := by
  intro s
  have he : exec .dcGetStatus s = .next (s.emit (.result (.u16 s.devStatus.code))) := rfl
  rw [he]
  cases s.devStatus <;> rfl

/-! ## Interrupt entry (O31) -/

theorem app_idle_of_canDispatch {s : State} (h : s.canDispatch = true) : s.app = .idle := by
  simp only [State.canDispatch, Bool.and_eq_true, decide_eq_true_eq] at h
  obtain ⟨⟨-, happ⟩, -⟩ := h
  exact happ

/-- A write of 0 clears the latches and leaves the other stored bits of ISTR (R111). -/
theorem istrWrite_zero (w : HalfWord) : istrWrite w 0x0000 = w &&& 0x807F := rfl

/-- Settles O31: the line is asserted and APP idle, so that DC_IRQ is the entry. -/
theorem interruptEntry : Obligations.InterruptEntry := by
  intro s h
  have he : exec .dcIrq s = execDcIrq s := rfl
  rw [he, execDcIrq, if_neg (not_not_intro (app_idle_of_canDispatch h)), if_pos h, takeInterrupt, istrWrite_zero]
  rfl

/-! ## Suspend and wakeup (O35) -/

theorem suspend_cntr (v : HalfWord) : setBits cntrFsusp v &&& 0xFFBF = (v &&& 0xFFBF) ||| 0x0008 := or_masked v _ _ rfl

theorem wakeup_cntr (v : HalfWord) : clearBits cntrFsusp v &&& 0xFFBF = v &&& 0xFFB7 := BitVec.and_assoc v _ _

/-- A wakeup restores the status where the device is suspended, after FSUSP is cleared (R610). -/
theorem exec_irqWkup (w : HalfWord) (s : State) : exec (.irqWkup w) s = .next
    (if s.devStatus = .suspended then
      { s with cntr := s.cntr &&& 0xFFB7, devStatus := s.preSuspend, trace := s.trace ++ [.cbResume] }
    else { s with cntr := s.cntr &&& 0xFFB7 }) := by
  have he : exec (.irqWkup w) s = (doIrqWkup.run s).toOutcome := rfl
  rw [he, doIrqWkup, run_andThen, run_rmwCntr, andThen_ok, State.setCntr, wakeup_cntr]
  rfl

/-- Settles O35: one update of CNTR, and then the status and the callback. -/
theorem suspendWakeup : Obligations.SuspendWakeup := by
  intro s w
  refine ⟨?_, fun h => ?_, fun h => ?_⟩
  · have he : exec (.irqSusp w) s = (doIrqSusp.run s).toOutcome := rfl
    rw [he, doIrqSusp, run_andThen, run_rmwCntr, andThen_ok, State.setCntr, suspend_cntr]
    rfl
  · rw [exec_irqWkup, if_pos h]
  · rw [exec_irqWkup, if_neg h]

/-! ## The CTRD rows (O34) -/

/-- A hook's row is the run of the hook (R465, R501 to R503, R516, R517). -/
theorem exec_hookInstr (r : Role) (k : Hook) (s : State) : exec (hookInstr r k) s = perform (runHook r k) s := by
  cases r <;> cases k <;> rfl

/-- A hook called on a bound slot is its role's hook (R466). -/
theorem perform_hook {s : State} {n : EpNum} {r : Role} (hr : s.role n = some r) (k : Hook) :
    perform (hook n k) s = exec (hookInstr r k) s := by
  rw [exec_hookInstr, perform, hook, context_role, hr]
  rfl

/-- An unbound slot has no hook (R608). -/
theorem perform_hook_unbound {s : State} {n : EpNum} (hr : s.role n = none) (k : Hook) :
    perform (hook n k) s = .next s := by
  rw [perform, hook, context_role, hr]
  rfl

theorem role_eq_none_of_unbound {s : State} {n : EpNum} (h : s.isBound n = false) : s.role n = none := by
  rw [State.isBound] at h
  rw [State.role]
  cases hs : s.slot n with
  | unbound => rfl
  | bound r g ty => rw [hs] at h; cases h

theorem exists_role_of_isBound {s : State} {n : EpNum} (hb : s.isBound n = true) : ∃ r, s.role n = some r := by
  obtain ⟨r, g, ty, hslot⟩ := slot_of_isBound hb
  exact ⟨r, by rw [State.role, hslot]; rfl⟩

theorem ctrRow_served {s : State} {n : EpNum} (h : s.servedEp = some n) (p : EpNum → Context → Prog Unit) :
    ctrRow p s = perform (p n) s := by
  rw [ctrRow, h]

/-- Settles O34: within a dispatch each row is its hook, called on the slot that is served. -/
theorem ctrRows : Obligations.CtrRows := by
  intro s key
  refine ⟨fun n r hn hr => ?_, fun n hn hb => ?_, fun hidle => ?_⟩
  · have row (k : Hook) {i : Instr} (hi : exec i s = ctrRow (fun n c => hook n k c) s) :
        ∃ t, exec i s = .next t ∧ exec (hookInstr r k) s = .next t := by
      rw [hi, ctrRow_served hn, perform_hook hr, exec_hookInstr]
      exact ⟨_, rfl, rfl⟩
    exact ⟨row _ rfl, row _ rfl, row _ rfl⟩
  · have row (k : Hook) {i : Instr} (hi : exec i s = ctrRow (fun n c => hook n k c) s) : exec i s = .next s := by
      rw [hi, ctrRow_served hn, perform_hook_unbound (role_eq_none_of_unbound hb)]
    exact ⟨row _ rfl, row _ rfl, row _ rfl⟩
  · have row (p : EpNum → Context → Prog Unit) {i : Instr} (hi : exec i s = ctrRow p s) :
        exec i s = .fault .notDispatching := by
      rw [hi, ctrRow, State.servedEp, hidle]
    exact ⟨row _ rfl, row _ rfl, row _ rfl⟩

end Sys2Proof.Machine

/-! # DC_INIT (R601) -/

namespace Sys2Proof.Machine

/-! ## Commits of several BDT entries -/

/-- Packet memory with the BDT entries of the slots `ns` stored, over the bytes `m` (R459). -/
def State.storeEntries (s : State) (m : List Host.Cell) (ns : List EpNum) : List Host.Cell :=
  ns.foldl (fun m n => memSetBytes m (s.bdtAddr n .addrTx) (bdtEntry (s.geom n))) m

/-- The state after the commits of the slots `ns`, in their order (R459, R601, R607). -/
def State.commits (s : State) (ns : List EpNum) : State := { s with mem := s.storeEntries s.mem ns }

theorem commits_nil (s : State) : s.commits [] = s := rfl

theorem commits_cons (s : State) (n : EpNum) (ns : List EpNum) : s.commits (n :: ns) = (s.committed n).commits ns :=
  rfl

theorem memGet_storeEntries_outside {s : State} {x : Nat} {ns : List EpNum}
    (hx : ∀ n ∈ ns, x < s.bdtAddr n .addrTx ∨ s.bdtAddr n .addrTx + 8 ≤ x) {m : List Host.Cell}
    (hm : Memory.wf m = true) : memGet (s.storeEntries m ns) x = memGet m x := by
  induction ns generalizing m with
  | nil => rfl
  | cons n ns ih =>
    obtain ⟨hn, hns⟩ := List.forall_mem_cons.mp hx
    have hlen : (bdtEntry (s.geom n)).length = 8 := rfl
    rw [State.storeEntries, List.foldl_cons]
    refine (ih hns (memSetBytes_wf hm _ _)).trans ?_
    rw [memGet_memSetBytes hm, if_neg (by omega)]

/-- The entries of two slots share no byte (R409). -/
theorem memGet_storeEntries_entry {s : State} {n : EpNum} {k : Nat} (hk : k < 8) {ns : List EpNum} (hn : n ∈ ns)
    {m : List Host.Cell} (hm : Memory.wf m = true) :
    memGet (s.storeEntries m ns) (s.bdtAddr n .addrTx + k) = (bdtEntry (s.geom n)).getD k 0 := by
  induction ns generalizing m with
  | nil => cases hn
  | cons p ps ih =>
    have hstored := memSetBytes_wf hm (s.bdtAddr p .addrTx) (bdtEntry (s.geom p))
    rw [State.storeEntries, List.foldl_cons]
    by_cases hlater : n ∈ ps
    · exact ih hlater hstored
    · obtain rfl : n = p := (List.mem_cons.mp hn).resolve_right hlater
      refine (memGet_storeEntries_outside (fun q hq => ?_) hstored).trans ?_
      · have hne : q.val ≠ n.val := fun e => hlater (Fin.ext e ▸ hq)
        simp only [bdtAddr_eq_div]
        omega
      · have hlen : (bdtEntry (s.geom n)).length = 8 := rfl
        rw [memGet_memSetBytes hm, if_pos (by omega), Nat.add_sub_cancel_left]

/-! ## DC_INIT (O24) -/

theorem run_epInit {s : State} (ag : Agent) {n : EpNum} {c : Context} (hc : c.geom n = s.geom n)
    (h : s.canCommit n = true) : (epInit ag c n).run s = .ok () (s.committed n) := by
  rw [epInit, run_andThen, run_commitBd ag n hc h, andThen_ok, run_hook_onInit]

theorem geom_of_slots {s : State} {c : Context} (h : c.slots = s.slots) (n : EpNum) : c.geom n = s.geom n := by
  rw [Context.geom, h]
  rfl

/-- A commit changes nothing that the next ones depend on. -/
theorem run_forBound_epInit {s : State} {c : Context} (hslots : c.slots = s.slots) (ag : Agent) {ns : List EpNum}
    (h : ∀ n, s.canCommit n = true) :
    (forBound (epInit ag c) c ns).run s = .ok () (s.commits (ns.filter c.isBound)) := by
  induction ns generalizing s with
  | nil => rfl
  | cons n ns ih =>
    rw [forBound, List.filter_cons]
    split
    · rw [run_andThen, run_epInit ag (geom_of_slots hslots n) (h n), andThen_ok, commits_cons]
      exact ih (s := s.committed n) hslots h
    · exact ih hslots h

/-- The state after the transceiver is switched off, with the clocks on (R601). -/
def State.poweredOff (s : State) : State := State.setCntr { s with clkOn := true, vdetOn := true } 0x0003

/-- The state in which `init()` sets the endpoints up: packet memory, latches and address cleared, BTABLE placed
(R601). -/
def State.cleared (s : State) : State :=
  (((s.poweredOff.setBytes 0 (List.replicate s.params.pmSize 0)).setIstr 0x0000).setBtable s.params.bdtBase).setDaddr
    0x0000

theorem poweredOff_poweredDown (s : State) : PoweredDown s.params s.poweredOff :=
  ⟨rfl, by rw [State.poweredOff, setCntr_cntr]; decide⟩

theorem cleared_detached (s : State) : s.cleared.attached = false := (poweredOff_poweredDown s).detached

theorem cleared_btable {s : State} (hp : paramsValid s.params = true) : s.cleared.btable = s.params.bdtBase :=
  bdtBase_masked hp

/-- Beside clocks, registers and packet memory nothing is cleared. -/
theorem cleared_eq (s : State) : s.cleared = { s with
    clkOn := true, vdetOn := true, cntr := s.cleared.cntr, istr := s.cleared.istr, btable := s.cleared.btable
    daddr := s.cleared.daddr, mem := s.cleared.mem } := rfl

/-- Detached, with BTABLE at BDT_BASE, every slot's entry may be written (R12, R459). -/
theorem canCommit_cleared {s : State} (hp : paramsValid s.params = true) (n : EpNum) :
    s.cleared.canCommit n = true := by
  have hin : s.cleared.bdtAddr n .addrTx + 6 + 1 < s.params.pmSize :=
    bdtAddr_lt (s := s.cleared) hp (cleared_btable hp) n .countRx
  rw [State.canCommit, cleared_detached, Bool.false_and, Bool.not_false, Bool.and_true]
  exact decide_eq_true hin

theorem exec_dcInit {s : State} (hp : paramsValid s.params = true) (hw : Memory.wf s.mem = true) : exec .dcInit s =
    .next { s.cleared.commits (allEps.filter s.isBound) with
      cntr := 0x0002, devStatus := .powered, initialized := true } := by
  obtain ⟨heven, -, -⟩ := pmSize_bdtBase_of_valid hp
  have hclear : (pmClear .app 601 s.context).run s.poweredOff =
      .ok () (s.poweredOff.setBytes 0 (List.replicate s.params.pmSize 0)) :=
    run_pmClear (s := s.poweredOff) hw heven .app 601
      (by simp [State.ownFaultW, State.firstOwnedW, (poweredOff_poweredDown s).detached])
  have hentries : (forBound (epInit .app s.context) s.context allEps).run s.cleared =
      .ok () (s.cleared.commits (allEps.filter s.isBound)) :=
    run_forBound_epInit rfl .app (canCommit_cleared hp)
  have he : exec .dcInit s = ((doDcInit s.context).run s).toOutcome := rfl
  rw [he, doDcInit, run_andThen, run_updating, andThen_ok, run_andThen, run_writeCntr, andThen_ok, run_andThen]
  change (((pmClear .app 601 s.context).run s.poweredOff).andThen _).toOutcome = _
  rw [hclear, andThen_ok, run_andThen, run_writeIstr, andThen_ok, run_andThen, run_writeBtable, andThen_ok,
    run_andThen, run_writeDaddr, andThen_ok, run_andThen]
  change (((forBound (epInit .app s.context) s.context allEps).run s.cleared).andThen _).toOutcome = _
  rw [hentries]
  rfl

theorem latches_cleared (w : HalfWord) : istrWrite w 0x0000 &&& 0x7F80 = 0 := by
  rw [istrWrite_zero, BitVec.and_assoc]
  exact BitVec.and_zero

theorem mem_boundEps {s : State} {n : EpNum} : n ∈ allEps.filter s.isBound ↔ s.isBound n = true := by
  rw [List.mem_filter, and_iff_right (mem_allEps n)]

/-- Settles O24: detached and with BTABLE at BDT_BASE nothing faults, and of the zeros only the entries committed
after them are written again. -/
theorem deviceInit : Obligations.DeviceInit := by
  intro s hp hm
  have hwf : Memory.wf s.cleared.mem = true := memSetBytes_wf hm.1 _ _
  have haddr (n : EpNum) : s.cleared.bdtAddr n .addrTx = s.params.bdtBase.toNat + 8 * n.val := by
    obtain ⟨-, h8, -⟩ := pmSize_bdtBase_of_valid hp
    have hcode : BdtField.addrTx.code.toNat = 0 := rfl
    rw [bdtAddr_eq_div, cleared_btable hp, hcode]
    omega
  refine ⟨_, exec_dcInit hp hm.1, rfl, rfl, rfl, latches_cleared _, cleared_btable hp, rfl, rfl, rfl,
    fun n hn k hk => ?_, fun x hx => ?_, ?_, fun u hu => nextBus_detached (PoweredDown.detached ⟨rfl, ?_⟩)⟩
  · rw [← haddr]
    exact memGet_storeEntries_entry hk (mem_boundEps.mpr hn) hwf
  · refine (memGet_storeEntries_outside (fun n hn => ?_) hwf).trans (byte_cleared hm x)
    rw [haddr]
    exact hx n (mem_boundEps.mp hn)
  · rw [State.commits, cleared_eq]
  · rcases hu with hu | hu <;> rw [hu] <;> rfl

end Sys2Proof.Machine

/-! # The RESET handler (R607) -/

namespace Sys2Proof.Machine

/-! ## The generic endpoints -/

/-- EA of the slots `ns` set to their numbers (R463). -/
def State.addressed (s : State) (ns : List EpNum) : State :=
  ns.foldl (fun u n => u.withEpr n fun f => { f with ea := BitVec.ofNat 4 n.val }) s

theorem addressed_eq (s : State) (ns : List EpNum) : s.addressed ns = { s with eprs := (s.addressed ns).eprs } := by
  induction ns generalizing s with
  | nil => rfl
  | cons n ns ih => exact ih _

theorem eprF_addressed (s : State) (ns : List EpNum) (n : EpNum) : (s.addressed ns).eprF n =
    if n ∈ ns then { s.eprF n with ea := BitVec.ofNat 4 n.val } else s.eprF n := by
  induction ns generalizing s with
  | nil => rfl
  | cons p ps ih =>
    refine (ih _).trans ?_
    rw [eprF_withEpr]
    by_cases hp : p = n
    · subst hp
      simp
    · simp [hp, Ne.symm hp]

/-- The fields determine the register (R101). -/
theorem epr_eq_of_eprF {s u : State} {n : EpNum} (h : u.eprF n = s.eprF n) : u.epr n = s.epr n := by
  rw [← eprWord_eprFields (u.epr n), ← eprWord_eprFields (s.epr n)]
  exact congrArg eprWord h

/-- The reset of one endpoint, before its hook: entry and EA (R463). -/
theorem run_epReset {s : State} {n : EpNum} {c : Context} (hc : c.geom n = s.geom n) (ag : Agent)
    (h : s.canCommit n = true) : (epReset ag c n).run s =
      (hook n .onReset c).run ((s.committed n).withEpr n fun f => { f with ea := BitVec.ofNat 4 n.val }) := by
  rw [epReset, run_andThen, run_commitBd ag n hc h, andThen_ok, run_andThen, run_epRmw_target, andThen_ok]
  rfl

/-- Whether a commit faults depends on the endpoint's status, where its entry stands and whether the device is attached
(R459). -/
theorem canCommit_congr {s u : State} {n : EpNum} (hp : u.params = s.params)
    (haddr : u.bdtAddr n .addrTx = s.bdtAddr n .addrTx) (hatt : u.attached = s.attached)
    (htx : (u.eprF n).statTx = (s.eprF n).statTx) (hrx : (u.eprF n).statRx = (s.eprF n).statRx) :
    u.canCommit n = s.canCommit n := by
  unfold State.canCommit State.statTx State.statRx
  rw [hp, haddr, hatt, htx, hrx]

theorem canCommit_committed_withEa (s : State) (n m : EpNum) (v : BitVec 4) :
    ((s.committed n).withEpr n fun f => { f with ea := v }).canCommit m = s.canCommit m := by
  obtain rfl | hne := eq_or_ne n m
  · refine canCommit_congr rfl rfl rfl ?_ ?_ <;> rw [eprF_withEpr, if_pos rfl] <;> rfl
  · refine canCommit_congr rfl rfl rfl ?_ ?_ <;> rw [eprF_withEpr, if_neg hne] <;> rfl

/-- The reset of generic endpoints: entries and EA, one endpoint after the other (R463, R465). -/
theorem run_forBound_epReset {s : State} {c : Context} (hslots : c.slots = s.slots) (ag : Agent) {ns : List EpNum}
    (hgeneric : ∀ n ∈ ns, c.isBound n = true → c.role n = some .generic)
    (h : ∀ n ∈ ns, c.isBound n = true → s.canCommit n = true) : (forBound (epReset ag c) c ns).run s =
      .ok () ((s.commits (ns.filter c.isBound)).addressed (ns.filter c.isBound)) := by
  induction ns generalizing s with
  | nil => rfl
  | cons n ns ih =>
    obtain ⟨hn, hns⟩ := List.forall_mem_cons.mp hgeneric
    obtain ⟨hcn, hcns⟩ := List.forall_mem_cons.mp h
    rw [forBound, List.filter_cons]
    split
    · rename_i hb
      rw [run_andThen, run_epReset (geom_of_slots hslots n) ag (hcn hb), run_hook_generic (hn hb), andThen_ok]
      refine ih (s := (s.committed n).withEpr n _) hslots hns fun m hm hbm => ?_
      rw [canCommit_committed_withEa, hcns m hm hbm]
    · exact ih hslots hns hcns

/-! ## Endpoint 0, and then the others (O32) -/

/-- Undisturbed, the control role's reset comes to its end (R502). -/
theorem run_controlOnReset (s : State) : doControlOnReset.run s = .ok () s.roleReset := by
  rw [doControlOnReset, setTxStatus, setRxStatus]
  simp only [run_andThen, run_epRmw_target, andThen_ok, run_updating, withEpr_withEpr, clearRole, discardCursor_eq]
  rfl

/-- The state after the reset of endpoint 0, the control endpoint, at a bus reset (R463, R502, R607). -/
def State.zeroReset (s : State) : State :=
  (((s.setDaddr 0x0080).committed 0).withEpr 0 fun f => { f with ea := 0 }).roleReset

theorem eprF_roleReset (s : State) (n : EpNum) : s.roleReset.eprF n = if 0 = n then { s.eprF 0 with
    epType := EpType.control.code, statTx := Stat.nak.code, statRx := Stat.valid.code } else s.eprF n :=
  eprF_withEpr s 0 n fun f =>
    { f with epType := EpType.control.code, statTx := Stat.nak.code, statRx := Stat.valid.code }

theorem eprF_committed (s : State) (n m : EpNum) : (s.committed n).eprF m = s.eprF m := rfl

theorem eprF_setDaddr (s : State) (w : HalfWord) (n : EpNum) : (s.setDaddr w).eprF n = s.eprF n := rfl

theorem eprF_zeroReset (s : State) : s.zeroReset.eprF 0 = { s.eprF 0 with
    ea := 0, epType := EpType.control.code, statTx := Stat.nak.code, statRx := Stat.valid.code } := by
  rw [State.zeroReset, eprF_roleReset, if_pos rfl, eprF_withEpr, if_pos rfl, eprF_committed, eprF_setDaddr]

theorem eprF_zeroReset_of_ne {s : State} {n : EpNum} (hn : n ≠ 0) : s.zeroReset.eprF n = s.eprF n := by
  rw [State.zeroReset, eprF_roleReset, if_neg hn.symm, eprF_withEpr, if_neg hn.symm, eprF_committed, eprF_setDaddr]

/-- The state in which every bound endpoint is reset, endpoint 0 first (R607). -/
def State.allReset (s : State) : State :=
  (s.zeroReset.commits (allEps.tail.filter s.isBound)).addressed (allEps.tail.filter s.isBound)

theorem role_zero {s : State} (hs : s.SlotsOk) : s.role 0 = some .control := by rw [State.role, hs.1]; rfl

theorem isBound_zero {s : State} (hs : s.SlotsOk) : s.isBound 0 = true := by rw [State.isBound, hs.1]; rfl

theorem role_generic {s : State} (hs : s.SlotsOk) {n : EpNum} (hn : n ≠ 0) (hb : s.isBound n = true) :
    s.role n = some .generic := by
  obtain ⟨r, hr⟩ := exists_role_of_isBound hb
  cases r with
  | generic => exact hr
  | control => exact absurd hr (hs.2 n hn)

theorem boundEps_eq {s : State} (hs : s.SlotsOk) : allEps.filter s.isBound = 0 :: allEps.tail.filter s.isBound := by
  have hall : allEps = 0 :: allEps.tail := rfl
  rw [hall, List.filter_cons, isBound_zero hs]
  rfl

theorem mem_otherEps {s : State} {n : EpNum} : n ∈ allEps.tail.filter s.isBound ↔ n ≠ 0 ∧ s.isBound n = true := by
  have htail : n ∈ allEps.tail ↔ n ≠ 0 := by revert n; decide
  rw [List.mem_filter, htail]

/-- Apart from endpoint registers and packet memory, the resets change what the control role's reset does. -/
theorem allReset_eq {s : State} (hs : s.SlotsOk) : s.allReset = { s with
    daddr := 0x0080, trace := s.trace ++ (if s.cursor.isSome then [.descDeinit] else []), eprs := s.allReset.eprs
    mem := s.storeEntries s.mem (allEps.filter s.isBound)
    stage := .none, remaining := 0, cursor := none, deferred := 0 } := by
  rw [boundEps_eq hs]
  exact addressed_eq _ _

/-- Every bound endpoint is reset, then the callback and the status (R607). -/
theorem exec_irqReset {s : State} (w : HalfWord) (hs : s.SlotsOk)
    (h : ∀ n, s.isBound n = true → s.canCommit n = true) : exec (.irqReset w) s =
      .next { s.allReset with trace := s.allReset.trace ++ [.cbReset], devStatus := .default } := by
  have he : exec (.irqReset w) s = ((doIrqReset s.context).run s).toOutcome := rfl
  have hzero : (epReset .core s.context 0).run (s.setDaddr 0x0080) = .ok () s.zeroReset := by
    rw [run_epReset (s := s.setDaddr 0x0080) (context_geom s 0) .core (h 0 (isBound_zero hs)), hook, context_role,
      role_zero hs]
    exact run_controlOnReset _
  have hothers : (forBound (epReset .core s.context) s.context allEps.tail).run s.zeroReset = .ok () s.allReset := by
    have hne : ∀ n ∈ allEps.tail, n ≠ 0 := by decide
    refine run_forBound_epReset (s := s.zeroReset) rfl .core (fun n hn hb => role_generic hs (hne n hn) hb)
      fun n hn hb => ?_
    have hf : s.zeroReset.eprF n = s.eprF n := eprF_zeroReset_of_ne (hne n hn)
    rw [← h n hb]
    exact canCommit_congr rfl rfl rfl (by rw [hf]) (by rw [hf])
  have hall : allEps = 0 :: allEps.tail := rfl
  rw [he, doIrqReset, run_andThen, run_writeDaddr, andThen_ok, run_andThen, hall, forBound, context_isBound,
    isBound_zero hs, if_pos rfl, run_andThen, hzero, andThen_ok, hothers]
  rfl

/-- Settles O32: endpoint 0 is reset first and arms only itself, so that every later commit finds its endpoint as it
was; the stores are the entries and nothing else. -/
theorem resetHandling : Obligations.ResetHandling := by
  intro s w hw hs h
  have heprF (n : EpNum) : s.allReset.eprF n = if n ∈ allEps.tail.filter s.isBound then
      { s.zeroReset.eprF n with ea := BitVec.ofNat 4 n.val } else s.zeroReset.eprF n := eprF_addressed _ _ n
  have hexec := exec_irqReset w hs h
  rw [allReset_eq hs] at hexec
  refine ⟨_, hexec, rfl, rfl, rfl, ?_, fun n hn hb => ?_, fun n hb => ?_, rfl, rfl, rfl, rfl, fun n hb k hk => ?_,
    fun x hx => ?_, rfl⟩
  · refine (heprF 0).trans ?_
    rw [if_neg fun hn => (mem_otherEps.mp hn).1 rfl, eprF_zeroReset]
  · refine (heprF n).trans ?_
    rw [if_pos (mem_otherEps.mpr ⟨hn, hb⟩), eprF_zeroReset_of_ne hn]
  · have hn : n ≠ 0 := by
      rintro rfl
      rw [isBound_zero hs] at hb
      cases hb
    have hnot : n ∉ allEps.tail.filter s.isBound := fun hmem => Bool.eq_false_iff.mp hb (mem_otherEps.mp hmem).2
    refine epr_eq_of_eprF ((heprF n).trans ?_)
    rw [if_neg hnot, eprF_zeroReset_of_ne hn]
  · exact memGet_storeEntries_entry hk (mem_boundEps.mpr hb) hw
  · exact memGet_storeEntries_outside (fun n hn => hx n (mem_boundEps.mp hn)) hw

end Sys2Proof.Machine

/-! # The CTR handler (R608) -/

namespace Sys2Proof.Machine

/-! ## Which hooks report their faults -/

theorem reports_ret {α : Type} (a : α) : (Prog.ret a).Reports := (quiet_ret a).reports

theorem reports_look {α : Type} {k : RoleView → Prog α} (h : ∀ v, (k v).Reports) : (Prog.look k).Reports := fun s =>
  h s.roleView s

theorem reports_bind {α β : Type} {p : Prog α} {q : α → Prog β} (hp : p.Reports) (hq : ∀ a, (q a).Reports) :
    (p.bind q).Reports := fun s => by
  rw [run_bind]
  obtain ⟨a, t, ht, hsame⟩ | ⟨t, ht, hmore⟩ := hp s <;> rw [ht]
  · rw [bind_ok, ← hsame]
    exact hq a t
  · exact .inr ⟨t, rfl, hmore⟩

theorem reports_memRead (ag : Agent) (rule a l : Nat) : (memRead ag rule a l).Reports := by
  unfold memRead
  split
  · exact reports_ret _
  · exact reports_bind (reports_raiseIf _ _ _) fun _ =>
      (quiet_bind (quiet_readCells _ _) fun _ => quiet_ret _).reports

theorem reports_rearmRx : rearmRx.Reports := (quiet_epRmw 0 _ {}).reports

theorem reports_dataStageIn (c : Context) : (dataStageIn c).Reports := by
  refine reports_look fun v => ?_
  split
  · exact reports_andThen (reports_transmit _ _ _ _) (reports_updating faults_advanceCursor)
  · exact reports_andThen (reports_updating fun _ => rfl) quiet_statusStage.reports

theorem reports_controlOnSetup (c : Context) : (doControlOnSetup c).Reports :=
  reports_andThen (reports_updating fun _ => faults_discardCursor _) <| reports_bind (reports_memRead _ _ _ _) fun _ =>
    reports_andThen (reports_updating (faults_establishStage _)) <|
      reports_andThen (reports_runRequest _ _ _) reports_rearmRx

theorem reports_controlOnReception (c : Context) : (doControlOnReception c).Reports := by
  refine reports_andThen (reports_look fun v => ?_) reports_rearmRx
  split
  · exact reports_dataStageIn c
  · exact reports_ret _
  · exact quiet_statusStage.reports

/-- What follows an operation runs unless the operation raised a fault (R700). -/
theorem Prog.Reports.state_andThen {p : Prog Unit} (h : p.Reports) (q : Prog Unit) (s : State) :
    ((p.andThen q).run s).state =
      if (p.run s).state.faults = s.faults then (q.run (p.run s).state).state else (p.run s).state := by
  rw [run_andThen]
  obtain ⟨a, t, ht, hsame⟩ | ⟨t, ht, hmore⟩ := h s <;> rw [ht]
  · rw [state_ok, if_pos hsame]
    rfl
  · rw [state_stop, if_neg hmore]
    rfl

/-! ## The context of a dispatch -/

theorem context_setEprSnap (s : State) (w : HalfWord) : (s.setEprSnap w).context = s.context := by
  have hserved : (s.setEprSnap w).servedEp = s.servedEp := by
    cases hc : s.core <;> simp [State.servedEp, State.setEprSnap, hc]
  rw [State.context, hserved, setEprSnap_params, setEprSnap_slots]
  rfl

/-- CORE and APP change neither the parameters nor the endpoint served, and only a binding the endpoint table. -/
theorem kept_context (c : Context) : Kept fun u => u.context = c where
  store s k v h := by simpa [State.context, State.servedEp] using h
  epr _ _ _ h := h
  cntr _ _ h := h
  daddr _ _ h := h
  btable _ _ h := h
  bcdr _ _ h := h
  istr _ _ h := h
  snap s w h := (context_setEprSnap s w).trans h
  inside s t hc h := by rw [hc]; exact h

/-! ## The handler (O33) -/

/-- The key holds DIR, and the snapshot's SETUP and CTR_TX (R351). -/
theorem ctrKey_bits (dir : Bool) (snap : HalfWord) : (ctrKey dir snap).getLsbD 16 = dir
    ∧ (ctrKey dir snap).getLsbD 11 = (eprFields snap).setup ∧ (ctrKey dir snap).getLsbD 7 = (eprFields snap).ctrTx := by
  simp only [ctrKey, eprFields, BitVec.getLsbD_append]
  simp

/-- A clear computed from the register as it is clears both flags and nothing else (R457). -/
theorem run_clearCtr_current (n : EpNum) (s : State) : (clearCtr n (s.epr n)).run s =
    .ok () (s.withEpr n fun f => { f with ctrRx := false, ctrTx := false }) :=
  run_epRmw_target n {} { ctrRx := true, ctrTx := true } s

/-- The state in which the hooks run: the snapshot kept, the flags cleared (R608). -/
def State.ctrServed (s : State) (n : EpNum) : State :=
  (s.setEprSnap (s.epr n)).withEpr n fun f => { f with ctrRx := false, ctrTx := false }

theorem context_ctrServed (s : State) (n : EpNum) : (s.ctrServed n).context = s.context := context_setEprSnap _ _

theorem exec_irqCtr {s : State} {w : HalfWord} (hb : s.isBound (epIdOf w) = true) : exec (.irqCtr w) s =
    .next ((ctrHooks (epIdOf w) (ctrKey (w.getLsbD 4) (s.epr (epIdOf w))) s.context).run
      (s.ctrServed (epIdOf w))).state := by
  have he : exec (.irqCtr w) s = ((doIrqCtr w s.context).run s).toOutcome := rfl
  have hsame : (s.setEprSnap (s.epr (epIdOf w))).epr (epIdOf w) = s.epr (epIdOf w) := by simp [State.epr]
  have hclear := run_clearCtr_current (epIdOf w) (s.setEprSnap (s.epr (epIdOf w)))
  rw [hsame] at hclear
  rw [he, doIrqCtr, run_bind, run_readEpr, bind_ok, context_isBound, if_pos hb, run_andThen, run_updating, andThen_ok,
    run_andThen, hclear]
  rfl

theorem exec_irqCtr_unbound {s : State} {w : HalfWord} (hb : s.isBound (epIdOf w) = false) : exec (.irqCtr w) s =
    .next (s.withEpr (epIdOf w) fun f => { f with ctrRx := false, ctrTx := false }) := by
  have he : exec (.irqCtr w) s = ((doIrqCtr w s.context).run s).toOutcome := rfl
  rw [he, doIrqCtr, run_bind, run_readEpr, bind_ok, context_isBound, if_neg (Bool.eq_false_iff.mp hb),
    run_clearCtr_current, toOutcome_ok]

theorem isBound_of_role {s : State} {n : EpNum} {r : Role} (hr : s.role n = some r) : s.isBound n = true := by
  by_contra hb
  rw [role_eq_none_of_unbound (Bool.eq_false_iff.mpr hb)] at hr
  cases hr

theorem run_ctrHooks_generic {n : EpNum} {c : Context} (hr : c.role n = some .generic) (key : BitVec 17) (s : State) :
    (ctrHooks n key c).run s = .ok () s := by
  have hhook (k : Hook) : (hook n k c).run s = .ok () s := run_hook_generic hr k s
  have hfirst : (if key.getLsbD 16 && key.getLsbD 11 then doCtrSetup n c
      else if key.getLsbD 16 then doCtrReception n c else .ret ()).run s = .ok () s := by
    split
    · exact hhook _
    · split
      · exact hhook _
      · rfl
  rw [ctrHooks, run_andThen, hfirst, andThen_ok]
  split
  · exact hhook _
  · rfl

/-- The hook that a completed reception selects on the control endpoint (R351). -/
def receptionHook (dir setup : Bool) (c : Context) : Prog Unit :=
  if dir && setup then doControlOnSetup c else if dir then doControlOnReception c else .ret ()

/-- The hook that a completed transmission selects on the control endpoint (R351). -/
def transmissionHook (ctrTx : Bool) (c : Context) : Prog Unit :=
  if ctrTx then doControlOnTransmission c else .ret ()

theorem ctrHooks_control {n : EpNum} {c : Context} (hr : c.role n = some .control) (dir : Bool) (snap : HalfWord) :
    ctrHooks n (ctrKey dir snap) c = (receptionHook dir (eprFields snap).setup c).andThen
      (transmissionHook (eprFields snap).ctrTx c) := by
  have hhook (k : Hook) : hook n k c = runHook .control k c := by rw [hook, hr]
  obtain ⟨hdir, hsetup, htx⟩ := ctrKey_bits dir snap
  rw [ctrHooks, hdir, hsetup, htx, doCtrSetup, doCtrReception, doCtrTransmission, hhook, hhook, hhook]
  rfl

theorem reports_receptionHook (dir setup : Bool) (c : Context) : (receptionHook dir setup c).Reports := by
  unfold receptionHook
  split
  · exact reports_controlOnSetup c
  · split
    · exact reports_controlOnReception c
    · exact reports_ret _

theorem kept_receptionHook {P : State → Prop} (h : Kept P) (dir setup : Bool) (c : Context) :
    (receptionHook dir setup c).Keeps P := by
  unfold receptionHook
  split
  · exact h.runHook .control .onSetupReceptionComplete c
  · split
    · exact h.runHook .control .onReceptionComplete c
    · exact trivial

/-- The reception's hook is the row of its name (R466). -/
theorem exec_receptionHook (s : State) (dir setup : Bool) :
    let u := ((receptionHook dir setup s.context).run s).state
    if dir = true ∧ setup = true then exec .controlOnSetupReceptionComplete s = .next u
    else if dir = true then exec .controlOnReceptionComplete s = .next u else u = s := by
  cases dir with
  | false => simp [receptionHook]
  | true => cases setup <;> simp only [receptionHook] <;> rfl

/-- The transmission's hook is the row of its name (R466). -/
theorem exec_transmissionHook (s : State) (ctrTx : Bool) :
    let u := ((transmissionHook ctrTx s.context).run s).state
    if ctrTx = true then exec .controlOnTransmissionComplete s = .next u else u = s := by
  cases ctrTx <;> rfl

/-- The state after the reception's hook of a dispatch (R608). -/
def State.afterReception (s : State) (w : HalfWord) : State :=
  ((receptionHook (w.getLsbD 4) (s.eprF (epIdOf w)).setup s.context).run (s.ctrServed (epIdOf w))).state

/-- The state after both hooks of a dispatch: the second runs unless the first raised a fault (R608). -/
def State.afterHooks (s : State) (w : HalfWord) : State :=
  if (s.afterReception w).faults = (s.ctrServed (epIdOf w)).faults then
    ((transmissionHook (s.eprF (epIdOf w)).ctrTx s.context).run (s.afterReception w)).state
  else s.afterReception w

theorem exec_irqCtr_control {s : State} {w : HalfWord} (hr : s.role (epIdOf w) = some .control) :
    exec (.irqCtr w) s = .next (s.afterHooks w) := by
  rw [exec_irqCtr (isBound_of_role hr), ctrHooks_control (c := s.context) hr,
    (reports_receptionHook _ _ _).state_andThen]
  rfl

theorem context_afterReception (s : State) (w : HalfWord) : (s.afterReception w).context = s.context :=
  keeps_run (kept_receptionHook (kept_context _) _ _ _) (context_ctrServed s _)

/-- The transmission's hook runs where its flag is set and the first hook raised no fault. -/
theorem exec_afterHooks (s : State) (w : HalfWord) :
    if (s.afterReception w).faults = (s.ctrServed (epIdOf w)).faults ∧ (s.eprF (epIdOf w)).ctrTx = true then
      exec .controlOnTransmissionComplete (s.afterReception w) = .next (s.afterHooks w)
    else s.afterHooks w = s.afterReception w := by
  have hhook := exec_transmissionHook (s.afterReception w) (s.eprF (epIdOf w)).ctrTx
  rw [context_afterReception] at hhook
  by_cases hf : (s.afterReception w).faults = (s.ctrServed (epIdOf w)).faults
  · simpa only [State.afterHooks, hf, if_true, true_and] using hhook
  · rw [if_neg fun h => hf h.1, State.afterHooks, if_neg hf]

/-- Settles O33: the flags are cleared before the hooks; on the control endpoint the second hook runs in the context of
the first, and only where that raised no fault. -/
theorem ctrHandling : Obligations.CtrHandling := by
  intro s w
  refine ⟨fun hb => exec_irqCtr_unbound hb, fun hr => ?_,
    fun hr => ⟨s.afterReception w, s.afterHooks w, exec_irqCtr_control hr, ?_, exec_afterHooks s w⟩⟩
  · rw [exec_irqCtr (isBound_of_role hr), run_ctrHooks_generic (c := s.context) hr]
    rfl
  · have hhook := exec_receptionHook (s.ctrServed (epIdOf w)) (w.getLsbD 4) (s.eprF (epIdOf w)).setup
    rw [context_ctrServed] at hhook
    exact hhook

end Sys2Proof.Machine

/-! # The transitions of the device status (R600) -/

namespace Sys2Proof.Machine

/-! ## Changes that leave the status alone -/

theorem devStatus_kept {R : DevStatus → Prop} {l : Part} (hl : l ≠ .status) : l.Keeps fun u => R u.devStatus :=
  fun s t hc hs => by
    dsimp only
    rwa [hc.frame.devStatus (by simpa using hl)]

/-- The device status and the address a status stage would set. -/
theorem address_kept {R : DevStatus → HalfWord → Prop} {l : Part} (hstatus : l ≠ .status) (hdeferred : l ≠ .deferred) :
    l.Keeps fun u => R u.devStatus u.deferred := fun s t hc hs => by
  dsimp only
  rwa [hc.frame.devStatus (by simpa using hstatus), hc.frame.deferred (by simpa using hdeferred)]

theorem Prog.Does.keeps_devStatus {α : Type} {p : Prog α} {L : List Part} (h : p.Does L) {R : DevStatus → Prop}
    (hs : .status ∉ L := by simp) : p.Keeps fun u => R u.devStatus :=
  h _ fun _ hl => devStatus_kept fun e => hs (e ▸ hl)

theorem Prog.Does.keeps_address {α : Type} {p : Prog α} {L : List Part} (h : p.Does L)
    {R : DevStatus → HalfWord → Prop} (hs : .status ∉ L := by simp) (hd : .deferred ∉ L := by simp) :
    p.Keeps fun u => R u.devStatus u.deferred :=
  h _ fun _ hl => address_kept (fun e => hs (e ▸ hl)) fun e => hd (e ▸ hl)

/-- The state that an instruction answers is the one its run leaves. -/
theorem state_of_exec {i : Instr} {s t u : State} {p : Prog Unit} (he : exec i s = (p.run u).toOutcome)
    (h : exec i s = .next t) : t = (p.run u).state := by
  rw [he] at h
  cases h
  rfl

/-! ## Rows that set one status -/

section
variable {R : DevStatus → Prop}

theorem keeps_dcInit (hR : R .powered) (c : Context) : (doDcInit c).Keeps fun u => R u.devStatus :=
  keeps_andThen (keeps_updating fun _ hs => hs) <| keeps_andThen (keeps_writing fun _ hs => hs) <|
    keeps_andThen (does_pmClear _ _ _).keeps_devStatus <| keeps_andThen (keeps_writing fun _ hs => hs) <|
    keeps_andThen (keeps_writing fun _ hs => hs) <| keeps_andThen (keeps_writing fun _ hs => hs) <|
    keeps_andThen (keeps_forBound (fun n => (does_epInit .app c n).keeps_devStatus) _ _) <|
    keeps_andThen (keeps_writing fun _ hs => hs) (keeps_updating fun _ _ => hR)

theorem keeps_irqReset (hR : R .default) (s : State) : (doIrqReset s.context).Keeps fun u => R u.devStatus :=
  keeps_andThen (keeps_writing fun _ hs => hs) <|
    keeps_andThen (keeps_forBound (fun n => (does_epReset .core s n).keeps_devStatus
      (by simp [mem_resetParts, hookParts])) _ _) (keeps_updating fun _ _ => hR)

theorem keeps_setConfiguration (hR : R .configured) (c : Context) :
    (doSetConfiguration c).Keeps fun u => R u.devStatus :=
  keeps_andThen (keeps_updating fun _ _ => hR) (does_transmit _ _ _ _).keeps_devStatus

end

/-- Where an operation sets the status to nothing but `d`, an instruction that changes it leaves `d`. -/
theorem devStatus_eq_of_changed {d : DevStatus} {i : Instr} {s t : State} {p : Prog Unit}
    (hp : ∀ R : DevStatus → Prop, R d → p.Keeps fun u => R u.devStatus) (he : exec i s = (p.run s).toOutcome)
    (h : exec i s = .next t) (hne : t.devStatus ≠ s.devStatus) : t.devStatus = d := by
  have ran := keeps_run (hp (fun x => x = s.devStatus ∨ x = d) (.inr rfl)) (s := s) (.inl rfl)
  rw [← state_of_exec he h] at ran
  exact ran.resolve_left hne

/-! ## The status stage -/

/-- From the status `d` and the address `a` deferred, a status stage may have made the device Addressed (R520). -/
def Staged (d : DevStatus) (a : HalfWord) (d' : DevStatus) (a' : HalfWord) : Prop :=
  d' = d ∧ a' = a ∨ a ≠ 0 ∧ d' = .addressed ∧ a' = 0

section
variable {d : DevStatus} {a : HalfWord}

theorem runKeeps_statusStage : statusStage.RunKeeps fun u => Staged d a u.devStatus u.deferred := fun s hs => by
  rw [run_statusStage, state_ok, State.statusDone]
  split
  · exact hs
  · rename_i hne
    obtain ⟨-, hsame⟩ | ⟨-, -, h0⟩ := hs
    · exact .inr ⟨hsame ▸ hne, rfl, rfl⟩
    · exact absurd h0 hne

theorem runKeeps_dataStageIn (c : Context) : (dataStageIn c).RunKeeps fun u => Staged d a u.devStatus u.deferred := by
  refine runKeeps_look fun v => ?_
  split
  · exact ((does_transmit _ _ _ _).andThen does_advanceCursor).keeps_address.runKeeps
  · exact runKeeps_andThen (fun _ hs => hs) runKeeps_statusStage

theorem runKeeps_receptionStage (c : Context) (st : Stage) :
    (receptionStage c st).RunKeeps fun u => Staged d a u.devStatus u.deferred := by
  cases st with
  | none => exact runKeeps_statusStage
  | dataIn => exact runKeeps_dataStageIn c
  | dataOut => exact fun _ hs => hs

theorem runKeeps_transmissionStage (c : Context) (st : Stage) :
    (transmissionStage c st).RunKeeps fun u => Staged d a u.devStatus u.deferred := by
  cases st with
  | none =>
    rw [transmissionStage]
    split
    · exact runKeeps_statusStage
    · exact fun _ hs => hs
  | dataIn => exact runKeeps_dataStageIn c
  | dataOut => exact fun _ hs => hs

end

theorem reception_staged {s t : State} (h : exec .controlOnReceptionComplete s = .next t) :
    Staged s.devStatus s.deferred t.devStatus t.deferred := by
  have he : exec .controlOnReceptionComplete s =
      (((receptionStage s.context s.stage).andThen rearmRx).run s).toOutcome := by
    rw [exec_reception, run_andThen]
    simp only [run_rearmRx]
  rw [state_of_exec he h]
  exact runKeeps_andThen (runKeeps_receptionStage _ _) (does_epRmw _ _ _).keeps_address.runKeeps s (.inl ⟨rfl, rfl⟩)

theorem transmission_staged {s t : State} (h : exec .controlOnTransmissionComplete s = .next t) :
    Staged s.devStatus s.deferred t.devStatus t.deferred := by
  rw [state_of_exec (exec_transmission s) h]
  exact runKeeps_transmissionStage _ _ s (.inl ⟨rfl, rfl⟩)

/-! ## The setup reception -/

/-- What the request in endpoint 0's buffer makes of status and deferred address: only SET_CONFIGURATION changes the
one, only SET_ADDRESS the other (R510, R514). -/
def State.Requested (s : State) (d : DevStatus) (a : HalfWord) : Prop :=
  (d = s.devStatus ∨ d = .configured ∧ s.receivedRequest = .setConfiguration)
    ∧ (a = s.deferred ∨ s.receivedRequest = .setAddress ∧ a = s.receivedPacket.wValue)

theorem keeps_runRequest_address {R : DevStatus → HalfWord → Prop} {q : RequestName} {r : Request}
    (hconfiguration : q = .setConfiguration → ∀ d a, R d a → R .configured a)
    (haddress : q = .setAddress → ∀ d a, R d a → R d r.wValue) (c : Context) :
    (runRequest q r c).Keeps fun u => R u.devStatus u.deferred := by
  cases q with
  | setAddress =>
    exact keeps_andThen (keeps_updating fun _ hs => haddress rfl _ _ hs) (does_transmit _ _ _ _).keeps_address
  | setConfiguration =>
    exact keeps_andThen (keeps_updating fun _ hs => hconfiguration rfl _ _ hs) (does_transmit _ _ _ _).keeps_address
  | getDescriptor => exact (does_getDescriptor r c).keeps_address
  | unrecognised b => exact trivial
  | getStatus | clearFeature | setFeature | setDescriptor | getConfiguration =>
    exact (does_transmit _ _ _ _).keeps_address

theorem receivedPacket_bytes (s : State) :
    ∀ j < 8, s.byte ((s.geom 0).rxAddr.toNat + j) = s.receivedPacket.bytes.getD j 0 := fun j hj => by
  rw [State.receivedPacket, bytes_ofBytes (by simp)]
  simp [hj]

theorem setup_requested {s t : State} (h : exec .controlOnSetupReceptionComplete s = .next t) :
    s.Requested t.devStatus t.deferred := by
  have hold : s.Requested s.devStatus s.deferred := ⟨.inl rfl, .inl rfl⟩
  cases hf : s.blockFault (s.geom 0).rxAddr.toNat 8 (s.ownFaultR (s.geom 0).rxAddr.toNat 8) with
  | some k =>
    rw [exec_setup_fault hf] at h
    cases h
    exact hold
  | none =>
    have hin := le_of_blockFault hf
    have hread := mayRead_iff.mpr ⟨hin, (blockFault_owned hin).symm.trans hf⟩
    have he : exec .controlOnSetupReceptionComplete s =
        (((runRequest s.receivedRequest s.receivedPacket.request s.context).andThen rearmRx).run
          (establishStage s.receivedPacket.request s.setupBegun)).toOutcome := by
      rw [exec_setup_packet hread (receivedPacket_bytes s), run_andThen]
      simp only [run_rearmRx]
      rfl
    rw [state_of_exec he h]
    refine keeps_run (keeps_andThen (keeps_runRequest_address (fun hq d a hda => ?_) (fun hq d a hda => ?_) _)
      (does_epRmw _ _ _).keeps_address) ?_
    · obtain ⟨-, ha⟩ := hda
      exact ⟨.inr ⟨rfl, hq⟩, ha⟩
    · obtain ⟨hd, -⟩ := hda
      exact ⟨hd, .inr ⟨hq, rfl⟩⟩
    · rw [establishStage_setupBegun]
      exact hold

/-! ## The hooks of one dispatch -/

theorem Staged.trans {d d' d'' : DevStatus} {a a' a'' : HalfWord} (h : Staged d a d' a') (h' : Staged d' a' d'' a'') :
    Staged d a d'' a'' := by
  obtain ⟨rfl, rfl⟩ | ⟨hne, rfl, rfl⟩ := h
  · exact h'
  · obtain ⟨rfl, rfl⟩ | ⟨h0, -, -⟩ := h'
    · exact .inr ⟨hne, rfl, rfl⟩
    · exact absurd rfl h0

/-- The address a status stage sets was deferred before, or by the SET_ADDRESS just received (R510, R520). -/
def State.Deferring (s : State) : Prop :=
  s.deferred ≠ 0 ∨ s.receivedRequest = .setAddress ∧ s.receivedPacket.wValue ≠ 0

theorem State.Requested.then_staged {s : State} {d d' : DevStatus} {a a' : HalfWord} (h : s.Requested d a)
    (h' : Staged d a d' a') :
    d' = s.devStatus ∨ d' = .configured ∧ s.receivedRequest = .setConfiguration ∨ d' = .addressed ∧ s.Deferring := by
  obtain ⟨hd, ha⟩ := h
  obtain ⟨rfl, -⟩ | ⟨hne, rfl, -⟩ := h'
  · exact hd.imp_right .inl
  · refine .inr (.inr ⟨rfl, ?_⟩)
    obtain rfl | ⟨hq, rfl⟩ := ha
    · exact .inl hne
    · exact .inr ⟨hq, hne⟩

theorem received_ctrServed (s : State) (n : EpNum) : (s.ctrServed n).receivedPacket = s.receivedPacket
    ∧ (s.ctrServed n).receivedRequest = s.receivedRequest := by
  have hmem : (s.ctrServed n).mem = s.mem := setEprSnap_mem _ _
  have hslots : (s.ctrServed n).slots = s.slots := setEprSnap_slots _ _
  have hparams : (s.ctrServed n).params = s.params := setEprSnap_params _ _
  simp only [State.receivedRequest, State.receivedPacket, State.geom, State.slot, State.byte, hmem, hslots, hparams,
    and_self]

theorem afterHooks_status (s : State) (w : HalfWord) : (s.afterHooks w).devStatus = s.devStatus
    ∨ (s.afterHooks w).devStatus = .configured ∧ s.receivedRequest = .setConfiguration
    ∨ (s.afterHooks w).devStatus = .addressed ∧ s.Deferring := by
  have hstatus : (s.ctrServed (epIdOf w)).devStatus = s.devStatus := setEprSnap_devStatus _ _
  have hdeferred : (s.ctrServed (epIdOf w)).deferred = s.deferred := setEprSnap_deferred _ _
  obtain ⟨hpacket, hrequest⟩ := received_ctrServed s (epIdOf w)
  have hsecond : Staged (s.afterReception w).devStatus (s.afterReception w).deferred (s.afterHooks w).devStatus
      (s.afterHooks w).deferred := by
    have hhook := exec_afterHooks s w
    split at hhook
    · exact transmission_staged hhook
    · rw [hhook]
      exact .inl ⟨rfl, rfl⟩
  have hfirst : s.Requested (s.afterReception w).devStatus (s.afterReception w).deferred
      ∨ Staged s.devStatus s.deferred (s.afterReception w).devStatus (s.afterReception w).deferred := by
    have hhook := exec_receptionHook (s.ctrServed (epIdOf w)) (w.getLsbD 4) (s.eprF (epIdOf w)).setup
    rw [context_ctrServed] at hhook
    dsimp only at hhook
    split at hhook
    · have h := setup_requested hhook
      rw [State.Requested, hstatus, hdeferred, hpacket, hrequest] at h
      exact .inl h
    · split at hhook
      · have h := reception_staged hhook
        rw [hstatus, hdeferred] at h
        exact .inr h
      · refine .inr (.inl ?_)
        rw [State.afterReception, hhook]
        exact ⟨hstatus, hdeferred⟩
  have hold : s.Requested s.devStatus s.deferred := ⟨.inl rfl, .inl rfl⟩
  exact hfirst.elim (fun h => h.then_staged hsecond) fun h => hold.then_staged (h.trans hsecond)

/-! ## The rows that run the control sequencer -/

/-- The status `d` that the row `i` may leave when it runs the hooks of the control sequencer (R514, R520, R600). -/
def State.StatusFrom (s : State) (i : Instr) (d : DevStatus) : Prop :=
  d = s.devStatus ∨ runsSetup i = true ∧ d = .configured ∧ s.receivedRequest = .setConfiguration
    ∨ runsStatus i = true ∧ d = .addressed
      ∧ (s.deferred ≠ 0 ∨ (∃ w, i = .irqCtr w) ∧ s.receivedRequest = .setAddress ∧ s.receivedPacket.wValue ≠ 0)

section
variable {i : Instr} {s t : State}

theorem statusFrom_setup (hi : runsSetup i = true) (h : exec .controlOnSetupReceptionComplete s = .next t) :
    s.StatusFrom i t.devStatus := by
  obtain ⟨hd, -⟩ := setup_requested h
  exact hd.imp_right fun hd => .inl ⟨hi, hd⟩

theorem statusFrom_staged (hi : runsStatus i = true) (h : Staged s.devStatus s.deferred t.devStatus t.deferred) :
    s.StatusFrom i t.devStatus := by
  obtain ⟨hsame, -⟩ | ⟨hne, haddressed, -⟩ := h
  · exact .inl hsame
  · exact .inr (.inr ⟨hi, haddressed, .inl hne⟩)

/-- A CTRD row that answers a state is the control role's hook, or does nothing (R465, R608). -/
theorem exec_ctrRow_cases {k : Hook} (hi : exec i s = ctrRow (fun n c => hook n k c) s) (h : exec i s = .next t) :
    t = s ∨ exec (hookInstr .control k) s = .next t := by
  rw [hi] at h
  cases hn : s.servedEp with
  | none =>
    rw [ctrRow, hn] at h
    cases h
  | some n =>
    rw [ctrRow_served hn] at h
    match hr : s.role n with
    | none =>
      rw [perform_hook_unbound hr] at h
      cases h
      exact .inl rfl
    | some .generic =>
      rw [perform, run_hook_generic (c := s.context) hr] at h
      cases h
      exact .inl rfl
    | some .control =>
      rw [perform_hook hr] at h
      exact .inr h

theorem exec_irqCtr_statusFrom {w : HalfWord} (h : exec (.irqCtr w) s = .next t) :
    s.StatusFrom (.irqCtr w) t.devStatus := by
  cases hb : s.isBound (epIdOf w) with
  | false =>
    rw [exec_irqCtr_unbound hb] at h
    cases h
    exact .inl rfl
  | true =>
    obtain ⟨r, hr⟩ := exists_role_of_isBound hb
    cases r with
    | generic =>
      rw [exec_irqCtr hb, run_ctrHooks_generic (c := s.context) hr] at h
      cases h
      exact .inl (setEprSnap_devStatus _ _)
    | control =>
      rw [exec_irqCtr_control hr] at h
      cases h
      obtain hsame | hconfigured | ⟨haddressed, hdeferring⟩ := afterHooks_status s w
      · exact .inl hsame
      · exact .inr (.inl ⟨rfl, hconfigured⟩)
      · exact .inr (.inr ⟨rfl, haddressed, hdeferring.imp_right fun h => ⟨⟨w, rfl⟩, h⟩⟩)

theorem exec_sequencer_statusFrom (hi : runsSequencer i = true) (h : exec i s = .next t) :
    s.StatusFrom i t.devStatus := by
  cases i with
  | controlOnSetupReceptionComplete => exact statusFrom_setup rfl h
  | controlOnReceptionComplete => exact statusFrom_staged rfl (reception_staged h)
  | controlOnTransmissionComplete => exact statusFrom_staged rfl (transmission_staged h)
  | ctrSetup k =>
    exact (exec_ctrRow_cases (k := .onSetupReceptionComplete) rfl h).elim (fun hs => .inl (hs ▸ rfl))
      (statusFrom_setup rfl)
  | ctrReception k =>
    exact (exec_ctrRow_cases (k := .onReceptionComplete) rfl h).elim (fun hs => .inl (hs ▸ rfl))
      fun hh => statusFrom_staged rfl (reception_staged hh)
  | ctrTransmission k =>
    exact (exec_ctrRow_cases (k := .onTransmissionComplete) rfl h).elim (fun hs => .inl (hs ▸ rfl))
      fun hh => statusFrom_staged rfl (transmission_staged hh)
  | irqCtr w => exact exec_irqCtr_statusFrom h
  | _ => cases hi

end

/-! ## Every row (O57) -/

/-- Settles O57: the rows that have the status in their list are five that set one value, and those that run the
control sequencer. -/
theorem deviceStatusTransitions : Obligations.DeviceStatusTransitions := by
  intro i s t h hne
  obtain ⟨l, hl, hmem⟩ := exec_changed (f := State.devStatus) (M := [.status]) (fun _ _ _ hf => hf.devStatus) h hne
  obtain rfl := List.mem_singleton.mp hl
  cases i with
  | dcInit => exact .inl ⟨rfl, devStatus_eq_of_changed (fun R hR => keeps_dcInit hR s.context) rfl h hne⟩
  | irqReset w =>
    exact .inr (.inl ⟨⟨w, rfl⟩, devStatus_eq_of_changed (fun R hR => keeps_irqReset hR s) rfl h hne⟩)
  | irqSusp w =>
    obtain ⟨hsusp, -⟩ := suspendWakeup s w
    rw [hsusp] at h
    cases h
    exact .inr (.inr (.inl ⟨⟨w, rfl⟩, rfl, rfl⟩))
  | irqWkup w =>
    rw [exec_irqWkup] at h
    split at h <;> cases h
    · exact .inr (.inr (.inr (.inl ⟨⟨w, rfl⟩, ‹_›, rfl⟩)))
    · exact absurd rfl hne
  | setConfiguration r =>
    exact .inr (.inr (.inr (.inr (.inl ⟨⟨r, rfl⟩,
      devStatus_eq_of_changed (fun R hR => keeps_setConfiguration hR s.context) rfl h hne⟩))))
  | controlOnSetupReceptionComplete | controlOnReceptionComplete | controlOnTransmissionComplete | ctrSetup
    | ctrReception | ctrTransmission | irqCtr =>
    obtain hsame | hsetup | hstatus := exec_sequencer_statusFrom rfl h
    · exact absurd hsame hne
    · exact .inr (.inr (.inr (.inr (.inr (.inl hsetup)))))
    · exact .inr (.inr (.inr (.inr (.inr (.inr hstatus)))))
  | _ => simp [State.parts, mem_resetParts, mem_tokenParts, hookParts] at hmem

end Sys2Proof.Machine

/-! # The bus engine (44_bus_engine.md) -/

namespace Sys2Proof.Machine

/-! ## Endpoint match (O44) -/

theorem mem_candidates {s : State} {ep : BitVec 4} {d : Dir} {n : EpNum} :
    n ∈ s.candidates ep d ↔ (s.eprF n).ea = ep ∧ s.dirStat d n ≠ .disabled := by
  simp [State.candidates, mem_allEps]

theorem nodup_candidates (s : State) (ep : BitVec 4) (d : Dir) : (s.candidates ep d).Nodup :=
  List.Nodup.filter _ (by decide : allEps.Nodup)

section
variable {s : State} {addr : BitVec 7} {ep : BitVec 4} {d : Dir}

theorem busMatch_unaddressed (h : ¬ (s.ef = true ∧ addr = s.add)) : s.busMatch addr ep d = .noAnswer :=
  if_neg (by simpa using h)

variable (hef : s.ef = true) (hadd : addr = s.add)
include hef hadd

theorem busMatch_none (h : s.candidates ep d = []) : s.busMatch addr ep d = .noAnswer := by
  simp [State.busMatch, hef, hadd, h]

theorem busMatch_one {n : EpNum} (h : s.candidates ep d = [n]) : s.busMatch addr ep d = .hit n := by
  simp [State.busMatch, hef, hadd, h]

theorem busMatch_more {n m : EpNum} {rest : List EpNum} (h : s.candidates ep d = n :: m :: rest) :
    s.busMatch addr ep d = .duplicate := by
  simp [State.busMatch, hef, hadd, h]

end

/-- Settles O44: the candidates of an addressed token are none, one, or two and more, which are distinct. -/
theorem endpointMatch : Obligations.EndpointMatch := by
  intro s addr ep dir
  simp only [← mem_candidates]
  by_cases ha : s.ef = true ∧ addr = s.add
  · obtain ⟨hef, hadd⟩ := ha
    simp only [hef, hadd, Bool.true_eq_false, ne_eq, not_true_eq_false, false_or, true_and]
    rcases h : s.candidates ep dir with _ | ⟨n, _ | ⟨m, rest⟩⟩
    · simp [busMatch_none hef rfl h]
    · simp [busMatch_one hef rfl h]
    · have hne : n ≠ m := by
        have hnodup := h ▸ nodup_candidates s ep dir
        exact fun heq => by simp [heq] at hnodup
      rw [busMatch_more hef rfl h]
      refine ⟨iff_of_false nofun fun hnone => hnone n (by simp), fun x => iff_of_false nofun ?_,
        iff_of_true rfl ⟨n, m, hne, by simp, by simp⟩⟩
      rintro ⟨-, honly⟩
      exact hne ((honly n (by simp)).trans (honly m (by simp)).symm)
  · rw [busMatch_unaddressed ha]
    refine ⟨iff_of_true rfl ?_, fun n => iff_of_false nofun fun ⟨hef, hadd, _⟩ => ha ⟨hef, hadd⟩,
      iff_of_false nofun fun ⟨hef, hadd, _⟩ => ha ⟨hef, hadd⟩⟩
    by_cases hef : s.ef = true
    · exact .inr (.inl fun hadd => ha ⟨hef, hadd⟩)
    · exact .inl (Bool.eq_false_iff.mpr hef)

/-! ## The events while attached (O43) -/

theorem exec_toInstr (e : BusEvent) (s : State) : exec e.toInstr s = busOutcome e s := by
  cases e <;> rfl

theorem event_of_isBusRow {i : Instr} (h : isBusRow i = true) : ∃ e : BusEvent, e.toInstr = i := by
  cases i with
  | busReset => exact ⟨.reset, rfl⟩
  | busSetup a ep k => exact ⟨.setup a ep k, rfl⟩
  | busOut a ep d => exact ⟨.out a ep d, rfl⟩
  | busIn a ep ack => exact ⟨.tokenIn a ep ack, rfl⟩
  | busSuspend => exact ⟨.suspend, rfl⟩
  | busResume => exact ⟨.resume, rfl⟩
  | _ => cases h

theorem attached_iff {s : State} : s.attached = true ↔ s.clkOn = true ∧ s.pinsAf = true
    ∧ s.bcdr.getLsbD 15 = true ∧ s.cntr.getLsbD 1 = false ∧ s.cntr.getLsbD 0 = false := by
  simp [State.attached, and_assoc]

theorem busOutcome_enabled {e : BusEvent} {s : State} (h : s.busEnabled e = true) :
    busOutcome e s = (busEffect e s).toOutcome := if_pos h

theorem busOutcome_detached {s : State} (h : s.attached = false) (e : BusEvent) :
    busOutcome e s = .fault .busNotEnabled :=
  if_neg (by simp [State.busEnabled, h])

/-- Settles O43: an event that carries no token is enabled as soon as the controller is attached, none before. -/
theorem busResetSuspendResume : Obligations.BusResetSuspendResume := by
  refine fun s => ⟨attached_iff, fun hatt => ?_, fun hdet i hi => ?_⟩
  · have enabled {e : BusEvent} (he : s.busEnabled e = s.attached) : exec e.toInstr s = (busEffect e s).toOutcome :=
      (exec_toInstr e s).trans (busOutcome_enabled (he.trans hatt))
    exact ⟨enabled (e := .reset) (Bool.and_true _), enabled (e := .suspend) (Bool.and_true _),
      enabled (e := .resume) (Bool.and_true _)⟩
  · obtain ⟨e, rfl⟩ := event_of_isBusRow hi
    rw [exec_toInstr, busOutcome_detached hdet]

/-! ## Tokens: what the match alone decides (R651, R659) -/

/-- The shape SETUP, OUT and IN share: `hit` is what the token does on a matched register (R651). -/
def tokenEffect (s : State) (found : TokenMatch) (ep : BitVec 4) (rule : Nat) (hit : EpNum → Res Unit) :
    Res Unit :=
  match found with
  | .noAnswer => .ok () s
  | .duplicate => raise (.eaDuplicate ep) .bus rule s
  | .hit n => hit n

/-- An isochronous match is the one reason for which a token is no step; any other hit runs. -/
theorem exec_token {i : Instr} {e : BusEvent} {s : State} {addr : BitVec 7} {ep : BitVec 4} {d : Dir} {rule : Nat}
    {hit : EpNum → Res Unit} (hexec : exec i s = busOutcome e s) (henabled : s.busEnabled e = !s.isoMatch addr ep d)
    (heffect : busEffect e s = tokenEffect s (s.busMatch addr ep d) ep rule hit) :
    (s.busMatch addr ep d = .noAnswer → exec i s = .next s)
    ∧ (s.busMatch addr ep d = .duplicate → exec i s = .next (s.raise (.eaDuplicate ep) .bus rule))
    ∧ (∀ n, s.busMatch addr ep d = .hit n →
        (s.epType n = .isochronous → exec i s = .fault .busNotEnabled)
        ∧ (s.epType n ≠ .isochronous → exec i s = (hit n).toOutcome)) := by
  rw [hexec, busOutcome, henabled, heffect, State.isoMatch]
  refine ⟨fun h => ?_, fun h => ?_, fun n h => ⟨fun hiso => ?_, fun hiso => ?_⟩⟩ <;> rw [h]
  · rfl
  · rfl
  · simp [hiso]
  · simp [hiso, tokenEffect]

/-! ## Packet memory as a transaction reaches it (R662) -/

theorem busField_inside {s : State} {n : EpNum} (h : s.bdtAddr n .addrTx + 8 ≤ s.params.pmSize) (f : BdtField)
    (rule : Nat) : busField n f rule s = .ok (s.cell (s.bdtAddr n f / 2)) s := by
  have hcode : f.code.toNat < 4 := f.code.isLt
  have hf := bdtAddr_eq s n f
  exact if_neg (by omega)

theorem busWrite_range {s : State} {a : Nat} {d : List Byte} (h : s.params.pmSize < a + d.length) (rule : Nat) :
    busWrite a d rule s = .stop (s.raise (.busPmRange (a + d.length - 1)) .bus rule) := if_pos h

theorem busWrite_inside {s : State} {a : Nat} {d : List Byte} (h : a + d.length ≤ s.params.pmSize) (rule : Nat) :
    busWrite a d rule s = .ok () (s.setBytes a d) := if_neg (by omega)

theorem busRead_range {s : State} {a l : Nat} (h : s.params.pmSize < a + l) (rule : Nat) :
    busRead a l rule s = .stop (s.raise (.busPmRange (a + l - 1)) .bus rule) := if_pos h

theorem busRead_inside {s : State} {a l : Nat} (h : a + l ≤ s.params.pmSize) (rule : Nat) :
    busRead a l rule s = .ok ((List.range l).map fun j => s.byte (a + j)) s :=
  (if_neg (by omega)).trans (by rw [memGetBytes_eq_map]; rfl)

/-! ## Receptions (O45, O46) -/

/-- What SETUP and OUT do with the packet of an endpoint that may receive it (R653, R654): the descriptor's two
fields, the capacity, the store, the count, and the register's fields as `after` has them. -/
def busReceive (n : EpNum) (d : List Byte) (rule : Nat) (after : State → EprFields → EprFields) (s : State) :
    Res Unit :=
  (busField n .addrRx rule s).bind fun a s =>
  (busField n .countRx rule s).bind fun c s =>
  if capacity c < d.length then .ok () s
  else (busWrite a.toNat d rule s).andThen fun s => .ok () ((s.setRxCount n d.length).hwEpr n (after s))

theorem busSetupAt_receives {s : State} {n : EpNum} (htype : s.epType n = .control)
    (hacc : s.params.setupAccept = .unlessDisabled ∨ s.statRx n = .valid) (k : SetupPacket) :
    busSetupAt n k s = busReceive n k.bytes 653 (fun s => afterSetup s.params.setupNaksTx) s := by
  have hstat : ¬ (s.params.setupAccept = .validOnly ∧ s.statRx n ≠ .valid) := by
    rintro ⟨hvalid, hne⟩
    exact hacc.elim (fun h => by simp [h] at hvalid) hne
  exact (if_neg (not_not.mpr htype)).trans (if_neg hstat)

theorem busOutAt_receives {s : State} {n : EpNum} (h : s.statRx n = .valid) (d : List Byte) :
    busOutAt n d s = busReceive n d 654 (fun _ => afterOut) s := if_neg (not_not.mpr h)

section
variable {s : State} {n : EpNum} (hin : s.bdtAddr n .addrTx + 8 ≤ s.params.pmSize) {d : List Byte} (rule : Nat)
  (after : State → EprFields → EprFields)
include hin

theorem busReceive_full (hcap : capacity (s.cell (s.bdtAddr n .countRx / 2)) < d.length) :
    busReceive n d rule after s = .ok () s := by
  rw [busReceive, busField_inside hin, bind_ok, busField_inside hin, bind_ok, if_pos hcap]

theorem busReceive_range (hcap : d.length ≤ capacity (s.cell (s.bdtAddr n .countRx / 2)))
    (hpm : s.params.pmSize < (s.cell (s.bdtAddr n .addrRx / 2)).toNat + d.length) :
    busReceive n d rule after s = .stop (s.raise
      (.busPmRange ((s.cell (s.bdtAddr n .addrRx / 2)).toNat + d.length - 1)) .bus rule) := by
  rw [busReceive, busField_inside hin, bind_ok, busField_inside hin, bind_ok, if_neg (by omega),
    busWrite_range hpm, andThen_stop]

theorem busReceive_stored (hcap : d.length ≤ capacity (s.cell (s.bdtAddr n .countRx / 2)))
    (hpm : (s.cell (s.bdtAddr n .addrRx / 2)).toNat + d.length ≤ s.params.pmSize) :
    busReceive n d rule after s = .ok () (((s.setBytes (s.cell (s.bdtAddr n .addrRx / 2)).toNat d).setRxCount n
      d.length).withEpr n (after (s.setBytes (s.cell (s.bdtAddr n .addrRx / 2)).toNat d))) := by
  rw [busReceive, busField_inside hin, bind_ok, busField_inside hin, bind_ok, if_neg (by omega),
    busWrite_inside hpm, andThen_ok, hwEpr_eq_withEpr]

end

/-- Settles O45: the match decides, then the type, the acceptance parameter, the capacity and the range. -/
theorem busSetupToken : Obligations.BusSetup := by
  intro s addr ep k hatt
  obtain ⟨hmiss, hdup, hhit⟩ := exec_token (i := .busSetup addr ep k) (e := .setup addr ep k) (d := .rx)
    (hit := fun n => busSetupAt n k s) rfl (by simp [State.busEnabled, hatt]) rfl
  refine ⟨hmiss, hdup, fun n h => ?_⟩
  obtain ⟨hiso, hruns⟩ := hhit n h
  refine ⟨hiso, fun htype => ?_, fun htype => ⟨fun hvalid hstat => ?_, fun hacc hin => ?_⟩⟩
  · have hne : s.epType n ≠ .isochronous := by rcases htype with h | h <;> simp [h]
    have hctl : s.epType n ≠ .control := by rcases htype with h | h <;> simp [h]
    rw [hruns hne, busSetupAt, if_pos hctl, toOutcome_ok]
  · rw [hruns (by simp [htype]), busSetupAt, if_neg (not_not.mpr htype), if_pos ⟨hvalid, hstat⟩,
      toOutcome_ok]
  · rw [hruns (by simp [htype]), busSetupAt_receives htype hacc]
    exact ⟨fun hcap => by rw [busReceive_full hin _ _ (d := k.bytes) hcap, toOutcome_ok],
      fun hcap hpm => by rw [busReceive_range hin _ _ (d := k.bytes) hcap hpm, toOutcome_stop]; rfl,
      fun hcap hpm => by rw [busReceive_stored hin _ _ (d := k.bytes) hcap hpm, toOutcome_ok]; rfl⟩

/-- Settles O46: the match decides, then the type, the status, the capacity and the range. -/
theorem busOutToken : Obligations.BusOut := by
  intro s addr ep d hatt hd
  obtain ⟨hmiss, hdup, hhit⟩ := exec_token (i := .busOut addr ep d) (e := .out addr ep d) (d := .rx)
    (hit := fun n => busOutAt n d s) rfl (by simp [State.busEnabled, hatt, hd]) rfl
  refine ⟨hmiss, hdup, fun n h => ?_⟩
  obtain ⟨hiso, hruns⟩ := hhit n h
  refine ⟨hiso, fun htype => ?_⟩
  rw [hruns htype]
  refine ⟨fun hstat => ?_, fun hstat hin => ?_⟩
  · have hne : s.statRx n ≠ .valid := by rcases hstat with h | h <;> simp [h]
    rw [busOutAt, if_pos hne, toOutcome_ok]
  · rw [busOutAt_receives hstat]
    exact ⟨fun hcap => by rw [busReceive_full hin _ _ hcap, toOutcome_ok],
      fun hcap hpm => by rw [busReceive_range hin _ _ hcap hpm, toOutcome_stop],
      fun hcap hpm => by rw [busReceive_stored hin _ _ hcap hpm, toOutcome_ok]; rfl⟩

/-! ## Transmissions (O47) -/

section
variable {s : State} {n : EpNum} (hstat : s.statTx n = .valid) (hin : s.bdtAddr n .addrTx + 8 ≤ s.params.pmSize)
  (ack : Bool)
include hstat hin

theorem busInAt_range (hpm : s.params.pmSize
      < (s.cell (s.bdtAddr n .addrTx / 2)).toNat + rxCount (s.cell (s.bdtAddr n .countTx / 2))) :
    busInAt n ack s = .stop (s.raise (.busPmRange ((s.cell (s.bdtAddr n .addrTx / 2)).toNat
      + rxCount (s.cell (s.bdtAddr n .countTx / 2)) - 1)) .bus 655) := by
  rw [busInAt, if_neg (not_not.mpr hstat), busField_inside hin, bind_ok, busField_inside hin, bind_ok,
    busRead_range hpm, bind_stop]

theorem busInAt_observed (hpm : (s.cell (s.bdtAddr n .addrTx / 2)).toNat
      + rxCount (s.cell (s.bdtAddr n .countTx / 2)) ≤ s.params.pmSize) :
    busInAt n ack s =
      let sent := s.emit (.hostIn n ((List.range (rxCount (s.cell (s.bdtAddr n .countTx / 2)))).map fun j =>
        s.byte ((s.cell (s.bdtAddr n .addrTx / 2)).toNat + j)))
      .ok () (if ack then sent.withEpr n afterIn else sent) := by
  rw [busInAt, if_neg (not_not.mpr hstat), busField_inside hin, bind_ok, busField_inside hin, bind_ok,
    busRead_inside hpm, bind_ok]
  cases ack <;> rfl

end

/-- Settles O47: the match decides, then the type, the status and the range. -/
theorem busInToken : Obligations.BusIn := by
  intro s addr ep ack hatt
  obtain ⟨hmiss, hdup, hhit⟩ := exec_token (i := .busIn addr ep ack) (e := .tokenIn addr ep ack) (d := .tx)
    (hit := fun n => busInAt n ack s) rfl (by simp [State.busEnabled, hatt]) rfl
  refine ⟨hmiss, hdup, fun n h => ?_⟩
  obtain ⟨hiso, hruns⟩ := hhit n h
  refine ⟨hiso, fun htype => ?_⟩
  rw [hruns htype]
  refine ⟨fun hstat => ?_, fun hstat hin => ?_⟩
  · have hne : s.statTx n ≠ .valid := by rcases hstat with h | h <;> simp [h]
    rw [busInAt, if_pos hne, toOutcome_ok]
  · have hcount : _ % 1024 = rxCount (s.cell (s.bdtAddr n .countTx / 2)) := (rxCount_eq _).symm
    rw [hcount]
    exact ⟨fun hpm => by rw [busInAt_range hstat hin ack hpm, toOutcome_stop],
      fun hpm => by rw [busInAt_observed hstat hin ack hpm, toOutcome_ok]; rfl⟩

end Sys2Proof.Machine

/-! # The interrupt line and command admission (60_exceptions.md) -/

namespace Sys2Proof.Machine

/-! ## The interrupt line (O30) -/

/-- ISTR.CTR is set exactly when some endpoint has a flag of its own set (R112). -/
theorem ctr_iff {s : State} : s.ctr = true ↔ ∃ n : EpNum, (s.eprF n).ctrRx = true ∨ (s.eprF n).ctrTx = true := by
  simp [State.ctr, State.pending, mem_allEps]

theorem irqLine_iff {s : State} : s.irqLine = true ↔ s.irqEnabled = true ∧
    ((s.ctr = true ∧ s.cntr.getLsbD 15 = true) ∨ (s.istr.getLsbD 10 = true ∧ s.cntr.getLsbD 10 = true)
      ∨ (s.istr.getLsbD 11 = true ∧ s.cntr.getLsbD 11 = true)
      ∨ (s.istr.getLsbD 12 = true ∧ s.cntr.getLsbD 12 = true)) := by
  simp [State.irqLine, or_assoc]

theorem canDispatch_iff {s : State} :
    s.canDispatch = true ↔ s.irqLine = true ∧ s.core = .idle ∧ s.app = .idle ∧ s.faults = [] := by
  simp [State.canDispatch, and_assoc]

/-- Settles O30: the definitions of R710 and R711, and what the derived flag CTR stands for. -/
theorem interruptLine : Obligations.InterruptLine := by
  refine fun s => ⟨?_, canDispatch_iff⟩
  rw [irqLine_iff, ctr_iff]

/-! ## Command admission (O28) -/

theorem admitInit_eq (s : State) : s.admitInit = s.initRefusal := by
  unfold State.admitInit State.initRefusal
  cases s.initialized <;> rfl

theorem admitBdtWrite_eq (n : EpNum) (s : State) : s.admitBdtWrite n =
    if s.initialized = false then some .notInit else if n = 0 then some .ep0App else none := by
  unfold State.admitBdtWrite
  cases s.initialized <;> rfl

theorem admitEp_eq (n : EpNum) (s : State) : s.admitEp n = s.epRefusal n := by
  unfold State.admitEp State.epRefusal
  cases s.initialized <;> cases s.isBound n <;> rfl

/-- The two reasons for refusing a binding that come before its geometry (R604). -/
theorem admitBinding_of_refused {s : State} {n : EpNum} {t : EpType} {r : RefuseReason}
    (h : (if n = 0 then some .ep0Bound else if t = .control then some .badType else none) = some r)
    (g : Geometry) : s.admitBinding n t g = some r := by
  unfold State.admitBinding
  split_ifs at h ⊢ <;> exact h

/-- A command whose admission check finds a reason is refused with it (R730). -/
theorem exec_refused {i : Instr} {s : State} {refusal : State → Option RefuseReason} {p : Prog Unit}
    {r : RefuseReason} (he : exec i s = ((command refusal p).run s).toOutcome) (hr : refusal s = some r) :
    exec i s = .next (s.refuse r) := by
  rw [he, run_command_some hr, toOutcome_stop]

/-- DC_IRQ while APP runs a command is APP's, and refused (R734; log 17). -/
theorem exec_dcIrq_of_running {s : State} (h : s.app ≠ .idle) : exec .dcIrq s = .next (s.refuse .irqByApp) := by
  have he : exec .dcIrq s = execDcIrq s := rfl
  rw [he, execDcIrq, if_pos h, perform, doDcIrq, run_refuseIf_some rfl, toOutcome_stop]

/-- Settles O28: each command begins with the check that its class of commands has. -/
theorem commandAdmission : Obligations.CommandAdmission := by
  intro i s r h
  cases i with
  | pmReadHw | pmWriteHw | pmReadB | pmWriteB | pmRead | pmWrite | pmClear | bdtRead | dcConnect | dcDisconnect =>
    exact exec_refused rfl ((admitInit_eq s).trans h)
  | epSetAddress n | epSetType n | epSetTxStatus n | epSetRxStatus n | epClearCtr n | epSetBd n | epInitBd n
  | epTransmit n | epReceive n | epGetRxLen n | epReset n | epInit n =>
    exact exec_refused rfl ((admitEp_eq n s).trans h)
  | bdtWrite n => exact exec_refused rfl ((admitBdtWrite_eq n s).trans h)
  | dcSetEndpoint n t g => exact exec_refused rfl (admitBinding_of_refused h g)
  | dcIrq =>
    obtain ⟨happ, hr⟩ := Option.ite_none_left_eq_some.mp h
    obtain rfl := Option.some.inj hr
    exact exec_dcIrq_of_running happ
  | _ => cases h

end Sys2Proof.Machine

/-! # Recovery by a bus reset (R723) -/

namespace Sys2Proof.Machine

/-! ## A whole dispatch, no other step inside -/

/-- Where a dispatch may start, the interrupt entry point is the entry (R606, R711). -/
theorem exec_dcIrq_entry {s : State} (h : s.canDispatch = true) : exec .dcIrq s = .next (takeInterrupt s) :=
  interruptEntry s h

/-- A dispatch that may start comes to its end when nobody else has a turn: at once with ATOMIC_DISPATCH, access by
access without (R240, R711; log 1). -/
theorem steps_dispatch {s t : State} (hp : paramsValid s.params = true) (hturns : s.turns = [])
    (hcan : s.canDispatch = true)
    (h : runRows exec (decodeIstrd s.istrRead) [] (takeInterrupt s) = .next t) (ht : t.faults = []) :
    ∃ k, steps k s = .next t := by
  obtain ⟨-, hcore, happ, hf⟩ := canDispatch_iff.mp hcan
  have hagent : s.defaultAgent = some .core := by
    simp [State.defaultAgent, State.agentEnabled, hcore, hcan]
  have hstep : step s = stepCore exec s := step_of_defaultAgent hp hf hturns hagent
  have hentry := exec_dcIrq_entry hcan
  cases ha : s.params.atomicDispatch with
  | true =>
    rw [stepCore_dispatch hcore ha hentry rfl, h] at hstep
    exact ⟨1, steps_succ hstep 0⟩
  | false =>
    rw [stepCore_entry hcore ha, hentry] at hstep
    obtain ⟨k, v, hk, -, heq⟩ := steps_rows (c := (takeInterrupt s).context) (w := s.istrRead) hp ha
      (decodeIstrd_isHandler s.istrRead) ⟨rfl, hturns, happ, none, rfl⟩ hf h
    exact ⟨k + 1 + 1, by rw [steps_succ hstep, hk, heq ht]⟩

/-- A dispatch of one row exits once that row has run without a fault (R611). -/
theorem runRows_single {i : Instr} {s t : State} (h : exec i s = .next t) (ht : t.faults = []) :
    runRows exec [i] [] s = .next (dispatchExit (t.setRows [] [])) := by
  simp [runRows, finish, thenNext, h, State.faulted, ht]

/-- A latched RESET is served alone (R352, R606). -/
theorem decodeIstrd_reset {w : HalfWord} (h : w.getLsbD 10 = true) : decodeIstrd w = [.irqReset w] := if_pos h

/-- A read of ISTR shows its latches (R110). -/
theorem istrRead_getLsbD_latch (s : State) {k : Nat} (hk : (0x7F80 : HalfWord).getLsbD k = true) :
    s.istrRead.getLsbD k = s.istr.getLsbD k := by
  obtain ⟨hlatches, -⟩ := interruptStatusRead s
  have hbit := congrArg (·.getLsbD k) hlatches
  simpa only [BitVec.getLsbD_and, hk, Bool.and_true] using hbit

/-! ## The bus reset and the state its handler finds -/

/-- The state after a bus reset (R652). -/
def State.afterBusReset (s : State) : State :=
  { s with eprs := Vector.replicate 8 0x0000, daddr := 0x0000, istr := s.istr ||| 0x0400 }

theorem exec_busReset {s : State} (h : s.attached = true) : exec .busReset s = .next s.afterBusReset := by
  obtain ⟨-, hattached, -⟩ := busResetSuspendResume s
  exact (hattached h).1

theorem afterBusReset_latched (s : State) : s.afterBusReset.istr.getLsbD 10 = true := by
  simp [State.afterBusReset]

theorem eprF_afterBusReset (s : State) (n : EpNum) : s.afterBusReset.eprF n = eprFields 0x0000 := by
  simp [State.eprF, State.epr, State.afterBusReset]

/-- The latched RESET asserts the line (R710). -/
theorem canDispatch_afterBusReset {s : State} (hf : s.faults = []) (henabled : s.irqEnabled = true)
    (hmask : s.cntr.getLsbD 10 = true) (hcore : s.core = .idle) (happ : s.app = .idle) :
    s.afterBusReset.canDispatch = true :=
  canDispatch_iff.mpr ⟨irqLine_iff.mpr ⟨henabled, .inr (.inl ⟨afterBusReset_latched s, hmask⟩)⟩, hcore, happ, hf⟩

/-- While attached BTABLE stands at BDT_BASE (R601, R650, R811). -/
theorem btable_of_attached {s : State} (hboot : s.BootOk) (hatt : s.attached = true) :
    s.btable = s.params.bdtBase := by
  obtain ⟨hclk, -⟩ := attached_iff.mp hatt
  obtain ⟨hinit, hbtable⟩ := hboot
  exact hbtable (hinit hclk)

/-- A bus reset disarms every endpoint, so that no commit after it faults (R459, R652). -/
theorem canCommit_afterBusReset {s : State} (hp : paramsValid s.params = true) (hb : s.btable = s.params.bdtBase)
    (n : EpNum) : s.afterBusReset.canCommit n = true := by
  have hin : s.afterBusReset.bdtAddr n .addrTx + 6 + 1 < s.params.pmSize :=
    bdtAddr_lt (s := s.afterBusReset) hp hb n .countRx
  have hfits : s.afterBusReset.bdtAddr n .addrTx + 8 ≤ s.afterBusReset.params.pmSize := hin
  have hdisarmed : s.afterBusReset.statTx n ≠ .valid ∧ s.afterBusReset.statRx n ≠ .valid := by
    rw [State.statTx, State.statRx, eprF_afterBusReset]
    decide
  simp [State.canCommit, hfits, hdisarmed]

/-! ## Recovery (O4) -/

/-- After the resets endpoint 0 is a control endpoint with address 0 that takes a setup packet (R502, R607). -/
theorem eprF_allReset_zero (s : State) : s.allReset.eprF 0 = { s.eprF 0 with
    ea := 0, epType := EpType.control.code, statTx := Stat.nak.code, statRx := Stat.valid.code } := by
  refine (eprF_addressed _ _ 0).trans ?_
  rw [if_neg fun h => (mem_otherEps.mp h).1 rfl]
  exact eprF_zeroReset s

/-- The rest of the control role and of the controller's state after the resets (R502, R607). -/
theorem allReset_controller {s : State} (hs : s.SlotsOk) : s.allReset.stage = .none ∧ s.allReset.cursor = none
    ∧ s.allReset.deferred = 0 ∧ s.allReset.daddr = 0x0080 ∧ s.allReset.faults = s.faults := by
  rw [allReset_eq hs]
  exact ⟨rfl, rfl, rfl, rfl, rfl⟩

/-- The state after the RESET handler (R607). -/
def State.resetHandled (s : State) : State :=
  { s.allReset with trace := s.allReset.trace ++ [.cbReset], devStatus := .default }

/-- The state after a whole dispatch that serves RESET (R606, R607, R611). -/
def State.resetDispatched (s : State) : State := dispatchExit ((takeInterrupt s).resetHandled.setRows [] [])

/-- The dispatch of a latched RESET resets every bound endpoint and exits (R606, R607, R611). -/
theorem runRows_reset {s : State} (hs : s.SlotsOk) (hf : s.faults = []) (hlatched : s.istr.getLsbD 10 = true)
    (h : ∀ n, s.canCommit n = true) :
    runRows exec (decodeIstrd s.istrRead) [] (takeInterrupt s) = .next s.resetDispatched := by
  have hslots : (takeInterrupt s).SlotsOk := hs
  have hhandled : exec (.irqReset s.istrRead) (takeInterrupt s) = .next (takeInterrupt s).resetHandled :=
    exec_irqReset s.istrRead hslots fun n _ => h n
  obtain ⟨-, -, -, -, hfaults⟩ := allReset_controller hslots
  rw [decodeIstrd_reset ((istrRead_getLsbD_latch s rfl).trans hlatched)]
  exact runRows_single hhandled (hfaults.trans hf)

/-- What that dispatch leaves of endpoint 0 is what the resets leave. -/
theorem eprF_resetDispatched (s : State) : s.resetDispatched.eprF 0 = { s.eprF 0 with
    ea := 0, epType := EpType.control.code, statTx := Stat.nak.code, statRx := Stat.valid.code } := by
  have heprs : s.resetDispatched.eprs = (takeInterrupt s).allReset.eprs := setRows_eprs _ _ _
  rw [State.eprF, State.epr, heprs]
  exact eprF_allReset_zero (takeInterrupt s)

theorem resetDispatched_controller {s : State} (hs : s.SlotsOk) (hf : s.faults = []) :
    s.resetDispatched.stage = .none ∧ s.resetDispatched.cursor = none ∧ s.resetDispatched.deferred = 0
      ∧ s.resetDispatched.daddr = 0x0080 ∧ s.resetDispatched.devStatus = .default ∧ s.resetDispatched.core = .idle
      ∧ s.resetDispatched.faults = [] := by
  have hslots : (takeInterrupt s).SlotsOk := hs
  obtain ⟨hstage, hcursor, hdeferred, hdaddr, hfaults⟩ := allReset_controller hslots
  simp [State.resetDispatched, State.resetHandled, hstage, hcursor, hdeferred, hdaddr, hfaults, hf]

/-- Settles O4: a bus reset latches RESET and disarms every endpoint, so that its dispatch starts, serves RESET
alone and faults nowhere; what it leaves of endpoint 0 is what the control role's reset leaves. -/
theorem busResetRecovers : Obligations.BusResetRecovers := by
  intro s hp hf hatt henabled hmask hcore happ hturns hs hboot
  have hrun := runRows_reset (s := s.afterBusReset) hs hf (afterBusReset_latched s)
    (canCommit_afterBusReset hp (btable_of_attached hboot hatt))
  obtain ⟨hstage, hcursor, hdeferred, hdaddr, hstatus, hidle, hfaults⟩ :=
    resetDispatched_controller (s := s.afterBusReset) hs hf
  obtain ⟨k, hk⟩ := steps_dispatch (s := s.afterBusReset) hp hturns
    (canDispatch_afterBusReset hf henabled hmask hcore happ) hrun hfaults
  have hep := eprF_resetDispatched s.afterBusReset
  refine ⟨_, _, k, exec_busReset hatt, hk, ?_, ?_, ?_, ?_, hstage, hcursor, hdeferred, hdaddr, hstatus, hidle,
    hfaults⟩
  · rw [hep]
  · rw [State.statTx, hep]
    rfl
  · rw [State.statRx, hep]
    rfl
  · rw [hep]

end Sys2Proof.Machine

/-! # Power-on (R801) -/

namespace Sys2Proof.Machine

/-- At power-on slot 0 alone is bound (R801). -/
theorem isBound_powerOn {p : Params} {n : EpNum} : (State.powerOn p).isBound n = true ↔ n = 0 := by
  obtain ⟨-, -, -, -, -, -, -, hzero, hothers, -⟩ := powerOnValues p
  refine ⟨fun hb => by_contra fun hn => ?_, ?_⟩
  · rw [State.isBound, hothers n hn] at hb
    cases hb
  · rintro rfl
    rw [State.isBound, hzero]
    rfl

theorem memOk_powerOn (p : Params) : (State.powerOn p).MemOk := ⟨rfl, nofun⟩

theorem reservedZero_powerOn (p : Params) : (State.powerOn p).ReservedZero := by
  obtain ⟨-, histr, -, hcntr, hdaddr, hbtable, hbcdr, -⟩ := powerOnValues p
  simp [State.ReservedZero, histr, hcntr, hdaddr, hbtable, hbcdr]

theorem slotsOk_powerOn (p : Params) : (State.powerOn p).SlotsOk := by
  obtain ⟨-, -, -, -, -, -, -, hzero, hothers, -⟩ := powerOnValues p
  refine ⟨hzero, fun n hn => ?_⟩
  rw [State.role, hothers n hn]
  nofun

/-- The only bound geometry is that of the endpoint-0 parameters (R231, R801). -/
theorem geomsOk_powerOn {p : Params} (hp : paramsValid p = true) : (State.powerOn p).GeomsOk := by
  intro n hn
  obtain rfl := isBound_powerOn.mp hn
  refine geomOk_iff.mpr ⟨?_, fun m hm hb => absurd (isBound_powerOn.mp hb) hm⟩
  simp only [paramsValid, Bool.and_eq_true] at hp
  obtain ⟨-, hvalid⟩ := hp
  exact hvalid

/-- Settles O2: at power-on memory lists nothing, no cursor is pending and no dispatch runs; of the slots only
endpoint 0's is bound. -/
theorem powerOnInvariants : Obligations.PowerOnInvariants := by
  intro p
  exact ⟨memOk_powerOn p, reservedZero_powerOn p, ⟨nofun, nofun⟩, .inl rfl, ⟨nofun, nofun⟩, slotsOk_powerOn p,
    nofun, nofun, geomsOk_powerOn⟩

end Sys2Proof.Machine

/-! # The boot sequence (R801, R810) -/

namespace Sys2Proof.Machine

/-! ## A whole dispatch that serves RESET -/

/-- What the dispatch of a latched RESET leaves (R502, R606, R607, R611). -/
theorem resetDispatched_eq {s : State} (hs : s.SlotsOk) : s.resetDispatched = { s with
    daddr := 0x0080, devStatus := .default, draws := s.draws + 1, eprs := s.resetDispatched.eprs
    istr := istrWrite s.istr 0x0000, mem := s.storeEntries s.mem (allEps.filter s.isBound)
    trace := s.trace ++ (if s.cursor.isSome then [.descDeinit] else []) ++ [.cbReset]
    stage := .none, remaining := 0, cursor := none, deferred := 0
    core := .idle, program := afterDispatch s.program } := by
  have hslots : (takeInterrupt s).SlotsOk := hs
  rw [State.resetDispatched, State.resetHandled, allReset_eq hslots]
  rfl

theorem eprF_commits (s : State) (ns : List EpNum) (n : EpNum) : (s.commits ns).eprF n = s.eprF n := rfl

/-- An unbound endpoint's register stays as the dispatch finds it (R607). -/
theorem eprF_resetDispatched_unbound {s : State} {n : EpNum} (hs : s.SlotsOk) (hb : s.isBound n = false) :
    s.resetDispatched.eprF n = s.eprF n := by
  have hn : n ≠ 0 := by
    rintro rfl
    rw [isBound_zero hs] at hb
    cases hb
  have hnot : n ∉ allEps.tail.filter (takeInterrupt s).isBound := fun h =>
    Bool.eq_false_iff.mp hb (mem_otherEps (s := takeInterrupt s).mp h).2
  have heprs : s.resetDispatched.eprs = (takeInterrupt s).allReset.eprs := setRows_eprs _ _ _
  have heprF : s.resetDispatched.eprF n = (takeInterrupt s).allReset.eprF n := by
    rw [State.eprF, State.epr, heprs]
    rfl
  rw [heprF, State.allReset, eprF_addressed, if_neg hnot, eprF_commits, eprF_zeroReset_of_ne hn]
  rfl

/-- Bytes stored again are there already. -/
theorem memSetBytes_twice {m : List Host.Cell} (h : Memory.wf m = true) (a : Nat) (d : List Byte) :
    memSetBytes (memSetBytes m a d) a d = memSetBytes m a d :=
  memSetBytes_self (memSetBytes_wf h a d) a d (memGetBytes_memSetBytes h a d)

/-- The commit of an entry that is committed already changes nothing (R459). -/
theorem storeEntries_committed {s : State} (h : Memory.wf s.mem = true) (n : EpNum) :
    s.storeEntries (s.committed n).mem [n] = (s.committed n).mem := by
  have hmem : (s.committed n).mem = memSetBytes s.mem (s.bdtAddr n .addrTx) (bdtEntry (s.geom n)) := rfl
  rw [State.storeEntries, List.foldl_cons, List.foldl_nil, hmem, memSetBytes_twice h]

/-! ## Columns 2 and 3: after `init()` and after `connect()` -/

/-- The state after `init()`, from power-on (R601, R801): endpoint 0's entry is the only one committed. -/
def State.inited (p : Params) : State :=
  { (State.powerOn p).cleared.committed 0 with cntr := 0x0002, devStatus := .powered, initialized := true }

/-- The state after `connect()` (R602, R801). -/
def State.connected (p : Params) : State :=
  { State.inited p with cntr := 0x9C00, bcdr := 0x8000, irqEnabled := true, pinsAf := true }

theorem wf_cleared_powerOn (p : Params) : Memory.wf (State.powerOn p).cleared.mem = true := memSetBytes_wf rfl _ _

theorem istr_cleared_powerOn (p : Params) : (State.powerOn p).cleared.istr = 0x0000 :=
  (istrWrite_zero (State.powerOn p).istr).trans BitVec.zero_and

theorem exec_dcInit_powerOn {p : Params} (hp : paramsValid p = true) :
    exec .dcInit (State.powerOn p) = .next (State.inited p) :=
  exec_dcInit hp rfl

theorem inited_eq {p : Params} (hp : paramsValid p = true) : State.inited p = { State.powerOn p with
    cntr := 0x0002, btable := p.bdtBase, devStatus := .powered, initialized := true, clkOn := true
    vdetOn := true, mem := (State.inited p).mem } := by
  have hbtable : (State.powerOn p).cleared.btable = p.bdtBase := cleared_btable hp
  have hdaddr : (State.powerOn p).cleared.daddr = 0x0000 := BitVec.zero_and
  have hcleared := cleared_eq (State.powerOn p)
  rw [hbtable, hdaddr, istr_cleared_powerOn] at hcleared
  rw [State.inited, hcleared]
  rfl

theorem byte_inited {p : Params} (hp : paramsValid p = true) (x : Nat) : (State.inited p).byte x =
    if p.bdtBase.toNat ≤ x ∧ x < p.bdtBase.toNat + 8 then (bdtEntry p.ep0).getD (x - p.bdtBase.toNat) 0 else 0 := by
  have hbtable : (State.powerOn p).cleared.btable = p.bdtBase := cleared_btable hp
  have haddr : (State.powerOn p).cleared.bdtAddr 0 .addrTx = p.bdtBase.toNat := by
    obtain ⟨-, h8, -⟩ := pmSize_bdtBase_of_valid hp
    rw [bdtAddr_eq_div, hbtable]
    exact Nat.mul_div_cancel' (Nat.dvd_of_mod_eq_zero h8)
  have hzero : (State.powerOn p).cleared.byte x = 0 := byte_cleared (memOk_powerOn p) x
  have hstored := byte_setBytes (wf_cleared_powerOn p) p.bdtBase.toNat (bdtEntry p.ep0) x
  rw [hzero, ← haddr] at hstored
  rw [← haddr]
  exact hstored

theorem exec_dcConnect_inited (p : Params) : exec .dcConnect (State.inited p) = .next (State.connected p) := by
  have hcntr : ((State.inited p).cntr &&& 0xFFBD) ||| 0x9C00 = 0x9C00 := by simp [State.inited]
  obtain ⟨hconnect, -⟩ := connectDisconnect (State.inited p) rfl
  rw [hconnect, hcntr]
  rfl

theorem connected_attached (p : Params) : (State.connected p).attached = true := by
  have hbcdr : (0x8000 : HalfWord).getLsbD 15 = true := by decide
  have hcntr : (0x9C00 : HalfWord).getLsbD 1 = false ∧ (0x9C00 : HalfWord).getLsbD 0 = false := by decide
  exact attached_iff.mpr ⟨rfl, rfl, hbcdr, hcntr⟩

/-! ## Column 4: after the bus reset and its dispatch (O3) -/

/-- The state after a bus reset and its whole dispatch (R607, R652, R801). -/
def State.enumerable (p : Params) : State := (State.connected p).afterBusReset.resetDispatched

theorem slotsOk_connected (p : Params) : (State.connected p).afterBusReset.SlotsOk := slotsOk_powerOn p

/-- The dispatch stores again the entry that `init()` stored, and clears the latch that the bus reset set. -/
theorem enumerable_eq (p : Params) : State.enumerable p = { State.connected p with
    eprs := (State.enumerable p).eprs, daddr := 0x0080, devStatus := .default, trace := [.cbReset]
    draws := (State.enumerable p).draws } := by
  have hmem : (State.connected p).afterBusReset.storeEntries (State.connected p).afterBusReset.mem
      (allEps.filter (State.connected p).afterBusReset.isBound) = (State.connected p).mem :=
    storeEntries_committed (wf_cleared_powerOn p) 0
  have hclear : istrWrite (State.connected p).afterBusReset.istr 0x0000 = (State.connected p).istr := by
    have hzero : (State.connected p).istr = 0x0000 := istr_cleared_powerOn p
    have hlatch : (State.connected p).afterBusReset.istr = 0x0000 ||| 0x0400 := congrArg (· ||| 0x0400) hzero
    rw [hlatch, hzero]
    decide
  refine (resetDispatched_eq (slotsOk_connected p)).trans ?_
  rw [hclear, hmem]
  rfl

theorem epr_enumerable_zero (p : Params) : (State.enumerable p).epr 0 = 0x3220 := by
  have hfields := eprF_resetDispatched (State.connected p).afterBusReset
  rw [eprF_afterBusReset] at hfields
  rw [← eprWord_eprFields ((State.enumerable p).epr 0)]
  refine (congrArg eprWord hfields).trans ?_
  decide

theorem epr_enumerable_of_ne (p : Params) {n : EpNum} (hn : n ≠ 0) : (State.enumerable p).epr n = 0x0000 := by
  have hb : (State.connected p).afterBusReset.isBound n = false :=
    Bool.eq_false_iff.mpr fun h => hn (isBound_powerOn.mp h)
  refine (epr_eq_of_eprF (eprF_resetDispatched_unbound (slotsOk_connected p) hb)).trans ?_
  rw [← eprWord_eprFields (State.epr _ n)]
  exact (congrArg eprWord (eprF_afterBusReset _ n)).trans (eprWord_eprFields _)

theorem enumerable_ctr (p : Params) : (State.enumerable p).ctr = false := by
  have hidle (n : EpNum) : (State.enumerable p).pending n = false := by
    rw [State.pending, State.eprF]
    by_cases hn : n = 0
    · rw [hn, epr_enumerable_zero]
      decide
    · rw [epr_enumerable_of_ne p hn]
      decide
  simp [State.ctr, hidle]

theorem steps_enumerable {p : Params} (hp : paramsValid p = true) :
    ∃ k, steps k (State.connected p).afterBusReset = .next (State.enumerable p) := by
  have hcan : (State.connected p).afterBusReset.canDispatch = true :=
    canDispatch_afterBusReset rfl rfl (by decide : (0x9C00 : HalfWord).getLsbD 10 = true) rfl rfl
  have hbtable : (State.connected p).btable = p.bdtBase := cleared_btable (s := State.powerOn p) hp
  have hrun := runRows_reset (slotsOk_connected p) rfl (afterBusReset_latched _) (canCommit_afterBusReset hp hbtable)
  obtain ⟨-, -, -, -, -, -, hfaults⟩ := resetDispatched_controller (slotsOk_connected p) rfl
  exact steps_dispatch (s := (State.connected p).afterBusReset) hp rfl hcan hrun hfaults

/-- Settles O3: DC_INIT commits endpoint 0's entry over cleared memory, and the dispatch of the bus reset, which serves
RESET alone, commits the same entry again and sets up the register of endpoint 0. -/
theorem bootReachesResetTable : Obligations.BootReachesResetTable := by
  intro p hp
  obtain ⟨k, hk⟩ := steps_enumerable hp
  exact ⟨State.inited p, State.connected p, (State.connected p).afterBusReset, State.enumerable p, k,
    exec_dcInit_powerOn hp, inited_eq hp, byte_inited hp, exec_dcConnect_inited p, rfl, connected_attached p,
    exec_busReset (connected_attached p), hk, enumerable_eq p, epr_enumerable_zero p,
    fun n hn => epr_enumerable_of_ne p hn, enumerable_ctr p⟩

end Sys2Proof.Machine

/-! # The lost completion (R820) -/

namespace Sys2Proof.Machine

/-! ## A turn of APP and of BUS -/

/-- APP named by the head of `turns` takes its command on by one access (R240; log 1). -/
theorem step_of_appTurn {s t : State} {ws : List HalfWord} {had : List Answer} {ts : List Agent}
    (hp : paramsValid s.params = true) (ha : s.params.atomicDispatch = false) (hf : s.faults = [])
    (happ : s.app = .running ws had) (ht : s.turns = .app :: ts)
    (h : advanceCommand ws had { s with turns := ts } = t) : step s = .next t := by
  have henabled : s.agentEnabled .app = true := by simp [State.agentEnabled, happ]
  rw [step_of_nextAgent hp hf (nextAgent_of_turn ht henabled), ← h]
  exact stepApp_running happ ha

/-- BUS named by the head of `turns` makes the event at the head of its schedule (R664; log 1). -/
theorem step_of_busTurn {s t : State} {b : List Byte} {bs : List (List Byte)} {e : BusEvent} {ts : List Agent}
    (hp : paramsValid s.params = true) (hf : s.faults = []) (ht : s.turns = .bus :: ts) (hb : s.busIn = b :: bs)
    (hd : decodeBus b = some e) (he : s.busEnabled e = true)
    (h : exec e.toInstr { s with turns := ts, busIn := bs } = .next t) : step s = .next t := by
  have henabled : s.agentEnabled .bus = true := by simp [State.agentEnabled, nextBus_of_enabled hb hd he]
  rw [step_of_nextAgent hp hf (nextAgent_of_turn ht henabled), ← h]
  exact stepBus_of_nextBus (s := { s with turns := ts }) (nextBus_of_enabled hb hd he)

/-! ## The accesses of EP_CLEAR_CTR (R457) -/

/-- The fields after the write of EP_CLEAR_CTR: computed from the value `w` that the command had read, whatever the
register holds by then (R451, R457). -/
def ctrCleared (w : HalfWord) (f : EprFields) : EprFields :=
  f.updated (eprFields w) {} { ctrRx := true, ctrTx := true }

section
variable {s : State} {ws : List HalfWord} {n : EpNum} (hd : decodeCmd s.params ws = .ok (.epClearCtr n))
include hd

theorem advance_epClearCtr_read (hadm : s.epAdmitted n = true) :
    advanceCommand ws [] s = { s with app := .running ws [.read (s.epr n)] } := by
  refine advanceCommand_moved hd ?_
  simp [program, doEpClearCtr, command, refuseIf, Prog.andThen, Prog.bind, Prog.advance, admitEp_none hadm, readEpr,
    reading]

theorem advance_epClearCtr_write (w : HalfWord) : advanceCommand ws [.read w] s =
    { s.withEpr n (ctrCleared w) with app := .running ws [.read w, .wrote] } := by
  have hword : eprSwWrite (s.epr n) (toggleSafeWrite w {} { ctrRx := true, ctrTx := true }) =
      eprWord (ctrCleared w (s.eprF n)) := by
    rw [ctrCleared, State.eprF, ← eprFields_toggleSafe, eprWord_eprFields]
  rw [State.withEpr, ← hword]
  exact advanceCommand_moved hd rfl

theorem advance_epClearCtr_end (hf : s.faults = []) (w : HalfWord) :
    advanceCommand ws [.read w, .wrote] s = { s with app := .idle } := by
  have hend : advanceCommand ws [.read w, .wrote] s = retire s := advanceCommand_ended (r := .ok () s) hd rfl
  rw [hend, retire_eq, retire_idle hf]

end

/-! ## An acknowledged IN (R655) -/

section
variable {s : State} {addr : BitVec 7} {ep : BitVec 4} {n : EpNum} (hatt : s.attached = true)
  (hmatch : s.busMatch addr ep .tx = .hit n) (htype : s.epType n ≠ .isochronous)
include hatt hmatch htype

theorem busEnabled_tokenIn (ack : Bool) : s.busEnabled (.tokenIn addr ep ack) = true := by
  simp [State.busEnabled, State.isoMatch, hatt, hmatch, htype]

/-- The transmission is observed and completes. -/
theorem exec_busIn_acknowledged (hstat : s.statTx n = .valid) (hin : s.bdtAddr n .addrTx + 8 ≤ s.params.pmSize)
    (hpm : (s.cell (s.bdtAddr n .addrTx / 2)).toNat + (s.cell (s.bdtAddr n .countTx / 2)).toNat % 1024
      ≤ s.params.pmSize) :
    ∃ bytes, exec (.busIn addr ep true) s = .next ((s.emit (.hostIn n bytes)).withEpr n afterIn) := by
  obtain ⟨-, -, hhit⟩ := busInToken s addr ep true hatt
  obtain ⟨-, hruns⟩ := hhit n hmatch
  obtain ⟨-, hvalid⟩ := hruns htype
  obtain ⟨-, hobserved⟩ := hvalid hstat hin
  exact ⟨_, hobserved hpm⟩

end

/-! ## The race (O60) -/

/-- The state after the read of EP_CLEAR_CTR, `ts` the turns to come (R457). -/
def State.ctrRead (s : State) (ws : List HalfWord) (n : EpNum) (ts : List Agent) : State :=
  { s with app := .running ws [.read (s.epr n)], turns := ts }

/-- The state after the transmission that falls in between (R655). -/
def State.ctrRaced (s : State) (ws : List HalfWord) (n : EpNum) (bs : List (List Byte)) (bytes : List Byte) : State :=
  (State.emit { s.ctrRead ws n [.app] with busIn := bs } (.hostIn n bytes)).withEpr n afterIn

/-- The state after the write (R457, R820). -/
def State.ctrLost (s : State) (ws : List HalfWord) (n : EpNum) (bs : List (List Byte)) (bytes : List Byte) : State :=
  { State.withEpr { s.ctrRaced ws n bs bytes with turns := [] } n (ctrCleared (s.epr n)) with
    app := .running ws [.read (s.epr n), .wrote] }

theorem eprF_ctrLost (s : State) (ws : List HalfWord) (n : EpNum) (bs : List (List Byte)) (bytes : List Byte) :
    (s.ctrLost ws n bs bytes).eprF n = ctrCleared (s.epr n) (afterIn (s.eprF n)) := by
  refine (eprF_withEpr { s.ctrRaced ws n bs bytes with turns := [] } n n _).trans ?_
  rw [if_pos rfl]
  refine congrArg _ ((eprF_withEpr _ n n afterIn).trans ?_)
  rw [if_pos rfl]
  rfl

/-- The fields that a transmission completed between the read and the write of EP_CLEAR_CTR is left with: CTR_TX is
cleared with the rest, and no status is toggled (R451, R457, R820). -/
theorem ctrCleared_afterIn (w : HalfWord) (f : EprFields) :
    (ctrCleared w (afterIn f)).ctrTx = false ∧ (ctrCleared w (afterIn f)).statTx = Stat.nak.code := by
  simp [ctrCleared, EprFields.updated, afterIn]

/-- Settles O60: of the four steps the second completes the transmission, and the third writes what was computed from
the read before it. -/
theorem lostCompletion : Obligations.LostCompletion := by
  intro s ws n b bs addr ep hp ha hf hcore happ hd hturns hadm hatt hbus hdb hmatch htype hstat hin hpm
  have hread : step s = .next (s.ctrRead ws n [.bus, .app]) :=
    step_of_appTurn hp ha hf happ hturns (advance_epClearCtr_read (s := { s with turns := _ }) hd hadm)
  obtain ⟨bytes, hexec⟩ := exec_busIn_acknowledged (s := { s.ctrRead ws n [.app] with busIn := bs }) hatt hmatch
    htype hstat hin hpm
  have hcompletes : step (s.ctrRead ws n [.bus, .app]) = .next (s.ctrRaced ws n bs bytes) :=
    step_of_busTurn hp hf rfl hbus hdb (busEnabled_tokenIn hatt hmatch htype true) hexec
  have hwrite : step (s.ctrRaced ws n bs bytes) = .next (s.ctrLost ws n bs bytes) :=
    step_of_appTurn hp ha hf rfl rfl
      (advance_epClearCtr_write (s := { s.ctrRaced ws n bs bytes with turns := [] }) hd (s.epr n))
  have hend : step (s.ctrLost ws n bs bytes) = .next { s.ctrLost ws n bs bytes with app := .idle } := by
    rw [Running.step_eq (u := s.ctrLost ws n bs bytes) ⟨rfl, rfl, hcore, rfl⟩ hp ha hf]
    exact congrArg _ (advance_epClearCtr_end (s := s.ctrLost ws n bs bytes) hd hf (s.epr n))
  obtain ⟨hctr, hstat⟩ := ctrCleared_afterIn (s.epr n) (s.eprF n)
  rw [← eprF_ctrLost s ws n bs bytes] at hctr hstat
  refine ⟨{ s.ctrLost ws n bs bytes with app := .idle }, bytes, ?_, rfl, ?_, hctr, rfl, rfl⟩
  · rw [steps_succ hread, steps_succ hcompletes, steps_succ hwrite, steps_succ hend, steps]
  · exact (congrArg Stat.ofCode hstat).trans (stat_ofCode_code .nak)

end Sys2Proof.Machine
